-- ==== Sys2Proof/Word.lean ====
section
/-!
DEFINITION. The word types of the model and the one sparse table type: what the manual counts in bits is a
`BitVec`, and a large array of like things is a list of (index, value) pairs in one canonical form, indices
strictly rising and no value equal to the array's default.
-/
namespace Sys2Proof

/-- One byte of memory or of a message. -/
abbrev Byte := BitVec 8

/-- A register of a thread or a group (R205). -/
abbrev W32 := BitVec 32

/-- A set-up register (R13), a descriptor word or a fence value. -/
abbrev W64 := BitVec 64

/-- A sparse array: the cells that differ from the array's default, indices strictly rising. -/
abbrev Tbl (α : Type) := List (Nat × α)

end Sys2Proof
end

