-- ==== Sys2Proof/Syntax.lean ====
section
/-!
DEFINITION. The commands the block takes: one constructor of `Instr` for every row of spec/opcode_table.json,
with the row's operands. A Tvedfit instruction is a command that names the sub-core that issues it and carries
the fields of its word (R212, R230); a set-up command carries the 64-bit word the host writes; an internal event
names the unit it happens in; a message carries the message. What the manual leaves to the world outside the
module (a hardware error met by a read, the bytes the host answers, a sensor's reading, an order that no rule
fixes) is an operand too.
-/
namespace Sys2Proof

abbrev CoreId := Fin 256
abbrev SubId := Fin 4
abbrev SlotId := Fin 16
abbrev LaneId := Fin 32
abbrev SlabId := Fin 4
abbrev EngId := Fin 4
abbrev ClusterId := Fin 16
abbrev DieId := Fin 4
abbrev ChanId := Fin 256
abbrev StackId := Fin 16
abbrev SagId := Fin 16
abbrev RingId := Fin 1024
abbrev PortId := Fin 6
abbrev ConeId := Fin 4096
abbrev LinkEngId := Fin 12
abbrev CopyEngId := Fin 16
abbrev FenceId := Fin 65536
abbrev BridgeId := Fin 14

/-- A 128 B line of device memory: physical channel in bits 32:25, channel offset / 128 in bits 24:0 (R132, R241). -/
abbrev LineId := BitVec 33

/-- An error of one symbol of a burst: its DQ lane (0 to 143; 144 to 151 are the further check bytes of strong ECC, four of
each codeword) and the bits that are wrong (R139, R140). -/
structure SymErr where
  lane : Fin 152
  mask : Byte
deriving DecidableEq, Repr

/-- What the hardware meets while a command accesses one line: symbol errors that have arisen in the burst in its bank, and ones
of the interface alone (R139 to R143), CA parity errors (R151), single errors corrected in L2 words and filter entries, an
uncorrectable L2 data word (R264), dies whose filter entry of the line's slot reads with an uncorrectable error, and the place of
such an entry in the host filter's set (R254); `stale` says that the request carries the key tag of the epoch before (R147). -/
structure LineEnv where
  bank : List SymErr
  bus : List SymErr
  parity : Nat
  l2Fixed : Nat
  l2Bad : Bool
  filtBad : List DieId
  hostBad : Option (Fin 16)
  stale : Bool
deriving DecidableEq, Repr

/-- What the hardware meets while a command reads or writes memory: single errors corrected in core SRAM, whether an
uncorrectable one appears there and at which local-store address (R107, R117), an uncorrectable L1 line, an uncorrectable tag
error of an L2 slice and the line of the lookup that met it (R264), and what each line accessed meets, in order. -/
structure MemEnv where
  sramFixed : Nat
  sramBad : Bool
  sramAt : Nat
  l1Bad : Bool
  tagBad : Option LineId
  line : LineEnv
  more : List LineEnv
deriving DecidableEq, Repr

/-- What the host answers to the reads of host memory a command makes: its bytes in order of address, or a failure
(status DATA, REFUSED or UNSUPPORTED, or a timeout, R409). -/
structure HostAns where
  bytes : List Byte
  fail : Bool
deriving DecidableEq, Repr

/-- What an instruction fetch that misses the instruction cache meets (R239): the errors of device memory, or the host's answer. -/
structure FetchEnv where
  env : MemEnv
  host : HostAns
deriving DecidableEq, Repr

/-- A line read and written without an error. -/
def cleanLine : LineEnv := ⟨[], [], 0, 0, false, [], none, false⟩

/-- No error. -/
def noErr : MemEnv := ⟨0, false, 0, false, none, cleanLine, []⟩

/-- The sub-core that issues an instruction (R18), and what a fetch of it meets; an event of the sub-core fetches nothing. -/
structure Place where
  core : CoreId
  sub : SubId
  fetch : FetchEnv := ⟨noErr, ⟨[], false⟩⟩
deriving DecidableEq, Repr

/-- Format G (Table 08-4), with bits 127:64 of the long form (R213). -/
structure FmtG where
  pn : Bool
  pg : Fin 8
  d : BitVec 9
  a : BitVec 9
  b : BitVec 9
  c : BitVec 9
  mod : BitVec 16
  ext : W64
deriving DecidableEq, Repr

/-- Format M (Table 08-4). -/
structure FmtM where
  pn : Bool
  pg : Fin 8
  d : BitVec 9
  a : BitVec 9
  b : BitVec 9
  sz : BitVec 3
  sx : Bool
  hint : BitVec 2
  aop : BitVec 4
  ofs : BitVec 15
deriving DecidableEq, Repr

/-- Format J (Table 08-4); `rsv` is bit 32. -/
structure FmtJ where
  pn : Bool
  pg : Fin 8
  d : BitVec 9
  a : BitVec 9
  t : Bool
  rsv : Bool
  ofs : BitVec 32
deriving DecidableEq, Repr

/-- Format S (Table 08-11); `umeta` is bits 27:22, `rsv` is bit 0. -/
structure FmtS where
  s : SlabId
  ac : Fin 4
  ua : Fin 64
  ub : Fin 64
  usa : Fin 64
  usb : Fin 64
  umeta : BitVec 6
  fa : BitVec 4
  fb : BitVec 4
  kd : BitVec 7
  z : Bool
  crv : Bool
  cre : Fin 4
  crq : Fin 4
  rsv : Bool
deriving DecidableEq, Repr

/-- Format T (Table 08-11); `rsv` is bits 26:0. -/
structure FmtT where
  s : SlabId
  ac : Fin 4
  ud : Fin 64
  uscale : Fin 64
  scl : Bool
  ofmt : BitVec 3
  itype : Bool
  rows : BitVec 4
  sat : Bool
  sr : Bool
  clr : Bool
  rel : Bool
  rsv : BitVec 27
deriving DecidableEq, Repr

/-- How far a command of a command port has come when the next command of the queue is taken: still being checked
(BUSY reads 1), its long steps still running, or ended (R320, R365, R381, R432). -/
inductive Pace where
  | checking
  | running
  | ended
deriving DecidableEq, Repr

/-- A resource a real-time ring reserves (R310). -/
inductive RtRes where
  | core (c : CoreId)
  | copy (e : CopyEngId)
deriving DecidableEq, Repr

/-- What starts an in-service retrain (R151): corrections on a DQ lane, or CA parity errors on a CA lane. -/
inductive RetrainCause where
  | dq (lane : Fin 144)
  | ca (lane : Fin 18)
deriving DecidableEq, Repr

/-- Why a link lane is swapped (R341, R401): its FEC corrections reached the threshold, or it lost lock. -/
inductive SwapCause where
  | threshold
  | lossOfLock
deriving DecidableEq, Repr

/-- What a traffic-generator run has found when it ends or is aborted (R159 to R161): mismatching bursts with the place of the first,
the bursts in which READ_ECC met errors with what it met, and what READ_BW measured. -/
structure TgResult where
  mismatches : Nat
  firstOffset : BitVec 32
  firstLane : BitVec 8
  bursts : List (BitVec 25 × LineEnv)
  blocks : BitVec 24
  elapsed : BitVec 32
deriving DecidableEq, Repr

/-- Requester class of an L2 access, for the way masks (R247). -/
inductive ReqClass where
  | core
  | ae
  | engine
deriving DecidableEq, Repr

/-- The sources of home requests (R250): a compute die, H, or an edge die. -/
inductive ReqSrc where
  | die (d : DieId)
  | hub
  | edge (e : Fin 2)
deriving DecidableEq, Repr

/-- Who answers a snoop (Table 09-3). -/
inductive SnoopFrom where
  | die (d : DieId)
  | host
deriving DecidableEq, Repr

/-- The operation of an ATOM (Table 08-8). -/
inductive AtomOp where
  | add | fadd | smin | smax | umin | umax | and | or | xor | exch | cas
deriving DecidableEq, Repr

/-- A far atomic at its home (R257, R258): the byte offset of the word in its line, 4 or 8 bytes, the operands in
the order in which they are applied, and for CAS the compare value of each. -/
structure FarAtom where
  op : AtomOp
  ofs : Fin 128
  wide : Bool
  operands : List (W64 × W64)
deriving DecidableEq, Repr

/-- A coordinate of the torus (R345): X 5:0, Y 11:6, Z 17:12. -/
abbrev Coord := BitVec 18

/-- The identity a port receives in training step 5 (R343). -/
structure PeerId where
  vendor : BitVec 16
  part : BitVec 16
  rack : BitVec 32
  slot : BitVec 6
  port : BitVec 3
  coord : Coord
deriving DecidableEq, Repr

/-- What the wires did during a port's training (R342, R343): the step that timed out, if one did, the receive
lanes that failed the lane test, and the identity received, if one was. -/
structure PortTrain where
  timeoutStep : Option (Fin 6)
  badLanes : Nat
  peer : Option PeerId
deriving DecidableEq, Repr

/-- A Xator packet as a link carries it (Table 13-4): its payload is the ciphertext of R351, and `tag` the 16 B of TAG. `resBad` says
that a reserved bit of the header is set. -/
structure Packet where
  ptype : BitVec 8
  partition : SagId
  epoch : BitVec 4
  dst : Coord
  src : Coord
  lenM1 : BitVec 11
  ctr : ConeId
  accEtype : BitVec 5
  vc : BitVec 3
  reason : BitVec 8
  tracker : BitVec 13
  dstAddr : BitVec 48
  seq : W64
  payload : List Byte
  tag : List Byte
  resBad : Bool
deriving DecidableEq, Repr

/-- A flit of a bridge as its receiver sees it (R244): whether its CRC holds, its sequence number, the sequence number it
acknowledges, and whether it asks for a replay of that one. -/
structure Flit where
  crcOk : Bool
  seq : BitVec 12
  acked : BitVec 12
  replay : Bool
deriving DecidableEq, Repr

/-- The header of a message of the host (Table 16-3) that the device takes, less its OP. `malformed` says that a
reserved field is not 0. -/
structure HostMsg where
  tag : BitVec 11
  addr : BitVec 52
  malformed : Bool
deriving DecidableEq, Repr

/-- What a channel's initial training meets (R149, R150): the step that times out, if one does, and the lanes with bit errors in the
2^20 bits of the lane tests of steps 2 and 4. -/
structure ChanTrain where
  ch : ChanId
  timeout : Option (Fin 6)
  caErrs : List (Fin 18 × Nat)
  dqErrs : List (Fin 144 × Nat)
deriving DecidableEq, Repr

/-- What start-up meets (R454 to R462): for each flash slot the reason it is not valid (0: valid), the service
control cores that write no heartbeat, a bridge that fails, whether the repair table reads, the cores that fail
their self-test, the channels whose training meets something, the Derset step that times out, its lanes that fail
the lane test (receive and transmit), and what the host grants in each class of Table 16-2, in units of 16 B. -/
structure StartEnv where
  slotFault0 : BitVec 8
  slotFault1 : BitVec 8
  headerBad0 : Bool
  headerBad1 : Bool
  sccDead : BitVec 4
  bridgeDead : Option BridgeId
  repairReads : Bool
  coreFails : List CoreId
  chans : List ChanTrain
  dersetFail : Option (Fin 5)
  dersetBad : Nat × Nat
  dersetGrant : List Nat
deriving DecidableEq, Repr

/-- One command of the block. -/
inductive Instr where
  -- Tvedfit ALU instructions (R215, R216)
  | nop (p : Place) (f : FmtG)
  | iadd (p : Place) (f : FmtG)
  | isub (p : Place) (f : FmtG)
  | imul (p : Place) (f : FmtG)
  | imulhi (p : Place) (f : FmtG)
  | imad (p : Place) (f : FmtG)
  | iaddW (p : Place) (f : FmtG)
  | imin (p : Place) (f : FmtG)
  | imax (p : Place) (f : FmtG)
  | and (p : Place) (f : FmtG)
  | or (p : Place) (f : FmtG)
  | xor (p : Place) (f : FmtG)
  | shl (p : Place) (f : FmtG)
  | shr (p : Place) (f : FmtG)
  | popc (p : Place) (f : FmtG)
  | clz (p : Place) (f : FmtG)
  | brev (p : Place) (f : FmtG)
  | isetp (p : Place) (f : FmtG)
  | fadd (p : Place) (f : FmtG)
  | fmul (p : Place) (f : FmtG)
  | ffma (p : Place) (f : FmtG)
  | fmin (p : Place) (f : FmtG)
  | fmax (p : Place) (f : FmtG)
  | frcp (p : Place) (f : FmtG)
  | frsq (p : Place) (f : FmtG)
  | fex2 (p : Place) (f : FmtG)
  | flg2 (p : Place) (f : FmtG)
  | fsetp (p : Place) (f : FmtG)
  | cvt (p : Place) (f : FmtG)
  | mov (p : Place) (f : FmtG)
  | sel (p : Place) (f : FmtG)
  | plop (p : Place) (f : FmtG)
  -- loads, stores, atomics (R217 to R224)
  | ldL (p : Place) (f : FmtM) (env : MemEnv)
  | stL (p : Place) (f : FmtM)
  | ldG (p : Place) (f : FmtM) (env : MemEnv)
  | stG (p : Place) (f : FmtM)
  | ldx (p : Place) (f : FmtM)
  | stx (p : Place) (f : FmtM)
  | atomAdd (p : Place) (f : FmtM)
  | atomFadd (p : Place) (f : FmtM)
  | atomSmin (p : Place) (f : FmtM)
  | atomSmax (p : Place) (f : FmtM)
  | atomUmin (p : Place) (f : FmtM)
  | atomUmax (p : Place) (f : FmtM)
  | atomAnd (p : Place) (f : FmtM)
  | atomOr (p : Place) (f : FmtM)
  | atomXor (p : Place) (f : FmtM)
  | atomExch (p : Place) (f : FmtM)
  | atomCas (p : Place) (f : FmtM)
  -- fences, barrier, collectives (R226 to R229)
  | fenceBlock (p : Place) (f : FmtG)
  | fenceDevice (p : Place) (f : FmtG)
  | fenceSys (p : Place) (f : FmtG)
  | barBlock (p : Place) (f : FmtG)
  | voteAll (p : Place) (f : FmtG)
  | voteAny (p : Place) (f : FmtG)
  | voteBallot (p : Place) (f : FmtG)
  | voteCount (p : Place) (f : FmtG)
  | shflIdx (p : Place) (f : FmtG)
  | shflUp (p : Place) (f : FmtG)
  | shflDown (p : Place) (f : FmtG)
  | shflXor (p : Place) (f : FmtG)
  -- slab instructions (R230)
  | slabMma (p : Place) (f : FmtS)
  | slabMmas (p : Place) (f : FmtS)
  | slabSq16 (p : Place) (f : FmtS)
  | slabSq32 (p : Place) (f : FmtS)
  | slabZero (p : Place) (f : FmtS)
  | slabSt (p : Place) (f : FmtT)
  -- engine instructions (R231 to R233)
  | tokWait (p : Place) (f : FmtG)
  | tokPost (p : Place) (f : FmtG)
  | tokPostArm (p : Place) (f : FmtG) (env : MemEnv)
  | tokPostStop (p : Place) (f : FmtG)
  | coneWait (p : Place) (f : FmtG)
  | nmIssue (p : Place) (f : FmtG)
  -- control flow (R234, R235)
  | bra (p : Place) (f : FmtJ)
  | call (p : Place) (f : FmtJ)
  | ret (p : Place) (f : FmtJ)
  | exit (p : Place) (f : FmtJ)
  | yield (p : Place) (f : FmtJ)
  -- events of the sub-core scheduler and the cluster sequencers
  | groupPromotion (p : Place)
  | rotation (p : Place)
  | starvingSubset (p : Place)
  | activityRamp (c : CoreId) (sl : SlabId)
  | blockDispatch
  | blockAdmission (g : ClusterId)
  | blockRetire (c : CoreId) (b : SlotId)
  | coreSplitChange (c : CoreId) (split : Fin 12)
  | rtReservationEffect (r : RtRes)
  | slabLeaseGrant (c : CoreId)
  | slabQueueEnter (c : CoreId) (sl : SlabId)
  | slabComputeStart (c : CoreId) (sl : SlabId) (env : MemEnv)
  | slabComputeComplete (c : CoreId) (sl : SlabId)
  | slabStReadStart (c : CoreId) (sl : SlabId)
  | slabStComplete (c : CoreId) (sl : SlabId)
  -- events of the core SRAM, access engines and store buffers
  | l1Fill (c : CoreId) (n : Nat) (env : MemEnv)
  | aeSpanIssue (c : CoreId) (e : EngId) (env : MemEnv)
  | aeSpanComplete (c : CoreId) (e : EngId) (n : Nat) (env : MemEnv)
  | streamStopComplete (c : CoreId) (e : EngId) (q : Fin 64)
  | storeBufferAllocate (p : Place)
  | storeBufferDrain (p : Place) (env : MemEnv)
  | fenceComplete (p : Place) (g : SlotId) (l : LaneId)
  | atomicPerform (p : Place) (g : SlotId) (l : LaneId) (order : List LaneId) (env : MemEnv)
  -- events of the memory stacks
  | inServiceRetrain (ch : ChanId) (cause : RetrainCause)
  | rowRemap (ch : ChanId) (bank : Fin 64) (row : Fin 32768)
  | patrolScrub (l : LineId) (env : MemEnv)
  | refresh (ch : ChanId) (bank : Fin 64)
  | stackSensorSample (st : StackId) (readings : List (BitVec 16))
  | oldKeySlotErase (ch : ChanId)
  | msChCfgWrite (ch : ChanId) (be : BitVec 8) (w : W64)
  | tgStart (ch : ChanId)
  | tgAbort (ch : ChanId) (r : TgResult)
  | tgRunComplete (ch : ChanId) (r : TgResult)
  -- near-memory entries and events
  | matvec (n : RingId)
  | gather (n : RingId)
  | scatter (n : RingId)
  | reduce (n : RingId)
  | clean (n : RingId)
  | nmAdmission (st : StackId)
  | vectorSetFetch (st : StackId) (env : MemEnv)
  | vectorSetBroadcast (st : StackId)
  | nmPartComplete (st : StackId) (op : Nat) (ch : ChanId) (order : List ChanId) (env : MemEnv)
  | nmOpComplete (op : Nat)
  | accumulateUpdate (st : StackId) (env : MemEnv)
  -- codec entries and event
  | encode (n : RingId)
  | decode (n : RingId)
  | exportOp (n : RingId)
  | importOp (n : RingId)
  | histogram (n : RingId)
  | install (n : RingId)
  | codecOpComplete (op : Nat) (homes : Nat) (env : MemEnv)
  -- coherence messages and events (Table 09-3)
  | readShared (d : DieId) (l : LineId) (cls : ReqClass) (hint : BitVec 2) (env : MemEnv)
  | readUnique (d : DieId) (l : LineId) (cls : ReqClass) (hint : BitVec 2) (env : MemEnv)
  | upgrade (d : DieId) (l : LineId) (env : MemEnv)
  | readNa (src : ReqSrc) (l : LineId) (env : MemEnv)
  | writeNa (src : ReqSrc) (l : LineId) (mask : BitVec 128) (data : List Byte) (env : MemEnv)
  | atomFar (d : DieId) (l : LineId) (a : FarAtom) (env : MemEnv)
  | ldxFar (d : DieId) (l : LineId) (ofs : Fin 128) (wide : Bool) (env : MemEnv)
  | stxFar (d : DieId) (l : LineId) (ofs : Fin 128) (wide : Bool) (v : W64) (env : MemEnv)
  | homeClean (op : Nat) (lines : Nat) (env : MemEnv)
  | homeTransactionStart (l : LineId) (env : MemEnv)
  | snpShared (d : DieId) (l : LineId) (env : MemEnv)
  | snpInvalidate (d : DieId) (l : LineId) (env : MemEnv)
  | snpClean (d : DieId) (l : LineId) (env : MemEnv)
  | rsvKill (d : DieId) (l : LineId)
  | dataS (src : ReqSrc) (l : LineId)
  | dataE (d : DieId) (l : LineId)
  | dataM (d : DieId) (l : LineId)
  | grant (src : ReqSrc) (l : LineId)
  | snpData (from_ : SnoopFrom) (l : LineId) (env : MemEnv)
  | snpAck (from_ : SnoopFrom) (l : LineId) (env : MemEnv)
  | notPresent (from_ : SnoopFrom) (l : LineId) (env : MemEnv)
  | writeBack (d : DieId) (l : LineId) (env : MemEnv)
  | result (d : DieId) (l : LineId)
  | holdTimeExpiry (l : LineId)
  | bridgeFlit (b : BridgeId) (f : Flit)
  | bridgeClassSilent (b : BridgeId) (cls : Fin 3)
  | snoopTimeout (l : LineId)
  -- rings and the front end
  | enable (n : RingId)
  | resume (n : RingId)
  | queueDestruction (n : RingId)
  | graceExpiry (n : RingId)
  | destructionComplete (n : RingId)
  | dbTailWrite (n : RingId) (be : BitVec 8) (w : W64)
  | fetchTurn
  | nopEntry (n : RingId)
  | launch (n : RingId) (h : HostAns) (env : MemEnv)
  | copy (n : RingId)
  | fill (n : RingId)
  | sealedLoad (n : RingId)
  | copyComplete (e : CopyEngId) (env : MemEnv)
  | link (n : RingId)
  | signal (n : RingId)
  | wait (n : RingId)
  | waitEvaluation (id : Nat)
  | waitTimeout (id : Nat)
  | graph (n : RingId)
  | patch (n : RingId) (h : HostAns) (env : MemEnv)
  | bind (n : RingId) (h : HostAns) (env : MemEnv)
  | unbind (n : RingId)
  | graphNodeFetch (id : Nat) (node : Nat) (h : HostAns) (env : MemEnv)
  | graphLaunchComplete (id : Nat)
  | graphPinRelease (id : Nat)
  | entryStart (n : RingId)
  | launchComplete (id : Nat)
  | retiredAdvance (n : RingId)
  -- the object command port, fences and the fault record
  | ctxOpen (w : W64) (pace : Pace)
  | ctxClose (w : W64) (pace : Pace)
  | ctxQuery (w : W64) (pace : Pace)
  | objCreate (w : W64) (pace : Pace)
  | objFree (w : W64) (pace : Pace)
  | objQuery (w : W64) (pace : Pace)
  | fenceAlloc (w : W64) (pace : Pace)
  | fenceFree (w : W64) (pace : Pace)
  | fenceGrant (w : W64) (pace : Pace)
  | fenceRevoke (w : W64) (pace : Pace)
  | objectDrained (o : FenceId)
  | objectScrubComplete (o : FenceId)
  | fencePageDrained (pg : Fin 512)
  | faultRecordClear (be : BitVec 8) (w : W64)
  | fncSignal (f : FenceId) (be : BitVec 8) (w : W64)
  -- Xator ports, slices, counters and packets
  | xlFlitReceive (n : PortId) (bs : List Byte)
  | xlLaneSwap (n : PortId) (lane : Fin 34) (cause : SwapCause)
  | xlPortTrain (n : PortId) (t : PortTrain)
  | xlTrainStepTimeout (n : PortId) (step : Fin 6)
  | xlPortRetire (n : PortId)
  | xlPlanWrite (n : PortId) (be : BitVec 8) (w : W64) (t : PortTrain)
  | xlTopoWrite (be : BitVec 8) (w : W64)
  | xlSliceWrite (k : SagId) (be : BitVec 8) (w : W64)
  | xlSliceStatusStop (k : SagId)
  | xlConeWrite (n : ConeId) (be : BitVec 8) (w : W64)
  | write (n : PortId) (pk : Packet) (env : MemEnv)
  | writeAcc (n : PortId) (pk : Packet) (env : MemEnv)
  | remoteSignalPacket (n : PortId) (pk : Packet)
  | ack (n : PortId) (pk : Packet)
  | nack (n : PortId) (pk : Packet)
  | throughPacket (n : PortId) (pk : Packet)
  | sliceStop (n : PortId) (sliceId : BitVec 16) (origin : Coord) (cause : BitVec 2)
  | linkPacketSend (e : LinkEngId) (h : HostAns) (env : MemEnv)
  | linkPacketTimeout (e : LinkEngId) (t : Fin 512)
  | coneWaitWake (n : ConeId)
  -- partition commands
  | create (w : W64) (pace : Pace)
  | sealCmd (w : W64) (pace : Pace)
  | reset (w : W64) (pace : Pace)
  | destroy (w : W64) (pace : Pace)
  | destroyAfterReset (k : SagId) (pace : Pace)
  | testOpen (w : W64) (pace : Pace)
  | testClose (w : W64) (pace : Pace)
  -- the security mailbox
  | getCerts (w : W64) (pace : Pace)
  | report (w : W64) (pace : Pace)
  | keyRelease (w : W64) (pace : Pace)
  | keyDiscard (w : W64) (pace : Pace)
  | slicePlain (w : W64) (pace : Pace)
  | removalReport (w : W64) (pace : Pace)
  | fwWrite (w : W64) (pace : Pace)
  | fwCommitSvn (w : W64) (pace : Pace)
  | drbgReseed
  | perfCounterUpdate
  -- the Derset link
  | dlFlitReceive (bs : List Byte)
  | dlAckTimeout
  | dlLaneSwap (rx : Bool) (lane : Fin 34) (cause : SwapCause)
  | cRdShared (m : HostMsg) (env : MemEnv)
  | cRdUnique (m : HostMsg) (env : MemEnv)
  | cUpgrade (m : HostMsg) (env : MemEnv)
  | cWrBack (m : HostMsg) (data : List Byte) (env : MemEnv)
  | cRdNa (m : HostMsg) (env : MemEnv)
  | cWrNa (m : HostMsg) (data : List Byte) (env : MemEnv)
  | cSnpData (l : LineId) (sector : Fin 2) (data : List Byte)
  | cSnpAck (l : LineId) (sector : Fin 2)
  | cNotPresent (l : LineId) (sector : Fin 2)
  | cfgRd (m : HostMsg) (be : BitVec 8)
  | cfgWr (m : HostMsg) (be : BitVec 8) (w : W64)
  | ioData (tag : BitVec 11) (status : BitVec 4) (data : List Byte)
  | ioDone (tag : BitVec 11) (status : BitVec 4)
  | ioRequestGrant
  | dlRequestTimeout (tag : BitVec 11)
  | hostSnoopTimeout (l : LineId)
  | creditStarvation (cls : Fin 6)
  | int (v : Fin 18)
  | dlIntAck (be : BitVec 8) (w : W64)
  | dlIntMaskWrite (be : BitVec 8) (w : W64)
  -- faults, spares, test and the lifetime record
  | domainReset (w : W64) (pace : Pace)
  | markCore (w : W64) (pace : Pace)
  | retireChannel (w : W64) (pace : Pace)
  | testCluster (w : W64) (pace : Pace)
  | endTest (w : W64) (pace : Pace)
  | remapRow (w : W64) (pace : Pace)
  | recoveryStart (ok : Bool)
  | sccFailover (c : Fin 4)
  | selfTestPass (c : CoreId) (ok : Bool)
  | firingLogRead (ofs : BitVec 17)
  | poweredSecond (junction : Option (BitVec 16)) (watts : Nat)
  | summaryWrite
  | rasCalWrite (be : BitVec 8) (w : W64)
  | orderlyQuiesce (be : BitVec 8) (w : W64) (pace : Pace)
  | quiesceDrainTimeout
  -- power, clocks, start-up
  | standbyEntry (straps : Fin 8)
  | uvlo
  | brownout
  | brownoutExit
  | overvolt
  | ovShutdown
  | pwrEnRise (railFail : Bool)
  | pwrEnFall
  | resetNAssert (lowNs : Nat) (taken : Bool)
  | startUp (env : StartEnv) (pace : Pace)
  | startUpClockTimeout
  | refclkMeasure (ppm : Int) (flag : Bool)
  | refclkLoss
  | refclkReaccept
  | holdoverExpiry
  | fastTrip (watts : Nat)
  | powerLoopTick (watts : Nat)
  | pwrCtrlWrite (sideband : Bool) (be : BitVec 8) (w : W64)
  | junctionSample (readings : List (BitVec 16))
  | inputSensorSample (v0 v1 i0 i1 : Int)
  | telemetryUpdate (watts deciVolts : Nat)
  -- the sideband and JTAG
  | sidebandRead (ofs : BitVec 32)
  | sidebandWrite (ofs : BitVec 32) (w : W64)
  | setdasa (addr : BitVec 7)
  | entdaa (addr : BitVec 7)
  | rstdaa
  | getpid
  | getbcr
  | getdcr
  | getstatus
  | sbTimeout
  | bypass
  | idcode
  | samplePreload
  | extest
  | clamp
  | highz
  -- set-up registers without behaviour of their own
  | registerWrite (ofs : BitVec 26) (be : BitVec 8) (w : W64)
deriving DecidableEq, Repr

end Sys2Proof
end

