-- ==== Sys2Proof/Decode.lean ====
section
/-!
DEFINITION. The host's word decoder, which has nothing to decode because no row of the opcode table has bits, and the
reading of a Tvedfit instruction word (Tables 08-4, 08-5 and 08-11, R212 to R215, R230) as a command of the sub-core
that issues it.
-/
namespace Sys2Proof

/-- The command that a word of the opcode table spells: the table gives no row any bits. -/
def decodeTableWord (_nbits _w : Nat) : Option Instr := none

namespace Tvedfit

/-- The major opcode, bits 63:56. -/
def opc (w : W64) : Nat := (w.extractLsb' 56 8).toNat

/-- The guard's predicate, bits 54:52. -/
def pg (w : W64) : Fin 8 := BitVec.toFin (w.extractLsb' 52 3)

/-- Format G; `ext` is bits 127:64 of the long form. -/
def fmtG (w ext : W64) : FmtG :=
  { pn := w.getLsbD 55, pg := pg w, d := w.extractLsb' 43 9, a := w.extractLsb' 34 9, b := w.extractLsb' 25 9
    c := w.extractLsb' 16 9, mod := w.extractLsb' 0 16, ext }

/-- Format M: AOP is split over bits 18:16 and 15. -/
def fmtM (w : W64) : FmtM :=
  { pn := w.getLsbD 55, pg := pg w, d := w.extractLsb' 43 9, a := w.extractLsb' 34 9, b := w.extractLsb' 25 9
    sz := w.extractLsb' 22 3, sx := w.getLsbD 21, hint := w.extractLsb' 19 2, aop := w.extractLsb' 15 4
    ofs := w.extractLsb' 0 15 }

/-- Format J. -/
def fmtJ (w : W64) : FmtJ :=
  { pn := w.getLsbD 55, pg := pg w, d := w.extractLsb' 43 9, a := w.extractLsb' 34 9, t := w.getLsbD 33
    rsv := w.getLsbD 32, ofs := w.extractLsb' 0 32 }

/-- Format S. -/
def fmtS (w : W64) : FmtS :=
  { s := BitVec.toFin (w.extractLsb' 54 2), ac := BitVec.toFin (w.extractLsb' 52 2)
    ua := BitVec.toFin (w.extractLsb' 46 6), ub := BitVec.toFin (w.extractLsb' 40 6)
    usa := BitVec.toFin (w.extractLsb' 34 6), usb := BitVec.toFin (w.extractLsb' 28 6)
    umeta := w.extractLsb' 22 6, fa := w.extractLsb' 18 4, fb := w.extractLsb' 14 4, kd := w.extractLsb' 7 7
    z := w.getLsbD 6, crv := w.getLsbD 5, cre := BitVec.toFin (w.extractLsb' 3 2)
    crq := BitVec.toFin (w.extractLsb' 1 2), rsv := w.getLsbD 0 }

/-- Format T: ROWS is bits 34:31. -/
def fmtT (w : W64) : FmtT :=
  { s := BitVec.toFin (w.extractLsb' 54 2), ac := BitVec.toFin (w.extractLsb' 52 2)
    ud := BitVec.toFin (w.extractLsb' 46 6), uscale := BitVec.toFin (w.extractLsb' 40 6)
    scl := w.getLsbD 39, ofmt := w.extractLsb' 36 3, itype := w.getLsbD 35, rows := w.extractLsb' 31 4
    sat := w.getLsbD 30, sr := w.getLsbD 29, clr := w.getLsbD 28, rel := w.getLsbD 27, rsv := w.extractLsb' 0 27 }

/-- The ALU instructions, opcodes 0x00 to 0x33. -/
def alu (p : Place) (opc : Nat) (f : FmtG) : Option Instr :=
  match opc with
  | 0x00 => some (.nop p f)
  | 0x01 => some (.iadd p f)
  | 0x02 => some (.isub p f)
  | 0x03 => some (.imul p f)
  | 0x04 => some (.imulhi p f)
  | 0x05 => some (.imad p f)
  | 0x06 => some (.iaddW p f)
  | 0x07 => some (.imin p f)
  | 0x08 => some (.imax p f)
  | 0x09 => some (.and p f)
  | 0x0A => some (.or p f)
  | 0x0B => some (.xor p f)
  | 0x0C => some (.shl p f)
  | 0x0D => some (.shr p f)
  | 0x0E => some (.popc p f)
  | 0x0F => some (.clz p f)
  | 0x10 => some (.brev p f)
  | 0x11 => some (.isetp p f)
  | 0x20 => some (.fadd p f)
  | 0x21 => some (.fmul p f)
  | 0x22 => some (.ffma p f)
  | 0x23 => some (.fmin p f)
  | 0x24 => some (.fmax p f)
  | 0x25 => some (.frcp p f)
  | 0x26 => some (.frsq p f)
  | 0x27 => some (.fex2 p f)
  | 0x28 => some (.flg2 p f)
  | 0x29 => some (.fsetp p f)
  | 0x30 => some (.cvt p f)
  | 0x31 => some (.mov p f)
  | 0x32 => some (.sel p f)
  | 0x33 => some (.plop p f)
  | _ => none

/-- Loads, stores and reservations, opcodes 0x40 to 0x4B. -/
def memory (p : Place) (opc : Nat) (f : FmtM) (env : MemEnv) : Option Instr :=
  match opc with
  | 0x40 => some (.ldL p f env)
  | 0x41 => some (.stL p f)
  | 0x48 => some (.ldG p f env)
  | 0x49 => some (.stG p f)
  | 0x4A => some (.ldx p f)
  | 0x4B => some (.stx p f)
  | _ => none

/-- ATOM, opcode 0x4C, by AOP (Table 08-8). -/
def atom (p : Place) (f : FmtM) : Option Instr :=
  match f.aop.toNat with
  | 0x0 => some (.atomAdd p f)
  | 0x1 => some (.atomFadd p f)
  | 0x2 => some (.atomSmin p f)
  | 0x3 => some (.atomSmax p f)
  | 0x4 => some (.atomUmin p f)
  | 0x5 => some (.atomUmax p f)
  | 0x6 => some (.atomAnd p f)
  | 0x7 => some (.atomOr p f)
  | 0x8 => some (.atomXor p f)
  | 0x9 => some (.atomExch p f)
  | 0xA => some (.atomCas p f)
  | _ => none

/-- VOTE, by bits 1:0 of MOD (R228). -/
def vote (p : Place) (f : FmtG) : Instr :=
  match (f.mod.extractLsb' 0 2).toNat with
  | 0 => .voteAll p f
  | 1 => .voteAny p f
  | 2 => .voteBallot p f
  | _ => .voteCount p f

/-- SHFL, by bits 1:0 of MOD (R229). -/
def shfl (p : Place) (f : FmtG) : Instr :=
  match (f.mod.extractLsb' 0 2).toNat with
  | 0 => .shflIdx p f
  | 1 => .shflUp p f
  | 2 => .shflDown p f
  | _ => .shflXor p f

/-- TOK.POST, by bits 5:4 of MOD (R231). -/
def tokPost (p : Place) (f : FmtG) (env : MemEnv) : Option Instr :=
  match (f.mod.extractLsb' 4 2).toNat with
  | 0 => some (.tokPost p f)
  | 1 => some (.tokPostArm p f env)
  | 2 => some (.tokPostStop p f)
  | _ => none

/-- Fences, the barrier, the collectives and the engine instructions, in format G. -/
def groupOps (p : Place) (opc : Nat) (f : FmtG) (env : MemEnv) : Option Instr :=
  match opc with
  | 0x50 => some (.fenceBlock p f)
  | 0x51 => some (.fenceDevice p f)
  | 0x52 => some (.fenceSys p f)
  | 0x53 => some (.barBlock p f)
  | 0x58 => some (vote p f)
  | 0x59 => some (shfl p f)
  | 0x68 => some (.tokWait p f)
  | 0x69 => tokPost p f env
  | 0x6A => some (.coneWait p f)
  | 0x6B => some (.nmIssue p f)
  | _ => none

/-- The slab instructions, opcodes 0x60 to 0x65. -/
def slab (p : Place) (opc : Nat) (s : FmtS) (t : FmtT) : Option Instr :=
  match opc with
  | 0x60 => some (.slabMma p s)
  | 0x61 => some (.slabMmas p s)
  | 0x62 => some (.slabSq16 p s)
  | 0x63 => some (.slabSq32 p s)
  | 0x64 => some (.slabZero p s)
  | 0x65 => some (.slabSt p t)
  | _ => none

/-- Control flow, opcodes 0x70 to 0x74. -/
def control (p : Place) (opc : Nat) (f : FmtJ) : Option Instr :=
  match opc with
  | 0x70 => some (.bra p f)
  | 0x71 => some (.call p f)
  | 0x72 => some (.ret p f)
  | 0x73 => some (.exit p f)
  | 0x74 => some (.yield p f)
  | _ => none

end Tvedfit

/-- The Tvedfit instruction of a word, issued by `p`; `ext` is bits 127:64 of the long form, and `env` is what a load
meets. A reserved opcode, AOP or TOK.POST kind is none (R214); the reserved bits of an instruction stay in its fields,
and its meaning checks them. -/
def decodeTvedfit (p : Place) (env : MemEnv) (w ext : W64) : Option Instr :=
  let o := Tvedfit.opc w
  if o < 0x40 then Tvedfit.alu p o (Tvedfit.fmtG w ext)
  else if o < 0x4C then Tvedfit.memory p o (Tvedfit.fmtM w) env
  else if o = 0x4C then Tvedfit.atom p (Tvedfit.fmtM w)
  else if 0x60 ≤ o ∧ o ≤ 0x65 then Tvedfit.slab p o (Tvedfit.fmtS w) (Tvedfit.fmtT w)
  else if 0x70 ≤ o then Tvedfit.control p o (Tvedfit.fmtJ w)
  else Tvedfit.groupOps p o (Tvedfit.fmtG w ext) env

end Sys2Proof
end

