-- ==== Sys2Proof/Machine/Numeric.lean ====
section
/-!
DEFINITION. Number formats and arithmetic (spec/03_number_formats.md): the values the encodings of Tables 03-2 and
03-3 stand for, rounding (R88, R94, R95, R99), the additions and products of the slab cells (R88 to R91), the lane
operations (R92, R93) and the conversions (R94 to R97, R480). A finite value is a sign, a natural significand and a
power of two, so every sum and product is exact until it is rounded.
-/
namespace Sys2Proof.Machine

/-- A value of a floating-point format (R84, R85): `fin n m e` is (-1)^n * m * 2^e; a zero keeps its sign. -/
inductive FVal where
  | nan
  | inf (neg : Bool)
  | fin (neg : Bool) (m : Nat) (e : Int)
deriving DecidableEq, Repr

/-- What a format has beside finite numbers (Table 03-3). -/
inductive Specials where
  | ieee
  | nanOnly
  | none
deriving DecidableEq, Repr

/-- The parameters of a floating-point format (Table 03-2). -/
structure FFmt where
  ebits : Nat
  mbits : Nat
  bias : Nat
  specials : Specials
deriving DecidableEq, Repr

def fp32 : FFmt := ⟨8, 23, 127, .ieee⟩
def fp16 : FFmt := ⟨5, 10, 15, .ieee⟩
def bf16 : FFmt := ⟨8, 7, 127, .ieee⟩
def e5m2 : FFmt := ⟨5, 2, 15, .ieee⟩
def e4m3 : FFmt := ⟨4, 3, 7, .nanOnly⟩
def e3m2 : FFmt := ⟨3, 2, 3, .none⟩
def e2m3 : FFmt := ⟨2, 3, 1, .none⟩
def e2m1 : FFmt := ⟨2, 1, 1, .none⟩

/-- Bits of an element of the format. -/
def fmtBits (f : FFmt) : Nat := 1 + f.ebits + f.mbits

/-- The code of the largest finite magnitude (Table 03-3). -/
def fmtMaxCode (f : FFmt) : Nat :=
  match f.specials with
  | .ieee => (2 ^ f.ebits - 1) * 2 ^ f.mbits - 1
  | .nanOnly => 2 ^ (f.ebits + f.mbits) - 2
  | .none => 2 ^ (f.ebits + f.mbits) - 1

/-- The value of an encoding (R84, R85). -/
def decodeF (f : FFmt) (bits : Nat) : FVal :=
  let mag := bits % 2 ^ (f.ebits + f.mbits)
  let neg := bits / 2 ^ (f.ebits + f.mbits) % 2 == 1
  let e := mag / 2 ^ f.mbits
  let m := mag % 2 ^ f.mbits
  if mag > fmtMaxCode f then
    if f.specials == .ieee && m == 0 then .inf neg else .nan
  else if e == 0 then .fin neg m (1 - (f.bias : Int) - f.mbits)
  else .fin neg (2 ^ f.mbits + m) ((e : Int) - f.bias - f.mbits)

/-- How a conversion rounds (R94): to nearest with ties to even, toward zero, or by a 16-bit draw (R99). -/
inductive Rounding where
  | rn
  | rz
  | sr (draw : Nat)
deriving DecidableEq, Repr

/-- A magnitude rounded to a format: a code of the format's magnitude bits, or an overflow (R88, R95, R99). The
code of a value with `n` quanta in the binade of biased exponent `eb` is `n + (eb - 1) * 2^mbits`, so a carry out of
the significand raises the exponent by itself. -/
def roundMag (f : FFmt) (r : Rounding) (m : Nat) (e : Int) : Option Nat :=
  if m == 0 then some 0
  else
    let top : Int := (Nat.log2 m : Int) + e
    let emin : Int := 1 - (f.bias : Int)
    let lead := max top emin
    let eb := (lead + f.bias).toNat
    let sh : Int := lead - f.mbits - e
    let base := (eb - 1) * 2 ^ f.mbits
    if sh ≤ 0 then
      let c := m * 2 ^ (-sh).toNat + base
      if c > fmtMaxCode f then none else some c
    else
      let k := sh.toNat
      let q := m / 2 ^ k
      let rem := m % 2 ^ k
      let trunc := q + base
      if trunc > fmtMaxCode f then none
      else
        match r with
        | .rz => some trunc
        | .rn =>
          let up := rem * 2 > 2 ^ k || (rem * 2 == 2 ^ k && q % 2 == 1)
          if trunc == fmtMaxCode f && rem * 2 ≥ 2 ^ k then none
          else some (if up then trunc + 1 else trunc)
        | .sr draw =>
          let t := rem * 65536 / 2 ^ k
          if draw + t ≥ 65536 then (if trunc == fmtMaxCode f then none else some (trunc + 1)) else some trunc

/-- The sign bit of a code of the format. -/
def signCode (f : FFmt) (neg : Bool) : Nat := if neg then 2 ^ (f.ebits + f.mbits) else 0

/-- The code of infinity of a format that has one. -/
def infCode (f : FFmt) : Nat := (2 ^ f.ebits - 1) * 2 ^ f.mbits

/-- The canonical NaN (Table 03-3, Table 03-5); +0 for the formats that have none. -/
def nanCode (f : FFmt) : Nat :=
  match f.specials with
  | .ieee => (2 ^ f.ebits - 1) * 2 ^ f.mbits + 2 ^ (f.mbits - 1)
  | .nanOnly => 2 ^ (f.ebits + f.mbits) - 1
  | .none => 0

/-- SAT affects only the targets E4M3 and E5M2 (R95). -/
def satApplies (f : FFmt) (sat : Bool) : Bool := sat && (f == e4m3 || f == e5m2)

/-- Overflow of a finite source, and an infinite source (Table 03-5). -/
def overflowCode (f : FFmt) (r : Option Rounding) (sat : Bool) (neg : Bool) : Nat :=
  let toMax := match r with | some .rz => true | _ => false
  if f.specials == .none || toMax || satApplies f sat then signCode f neg + fmtMaxCode f
  else
    match f.specials with
    | .nanOnly => nanCode f
    | _ => signCode f neg + infCode f

/-- A value converted to a format (R94, R95). -/
def encodeF (f : FFmt) (r : Rounding) (sat : Bool) (v : FVal) : Nat :=
  match v with
  | .nan => nanCode f
  | .inf neg => overflowCode f none sat neg
  | .fin neg m e =>
    match roundMag f r m e with
    | some c => signCode f neg + c
    | none => overflowCode f (some r) sat neg

/-- round32 (R88). -/
def round32 (v : FVal) : W32 := BitVec.ofNat 32 (encodeF fp32 .rn false v)

/-- The value of a binary32 word. -/
def val32 (w : W32) : FVal := decodeF fp32 w.toNat

/-- A subnormal binary32 word becomes the zero of its sign (R91). -/
def flush32 (w : W32) : W32 :=
  if w.toNat % 0x80000000 < 0x800000 then w &&& 0x80000000#32 else w

def isNeg : FVal → Bool
  | .nan => false
  | .inf n => n
  | .fin n _ _ => n

def isZero : FVal → Bool
  | .fin _ m _ => m == 0
  | _ => false

/-- A finite value's significand at exponent `e0`, with its sign. -/
def sigAt (e0 : Int) (n : Bool) (m : Nat) (e : Int) : Int :=
  let k : Int := (m * 2 ^ (e - e0).toNat : Nat)
  if n then -k else k

/-- The exact sum (IEEE 754 specials, R89): the sign of an exact zero is that of round-to-nearest (R90, R93). -/
def addF (a b : FVal) : FVal :=
  match a, b with
  | .nan, _ => .nan
  | _, .nan => .nan
  | .inf x, .inf y => if x == y then .inf x else .nan
  | .inf x, .fin _ _ _ => .inf x
  | .fin _ _ _, .inf y => .inf y
  | .fin na ma ea, .fin nb mb eb =>
    if ma == 0 && mb == 0 then .fin (na && nb) 0 0
    else
      let e0 := min ea eb
      let t := sigAt e0 na ma ea + sigAt e0 nb mb eb
      if t == 0 then .fin false 0 0 else .fin (decide (t < 0)) t.natAbs e0

/-- The exact product; infinity times zero is NaN (R89). The sign of a zero product is the exclusive-or of the signs, also where a
factor is an MXINT8 zero, which has no sign of its own and counts as +0: R90 does not say when such a product is −0, the model's choice
(log 78). -/
def mulF (a b : FVal) : FVal :=
  match a, b with
  | .nan, _ => .nan
  | _, .nan => .nan
  | .inf x, .inf y => .inf (x != y)
  | .inf x, .fin y m _ => if m == 0 then .nan else .inf (x != y)
  | .fin x m _, .inf y => if m == 0 then .nan else .inf (x != y)
  | .fin x m e, .fin y m' e' => .fin (x != y) (m * m') (e + e')

def negF : FVal → FVal
  | .nan => .nan
  | .inf n => .inf (!n)
  | .fin n m e => .fin (!n) m e

def absF : FVal → FVal
  | .nan => .nan
  | .inf _ => .inf false
  | .fin _ m e => .fin false m e

/-- Multiplication by a power of two, exact. -/
def scaleF (k : Int) : FVal → FVal
  | .nan => .nan
  | .inf n => .inf n
  | .fin n m e => .fin n m (e + k)

/-- The exact sum of the products of one chunk (R88 to R90): NaN when an infinity of each sign occurs; an exact zero
is negative only if every product in it is -0. -/
def sumProducts (ps : List FVal) : FVal :=
  let s := ps.foldl addF (.fin true 0 0)
  match s with
  | .fin _ 0 _ => .fin (ps.all (fun p => isZero p && isNeg p)) 0 0
  | v => v

/-- Whether two finite or infinite values compare less (IEEE 754 ordered). -/
def ltF (a b : FVal) : Bool :=
  match a, b with
  | .nan, _ => false
  | _, .nan => false
  | .inf x, .inf y => x && !y
  | .inf x, .fin _ _ _ => x
  | .fin _ _ _, .inf y => !y
  | .fin na ma ea, .fin nb mb eb =>
    let e0 := min ea eb
    decide (sigAt e0 na ma ea < sigAt e0 nb mb eb)

def eqF (a b : FVal) : Bool :=
  match a, b with
  | .nan, _ => false
  | _, .nan => false
  | a, b => !ltF a b && !ltF b a

/-- The comparisons CMP of Table 08-6 in binary32 (R92): false with a NaN, but "not equal". -/
def cmpF (c : Nat) (a b : FVal) : Bool :=
  match c with
  | 0 => eqF a b
  | 1 => !eqF a b
  | 2 => ltF a b
  | 3 => ltF a b || eqF a b
  | 4 => ltF b a
  | _ => ltF b a || eqF a b

/-- minimumNumber and maximumNumber: -0 is less than +0, NaN only when both are NaN (Table 03-4). -/
def minF (a b : FVal) : FVal :=
  match a, b with
  | .nan, b => b
  | a, .nan => a
  | a, b => if ltF a b then a else if ltF b a then b else if isNeg a then a else b

def maxF (a b : FVal) : FVal :=
  match a, b with
  | .nan, b => b
  | a, .nan => a
  | a, b => if ltF a b then b else if ltF b a then a else if isNeg a then b else a

/-- The integer square root, one bit of the root at a time from bit `k`. -/
def isqrtAux (n : Nat) : Nat → Nat → Nat
  | 0, r => if (r + 1) * (r + 1) ≤ n then r + 1 else r
  | k + 1, r =>
    let r' := r + 2 ^ (k + 1)
    isqrtAux n k (if r' * r' ≤ n then r' else r)

def isqrt (n : Nat) : Nat := isqrtAux n (Nat.log2 n / 2 + 1) 0

/-- What a function of Table 03-4 has as its exact result: a word that the table or IEEE 754 fixes, or a non-zero magnitude that the
device's result only lies near. -/
inductive Approx where
  | word (w : W32)
  | near (neg : Bool) (m : Nat) (e : Int)
deriving DecidableEq, Repr

/-- The unit in the last place of a magnitude, as a power of two: the spacing of binary32 in its binade. -/
def ulpExp (m : Nat) (e : Int) : Int := max ((Nat.log2 m : Int) + e) (-126) - 23

/-- The magnitude code `c` lies within `n` units in the last place of m * 2^e. Infinity is taken as 2^128, and fits every result
beyond that. -/
def closeCode (n m : Nat) (e : Int) (c : Nat) : Bool :=
  let ce : Int := (max 1 (c / 2 ^ 23) : Nat) - 150
  let sig := if c < 2 ^ 23 then c else 2 ^ 23 + c % 2 ^ 23
  let u := ulpExp m e
  let e0 := min (min ce e) u
  let d : Int := sigAt e0 false sig ce - sigAt e0 false m e
  (c == 0x7F800000 && d ≤ 0) || d.natAbs ≤ n * 2 ^ (u - e0).toNat

/-- The codes that may stand for a result: those within `n` units in the last place. -/
def closeCodes (n m : Nat) (e : Int) : List Nat :=
  let u := ulpExp m e
  let q := if e ≥ u then m * 2 ^ (e - u).toNat else m / 2 ^ (u - e).toNat
  let t := min 0x7F800000 (q + ((u + 149).toNat) * 2 ^ 23)
  ((List.range (4 * n + 2)).map (fun i => min 0x7F800000 (t + i - 2 * n))).eraseDups.filter (closeCode n m e)

/-- The result of a function that is exact to `n` units in the last place; `k` picks one of those that are. -/
def pickNear (n k : Nat) : Approx → W32
  | .word w => w
  | .near neg m e =>
    let cs := closeCodes n m e
    BitVec.ofNat 32 (signCode fp32 neg + cs.getD (k % cs.length) 0)

/-- 1 / m, with 64 bits beyond the leading one and a sticky bit. -/
def recipMag (m : Nat) (e : Int) : Nat × Int :=
  let k := Nat.log2 m + 64
  let q := 2 ^ k / m
  (q * 2 + (if q * m == 2 ^ k then 0 else 1), -e - k - 1)

/-- RCP (Table 03-4). -/
def rcp32 (w : W32) : Approx :=
  match val32 w with
  | .nan => .word 0x7FC00000#32
  | .inf n => .word (round32 (.fin n 0 0))
  | .fin n 0 _ => .word (round32 (.inf n))
  | .fin n m e =>
    let r := recipMag m e
    .near n r.1 r.2

/-- RSQ (Table 03-4). -/
def rsq32 (w : W32) : Approx :=
  match val32 w with
  | .nan => .word 0x7FC00000#32
  | .inf true => .word 0x7FC00000#32
  | .inf false => .word 0x00000000#32
  | .fin n 0 _ => .word (round32 (.inf n))
  | .fin true _ _ => .word 0x7FC00000#32
  | .fin false m e =>
    let m2 := if e % 2 == 0 then m else m * 2
    let e2 := if e % 2 == 0 then e else e - 1
    let h := Nat.log2 m2 + 64
    let q := isqrt (2 ^ (2 * h) / m2)
    .near false (q * 2 + (if q * q * m2 == 2 ^ (2 * h) then 0 else 1)) (-(e2 / 2) - h - 1)

/-- 2^f for a fraction f of 128 bits, as a fixed-point number with 128 bits after the point: the product of the
roots 2^(2^-i) for the bits i of f that are set. -/
def exp2Frac (f : Nat) : Nat → Nat → Nat → Nat
  | 0, _, acc => acc
  | k + 1, root, acc =>
    let acc' := if f / 2 ^ k % 2 == 1 then acc * root / 2 ^ 128 else acc
    exp2Frac f k (isqrt (root * 2 ^ 128)) acc'

/-- EX2 (Table 03-4). A source beyond the range of binary32 exponents is taken as 4096 of its sign. -/
def ex232 (w : W32) : Approx :=
  match val32 w with
  | .nan => .word 0x7FC00000#32
  | .inf true => .word 0x00000000#32
  | .inf false => .word 0x7F800000#32
  | .fin _ 0 _ => .near false 1 0
  | .fin n m e =>
    let big := decide ((Nat.log2 m : Int) + e ≥ 12)
    let fx : Int := if big then 4096 * 2 ^ 64 else (if e + 64 ≥ 0 then (m * 2 ^ (e + 64).toNat : Nat) else (m / 2 ^ (-(e + 64)).toNat : Nat))
    let exact := big || e + 64 ≥ 0
    let x := if n then -fx else fx
    let ip := x / 2 ^ 64
    let fr := (x % 2 ^ 64).toNat
    let p := exp2Frac fr 64 (isqrt (2 * 2 ^ 128 * 2 ^ 128)) (2 ^ 128)
    .near false (p * 2 + (if exact && fr == 0 then 0 else 1)) (ip - 129)

/-- The bits of log2 x after the point, for x in [1, 2) with 192 bits after the point: square, and a square of 2 or
more gives a 1 and is halved. -/
def log2Frac : Nat → Nat → Nat → Nat
  | 0, _, acc => acc
  | k + 1, x, acc =>
    let y := x * x / 2 ^ 192
    if y ≥ 2 ^ 193 then log2Frac k (y / 2) (acc * 2 + 1) else log2Frac k y (acc * 2)

/-- LG2 (Table 03-4); the logarithm of 1 is exactly zero, and +0 (R93). -/
def lg232 (w : W32) : Approx :=
  match val32 w with
  | .nan => .word 0x7FC00000#32
  | .inf true => .word 0x7FC00000#32
  | .inf false => .word 0x7F800000#32
  | .fin _ 0 _ => .word 0xFF800000#32
  | .fin true _ _ => .word 0x7FC00000#32
  | .fin false m e =>
    let l := Nat.log2 m
    let fr := log2Frac 80 (m * 2 ^ (192 - l)) 0
    let t : Int := ((l : Int) + e) * 2 ^ 80 + fr
    if t == 0 then .word 0x00000000#32 else .near (decide (t < 0)) t.natAbs (-80)

/-- An element type (Table 03-1). -/
inductive EType where
  | fp32 | bf16 | fp16 | e4m3 | e5m2 | e3m2 | e2m3 | e2m1 | int32 | int8 | int4 | mxint8 | e8m0
deriving DecidableEq, Repr

/-- The code of Table 03-1; a reserved code names none. -/
def etypeOf (c : Nat) : Option EType :=
  match c with
  | 0 => some .fp32 | 1 => some .bf16 | 2 => some .fp16 | 3 => some .e4m3 | 4 => some .e5m2 | 5 => some .e3m2
  | 6 => some .e2m3 | 7 => some .e2m1 | 8 => some .int32 | 9 => some .int8 | 10 => some .int4 | 11 => some .mxint8
  | 12 => some .e8m0
  | _ => none

def etypeBits : EType → Nat
  | .fp32 => 32 | .bf16 => 16 | .fp16 => 16 | .e4m3 => 8 | .e5m2 => 8 | .e3m2 => 6 | .e2m3 => 6 | .e2m1 => 4
  | .int32 => 32 | .int8 => 8 | .int4 => 4 | .mxint8 => 8 | .e8m0 => 8

/-- The floating-point layout of a type that has one. -/
def etypeFmt : EType → Option FFmt
  | .fp32 => some Machine.fp32 | .bf16 => some Machine.bf16 | .fp16 => some Machine.fp16
  | .e4m3 => some Machine.e4m3 | .e5m2 => some Machine.e5m2 | .e3m2 => some Machine.e3m2
  | .e2m3 => some Machine.e2m3 | .e2m1 => some Machine.e2m1
  | _ => none

def isIntType : EType → Bool
  | .int32 => true | .int8 => true | .int4 => true | _ => false

/-- The two's-complement value of the low `n` bits (R86). -/
def sintOf (n bits : Nat) : Int :=
  let b := bits % 2 ^ n
  if b ≥ 2 ^ (n - 1) then (b : Int) - 2 ^ n else b

/-- The low `n` bits of an integer. -/
def lowBits (n : Nat) (v : Int) : Nat := (v % 2 ^ n).toNat

/-- An integer held to the range of `n`-bit two's complement. -/
def clampInt (n : Nat) (v : Int) : Int := max (-(2 ^ (n - 1))) (min (2 ^ (n - 1) - 1) v)

/-- An exact integer as a value. -/
def intVal (v : Int) : FVal := .fin (decide (v < 0)) v.natAbs 0

/-- The value of a source element (R84 to R87, R480). -/
def elemVal (t : EType) (bits : Nat) : FVal :=
  match t with
  | .int32 => intVal (sintOf 32 bits)
  | .int8 => intVal (sintOf 8 bits)
  | .int4 => intVal (sintOf 4 bits)
  | .mxint8 => scaleF (-6) (intVal (sintOf 8 bits))
  | .e8m0 => if bits % 256 == 255 then .nan else .fin false 1 ((bits % 256 : Nat) - 127 : Int)
  | .fp32 => decodeF Machine.fp32 bits
  | .bf16 => decodeF Machine.bf16 bits
  | .fp16 => decodeF Machine.fp16 bits
  | .e4m3 => decodeF Machine.e4m3 bits
  | .e5m2 => decodeF Machine.e5m2 bits
  | .e3m2 => decodeF Machine.e3m2 bits
  | .e2m3 => decodeF Machine.e2m3 bits
  | .e2m1 => decodeF Machine.e2m1 bits

/-- A value rounded to an integer by RN or RZ, held to `n` bits; NaN gives 0 (R96). -/
def toIntClamped (n : Nat) (rz : Bool) (v : FVal) : Int :=
  match v with
  | .nan => 0
  | .inf neg => if neg then -(2 ^ (n - 1)) else 2 ^ (n - 1) - 1
  | .fin neg m e =>
    let mag : Nat :=
      if e ≥ 0 then (if (Nat.log2 m : Int) + e > 64 && m > 0 then 2 ^ 64 else m * 2 ^ e.toNat)
      else
        let k := (-e).toNat
        let q := m / 2 ^ k
        let rem := m % 2 ^ k
        if rz then q
        else if rem * 2 > 2 ^ k || (rem * 2 == 2 ^ k && q % 2 == 1) then q + 1 else q
    clampInt n (if neg then -(mag : Int) else mag)

/-- Whether R94 to R97, R480 and R216 permit a conversion; `rm` is RMODE. -/
def cvtLegal (src tgt : EType) (rm : Nat) : Bool :=
  let srOk := tgt == .bf16 || tgt == .e4m3 || tgt == .e5m2
  let modeOk := rm == 0 || rm == 1 || (rm == 2 && srOk)
  let srcFloat := (etypeFmt src).isSome || src == .mxint8
  let wideFloat := tgt == .fp32 || tgt == .bf16 || tgt == .fp16
  modeOk &&
    (if src == .e8m0 then tgt == .fp32 || tgt == .int32
     else if srcFloat then tgt != .e8m0
     else isIntType tgt || ((etypeFmt tgt).isSome && !(src == .int32 && wideFloat && rm == 2)))

/-- A conversion (R94 to R97, R216, R480): the result in the low bits, 0 above. -/
def convert (src tgt : EType) (r : Rounding) (sat : Bool) (bits : Nat) : Nat :=
  let rz := r == .rz
  match etypeFmt tgt with
  | some f => encodeF f r sat (elemVal src bits)
  | none =>
    match tgt with
    | .mxint8 =>
      if src == .mxint8 then bits % 256
      else lowBits 8 (toIntClamped 8 rz (scaleF 6 (elemVal src bits)))
    | .e8m0 => 0
    | _ =>
      let n := etypeBits tgt
      if src == .e8m0 then lowBits n ((bits % 256 : Nat) - 127 : Int)
      else if isIntType src then
        let v := sintOf (etypeBits src) bits
        lowBits n (if sat then clampInt n v else v)
      else lowBits n (toIntClamped n rz (elemVal src bits))

end Sys2Proof.Machine
end

