-- ==== Sys2Proof/Config.lean ====
section
/-!
DEFINITION. What the manual leaves open: free values, each an opaque constant applied to the model's own counter of
draws (and to what the value depends on), so that nothing can be proved about the value itself.
-/
namespace Sys2Proof

/-- A 16-bit draw of a core's random source (R98): draw number, element. -/
opaque Config.draw : Nat → Nat → BitVec 16

/-- Which of the results within its bound a lane's RCP, RSQ, EX2 or LG2 gives (R92): draw number, lane. -/
opaque Config.ulp : Nat → Nat → Nat

/-- C-cycles that pass before a read of a die's counter (R210): draw number. -/
opaque Config.elapsed : Nat → W64

/-- A byte whose content the manual does not specify: draw number, place. -/
opaque Config.freeByte : Nat → Nat → Byte

/-- A 32-bit value the manual does not specify: draw number, place. -/
opaque Config.freeWord : Nat → Nat → W32

/-- The random bytes of key number `k` of the security processor (R376). -/
opaque Config.keyBytes : Nat → List Byte

/-- The uncompressed public point, 97 B, of the private key with number `k` (Table 15-1). -/
opaque Config.publicPoint : Nat → List Byte

/-- The x-coordinate of the ECDH product of private key `k` and a point; none where the bytes are no point of
brainpoolP384r1 or the point at infinity (R389). -/
opaque Config.ecdh : Nat → List Byte → Option (List Byte)

/-- The ECDSA signature of the alias key over a digest, 96 B (R384): draw number for its nonce. -/
opaque Config.sign : Nat → List Byte → List Byte

/-- The device identity public key, 97 B (R379, R380). -/
opaque Config.deviceKey : List Byte

/-- The alias certificate that a boot makes (R379): the digests of both components, SVN, fused minimum SVN. -/
opaque Config.aliasCert : List Byte → List Byte → Nat → Nat → List Byte

/-- The device identity and device CA certificates (R380). -/
opaque Config.deviceCerts : List Byte

/-- What the sideband target answers to GETPID, GETBCR and GETDCR (R452): command, byte. -/
opaque Config.i3cByte : Nat → Nat → Byte

/-- A number the manual does not specify: draw number. -/
opaque Config.freeNat : Nat → Nat

/-- The check bytes of a burst (R139, R140), 16 of them, or 24 under strong ECC: the manual gives the Reed–Solomon codes but no
generator. -/
opaque Config.rsCheck : Bool → List Byte → List Byte

/-- The messages of one class that may stand on a bridge before another has its credit (R244): the spec gives no number. -/
opaque Config.bridgeCredits : Nat

end Sys2Proof
end

