-- ==== Sys2Proof/Machine/CoreState.lean ====
section
/-!
DEFINITION. The state of a compute core (spec/01, 02, 04, 08 and 10): threads, groups, the two-level scheduler, blocks,
local store, L1, access engines, slabs, store buffers, and the core's registers.
-/
namespace Sys2Proof.Machine

/-- Why a thread does not issue (R19, R23, R26, R67, R71, R226, R227, R269, R272). -/
inductive Wait where
  | ready
  /-- A load that missed L1, or of host memory. -/
  | load
  /-- A load or store held at issue by the store buffer (R269, R272): no long wait. -/
  | buffer
  /-- LD.L, ST.L or TOK.POST behind a SLAB.ST of its group (R71): no long wait. -/
  | slabStore
  | atomic
  | tok
  | nm
  | bar
  | cone
  | fenceBlock
  | fenceDevice
  | fenceSys
  /-- At a SLAB instruction whose collective is not complete (R26). -/
  | slab
  /-- At a SLAB instruction that waits for the lease or for a queue entry (R50, R53): no long wait. -/
  | slabIssue
deriving DecidableEq, Repr

/-- The reservation of a thread (R222, R259): the granule's first line and whether it is the 256 B pair held in the
home's reservation array (far) or the 128 B line in the requester's L2 (near). -/
structure Rsv where
  line : LineId
  far : Bool
deriving DecidableEq, Repr

/-- One thread (R205, R206). -/
structure Lane where
  exited : Bool := true
  pc : W32 := 0
  wait : Wait := .ready
  /-- v registers; an unlisted one holds 0. -/
  v : Tbl W32 := []
  /-- p0 to p6. -/
  preds : BitVec 7 := 0
  /-- Issue opportunities since the thread was last issued, counted while its group is active (R23). -/
  waited : Nat := 0
  starving : Bool := false
  /-- The latch of CLOCK_HI (R210). -/
  clkHi : Option W32 := none
  rsv : Option Rsv := none
  /-- The instant of the latest ordering point (R276), on the model's own count of steps. -/
  ordPt : Nat := 0
deriving DecidableEq, Repr

/-- What one lane of a held access still needs: its buffer address (the global address, or 2^52 plus the host address)
or local address, and, for a load, the bytes it has; an empty `got` says that it asked for none yet. -/
structure LaneReq where
  lane : LaneId
  addr : Nat
  /-- The global address. -/
  gaddr : Nat := 0
  got : List (Option Byte) := []
  val : List Byte := []
deriving DecidableEq, Repr

/-- One lane of an ATOM, LDX or STX. -/
structure AtomReq where
  lane : LaneId
  addr : Nat
  opnd : W64 := 0
  cmp : W64 := 0
  /-- The result once the lane's operation has been performed: the old value, the loaded value or the outcome. -/
  res : Option W64 := none
deriving DecidableEq, Repr

/-- Where SLAB.ST reads and what it does (Table 02-5). -/
structure StoreForm where
  set : Fin 4
  dst : Nat
  scale : Option W32
  ofmt : Nat
  itype : Bool
  rows : Nat
  sat : Bool
  sr : Bool
  clr : Bool
  rel : Bool
deriving DecidableEq, Repr

/-- A product of a slab (Table 02-4, R76): byte addresses in local store; `square` is the edge of a square form with
its slice. -/
structure ProductForm where
  set : Fin 4
  sparse : Bool
  square : Option (Nat × Nat)
  baseA : Nat
  baseB : Nat
  baseSa : Nat
  baseSb : Nat
  baseMeta : Nat
  fa : Nat
  fb : Nat
  depth : Nat
  zero : Bool
  credit : Option (EngId × Fin 4)
  /-- ACC_FTZ of the launch (R91). -/
  ftz : Bool
deriving DecidableEq, Repr

inductive SlabForm where
  | product (p : ProductForm)
  | zero (set : Fin 4)
  | store (f : StoreForm)
deriving DecidableEq, Repr

/-- Operand bytes a running product has read. -/
structure SlabData where
  a : List Byte
  b : List Byte
  sa : List Byte
  sb : List Byte
  md : List Byte
deriving DecidableEq, Repr

/-- Where a queued SLAB instruction stands (R72, R73). `left` is the D-units still to perform. -/
inductive SlabPhase where
  | queued
  | running (left : Nat) (d : SlabData)
  | storing (bytes : List Byte)
deriving DecidableEq, Repr

/-- An entry of a slab queue. -/
structure SlabEntry where
  blk : SlotId
  sub : SubId
  grp : SlotId
  launch : Nat
  lane : LaneId
  pc : W32
  form : SlabForm
  phase : SlabPhase := .queued
  /-- The place in the order in which the core's SLAB instructions issued. -/
  seq : Nat := 0
deriving DecidableEq, Repr

/-- A slab (R48, R53, R72, R74): sixteen bits of the key of an accumulator cell are set, row and column. Progress is
counted in fortieths of a D-unit, so that every rate level/8 and c/20 is a whole number. -/
structure Slab where
  acc : Tbl W32 := []
  queue : List SlabEntry := []
  level : Nat := 0
  idle : Nat := 0
  wasWorking : Bool := false
  progress : Nat := 0
  j : Nat := 0
  rampLen : Nat := 64
deriving DecidableEq, Repr

/-- An operation that holds its lanes at an instruction. -/
inductive Held where
  | loadG (d : BitVec 9) (sz : Nat) (sx : Bool) (hint : Nat) (missed : Bool) (reqs : List LaneReq)
  | storeG (hint : Nat) (reqs : List LaneReq)
  | loadL (d : BitVec 9) (sz : Nat) (sx : Bool) (reqs : List LaneReq)
  | storeL (reqs : List LaneReq)
  /-- A TOK.POST: what the read of an ARM's descriptor meets, corrected errors and the address of an uncorrectable one. -/
  | post (e : EngId) (q : Fin 4) (kind : Nat) (desc : Nat) (fixed : Nat) (bad : Option Nat)
  | atom (op : AtomOp) (wide : Bool) (d : BitVec 9) (reqs : List AtomReq)
  | ldx (wide : Bool) (d : BitVec 9) (reqs : List AtomReq)
  | stx (wide : Bool) (p : Fin 8) (reqs : List AtomReq)
  | tokWait (e : EngId) (q : Fin 4) (d : BitVec 9) (c : BitVec 9)
  /-- A fence: the STORE slots that the block had posted before it, as engine, stream, arming and count (R127). -/
  | fence (need : List (EngId × Fin 4 × Nat × Nat))
  | cone (n : Nat) (thr : BitVec 48)
  | nm (desc : Nat) (word : Nat)
  /-- A SLAB instruction whose collective is not complete: its opcode from 0x60 to 0x64 with format S. -/
  | slabS (opc : Nat) (f : FmtS)
  | slabT (f : FmtT)
  /-- A SLAB instruction that has issued and waits for the lease or for a queue entry. -/
  | slab (s : SlabId) (form : SlabForm)
deriving DecidableEq, Repr

structure HeldOp where
  /-- Bit l: lane l of the issuing subset. -/
  lanes : BitVec 32
  /-- The lanes of the subset whose guard is true. -/
  guarded : BitVec 32
  pc : W32
  op : Held
deriving DecidableEq, Repr

/-- A group (R17, R23): its block slot, its index within the block, its lanes, its u registers and what its blocked
lanes wait for. -/
structure Grp where
  blk : SlotId
  idx : Nat
  lanes : List Lane
  u : Tbl W32 := []
  /-- The u registers that held operations have still to write, with the lanes of the operation, in issue order (R208). -/
  uOwner : List (Nat × BitVec 32) := []
  held : List HeldOp := []
deriving DecidableEq, Repr

/-- A byte of a store-buffer entry with the thread that wrote it last (R268, R272). -/
structure SbByte where
  v : Byte
  launch : Nat
  grp : SlotId
  lane : LaneId
deriving DecidableEq, Repr

/-- The last store of one launch into an entry (R481). -/
structure StoreMark where
  launch : Nat
  pc : W32
  blk : Nat
  thread : Nat
deriving DecidableEq, Repr

/-- A store-buffer entry (R267 to R270): bytes of one 128 B line. `line` is the global address / 128, or, for host
memory, 2^45 plus the host address / 128. -/
structure SbEntry where
  sag : SagId
  line : Nat
  hint : Nat
  bytes : Tbl SbByte := []
  draining : Bool := false
  marks : List StoreMark := []
  /-- Every thread that has a store in the entry: launch, group slot and lane. -/
  writers : List (Nat × SlotId × LaneId) := []
deriving DecidableEq, Repr

/-- A sub-core: its group slots, active set in order of entry, ready queue, the order in which the round robin of R18
serves the active groups, next one first, and its store buffer, oldest entry first (R18 to R21). -/
structure Sub where
  slots : Tbl Grp := []
  active : List SlotId := []
  ready : List SlotId := []
  ring : List SlotId := []
  buffer : List SbEntry := []
deriving DecidableEq, Repr

/-- What a launch gives its blocks and threads (R28, R206, R210, Table 11-9). -/
structure LaunchInfo where
  id : Nat := 0
  sag : SagId := 0
  ctx : Nat := 0
  ring : Nat := 0
  bx : Nat := 1
  bY : Nat := 1
  bz : Nat := 1
  gx : W32 := 1
  gy : W32 := 1
  gz : W32 := 1
  regs : Nat := 16
  lsBytes : Nat := 0
  objAddr : W64 := 0
  /-- LENGTH, CODE_OFFSET and CODE_LENGTH of the code object (Table 08-12). -/
  objLen : Nat := 192
  codeOfs : Nat := 128
  codeLen : Nat := 8
  entryPc : W32 := 0
  args : List W32 := []
  accFtz : Bool := false
  coRes : Bool := false
  rt : Bool := false
  split : Nat := 0
deriving DecidableEq, Repr

/-- A line of a cluster's instruction cache (R239): the saggar, the global address / 64 and the 64 bytes as they were filled. -/
structure CodeLine where
  sag : SagId
  line : Nat
  data : List Byte
deriving DecidableEq, Repr

/-- A resident block. `ls` is its local store by block-relative address: an unlisted byte holds 0. -/
structure Block where
  info : LaunchInfo
  lin : Nat
  /-- Sub-core and slot of each group, in order of group index. -/
  groups : List (SubId × SlotId)
  ls : Tbl Byte := []
deriving DecidableEq, Repr

/-- A line of the L1 (R112, R113): its global address, its bytes, its age and the instant its data was read at L2. -/
structure L1Line where
  addr : Nat
  data : List Byte
  age : Nat
  stamp : Nat
deriving DecidableEq, Repr

/-- A tracker of a load (R115, R116): one line of one sub-core. -/
structure Miss where
  sub : SubId
  line : Nat
  hint : Nat
deriving DecidableEq, Repr

/-- A tensor walk (Table 04-4). -/
structure Walk where
  base : Nat := 0
  store : Bool := false
  hint : Nat := 0
  ndim : Nat := 1
  tdim : Nat := 1
  run : Nat := 16
  slots : Nat := 1
  slotBase : Nat := 0
  slotStride : Nat := 0
  strides : List Int := []
  counts : List Nat := []
  pitch : Nat := 16
deriving DecidableEq, Repr

inductive StreamState where
  | idle
  | running
  | done
deriving DecidableEq, Repr

/-- A span in flight (R126): the slot, its offset in the slot's walk, its length and its addresses. -/
structure Span where
  ctx : Nat
  slot : Nat
  /-- The buffer address and the global address. -/
  gaddr : Nat
  vaddr : Nat
  laddr : Nat
  len : Nat
  /-- The span's number on its engine. -/
  id : Nat
deriving DecidableEq, Repr

/-- A stream context (R118, R122 to R125). `taken` slots have been granted to the group side, `posted` of them posted
back, `started` slots started by the engine, of the last of which `issued` bytes are issued, `moved` the bytes that
have arrived or drained of each slot not yet complete, `ended` slots complete. -/
structure Stream where
  st : StreamState := .idle
  walk : Walk := {}
  blk : SlotId := 0
  sub : SubId := 0
  grp : SlotId := 0
  lane : LaneId := 0
  pc : W32 := 0
  groupCount : Nat := 0
  engineCount : Nat := 0
  taken : Nat := 0
  posted : Nat := 0
  started : Nat := 0
  issued : Nat := 0
  moved : Tbl Nat := []
  ended : Nat := 0
  /-- Bytes of the slots of a STORE that have been read from local store, of each slot whose credit is not yet returned (R122). -/
  drained : Tbl Nat := []
  failed : Bool := false
  stopping : Bool := false
  /-- Entries of the arming sub-core's store buffer that must drain before the first span of a LOAD (R127). -/
  before : Nat := 0
  /-- Lanes of the arming group whose stores still waited for entries at the arming: they too come before that span. -/
  owed : BitVec 32 := 0
  /-- Number of this arming of the context. -/
  gen : Nat := 0
  /-- TOK.WAIT subsets in the order in which they blocked: sub-core, slot and the lanes of the held operation. -/
  waiters : List (SubId × SlotId × BitVec 32) := []
deriving DecidableEq, Repr

/-- An access engine: contexts, spans in flight in order of issue, the context served last, EXCESS_COUNT. -/
structure AEngine where
  streams : Tbl Stream := []
  spans : List Span := []
  last : Nat := 63
  excess : BitVec 8 := 0
  /-- Spans issued so far. -/
  seq : Nat := 0
deriving DecidableEq, Repr

/-- Table 01-7. -/
inductive CoreSt where
  | absent
  | spare
  | active
  | retiring
  | retired
  | test
deriving DecidableEq, Repr

/-- A core. -/
structure Core where
  st : CoreSt := .active
  partition : Option SagId := none
  split : Nat := 0
  faultCount : BitVec 8 := 0
  /-- A SPARE core's latest self-test passed (R47, R421). -/
  selfTest : Bool := true
  subs : List Sub := List.replicate 4 {}
  blocks : Tbl Block := []
  slabs : List Slab := List.replicate 4 {}
  lease : Option SlotId := none
  leaseQueue : List SlotId := []
  grantCount : BitVec 8 := 0
  /-- SLAB instructions issued so far. -/
  slabSeq : Nat := 0
  engines : List AEngine := List.replicate 4 {}
  l1 : Tbl L1Line := []
  misses : List Miss := []
  corrected : BitVec 16 := 0
  l1Refetch : BitVec 16 := 0
  /-- Powered seconds of the core's uncorrectable SRAM errors of the last 24 h, and of its corrected ones of the last
  hour with their numbers (Table 17-4). -/
  sramBadAt : List Nat := []
  sramFixedAt : List (Nat × Nat) := []
  replay : BitVec 32 := 0
deriving DecidableEq, Repr

end Sys2Proof.Machine
end

