-- ==== Sys2Proof/Machine/FabricState.lean ====
section
/-!
DEFINITION. The state of the Xator ports, slices, cone counters and link engines and of the Derset link (spec/13, 16).
-/
namespace Sys2Proof.Machine

/-- Table 13-3. -/
inductive PortSt where
  | unused
  | training
  | trainFail
  | checkFail
  | up
  | swap
  | test
  | down
  | retired
deriving DecidableEq, Repr

/-- XL_PLAN and XL_PORT_PEER (Table 13-11). -/
structure PlanReg where
  mode : BitVec 2 := 0
  port : BitVec 3 := 0
  slot : BitVec 6 := 0
  rack : BitVec 32 := 0
deriving DecidableEq, Repr

/-- A message of a port: a packet of Table 13-4, or SLICE_STOP (R358). -/
inductive XlMsg where
  | packet (p : Packet)
  | sliceStop (sliceId : BitVec 16) (origin : Coord) (cause : BitVec 2)
deriving DecidableEq, Repr

/-- What the type of a flit of a port or of the Derset link says of its body (R338, R339, R398, R399): bytes of packets or messages,
none in an idle flit; a message of CTL of a port; or a request to replay from a flit on. -/
inductive XlBody where
  | units (bs : List Byte)
  | sliceStop (sliceId : BitVec 16) (origin : Coord) (cause : BitVec 2)
  | replay (seq : BitVec 12)
deriving DecidableEq, Repr

/-- A flit: its header, with at most two credit returns (a channel or class and a count of 16 B units), and its body. -/
structure XlFlit where
  seq : BitVec 12
  acked : BitVec 12
  credits : List (Nat × Nat)
  body : XlBody
deriving DecidableEq, Repr

/-- A packet that waits at a port's output; a through packet keeps its place in the input buffer that it came by, at a port and in a
channel (R349). -/
structure OutPkt where
  pk : Packet
  came : Option (PortId × Nat)
deriving DecidableEq, Repr

/-- A Xator port (Tables 13-9, 13-10). `rxSeq` is the flit it takes next, `acked` the last flit
that the other side has acknowledged, `replayed` the flit replayed last with how often in succession (R339). -/
structure XlPort where
  swapThresh : BitVec 8 := 0x40
  loopback : Bool := false
  st : PortSt := .unused
  replayCount : BitVec 16 := 0
  swapCount : BitVec 8 := 0
  downCount : BitVec 8 := 0
  sparesUsed : Nat := 0
  downEvent : Bool := false
  failStep : BitVec 3 := 0
  result : BitVec 3 := 0
  plan : PlanReg := {}
  peer : PlanReg := {}
  /-- The identity that the port has sent in training step 5 (R343). -/
  sentId : Option PeerId := none
  rxSeq : BitVec 12 := 0
  acked : BitVec 12 := 0xFFF
  replayed : Option (BitVec 12 × Nat) := none
  /-- Loss of lock has stopped the port's packet flits while its recovery is queued (R416). -/
  stopped : Bool := false
  /-- The bytes of a packet that has not arrived whole, and the messages in the input buffer, in order of arrival. -/
  rxBytes : List Byte := []
  input : List XlMsg := []
  /-- By virtual channel, 4 for CTL: units of the other side's buffer that this one's messages take, and units to be returned. -/
  used : List Nat := [0, 0, 0, 0, 0]
  owed : List Nat := [0, 0, 0, 0, 0]
  /-- What waits at the output (R374): CTL, RSP and REQ, each in order of arrival. -/
  ctl : List (BitVec 16 × Coord × BitVec 2) := []
  rsp : List OutPkt := []
  req : List OutPkt := []
  /-- The deficit round-robin: the saggar whose turn it is, the credits in bytes, and the saggars whose last packet was a through
  packet. -/
  turn : SagId := 15
  deficit : Tbl Nat := []
  through : Tbl Bool := []
  /-- Of the current eight flit bodies: units granted, and units granted to CTL and RSP. -/
  granted : Nat := 0
  small : Nat := 0
  /-- The next sequence number, the last 2,048 flits sent, and everything the port has put on its wires. -/
  txSeq : BitVec 12 := 0
  sent : List XlFlit := []
  tx : List XlFlit := []
deriving DecidableEq, Repr

/-- XL_SLICE_k and XL_SLICE_STATUS_k (Tables 13-13, 13-14). -/
structure SliceReg where
  sliceId : BitVec 16 := 0
  valid : Bool := false
  wx : Bool := false
  wy : Bool := false
  wz : Bool := false
  exM1 : BitVec 6 := 0
  eyM1 : BitVec 6 := 0
  ezM1 : BitVec 6 := 0
  origin : Coord := 0
  stopCount : BitVec 8 := 0
  rejectCount : BitVec 8 := 0
  cause : BitVec 2 := 0
  stopOrigin : Coord := 0
  cfgReject : Bool := false
  stopped : Bool := false
deriving DecidableEq, Repr

/-- XL_CONE_n (Table 13-15). -/
structure Cone where
  assigned : Bool := false
  partition : SagId := 0
  value : BitVec 48 := 0
deriving DecidableEq, Repr

/-- A LINK node on a link engine (R354), or a SIGNAL with REMOTE: how many payload bytes are cut into packets, and how
many packets are unanswered. -/
structure LinkJob where
  id : Nat
  graph : Option (Nat × Nat)
  ring : Nat
  seq : W64
  sag : SagId
  ctx : Nat
  words : List W64
  signal : Bool
  cut : Nat := 0
  open_ : Nat := 0
deriving DecidableEq, Repr

/-- A tracker in use (R354): the job it serves, 0 when it was freed for no job, and DST_ADDR of its packet. -/
structure Tracker where
  job : Nat
  sag : SagId
  addr : BitVec 48
deriving DecidableEq, Repr

/-- A link engine: its jobs in order, its trackers, the saggar that sent last (R373). -/
structure LinkEngine where
  jobs : List LinkJob := []
  trackers : Tbl Tracker := []
  last : SagId := 15
deriving DecidableEq, Repr

/-- The edge dies. -/
structure Xator where
  ports : List XlPort := List.replicate 6 {}
  rackSerial : BitVec 32 := 0
  xwrap : Bool := false
  racksM1 : BitVec 4 := 0
  coord : Coord := 0
  discardCount : BitVec 8 := 0
  epochCount : BitVec 8 := 0
  authCount : BitVec 8 := 0
  lastPartition : BitVec 4 := 0
  lastReason : BitVec 4 := 0
  lastSource : Coord := 0
  discard : Bool := false
  slices : Tbl SliceReg := []
  cones : Tbl Cone := []
  engines : List LinkEngine := List.replicate 12 {}
  /-- SLICE_STOPs forwarded already: slice and origin (R358). -/
  seen : List (BitVec 16 × Coord) := []
deriving DecidableEq, Repr

/-- DL_STATUS.STATE (Table 16-9). -/
inductive LinkSt where
  | untrained
  | training
  | trainFail
  | up
  | swap
  | down
deriving DecidableEq, Repr

/-- Who issued an IO_RD or IO_WR (R407, R409). -/
inductive IoOwner where
  /-- A ring fetch: its ring, first entry, count. -/
  | fetch (ring : Nat) (first : W64) (count : Nat)
  /-- A load of host memory: the group's place, its launch, and the sector's host address. -/
  | load (core : CoreId) (sub : SubId) (grp : SlotId) (launch : Nat) (sector : Nat)
  /-- A span of host memory: core, access engine, and the span's number. -/
  | span (core : CoreId) (eng : EngId) (id : Nat)
  /-- A draining store-buffer entry of host memory: the sub-core, and the launches it serves with their last stores:
  launch, block index, thread, pc. -/
  | store (core : CoreId) (sub : SubId) (marks : List (Nat × Nat × Nat × W32))
  /-- A transfer of a copy engine: the node's number on the engine, and the offset in its source or destination. -/
  | copy (eng : CopyEngId) (job : Nat) (ofs : Nat)
  /-- A requester whose unit waits for the answer no more. -/
  | gone (who : Nat)
deriving DecidableEq, Repr

/-- A message of the device on the Derset link (Table 16-4). -/
inductive DlMsg where
  | ioRd (tag : BitVec 11) (addr : BitVec 52) (len : Nat)
  | ioWr (tag : BitVec 11) (addr : BitVec 52) (data : List (Option Byte))
  /-- The snoops, with the Derset address of the sector. -/
  | snpShared (l : LineId) (sector : Fin 2) (addr : BitVec 52)
  | snpInv (l : LineId) (sector : Fin 2) (addr : BitVec 52)
  | snpClean (l : LineId) (sector : Fin 2) (addr : BitVec 52)
  | dataS (tag : BitVec 11) (data : List Byte)
  | dataE (tag : BitVec 11) (data : List Byte)
  | dataM (tag : BitVec 11) (data : List Byte)
  | grant (tag : BitVec 11)
  | done (tag : BitVec 11)
  /-- A coherent read or write refused or met by an error (R385, R406). -/
  | refusal (tag : BitVec 11) (status : BitVec 4)
  /-- The data of C_RD_NA or of CFG_RD. -/
  | ioData (tag : BitVec 11) (status : BitVec 4) (data : List Byte)
  | ioDone (tag : BitVec 11) (status : BitVec 4)
  | int (v : Fin 18)
deriving DecidableEq, Repr

/-- A message of the host that has arrived (Tables 16-3, 16-4): its header, and the payload behind it. `malformed` says that a
reserved field is not 0. -/
structure DlIn where
  op : BitVec 8
  status : BitVec 4
  tag : BitVec 11
  be : BitVec 8
  addr : BitVec 52
  malformed : Bool
  data : List Byte
deriving DecidableEq, Repr

/-- An outstanding tag (R407): its owner, whether it is a write, its number in the order of sending, and its address. -/
structure IoTag where
  owner : IoOwner
  write : Bool
  order : Nat
  addr : BitVec 52
deriving DecidableEq, Repr

/-- The requesters among which the link grants (R407): the front end, the four dies, the copy engines. -/
structure IoReq where
  owner : IoOwner
  /-- 0 the front end, 1 to 4 the dies, 5 to 20 the copy engines. -/
  who : Nat
  write : Bool
  addr : BitVec 52
  len : Nat
  data : List (Option Byte) := []
deriving DecidableEq, Repr

/-- The Derset link. -/
structure Derset where
  snpTimeout : BitVec 16 := 0x7D0
  reqTimeout : BitVec 8 := 4
  swapThresh : BitVec 8 := 0x40
  st : LinkSt := .untrained
  failStep : BitVec 3 := 0
  replayCount : BitVec 16 := 0
  refusedCount : BitVec 8 := 0
  timeoutCount : BitVec 8 := 0
  swapCount : BitVec 8 := 0
  refused : Bool := false
  timeout : Bool := false
  swapped : Bool := false
  sparesTx : Nat := 0
  sparesRx : Nat := 0
  pending : BitVec 18 := 0
  mask : BitVec 18 := 0x3FFFF
  sentCount : BitVec 8 := 0
  rxSeq : BitVec 12 := 0
  acked : BitVec 12 := 0xFFF
  replayed : Option (BitVec 12 × Nat) := none
  stopped : Bool := false
  /-- Requests not yet granted, and the requester granted last. -/
  waiting : List IoReq := []
  lastWho : Nat := 0
  tags : Tbl IoTag := []
  /-- Tags that timed out and are not yet usable again (R409). -/
  stale : List (BitVec 11) := []
  /-- Requests sent so far. -/
  sent : Nat := 0
  /-- Interrupts that wait for earlier IO_WRs (R412): the vector and the number of requests sent before its cause. -/
  ints : List (Fin 18 × Nat) := []
  /-- By class of Table 16-2, in units of 16 B: what the host grants, what the device's messages take of it, and what is to be returned
  to the host. -/
  grant : List Nat := [0, 256, 4096, 257, 8192, 4]
  used : List Nat := [0, 0, 0, 0, 0, 0]
  owed : List Nat := [0, 0, 0, 0, 0, 0]
  /-- The bytes of a message that has not arrived whole, and the messages in the receive spaces, in order of arrival. -/
  rxBytes : List Byte := []
  input : List DlIn := []
  /-- Messages that wait for credits, in order; the next sequence number; the last 1,024 flits sent; everything the device has put on
  its wires, as messages and as flits. -/
  out : List DlMsg := []
  txSeq : BitVec 12 := 0
  kept : List XlFlit := []
  tx : List DlMsg := []
  flits : List XlFlit := []
deriving DecidableEq, Repr

end Sys2Proof.Machine
end

