-- ==== Sys2Proof/Machine/MemState.lean ====
section
/-!
DEFINITION. The state of the memory stacks, the channel engines, the pugmill codecs, the L2, the home nodes and the
fabric between the dies (spec/05, 06, 07 and 09).
-/
namespace Sys2Proof.Machine

/-- Table 05-2. -/
inductive ChanSt where
  | untrained
  | training
  | free
  | owned
  | retrain
  | failed
  | retired
deriving DecidableEq, Repr

/-- A key tag: a saggar and its key epoch (R147). -/
structure KeyTag where
  sag : SagId
  epoch : BitVec 4
deriving DecidableEq, Repr

/-- The traffic generator of a channel (Tables 05-7 to 05-10). -/
structure TrafficGen where
  seed : BitVec 31 := 1
  passes : BitVec 8 := 1
  pattern : BitVec 4 := 0
  first : BitVec 21 := 0
  last : BitVec 21 := 0x1FFFFF
  busy : Bool := false
  done : Bool := false
  mismatch : Bool := false
  rejected : Bool := false
  doneCount : BitVec 8 := 0
  mismatchCount : BitVec 8 := 0
  rejectCount : BitVec 8 := 0
  firstOffset : BitVec 32 := 0
  blocks : BitVec 24 := 0
  firstLane : BitVec 8 := 0
  elapsed : BitVec 32 := 0
  /-- The run in progress writes (patterns ADDR to WALK0); its range and pattern are those of its start. -/
  runPattern : BitVec 4 := 0
  runFirst : BitVec 21 := 0
  runLast : BitVec 21 := 0
  runSeed : BitVec 31 := 1
  runPasses : BitVec 8 := 1
deriving DecidableEq, Repr

/-- A channel with its controller and its channel engine (Tables 05-11 to 05-13, 06-10). `tag` is the current key
tag and `oldTag` the tag of the key slot not yet erased (R147). -/
structure Channel where
  st : ChanSt := .untrained
  partition : Option SagId := none
  failStep : BitVec 3 := 0
  corrected : BitVec 16 := 0
  retrainCount : BitVec 8 := 0
  keyRefusedCount : BitVec 8 := 0
  uncorrectedCount : BitVec 8 := 0
  retrained : Bool := false
  keyRefused : Bool := false
  uncorrected : Bool := false
  retrainThresh : BitVec 8 := 0x40
  patrol : Bool := true
  strong : Bool := false
  remapped : Nat := 0
  /-- Remap entries: bank and row, each on one spare row of its bank (R152). -/
  remaps : List (Nat × Nat) := []
  caSpare0 : BitVec 8 := 0
  caSpare1 : BitVec 8 := 0
  dqSpare : List (BitVec 8) := [0, 0, 0, 0]
  tag : Option KeyTag := none
  oldTag : Option KeyTag := none
  /-- Rows reported as remap candidates (R143, R423): bank and row. -/
  candidates : List (Nat × Nat) := []
  /-- Powered seconds of the corrected codewords of the last 24 h, by bank and row (R423). -/
  rowErrs : List ((Nat × Nat) × Nat) := []
  /-- Powered seconds of the uncorrectable events of the last 720 h (R424). -/
  uncErrs : List Nat := []
  /-- DQ lanes with errors and no spare in their group, and the powered second of the first (R424). -/
  bareLanes : List (Nat × Nat) := []
  /-- Corrected symbols by DQ lane with the powered second of each, and the powered seconds of CA parity errors (R151). -/
  laneErrs : List (Nat × Nat) := []
  parityErrs : List Nat := []
  /-- A change of ECC_MODE has still to zero the banks, which the stack's STOP withholds (R142, R156). -/
  zeroDue : Bool := false
  /-- The first 1 MiB still holds the ADDR pattern of training step 6 (R150). -/
  addrPattern : Bool := false
  /-- Refresh commands per bank, of 4,096 that cover its rows (R154). -/
  refreshed : Tbl Nat := []
  tg : TrafficGen := {}
  engine : Bool := true
  abortCount : BitVec 8 := 0
  dataErrCount : BitVec 8 := 0
  dataErr : Bool := false
deriving DecidableEq, Repr

/-- Table 05-4. -/
inductive Throttle where
  | none
  | actCap
  | half
  | stop
deriving DecidableEq, Repr

/-- The tag of a vector set (R172). -/
structure VsetTag where
  sag : SagId
  vbase : Nat
  vstride : Nat
  vecs : Nat
  k : Nat
  etype : Nat
deriving DecidableEq, Repr

structure Vset where
  tag : VsetTag
  data : List Byte
  /-- The operation it was fetched for. -/
  op : Nat
deriving DecidableEq, Repr

/-- One update of the accumulate path (R173): an element's address, the destination's and the source's types, and
the operation with the stack whose result it is, or the packet, it belongs to; the last update of a packet carries the port and the packet it commits. -/
inductive AccSource where
  | op (id : Nat) (st : StackId)
  | packet (id : Nat) (last : Option (PortId × Packet))
deriving DecidableEq, Repr

structure AccUpdate where
  sag : SagId
  addr : Nat
  /-- Element type of destination: FP32, BF16, FP16 or INT32 (Table 03-1). -/
  etype : Nat
  /-- Binary32 or INT32 words to add, one per element in ascending address. -/
  vals : List W32
  src : AccSource
deriving DecidableEq, Repr

/-- A memory stack: sensors and throttle (Table 05-14), stack reducer (Table 06-11) and codec (Table 07-9). -/
structure Stack where
  readings : List (BitVec 16) := []
  sensorFault : BitVec 17 := 0
  throttle : Throttle := .none
  temp : BitVec 16 := 0
  overtemp : Bool := false
  stopCount : BitVec 8 := 0
  rejectCount : BitVec 8 := 0
  vset : Option Vset := none
  staging : Option Vset := none
  /-- The saggar whose waiting operation was admitted last (R165). -/
  lastSag : SagId := 15
  accQueue : List AccUpdate := []
  /-- The channel-engine cap that the stack works under, from the power controller (R180, Table 06-11). -/
  cap : BitVec 5 := 0
  codec : Bool := true
  malformedCount : BitVec 8 := 0
  malformed : Bool := false
  lastPartition : BitVec 4 := 0
  lastReason : BitVec 4 := 0
  lastHome : BitVec 20 := 0
  lastChannel : BitVec 4 := 0
deriving DecidableEq, Repr

/-- A command's node: a ring's entry by its sequence number, or a node of a graph launch (R296, R314). -/
structure NodeRef where
  ring : Nat
  seq : W64
  graph : Option (Nat × Nat)
deriving DecidableEq, Repr

/-- Who issued a near-memory operation: a block (with its launch, its linear index, the pc and the thread for the fault record, and
the local-store address of the completion word) or the front end. -/
inductive NmIssuer where
  | block (core : CoreId) (slot : SlotId) (info : LaunchInfo) (lin : Nat) (pc : W32) (thread : Nat) (word : Nat)
  | node (n : NodeRef)
deriving DecidableEq, Repr

/-- One stack's share of an operation (R165, R170): waiting for admission, with parts left, or done. -/
inductive NmPhase where
  | waiting
  | running
  | done
deriving DecidableEq, Repr

structure NmShare where
  stack : StackId
  phase : NmPhase := .waiting
  /-- The place in the order of admission, on the model's count of numbers. -/
  adm : Nat := 0
  /-- The operation's own vector set is resident (RELOAD). -/
  loaded : Bool := false
  /-- Channels with a part-queue entry. -/
  parts : List ChanId := []
  /-- Channels whose part is not complete. -/
  left : List ChanId := []
  /-- Channel partials of a MATVEC: channel, row, vector, value. -/
  partials : List (ChanId × Nat × Nat × W32) := []
deriving DecidableEq, Repr

structure NmOp where
  id : Nat
  sag : SagId
  ctx : Nat
  issuer : NmIssuer
  words : List W64
  shares : List NmShare
  status : Nat := 0
  /-- Lines of a CLEAN written back so far (R176). -/
  cleaned : Nat := 0
deriving DecidableEq, Repr

/-- A codec operation (R195 to R198, R201): homes or units done and bytes of the packed stream. -/
structure CodecOp where
  id : Nat
  sag : SagId
  ctx : Nat
  node : NodeRef
  words : List W64
  done : Nat := 0
  bytes : Nat := 0
  /-- Symbol counts of a HISTOGRAM. -/
  counts : List Nat := List.replicate 256 0
  /-- The operation has stopped: its status, reason and address, while its result record is still to be written. -/
  stop : Option (Nat × Nat × Nat) := none
deriving DecidableEq, Repr

/-- Table 09-2: a home copy (HI is no entry). -/
inductive NearSt where
  | hc
  | hd
  | bad
deriving DecidableEq, Repr

structure NearLine where
  line : LineId
  st : NearSt
  age : Nat
  data : List Byte
deriving DecidableEq, Repr

/-- Table 09-2: a far copy. -/
inductive FarSt where
  | fs
  | fe
  | fm
deriving DecidableEq, Repr

structure FarLine where
  line : LineId
  st : FarSt
  data : List Byte
  /-- A grant brought it and no operation has used it since: whether the home snooped another copy for it (R256). -/
  won : Option Bool := none
deriving DecidableEq, Repr

/-- An entry of the reservation array of the homes of a die (R259), in order of allocation. -/
structure RsvEntry where
  slice : Nat
  pair : Nat
  mask : BitVec 4
deriving DecidableEq, Repr

/-- Way masks of one saggar on one die (Table 09-6). -/
structure WayMask where
  core : BitVec 15 := 0x7FFF
  ae : BitVec 15 := 0x7FFF
  engine : BitVec 15 := 0x7FFF
deriving DecidableEq, Repr

/-- A compute die: its L2 slices, predictors, reservation array, masks, status, slab ramp and C-cycle counter. Near
lines are keyed (slice * 1024 + set) * 16 + way, far lines slice * 1024 + set. -/
structure Die where
  near : Tbl NearLine := []
  far : Tbl FarLine := []
  predictor : Tbl Nat := []
  rsvArray : List RsvEntry := []
  /-- The last die to execute a far operation on a line of this die's homes (R256). -/
  lastFar : Tbl DieId := []
  masks : Tbl WayMask := []
  corrected : BitVec 16 := 0
  stale : BitVec 16 := 0
  badCount : BitVec 8 := 0
  bad : Bool := false
  farAtomics : BitVec 16 := 0
  ramp : BitVec 2 := 1
  clock : W64 := 0
deriving DecidableEq, Repr

/-- A snoop-filter entry of a far slot (R252). -/
structure FiltEntry where
  line : LineId
  unique : Bool
deriving DecidableEq, Repr

inductive SectorSt where
  | inv
  | shared
  | unique
deriving DecidableEq, Repr

/-- A host-filter entry (R262), in order of allocation. -/
structure HostEntry where
  line : LineId
  s0 : SectorSt := .inv
  s1 : SectorSt := .inv
deriving DecidableEq, Repr

/-- A request at a home node (Table 09-3, R406). -/
inductive HomeReq where
  | readShared (d : DieId) (cls : ReqClass) (hint : BitVec 2)
  | readUnique (d : DieId) (cls : ReqClass) (hint : BitVec 2)
  | upgrade (d : DieId)
  | readNa (src : ReqSrc)
  | writeNa (src : ReqSrc) (mask : BitVec 128) (data : List Byte)
  | atomFar (d : DieId) (a : FarAtom)
  | ldxFar (d : DieId) (ofs : Fin 128) (wide : Bool)
  | stxFar (d : DieId) (ofs : Fin 128) (wide : Bool) (v : W64)
  | hostShared (tag : BitVec 11) (sector : Fin 2)
  | hostUnique (tag : BitVec 11) (sector : Fin 2)
  | hostUpgrade (tag : BitVec 11) (sector : Fin 2)
  | hostRdNa (tag : BitVec 11) (ofs : Nat) (len : Nat)
  | hostWrNa (tag : BitVec 11) (ofs : Nat) (data : List Byte)
  /-- The back-invalidation of a host-filter entry (R262). -/
  | backInv
  /-- A line of a CLEAN that a sector of the host holds UNIQUE (R176), for a channel engine of die `d`. -/
  | clean (d : DieId) (op : Nat)
deriving DecidableEq, Repr

/-- An agent a home waits on for a snoop's answer. -/
inductive SnoopTarget where
  | die (d : DieId)
  | host (sector : Fin 2)
deriving DecidableEq, Repr

/-- The open transaction of a line (R249): its request, the snoops unanswered, whether any copy was snooped, and whether the
home copy was there when it opened. -/
structure Txn where
  req : HomeReq
  waiting : List SnoopTarget
  snooped : Bool
  hit : Bool
deriving DecidableEq, Repr

/-- Whom the hold time of a line protects (R255, R262). -/
inductive Holder where
  | die (d : DieId)
  | host
deriving DecidableEq, Repr

/-- A line at its home: the requests accepted, in order, the open transaction, and whom the hold time protects (R255). -/
structure HomeLine where
  queue : List HomeReq := []
  txn : Option Txn := none
  hold : Option Holder := none
deriving DecidableEq, Repr

/-- A message of the fabric on its way (Table 09-3), beside the requests, which stand in the home's queue. A grant says whether
the home snooped another copy for it (R256); DATA_S says whether it fills a far way. -/
inductive FabMsg where
  | snpShared (d : DieId) (l : LineId)
  | snpInvalidate (d : DieId) (l : LineId)
  | snpClean (d : DieId) (l : LineId)
  | rsvKill (d : DieId) (l : LineId)
  | dataS (src : ReqSrc) (l : LineId) (data : List Byte) (far : Bool)
  | dataE (d : DieId) (l : LineId) (data : List Byte) (snooped : Bool)
  | dataM (d : DieId) (l : LineId) (data : List Byte) (snooped : Bool)
  | grant (src : ReqSrc) (l : LineId) (upgrade : Bool) (snooped : Bool)
  /-- The error that a requester receives in place of its answer (R143, R264). -/
  | error (src : ReqSrc) (l : LineId)
  | snpData (t : SnoopTarget) (l : LineId) (kept : Bool) (data : List Byte)
  | snpAck (t : SnoopTarget) (l : LineId) (kept : Bool)
  | notPresent (t : SnoopTarget) (l : LineId)
  | writeBack (d : DieId) (l : LineId) (data : List Byte)
  | result (d : DieId) (l : LineId) (vals : List W64)
deriving DecidableEq, Repr

/-- The receiving end of a die-to-die bridge (R244): the next sequence number it takes, its replay requests, and whether a flit
that failed its check has still to come again. -/
structure Bridge where
  rxSeq : BitVec 12 := 0
  replays : Nat := 0
  resend : Bool := false
deriving DecidableEq, Repr

end Sys2Proof.Machine
end

