-- ==== Sys2Proof/Machine/HostState.lean ====
section
/-!
DEFINITION. The state the host drives: rings and their entries, dispatch, graphs, contexts, memory objects, fences,
saggars and the security processor (spec/11, 12, 14 and 15).
-/
namespace Sys2Proof.Machine

/-- DB_QSTATUS.STATE (Table 11-6). -/
inductive RingSt where
  | disabled
  | active
  | faulted
  | destroying
deriving DecidableEq, Repr

/-- How far a ring entry or a graph node has come (R299, R302, R303, R314). `waiting` is a node with predecessors
left; `fetched` is not yet checked; `held` is a GRAPH or PATCH that waits at fetch; `ready` has passed its checks. -/
inductive NodeSt where
  | waiting
  | fetched
  | held
  | ready
  | started
  | completed
  | failed
  | skipped
deriving DecidableEq, Repr

/-- A node: its descriptor, its state, the objects it holds (R324), the launch it has prepared (R297) and the version
a GRAPH entry pins (R314). -/
structure Node where
  seq : W64 := 0
  words : List W64 := []
  st : NodeSt := .fetched
  objs : List Nat := []
  launch : Option LaunchInfo := none
  version : Nat := 0
  /-- The weight key of a SEALED_LOAD, from its fetch on (R391). -/
  key : Option (List Byte) := none
  /-- A GRAPH entry that waits at fetch has passed the check of its fence, whose page it holds from then on (R330). -/
  passed : Bool := false
deriving DecidableEq, Repr

/-- How a ring's read of entries has been answered (R408, R409). -/
inductive FetchAns where
  | pending
  | data (bs : List Byte)
  | failed (addr : Nat)
deriving DecidableEq, Repr

/-- A ring's read of entries (R295, R307): its first sequence number and how many, and its answer while an earlier read is still
unanswered. -/
structure RingFetch where
  first : W64
  count : Nat
  ans : FetchAns := .pending
deriving DecidableEq, Repr

/-- A ring with its registers and its doorbell page (Tables 11-1 to 11-6). -/
structure Ring where
  base : BitVec 40 := 0
  rtCopy : Bool := false
  rtCores : BitVec 8 := 0
  qfence : BitVec 16 := 0
  context : BitVec 16 := 0
  partition : SagId := 0
  rt : Bool := false
  sizeLog2 : BitVec 5 := 6
  st : RingSt := .disabled
  tail : W64 := 0
  retired : W64 := 0
  /-- The next sequence number to fetch. -/
  next : W64 := 0
  entries : List Node := []
  /-- The reads of entries that are on their way, in sequence order. -/
  fetches : List RingFetch := []
  failSeq : BitVec 32 := 0
  failCount : BitVec 8 := 0
  rejectCount : BitVec 8 := 0
  failCode : BitVec 8 := 0
  enableReject : Bool := false
  enableRejectCount : BitVec 8 := 0
  dbReject : Bool := false
  failed : Bool := false
  /-- An entry failed since the last enable or resume: FAIL_SEQ and FAIL_CODE hold the first. -/
  failHeld : Bool := false
  /-- Cores and copy engine reserved for the ring (R310). -/
  cores : List CoreId := []
  engine : Option CopyEngId := none
  /-- The reservations that have taken effect. -/
  coresIn : List CoreId := []
  engineIn : Bool := false
  /-- In destruction: the grace period is over (R333), and something was skipped or aborted. -/
  graceOver : Bool := false
  /-- The grace period read when DESTROY was written (R332), in µs. -/
  graceUs : Nat := 0
deriving DecidableEq, Repr

/-- A launch admitted to dispatch (R280, R308, R309, R37). `next` is the next block to hand to a sequencer, `returned` are
blocks that a sequencer could not place, `retired` is how many blocks have retired. -/
structure Launch where
  info : LaunchInfo
  node : NodeRef
  next : Nat := 0
  returned : List Nat := []
  retired : Nat := 0
  blocks : Nat := 1
  aborted : Bool := false
  faulted : Bool := false
  /-- A place is chosen for every block of the co-resident launch (R37). -/
  chosen : Bool := false
  /-- The places chosen for the blocks not yet handed on, in block order. -/
  places : List CoreId := []
deriving DecidableEq, Repr

/-- A block handed to a cluster sequencer and not yet admitted (R309); a block of a co-resident launch has its core
chosen (R37). -/
structure Handed where
  launch : Nat
  lin : Nat
  cluster : ClusterId
  core : Option CoreId := none
deriving DecidableEq, Repr

/-- A node on a copy engine (R298, R483). Its transfers: `asked` bytes of the source asked for, `reads` the source offsets of those
that the host has not answered, `got` the answered ones not yet used, `used` source bytes used, `out` bytes ready to be written from
destination offset `wrote` on, `writes` the destination offsets of writes that the host has not answered. Of a SEALED_LOAD, `head`
is the header and `chunk` what has been read of the chunk after the ones that verified. -/
structure CopyJob where
  id : Nat
  node : NodeRef
  words : List W64
  sag : SagId
  ctx : Nat
  engine : CopyEngId
  /-- The weight key that a SEALED_LOAD holds (R391). -/
  key : Option (List Byte) := none
  asked : Nat := 0
  reads : List Nat := []
  got : Tbl (List Byte) := []
  used : Nat := 0
  out : List Byte := []
  wrote : Nat := 0
  writes : List Nat := []
  head : List Byte := []
  chunk : List Byte := []
  /-- The plaintext written so far, where the node is measured. -/
  plain : List Byte := []
  /-- The draw of the unspecified bytes of a copy whose extents overlap. -/
  free : Option Nat := none
  /-- The node has failed: status and address. -/
  fail : Option (Nat × Nat) := none
deriving DecidableEq, Repr

/-- A WAIT held in the front end (R301). -/
structure WaitJob where
  id : Nat
  node : NodeRef
  sag : SagId
  ctx : Nat
  cone : Bool
  num : Nat
  target : W64
  ignoreErr : Bool
  timed : Bool
deriving DecidableEq, Repr

/-- A graph launch (R314 to R316): its slot and version, its nodes by index, the fence and value of its end. -/
structure GraphRun where
  id : Nat
  node : NodeRef
  slot : Nat
  version : Nat
  nodes : List Node
  fence : Nat
  value : W64
  failed : Bool := false
  started : Bool := false
deriving DecidableEq, Repr

/-- Table 11-13. -/
inductive SlotSt where
  | free
  | bound
  | releasing
deriving DecidableEq, Repr

/-- A version of a graph (R316): its number and its nodes' descriptors. -/
structure GraphVersion where
  num : Nat
  nodes : List (List W64)
deriving DecidableEq, Repr

/-- A graph slot (R312, R313). -/
structure GraphSlot where
  st : SlotSt := .free
  sag : SagId := 0
  ctx : BitVec 16 := 0
  storeObj : Nat := 0
  storeOfs : Nat := 0
  storeLen : Nat := 0
  edges : List (Nat × Nat) := []
  /-- Live versions, oldest first; the last is current. -/
  versions : List GraphVersion := []
deriving DecidableEq, Repr

/-- Table 12-7. -/
structure FaultRec where
  valid : Bool := false
  code : BitVec 8 := 0
  status : BitVec 8 := 0
  ring : BitVec 10 := 0
  source : BitVec 4 := 0
  count : BitVec 8 := 0
  seq : BitVec 32 := 0
  node : BitVec 16 := 0
  thread : BitVec 10 := 0
  pc : BitVec 32 := 0
  bidX : BitVec 32 := 0
  bidY : BitVec 16 := 0
  bidZ : BitVec 16 := 0
  addr : W64 := 0
deriving DecidableEq, Repr

/-- Table 12-1. -/
inductive CtxSt where
  | free
  | open
  | closing
deriving DecidableEq, Repr

structure Ctx where
  st : CtxSt := .free
  gen : BitVec 4 := 0
  sag : SagId := 0
  fault : FaultRec := {}
deriving DecidableEq, Repr

/-- Table 12-10. -/
inductive ObjSt where
  | free
  | live
  | draining
  | scrubbing
deriving DecidableEq, Repr

/-- A memory object (R322 to R325). `launches` are the launches admitted before its OBJ_FREE that hold it. -/
structure Obj where
  st : ObjSt := .free
  tag : BitVec 16 := 0
  sag : SagId := 0
  host : Bool := false
  ro : Bool := false
  hostMap : Bool := false
  base : BitVec 48 := 0
  len : BitVec 48 := 0
  aperture : BitVec 35 := 0
  scrub : Bool := false
  launches : List Nat := []
deriving DecidableEq, Repr

/-- FNC_STATUS.STATE (Table 12-12). -/
inductive PageSt where
  | free
  | live
  | draining
deriving DecidableEq, Repr

structure FencePage where
  st : PageSt := .free
  owner : BitVec 16 := 0
  remote : Bool := false
  grants : List (BitVec 16) := []
deriving DecidableEq, Repr

structure Fence where
  value : W64 := 0
  ooo : BitVec 8 := 0
  abandonedCount : BitVec 8 := 0
  errorCount : BitVec 8 := 0
  abandoned : Bool := false
  error : Bool := false
deriving DecidableEq, Repr

/-- A command port: its status and the count of refused writes (Tables 12-5, 14-5, 15-5, 17-10). -/
structure Port where
  busy : Bool := false
  refused : Bool := false
  refusedCount : BitVec 8 := 0
  status : BitVec 8 := 0
  result : BitVec 32 := 0
  /-- A command still being checked: its word and its operands. -/
  todo : List W64 := []
deriving DecidableEq, Repr

/-- The OBJ block and the tables behind it. -/
structure ObjBlock where
  port : Port := {}
  arg0 : W64 := 0
  arg1 : W64 := 0
  arg2 : W64 := 0
  ctxSel : BitVec 12 := 0
  ctxs : Tbl Ctx := []
  objs : Tbl Obj := []
  pages : Tbl FencePage := []
  fences : Tbl Fence := []
deriving DecidableEq, Repr

/-- The global front end and the copy engines' queues. -/
structure FrontEnd where
  rings : Tbl Ring := []
  grace : BitVec 17 := 0x3E8
  launches : List Launch := []
  /-- Launches in dispatch, in order of entry: real-time and bulk (R308). -/
  rtQueue : List Nat := []
  bulkQueue : List Nat := []
  /-- Blocks with the sequencers, in order. -/
  handed : List Handed := []
  copies : List CopyJob := []
  waits : List WaitJob := []
  graphs : Tbl GraphSlot := []
  runs : List GraphRun := []
  /-- Fetch turns (R307): the last ring of each class, and whether the last turn was real-time. -/
  lastRt : RingId := 1023
  lastBulk : RingId := 1023
  turnRt : Bool := false
  /-- The saggar whose block was handed on last (R309). -/
  lastSag : SagId := 15
  /-- The next number of a launch, an operation, a wait or a graph launch. -/
  nextId : Nat := 1
deriving DecidableEq, Repr

/-- Table 14-2. -/
inductive SagSt where
  | none
  | creating
  | open
  | sealed
  | resetting
  | removing
deriving DecidableEq, Repr

/-- A measurement entry (Table 15-7), 64 bytes. -/
abbrev LogEntry := List Byte

/-- A removal record (R397). -/
structure Removal where
  oldEpoch : BitVec 4
  epoch : BitVec 4
  channels : List (BitVec 64)
  entries : BitVec 32
  overflow : BitVec 64
  digest : List Byte
  serial : BitVec 64
  log : List LogEntry
deriving DecidableEq, Repr

/-- A saggar: its request registers (Tables 14-7, 14-9, 14-10, R366), its life cycle, its performance counters (R395)
and what the security processor holds for it (Table 15-1). A memory key pair and an ephemeral key are numbers of the
security processor's own: their bits leave it through no register. -/
structure Saggar where
  st : SagSt := .none
  clusters : BitVec 16 := 0
  copy : BitVec 16 := 0
  linkWeight : BitVec 4 := 1
  lsSplit : BitVec 4 := 0
  chans : List (BitVec 64) := [0, 0, 0, 0]
  ways : WayMask := {}
  coneFirst : BitVec 12 := 0
  coneCount : BitVec 13 := 0
  qGraphs : BitVec 13 := 0
  qPages : BitVec 10 := 0
  qObjects : BitVec 17 := 0
  qContexts : BitVec 13 := 0
  qRings : BitVec 11 := 0
  /-- The reserved bits as written: of PT_CFG_k (0), PT_WAYS_k (1) and PT_CONE_k (2) (Table 14-6, BAD_OP). -/
  reserved : Tbl W64 := []
  /-- A saggar that was SEALED returns to SEALED after a reset (R368). -/
  wasSealed : Bool := false
  sealing : Bool := false
  /-- A DESTROY waits for the reset to end (R365). -/
  destroyWaits : Bool := false
  epoch : BitVec 4 := 0
  memKey : Option Nat := none
  linkKey : Option (List Byte) := none
  slice : Option (List Byte) := none
  ephemeral : Option Nat := none
  weightKeys : Tbl (List Byte) := []
  log : List LogEntry := []
  overflow : BitVec 64 := 0
  overflowDigest : List Byte := List.replicate 48 0
  /-- Digests of the last 8 reports of the current epoch, oldest first (R389). -/
  reports : List (List Byte) := []
  removal : Option Removal := none
  books : Tbl (List Byte) := []
  perfSel : W64 := 0
  perf : List W64 := [0, 0, 0, 0, 0, 0, 0, 0]
  perfTrue : List Nat := [0, 0, 0, 0, 0, 0, 0, 0]
  perfRestart : BitVec 8 := 0
  /-- Packets numbered since the epoch began (R351). -/
  sent : W64 := 0
deriving DecidableEq, Repr

/-- A firmware image slot of the flash (Table 15-2): SVN, build, whether the ROM finds it valid, its bytes written by
FW_WRITE and its digests as the ROM computes them. -/
structure FlashSlot where
  svn : BitVec 32 := 1
  build : BitVec 64 := 0
  valid : Bool := true
  erased : Bool := false
  spfDigest : List Byte := List.replicate 48 0
  scfDigest : List Byte := List.replicate 48 0
  written : Tbl (List Byte) := []
deriving DecidableEq, Repr

/-- The security processor. -/
structure Security where
  port : Port := {}
  hostDeny : BitVec 8 := 0
  /-- SEC_BUF: an unlisted byte is 0. -/
  buf : Tbl Byte := []
  slots : List FlashSlot := [{}, {}]
  /-- Slots whose header the first FW_WRITE since boot has erased (R381). -/
  updated : List Bool := [false, false]
  bootSlot : Fin 2 := 0
  fusedSvn : BitVec 32 := 1
  bootId : List Byte := List.replicate 16 0
  deviceId : List Byte := List.replicate 48 0
  romVersion : BitVec 32 := 0
  certs : List Byte := []
  removals : BitVec 64 := 0
  /-- Requests to the random generator since it was reseeded (R376), and the number of the next key it makes. -/
  drbg : Nat := 0
  nextKey : Nat := 1
  seedLocked : Bool := false
deriving DecidableEq, Repr

/-- The PT block beside the saggars' own registers (Tables 14-4, 14-5, R370). -/
structure PartBlock where
  port : Port := {}
  /-- Channels with an open test window. -/
  windows : List ChanId := []
deriving DecidableEq, Repr

end Sys2Proof.Machine
end

