-- ==== Sys2Proof/Machine/ServiceState.lean ====
section
/-!
DEFINITION. The state of service firmware, the firing log, the crazing record, recovery, start-up, power, clocks, the
sideband and JTAG (spec/17, 18, 19), and the GEN block (spec/20).
-/
namespace Sys2Proof.Machine

/-- RAS_STATUS.DOMAIN (Table 17-10). -/
inductive DomainSt where
  | running
  | stopped
  | resetting
deriving DecidableEq, Repr

/-- A firing-log entry (Table 17-6) and whether the window has read it (R426). -/
structure LogRec where
  seq : BitVec 32
  code : BitVec 8
  cls : BitVec 3
  partition : BitVec 5
  unit : BitVec 16
  time : W64
  detail0 : W64
  poweredS : BitVec 32
  detail1 : BitVec 32
  read : Bool := false
deriving DecidableEq, Repr

/-- A recovery of Table 17-2. -/
inductive Recovery where
  | xlLane (n : PortId) (lane : Nat) (loss : Bool)
  | dlLane (rx : Bool) (lane : Nat) (loss : Bool)
  | dqLane (ch : ChanId) (lane : Nat)
  | caLane (ch : ChanId) (lane : Nat)
  | row (ch : ChanId) (bank row : Nat)
  | failover (c : Nat)
deriving DecidableEq, Repr

/-- A service control core (R420). -/
structure Scc where
  failed : Bool := false
  /-- The role it holds, 0 to 2; the standby holds none. -/
  role : Option Nat := none
deriving DecidableEq, Repr

/-- The counters of the crazing record (Table 17-9), in Nat where they only grow. -/
structure Crazing where
  seq : W64 := 0
  poweredS : W64 := 0
  energyWs : Nat := 0
  thermalCycles : BitVec 32 := 0
  powerOns : BitVec 32 := 0
  dieBins : List Nat := List.replicate 14 0
  stackBins : List (List Nat) := List.replicate 16 (List.replicate 14 0)
  coresRetired : BitVec 16 := 0
  sparesUsed : BitVec 16 := 0
  rowsRemapped : BitVec 32 := 0
  failovers : BitVec 8 := 0
  portsRetired : BitVec 8 := 0
  channelsRetired : List (BitVec 64) := [0, 0, 0, 0]
  coreMap : List (BitVec 64) := [0, 0, 0, 0]
  errors : List Nat := List.replicate 8 0
  fwChanges : BitVec 32 := 0
  stampFirst : Option (W64 × W64) := none
  stampLast : Option (W64 × W64) := none
  wearT : W64 := 0
  wearC : W64 := 0
  remainingHours : BitVec 32 := 0xFFFFFFFF
  remainingDays : BitVec 16 := 0xFFFF
  lifeWarned : Bool := false
  /-- The thermal-cycle detector of R429, in sixteenths of a degree. -/
  rising : Bool := true
  lo : Option Int := none
  hi : Int := 0
deriving DecidableEq, Repr

/-- A summary held in the flash: W in units of 2^-32 (R428, R431), the counters it was made from, and its bytes. -/
structure Summary where
  wear : Nat
  counters : Crazing
  bytes : List Byte
deriving DecidableEq, Repr

/-- Service firmware and its registers (Tables 17-10 to 17-14, 19-7, 19-8, 20-5). -/
structure Ras where
  domain : DomainSt := .running
  serviceOrdering : Bool := false
  /-- STX that have failed on a 256 B pair in service ordering mode since one succeeded there (R225): the model's own count. -/
  stxTries : Tbl Nat := []
  stopCount : BitVec 8 := 0
  recoveryCount : BitVec 8 := 0
  lastStop : BitVec 8 := 0
  port : Port := {}
  /-- The domain stop came from the Derset link in DOWN (R419). -/
  stopByLink : Bool := false
  calReject : Bool := false
  calRejectCount : BitVec 8 := 0
  sccs : List Scc := [⟨false, some 0⟩, ⟨false, some 1⟩, ⟨false, some 2⟩, ⟨false, none⟩]
  standby : Bool := true
  running : Option Recovery := none
  queue : List Recovery := []
  log : List LogRec := []
  /-- Entries that H buffers during a failover of the core that holds the firing log, oldest first; their numbers come later (R420). -/
  logHeld : List LogRec := []
  nextSeq : BitVec 32 := 0
  lostCount : BitVec 8 := 0
  /-- The C-cycle counter of H (Table 17-6). -/
  clock : W64 := 0
  /-- Bridges declared dead (Table 17-3, step 3). -/
  deadBridges : List BridgeId := []
  -- RAS_START
  failDetail : BitVec 16 := 0
  failedChannels : BitVec 9 := 0
  qstate : BitVec 4 := 0
  fallback : Bool := false
  fail : BitVec 4 := 0
  phase : BitVec 4 := 0
  timeoutMs : BitVec 16 := 100
  /-- Rings of a running quiesce were destroyed (Table 19-6, step 2). -/
  quiesceAborted : Bool := false
  /-- A start-up that has not ended: what it meets (R454). -/
  starting : Option StartEnv := none
  /-- Its step in progress has ended, and the next has not begun (R465). -/
  stepEnded : Bool := false
  /-- The record counts this power-on already (POWER_ONS). -/
  powerCounted : Bool := false
  -- The flash
  /-- SVN and BUILD of the image that ran last. -/
  lastImage : BitVec 32 × BitVec 64 := (1, 0)
  craze : Crazing := {}
  summaries : List Summary := []
  repair : List (BitVec 32) := []
  history : List (LogRec × W64) := []
deriving DecidableEq, Repr

/-- INPUT_STATE, and the module fully off (Table 18-4). -/
inductive InputSt where
  | off
  | standby
  | operating
  | brownout
  | overvolt
deriving DecidableEq, Repr

/-- The five caps (R446), each c of c / 20. -/
structure Caps where
  slab : Nat := 17
  nm : Nat := 4
  mem : Nat := 20
  link : Nat := 20
  issue : Nat := 20
deriving DecidableEq, Repr

/-- Power, clocks and sensors (Tables 18-13 to 18-16), with the pins. -/
structure Power where
  limit : BitVec 10 := 0
  profile : BitVec 2 := 0
  /-- The profile and limit that the loop has taken up (R447, R448). -/
  profileNow : BitVec 2 := 0
  limitNow : BitVec 10 := 0
  caps : Caps := {}
  below : Nat := 0
  brownoutCount : BitVec 8 := 0
  overvoltCount : BitVec 8 := 0
  refclkCount : BitVec 8 := 0
  limitRejectCount : BitVec 8 := 0
  sensorCount : BitVec 8 := 0
  sbTimeoutCount : BitVec 8 := 0
  resetCause : BitVec 4 := 0
  jthrottle : Bool := false
  holdover : Bool := false
  input : InputSt := .standby
  sbTimeout : Bool := false
  sensorFault : Bool := false
  limitReject : Bool := false
  refclkFault : Bool := false
  overvolt : Bool := false
  brownout : Bool := false
  inputW : BitVec 16 := 0
  inputDv : BitVec 10 := 0
  hotC : BitVec 8 := 0
  hotH : BitVec 8 := 0
  hotE : BitVec 8 := 0
  /-- Previous junction samples: 64 of the compute dies, then 12 of H, E0 and E1; the dies' hottest readings. -/
  junctions : List (BitVec 16) := []
  junctionC : Int := 0
  junctionH : Int := 0
  junctionE : Int := 0
  /-- Sensors whose latest sample was plausible and at 110 °C or above (R449). -/
  hotSensors : List Nat := []
  /-- The input readings in use, in mV and mA, and whether no current sensor is plausible (R451). -/
  volts : List Int := []
  amps : List Int := []
  ampsLost : Bool := false
  refclkOk : Bool := true
  mainRails : Bool := false
  railFail : Bool := false
  /-- The main rails stay off until PWR_EN goes low. -/
  railsHeld : Bool := false
  /-- OV shutdown: OFF until the input has fallen below 54.0 V. -/
  ovShutdown : Bool := false
  pwrEn : Bool := false
  resetN : Bool := true
  pwrgd : Bool := false
  readyOff : Bool := false
  thermtrip : Bool := false
  -- the sideband
  straps : Fin 8 := 0
  dynamicAddr : Option (BitVec 7) := none
  /-- The last answer of the target: bytes, or a NACK. -/
  sbAnswer : Option (List Byte) := none
  sbNack : Bool := false
  -- JTAG
  jtag : BitVec 3 := 0
  /-- The data register between TDI and TDO, and whether the boundary cells drive the outputs. -/
  jtagReg : BitVec 32 := 0
  boundary : BitVec 12 := 0
  outputsHeld : Bool := false
  outputsOff : Bool := false
deriving DecidableEq, Repr

/-- What final test fixed (R8, R45, R477, R380): the cores absent, the spare of each cluster, the copy engines off, the serial
number, and the device identity and device CA certificates, which lie from byte 0 of the lifetime-record area on. A channel engine and a codec that are off stand with their channel and their stack. -/
structure Fuses where
  coresAbsent : List CoreId := []
  spareOf : List (Fin 16) := List.replicate 16 15
  copyOff : List CopyEngId := []
  serial : W64 := 1
  certArea : List Byte := Config.deviceCerts
deriving DecidableEq, Repr

/-- The GEN block's own state: whether the maps are final, and HARVEST_CHANGED with its count. -/
structure Gen where
  mapped : Bool := false
  changed : Bool := false
  count : BitVec 8 := 0
deriving DecidableEq, Repr

end Sys2Proof.Machine
end

