-- ==== Sys2Proof/Machine/State.lean ====
section
/-!
DEFINITION. The state of the block: every unit of the module with its registers, the memory, the messages on their
way, and the queue of commands that wait. The reset values of the units are the default values of their fields.
-/
namespace Sys2Proof.Machine

/-- Why a step stops with a fault. -/
inductive Fault where
  /-- Raised by nothing: what the manual calls a fault of a thread, a node or the device is an effect on the state.
  Safe. -/
  | none
deriving DecidableEq, Repr

/-- Why a step is refused. -/
inductive Refusal where
  /-- Raised by Dispatch.lean for a command without a meaning. Safe. -/
  | notModelled (mnemonic : String)
deriving DecidableEq, Repr

/-- The module. -/
structure State where
  pending : List Instr
  /-- Device memory in plaintext: byte O of channel p under the key p * 2^32 + O; an unlisted byte is 0. -/
  dram : List Host.Cell
  /-- The symbol errors of the bursts in the banks, by line (R139 to R143). -/
  symErrs : Tbl (List SymErr)
  cores : Tbl Core
  /-- The instruction caches of the clusters, each with its latest fill first (R239). -/
  icaches : Tbl (List CodeLine)
  dies : List Die
  chans : Tbl Channel
  memStacks : List Stack
  nmOps : List NmOp
  codecOps : List CodecOp
  homes : Tbl HomeLine
  fabric : List FabMsg
  filter : Tbl FiltEntry
  hostFilter : List HostEntry
  backinv : BitVec 16
  bridges : List Bridge
  fe : FrontEnd
  obj : ObjBlock
  pt : PartBlock
  sags : Tbl Saggar
  sec : Security
  xl : Xator
  dl : Derset
  ras : Ras
  pwr : Power
  gen : Gen
  fuses : Fuses
  /-- Draws of free values so far: the model's own. -/
  free : Nat
  /-- Steps that ordered an access so far: the model's own clock of ordering points and line ages (R276). -/
  now : Nat
deriving DecidableEq, Repr

/-- The spare core of cluster g: core 15 of the cluster. -/
def spareCores : Tbl Core := (List.range 16).map (fun g => (16 * g + 15, { st := .spare }))

/-- The module when the standby domain has come up from OFF (Table 18-8, power-on). -/
def State.reset : State where
  pending := []
  dram := []
  symErrs := []
  cores := spareCores
  icaches := []
  dies := List.replicate 4 {}
  chans := []
  memStacks := List.replicate 16 {}
  nmOps := []
  codecOps := []
  homes := []
  fabric := []
  filter := []
  hostFilter := []
  backinv := 0
  bridges := List.replicate 14 {}
  fe := {}
  obj := {}
  pt := {}
  sags := []
  sec := {}
  xl := {}
  dl := {}
  ras := {}
  pwr := {}
  gen := {}
  fuses := {}
  free := 0
  now := 0

end Sys2Proof.Machine
end

