-- ==== Sys2Proof/Machine/Ops.lean ====
section
/-!
DEFINITION. The named operations over tables, lists, bytes and memory that every meaning shares, and the accessors of
the units of the state.
-/
namespace Sys2Proof.Machine

-- Sparse tables

/-- The entry of index `i`. -/
def tblFind {α : Type} : Tbl α → Nat → Option α
  | [], _ => none
  | (k, v) :: t, i => if k == i then some v else tblFind t i

/-- The entry of index `i`, or the default. -/
def tblGet {α : Type} (d : α) (t : Tbl α) (i : Nat) : α := (tblFind t i).getD d

/-- The table without index `i`. -/
def tblDel {α : Type} : Tbl α → Nat → Tbl α
  | [], _ => []
  | (k, v) :: t, i => if k == i then tblDel t i else (k, v) :: tblDel t i

/-- The table with `v` at index `i`. -/
def tblPut {α : Type} : Tbl α → Nat → α → Tbl α
  | [], i, v => [(i, v)]
  | (k, w) :: t, i, v =>
    if i < k then (i, v) :: (k, w) :: t
    else if k == i then (i, v) :: t
    else (k, w) :: tblPut t i v

/-- The table with `v` at index `i`, where an index that holds the default is not listed. -/
def tblSet {α : Type} [DecidableEq α] (d : α) (t : Tbl α) (i : Nat) (v : α) : Tbl α :=
  if v = d then tblDel t i else tblPut t i v

/-- Indices strictly rising. -/
def tblSorted {α : Type} : Tbl α → Bool
  | [] => true
  | [_] => true
  | (k, _) :: (k', v') :: t => k < k' && tblSorted ((k', v') :: t)

-- Lists as arrays

/-- The list with element `i` changed. -/
def listModify {α : Type} (f : α → α) : List α → Nat → List α
  | [], _ => []
  | x :: t, 0 => f x :: t
  | x :: t, i + 1 => x :: listModify f t i

def listSet {α : Type} (l : List α) (i : Nat) (v : α) : List α := listModify (fun _ => v) l i

-- Counters

/-- A saturating count. -/
def sat {n : Nat} (c : BitVec n) (k : Nat) : BitVec n :=
  if c.toNat + k ≥ 2 ^ n then BitVec.allOnes n else c + BitVec.ofNat n k

-- Bits and bytes

/-- Bits lo to lo + n - 1 of a number. -/
def bitsOf (w : Nat) (lo n : Nat) : Nat := w / 2 ^ lo % 2 ^ n

/-- Bits hi:lo of a word. -/
def field (w : W64) (lo n : Nat) : Nat := bitsOf w.toNat lo n

/-- Bit `i` of a word. -/
def bit (w : W64) (i : Nat) : Bool := bitsOf w.toNat i 1 == 1

def boolNat (b : Bool) : Nat := if b then 1 else 0

/-- The little-endian number of bytes. -/
def leNat : List Byte → Nat
  | [] => 0
  | b :: t => b.toNat + 256 * leNat t

/-- The `n` little-endian bytes of a number. -/
def leBytes : Nat → Nat → List Byte
  | 0, _ => []
  | n + 1, v => BitVec.ofNat 8 v :: leBytes n (v / 256)

/-- The big-endian `n` bytes of a number. -/
def beBytes (n v : Nat) : List Byte := (leBytes n v).reverse

/-- 64-bit little-endian words of bytes. -/
def wordsOf : Nat → List Byte → List W64
  | 0, _ => []
  | n + 1, bs => BitVec.ofNat 64 (leNat (bs.take 8)) :: wordsOf n (bs.drop 8)

/-- A two's-complement value of the low `n` bits. -/
def sext (n v : Nat) : Int :=
  let b := v % 2 ^ n
  if b ≥ 2 ^ (n - 1) then (b : Int) - 2 ^ n else b

/-- A number's low 32 bits, two's complement. -/
def w32OfInt (v : Int) : W32 := BitVec.ofInt 32 v

/-- Whether every bit of `w` outside the mask is 0. -/
def onlyBits (w mask : W64) : Bool := w &&& (~~~mask) == 0#64

/-- A mask of `n` ones from bit `lo`. -/
def ones (lo n : Nat) : W64 := BitVec.ofNat 64 ((2 ^ n - 1) * 2 ^ lo)

-- CRC-32C (chapter 07)

/-- One bit of CRC-32C, reflected polynomial 0x82F6_3B78. -/
def crcBit (c : Nat) : Nat := if c % 2 == 1 then (c / 2) ^^^ 0x82F63B78 else c / 2

def crcByte (c : Nat) (b : Byte) : Nat :=
  let x := c ^^^ b.toNat
  crcBit (crcBit (crcBit (crcBit (crcBit (crcBit (crcBit (crcBit x)))))))

/-- CRC-32C of bytes: initial value and final exclusive-or 0xFFFF_FFFF. -/
def crc32c (bs : List Byte) : Nat := (bs.foldl crcByte 0xFFFFFFFF) ^^^ 0xFFFFFFFF

/-- The lowest of the `n` numbers from `i` on that has a property. -/
def firstFrom (p : Nat → Bool) : Nat → Nat → Option Nat
  | 0, _ => none
  | n + 1, i => if p i then some i else firstFrom p n (i + 1)

-- Device memory

/-- The byte of a cell key: an unlisted one is 0. -/
def memGet : List Host.Cell → Nat → Byte
  | [], _ => 0
  | (k, v) :: t, i => if k == i then v else memGet t i

/-- Memory with one byte written: a zero byte is not listed. -/
def memPut (m : List Host.Cell) (i : Nat) (v : Byte) : List Host.Cell := tblSet 0 m i v

/-- Bytes from key `i` on. -/
def memRead (m : List Host.Cell) (i : Nat) : Nat → List Byte
  | 0 => []
  | n + 1 => memGet m i :: memRead m (i + 1) n

/-- Bytes written from key `i` on. -/
def memWrite (m : List Host.Cell) (i : Nat) : List Byte → List Host.Cell
  | [] => m
  | b :: t => memWrite (memPut m i b) (i + 1) t

/-- Keys from `lo` to `hi - 1` written with zero. -/
def memZero (m : List Host.Cell) (lo hi : Nat) : List Host.Cell := m.filter (fun c => c.1 < lo || hi ≤ c.1)

/-- Keys strictly rising from above `lo`, no zero byte listed. -/
def memSortedFrom : Nat → List Host.Cell → Bool
  | _, [] => true
  | lo, (k, v) :: t => decide (lo ≤ k) && decide (v ≠ 0) && memSortedFrom (k + 1) t

/-- The canonical form of device memory. -/
abbrev Memory.wf (m : List Host.Cell) : Prop := memSortedFrom 0 m = true

-- Units of the state

def coreOf (s : State) (c : Nat) : Core := tblGet {} s.cores c

/-- The state with one core replaced. -/
def setCore (s : State) (c : Nat) (k : Core) : State := { s with cores := tblSet {} s.cores c k }

def modCore (s : State) (c : Nat) (f : Core → Core) : State := setCore s c (f (coreOf s c))

def subOf (k : Core) (b : Nat) : Sub := k.subs.getD b {}

def setSub (k : Core) (b : Nat) (u : Sub) : Core := { k with subs := listSet k.subs b u }

def slabOf (k : Core) (i : Nat) : Slab := k.slabs.getD i {}

def setSlab (k : Core) (i : Nat) (u : Slab) : Core := { k with slabs := listSet k.slabs i u }

def engineOf (k : Core) (i : Nat) : AEngine := k.engines.getD i {}

def setEngine (k : Core) (i : Nat) (u : AEngine) : Core := { k with engines := listSet k.engines i u }

def chanOf (s : State) (p : Nat) : Channel := tblGet {} s.chans p

def setChan (s : State) (p : Nat) (c : Channel) : State := { s with chans := tblSet {} s.chans p c }

def modChan (s : State) (p : Nat) (f : Channel → Channel) : State := setChan s p (f (chanOf s p))

def stackOf (s : State) (i : Nat) : Stack := s.memStacks.getD i {}

def modStack (s : State) (i : Nat) (f : Stack → Stack) : State := { s with memStacks := listModify f s.memStacks i }

def dieOf (s : State) (d : Nat) : Die := s.dies.getD d {}

def modDie (s : State) (d : Nat) (f : Die → Die) : State := { s with dies := listModify f s.dies d }

def ringOf (s : State) (n : Nat) : Ring := tblGet {} s.fe.rings n

def setRing (s : State) (n : Nat) (r : Ring) : State := { s with fe := { s.fe with rings := tblSet {} s.fe.rings n r } }

def modRing (s : State) (n : Nat) (f : Ring → Ring) : State := setRing s n (f (ringOf s n))

def sagOf (s : State) (k : Nat) : Saggar := tblGet {} s.sags k

def setSag (s : State) (k : Nat) (g : Saggar) : State := { s with sags := tblSet {} s.sags k g }

def modSag (s : State) (k : Nat) (f : Saggar → Saggar) : State := setSag s k (f (sagOf s k))

def ctxOf (s : State) (i : Nat) : Ctx := tblGet {} s.obj.ctxs i

def setCtx (s : State) (i : Nat) (c : Ctx) : State := { s with obj := { s.obj with ctxs := tblSet {} s.obj.ctxs i c } }

def objOf (s : State) (i : Nat) : Obj := tblGet {} s.obj.objs i

def setObj (s : State) (i : Nat) (o : Obj) : State := { s with obj := { s.obj with objs := tblSet {} s.obj.objs i o } }

def pageOf (s : State) (i : Nat) : FencePage := tblGet {} s.obj.pages i

def setPage (s : State) (i : Nat) (p : FencePage) : State :=
  { s with obj := { s.obj with pages := tblSet {} s.obj.pages i p } }

def fenceOf (s : State) (i : Nat) : Fence := tblGet {} s.obj.fences i

def setFence (s : State) (i : Nat) (f : Fence) : State :=
  { s with obj := { s.obj with fences := tblSet {} s.obj.fences i f } }

def graphOf (s : State) (i : Nat) : GraphSlot := tblGet {} s.fe.graphs i

def setGraph (s : State) (i : Nat) (g : GraphSlot) : State :=
  { s with fe := { s.fe with graphs := tblSet {} s.fe.graphs i g } }

def portOf (s : State) (i : Nat) : XlPort := s.xl.ports.getD i {}

def modPort (s : State) (i : Nat) (f : XlPort → XlPort) : State :=
  { s with xl := { s.xl with ports := listModify f s.xl.ports i } }

def sliceOf (s : State) (k : Nat) : SliceReg := tblGet {} s.xl.slices k

def setSlice (s : State) (k : Nat) (r : SliceReg) : State :=
  { s with xl := { s.xl with slices := tblSet {} s.xl.slices k r } }

def coneOf (s : State) (n : Nat) : Cone := tblGet {} s.xl.cones n

def setCone (s : State) (n : Nat) (c : Cone) : State :=
  { s with xl := { s.xl with cones := tblSet {} s.xl.cones n c } }

def homeOf (s : State) (l : Nat) : HomeLine := tblGet {} s.homes l

def setHome (s : State) (l : Nat) (h : HomeLine) : State := { s with homes := tblSet {} s.homes l h }

def sumOf (l : List Nat) : Nat := l.foldl (· + ·) 0

/-- Bytes from address `a` on as units of 16 B of host memory: places before and after them stay open. -/
def units16 (a : Nat) (bs : List Byte) : List (Option Byte) :=
  List.replicate (a % 16) none ++ bs.map some ++ List.replicate ((16 - (a + bs.length) % 16) % 16) none

/-- The bytes of the units that hold `len` bytes from address `a` on. -/
def unitsLen (a len : Nat) : Nat := (a + len + 15) / 16 * 16 - a / 16 * 16

/-- A saggar exists while it is OPEN or SEALED (R364). -/
def exists_ (g : Saggar) : Bool := g.st == .open || g.st == .sealed

/-- New numbers for launches, operations, waits and graph launches. -/
def takeId (s : State) : Nat × State := (s.fe.nextId, { s with fe := { s.fe with nextId := s.fe.nextId + 1 } })

/-- Takes a draw of a free value. -/
def takeFree (s : State) : Nat × State := (s.free, { s with free := s.free + 1 })

/-- Advances the model's clock of orderings. -/
def tickNow (s : State) : State := { s with now := s.now + 1 }

end Sys2Proof.Machine
end

