-- ==== Sys2Proof/Machine/Crypto.lean ====
section
/-!
DEFINITION. The named algorithms of spec/05 and 15 as functions of bytes: SHA-384, HMAC, HKDF-SHA-384, AES-256-GCM, AES-256-XTS.
-/
namespace Sys2Proof.Machine

open Sys2Proof

-- SHA-384 (FIPS 180-4)

/-- The round constants of SHA-384. -/
def shaK : List W64 :=
  [0x428A2F98D728AE22, 0x7137449123EF65CD, 0xB5C0FBCFEC4D3B2F, 0xE9B5DBA58189DBBC, 0x3956C25BF348B538] ++
  [0x59F111F1B605D019, 0x923F82A4AF194F9B, 0xAB1C5ED5DA6D8118, 0xD807AA98A3030242, 0x12835B0145706FBE] ++
  [0x243185BE4EE4B28C, 0x550C7DC3D5FFB4E2, 0x72BE5D74F27B896F, 0x80DEB1FE3B1696B1, 0x9BDC06A725C71235] ++
  [0xC19BF174CF692694, 0xE49B69C19EF14AD2, 0xEFBE4786384F25E3, 0x0FC19DC68B8CD5B5, 0x240CA1CC77AC9C65] ++
  [0x2DE92C6F592B0275, 0x4A7484AA6EA6E483, 0x5CB0A9DCBD41FBD4, 0x76F988DA831153B5, 0x983E5152EE66DFAB] ++
  [0xA831C66D2DB43210, 0xB00327C898FB213F, 0xBF597FC7BEEF0EE4, 0xC6E00BF33DA88FC2, 0xD5A79147930AA725] ++
  [0x06CA6351E003826F, 0x142929670A0E6E70, 0x27B70A8546D22FFC, 0x2E1B21385C26C926, 0x4D2C6DFC5AC42AED] ++
  [0x53380D139D95B3DF, 0x650A73548BAF63DE, 0x766A0ABB3C77B2A8, 0x81C2C92E47EDAEE6, 0x92722C851482353B] ++
  [0xA2BFE8A14CF10364, 0xA81A664BBC423001, 0xC24B8B70D0F89791, 0xC76C51A30654BE30, 0xD192E819D6EF5218] ++
  [0xD69906245565A910, 0xF40E35855771202A, 0x106AA07032BBD1B8, 0x19A4C116B8D2D0C8, 0x1E376C085141AB53] ++
  [0x2748774CDF8EEB99, 0x34B0BCB5E19B48A8, 0x391C0CB3C5C95A63, 0x4ED8AA4AE3418ACB, 0x5B9CCA4F7763E373] ++
  [0x682E6FF3D6B2B8A3, 0x748F82EE5DEFB2FC, 0x78A5636F43172F60, 0x84C87814A1F0AB72, 0x8CC702081A6439EC] ++
  [0x90BEFFFA23631E28, 0xA4506CEBDE82BDE9, 0xBEF9A3F7B2C67915, 0xC67178F2E372532B, 0xCA273ECEEA26619C] ++
  [0xD186B8C721C0C207, 0xEADA7DD6CDE0EB1E, 0xF57D4F7FEE6ED178, 0x06F067AA72176FBA, 0x0A637DC5A2C898A6] ++
  [0x113F9804BEF90DAE, 0x1B710B35131C471B, 0x28DB77F523047D84, 0x32CAAB7B40C72493, 0x3C9EBE0A15C9BEBC] ++
  [0x431D67C49C100D4C, 0x4CC5D4BECB3E42B6, 0x597F299CFC657E2A, 0x5FCB6FAB3AD6FAEC, 0x6C44198C4A475817]

/-- The initial hash value of SHA-384. -/
def shaH : List W64 :=
  [0xCBBB9D5DC1059ED8, 0x629A292A367CD507, 0x9159015A3070DD17, 0x152FECD8F70E5939,
   0x67332667FFC00B31, 0x8EB44A8768581511, 0xDB0C2E0D64F98FA7, 0x47B5481DBEFA4FA4]

def rotr (w : W64) (n : Nat) : W64 := w.rotateRight n

def shaSig0 (w : W64) : W64 := rotr w 1 ^^^ rotr w 8 ^^^ (w >>> 7)
def shaSig1 (w : W64) : W64 := rotr w 19 ^^^ rotr w 61 ^^^ (w >>> 6)
def shaSum0 (w : W64) : W64 := rotr w 28 ^^^ rotr w 34 ^^^ rotr w 39
def shaSum1 (w : W64) : W64 := rotr w 14 ^^^ rotr w 18 ^^^ rotr w 41

/-- The message schedule, latest word first. -/
def shaSchedule : Nat → List W64 → List W64
  | 0, ws => ws
  | n + 1, ws =>
    shaSchedule n ((shaSig1 (ws.getD 1 0) + ws.getD 6 0 + shaSig0 (ws.getD 14 0) + ws.getD 15 0) :: ws)

/-- One round on the working variables a to h. -/
def shaRound (v : List W64) (kw : W64 × W64) : List W64 :=
  let a := v.getD 0 0
  let b := v.getD 1 0
  let c := v.getD 2 0
  let e := v.getD 4 0
  let f := v.getD 5 0
  let g := v.getD 6 0
  let t1 := v.getD 7 0 + shaSum1 e + ((e &&& f) ^^^ (~~~e &&& g)) + kw.1 + kw.2
  let t2 := shaSum0 a + ((a &&& b) ^^^ (a &&& c) ^^^ (b &&& c))
  [t1 + t2, a, b, c, v.getD 3 0 + t1, e, f, g]

def beWord (bs : List Byte) : W64 := BitVec.ofNat 64 (leNat bs.reverse)

/-- `n` big-endian words of 8 bytes. -/
def beWords : Nat → List Byte → List W64
  | 0, _ => []
  | n + 1, bs => beWord (bs.take 8) :: beWords n (bs.drop 8)

def shaBlock (h : List W64) (bs : List Byte) : List W64 :=
  let ws := (shaSchedule 64 (beWords 16 bs).reverse).reverse
  ((shaK.zip ws).foldl shaRound h).zip h |>.map (fun p => p.1 + p.2)

def shaBlocks : Nat → List W64 → List Byte → List W64
  | 0, h, _ => h
  | n + 1, h, bs => shaBlocks n (shaBlock h (bs.take 128)) (bs.drop 128)

/-- The padded message. -/
def shaPad (m : List Byte) : List Byte :=
  m ++ (0x80 : Byte) :: List.replicate ((239 - m.length % 128) % 128) 0 ++ beBytes 16 (8 * m.length)

/-- SHA-384, 48 bytes. -/
def sha384 (m : List Byte) : List Byte :=
  let p := shaPad m
  ((shaBlocks (p.length / 128) shaH p).flatMap (fun w => beBytes 8 w.toNat)).take 48

-- HMAC and HKDF (RFC 2104, RFC 5869)

def xorBytes (a b : List Byte) : List Byte := (a.zip b).map (fun p => p.1 ^^^ p.2)

def hmac384 (key m : List Byte) : List Byte :=
  let k := if 128 < key.length then sha384 key else key
  let k := k ++ List.replicate (128 - k.length) 0
  sha384 (k.map (· ^^^ 0x5C) ++ sha384 (k.map (· ^^^ 0x36) ++ m))

def hkdfExpand (prk info : List Byte) : Nat → Nat → List Byte → List Byte
  | 0, _, _ => []
  | n + 1, i, t =>
    let t := hmac384 prk (t ++ info ++ [BitVec.ofNat 8 i])
    t ++ hkdfExpand prk info n (i + 1) t

/-- HKDF-SHA-384 of `len` bytes. -/
def hkdf384 (ikm salt info : List Byte) (len : Nat) : List Byte :=
  (hkdfExpand (hmac384 salt ikm) info ((len + 47) / 48) 1 []).take len

-- AES-256 (FIPS 197)

/-- Doubling in GF(2^8). -/
def gfDouble (b : Byte) : Byte := (b <<< 1) ^^^ (if b.getLsbD 7 then 0x1B else 0)

/-- The S-box: a row of 16 bytes, the first highest, for each high digit of its argument. -/
def sboxRows : List Nat :=
  [0x637C777BF26B6FC53001672BFED7AB76, 0xCA82C97DFA5947F0ADD4A2AF9CA472C0, 0xB7FD9326363FF7CC34A5E5F171D83115, 0x04C723C31896059A071280E2EB27B275,
   0x09832C1A1B6E5AA0523BD6B329E32F84, 0x53D100ED20FCB15B6ACBBE394A4C58CF, 0xD0EFAAFB434D338545F9027F503C9FA8, 0x51A3408F929D38F5BCB6DA2110FFF3D2,
   0xCD0C13EC5F974417C4A77E3D645D1973, 0x60814FDC222A908846EEB814DE5E0BDB, 0xE0323A0A4906245CC2D3AC629195E479, 0xE7C8376D8DD54EA96C56F4EA657AAE08,
   0xBA78252E1CA6B4C6E8DD741F4BBD8B8A, 0x703EB5664803F60E613557B986C11D9E, 0xE1F8981169D98E949B1E87E9CE5528DF, 0x8CA1890DBFE6426841992D0FB054BB16]

def sub (b : Byte) : Byte := BitVec.ofNat 8 (sboxRows.getD (b.toNat / 16) 0 >>> (120 - 8 * (b.toNat % 16)))

/-- The expanded key, latest 4 B word first: `i` is the number of the next word. -/
def aesExpand : Nat → Nat → Byte → List (List Byte) → List (List Byte)
  | 0, _, _, ws => ws
  | n + 1, i, rc, ws =>
    let prev := ws.getD 0 []
    let old := ws.getD 7 []
    if i % 8 = 0 then
      let r := ((prev.drop 1) ++ prev.take 1).map sub
      aesExpand n (i + 1) (gfDouble rc) (xorBytes old (xorBytes r [rc, 0, 0, 0]) :: ws)
    else if i % 8 = 4 then aesExpand n (i + 1) rc (xorBytes old (prev.map sub) :: ws)
    else aesExpand n (i + 1) rc (xorBytes old prev :: ws)

def chunks (k : Nat) : Nat → List Byte → List (List Byte)
  | 0, _ => []
  | n + 1, bs => bs.take k :: chunks k n (bs.drop k)

/-- The fifteen round keys. -/
def aesKeys (key : List Byte) : List (List Byte) :=
  chunks 16 15 ((aesExpand 52 8 1 (chunks 4 8 key).reverse).reverse.flatten)

def aesShift (s : List Byte) : List Byte := (List.range 16).map (fun i => s.getD ((i + 4 * (i % 4)) % 16) 0)

def mixColumn (c : List Byte) : List Byte :=
  let x (i : Nat) : Byte := c.getD (i % 4) 0
  (List.range 4).map (fun i => gfDouble (x i) ^^^ gfDouble (x (i + 1)) ^^^ x (i + 1) ^^^ x (i + 2) ^^^ x (i + 3))

def aesRounds : List (List Byte) → List Byte → List Byte
  | [], s => s
  | [k], s => xorBytes (aesShift (s.map sub)) k
  | k :: ks, s => aesRounds ks (xorBytes ((chunks 4 4 (aesShift (s.map sub))).flatMap mixColumn) k)

/-- One block under AES-256. -/
def aesBlock (keys : List (List Byte)) (b : List Byte) : List Byte :=
  aesRounds (keys.drop 1) (xorBytes b (keys.getD 0 []))

-- GCM (NIST SP 800-38D)

/-- A product of GHASH: bit 127 of a vector is its first bit. -/
def ghashMul (x y : BitVec 128) : Nat → BitVec 128
  | 0 => 0
  | n + 1 =>
    (if x.getLsbD n then y else 0) ^^^
      ghashMul x (if y.getLsbD 0 then (y >>> 1) ^^^ 0xE1000000000000000000000000000000 else y >>> 1) n

def be128 (bs : List Byte) : BitVec 128 := BitVec.ofNat 128 (leNat bs.reverse)

def pad16 (bs : List Byte) : List Byte := bs ++ List.replicate ((16 - bs.length % 16) % 16) 0

def ghash (h : BitVec 128) : Nat → BitVec 128 → List Byte → BitVec 128
  | 0, y, _ => y
  | n + 1, y, bs => ghash h n (ghashMul (y ^^^ be128 (bs.take 16)) h 128) (bs.drop 16)

/-- The key stream from a counter on. -/
def ctrStream (keys : List (List Byte)) (nonce : List Byte) : Nat → Nat → List Byte
  | 0, _ => []
  | n + 1, c => aesBlock keys (nonce ++ beBytes 4 c) ++ ctrStream keys nonce n (c + 1)

def gcmTag (keys : List (List Byte)) (nonce aad cipher : List Byte) : List Byte :=
  let h := be128 (aesBlock keys (List.replicate 16 0))
  let m := pad16 aad ++ pad16 cipher ++ beBytes 8 (8 * aad.length) ++ beBytes 8 (8 * cipher.length)
  xorBytes (beBytes 16 (ghash h (m.length / 16) 0 m).toNat) (aesBlock keys (nonce ++ beBytes 4 1))

/-- The plaintext of a ciphertext whose 16 B tag verifies. -/
def gcmOpen (key nonce aad cipher tag : List Byte) : Option (List Byte) :=
  let keys := aesKeys key
  if gcmTag keys nonce aad cipher == tag then
    some (xorBytes cipher (ctrStream keys nonce ((cipher.length + 15) / 16) 2))
  else none

/-- Ciphertext and tag. -/
def gcmSeal (key nonce aad plain : List Byte) : List Byte × List Byte :=
  let keys := aesKeys key
  let c := xorBytes plain (ctrStream keys nonce ((plain.length + 15) / 16) 2)
  (c, gcmTag keys nonce aad c)

-- XTS (IEEE Std 1619, R146)

/-- The next tweak: times the primitive element, the first byte being the least significant. -/
def xtsNext (t : List Byte) : List Byte :=
  let n := leNat t
  leBytes 16 (if n < 2 ^ 127 then 2 * n else (2 * n - 2 ^ 128) ^^^ 0x87)

def xtsBlocks (keys : List (List Byte)) : Nat → List Byte → List Byte → List Byte
  | 0, _, _ => []
  | n + 1, tw, bs => xorBytes (aesBlock keys (xorBytes (bs.take 16) tw)) tw ++ xtsBlocks keys n (xtsNext tw) (bs.drop 16)

/-- A data unit of whole blocks under a key pair of 32 B each, with its tweak as a number. -/
def xtsSeal (pair : List Byte) (tweak : Nat) (plain : List Byte) : List Byte :=
  xtsBlocks (aesKeys (pair.take 32)) (plain.length / 16)
    (aesBlock (aesKeys ((pair.drop 32).take 32)) (leBytes 16 tweak)) plain

-- The link key (R390)

/-- The bytes of a name. -/
def ascii (t : String) : List Byte := t.toList.map (fun c => BitVec.ofNat 8 c.toNat)

/-- While a saggar holds a slice secret, its link key is derived from it, its SLICE_ID and its key epoch. -/
def deriveLink (s : State) (k : Nat) : State :=
  let g := sagOf s k
  match g.slice with
  | none => s
  | some x =>
    let salt := leBytes 2 (sliceOf s k).sliceId.toNat ++ leBytes 1 g.epoch.toNat
    setSag s k { g with linkKey := some (hkdf384 x salt (ascii "HX940 link") 32) }

end Sys2Proof.Machine
end

