-- ==== Sys2Proof/Machine/Ports.lean ====
section
/-!
DEFINITION. The link layer and the output of a Xator port (R338, R339, R348 to R350, R374): packets and flits as bytes, credits,
the input buffer, the arbitration of the output, and the flits a port sends. The places of the fields in a flit's header, the
codes of its type and the layout of a message of CTL are the model's own (log 81): the spec gives their widths alone.
-/
namespace Sys2Proof.Machine

open Sys2Proof

-- Packets as bytes (R350, Table 13-4)

/-- Bytes of payload that a header announces. -/
def payloadLen (ptype : Nat) (lenM1 : Nat) : Nat :=
  if ptype == 1 || ptype == 2 then lenM1 + 1 else if ptype == 3 then 16 else 0

/-- Bytes 0 to 31 of a packet, with a VC. -/
def headerBytes (pk : Packet) (vc : Nat) : List Byte :=
  [pk.ptype, BitVec.ofNat 8 (pk.epoch.toNat * 16 + pk.partition.val)] ++ leBytes 3 pk.dst.toNat ++ leBytes 3 pk.src.toNat ++
  leBytes 2 pk.lenM1.toNat ++ leBytes 2 pk.ctr.val ++ [BitVec.ofNat 8 (vc * 32 + pk.accEtype.toNat), pk.reason] ++
  leBytes 2 pk.tracker.toNat ++ leBytes 6 pk.dstAddr.toNat ++ [0, 0] ++ leBytes 8 pk.seq.toNat

/-- Rounded up to 16 B. -/
def padUnits (bs : List Byte) : List Byte := bs ++ List.replicate ((16 - bs.length % 16) % 16) 0

def packetBytes (pk : Packet) : List Byte := headerBytes pk pk.vc.toNat ++ pk.tag ++ padUnits pk.payload

/-- Units of 16 B that a packet occupies in the flit stream. -/
def packetUnits (pk : Packet) : Nat := 3 + (pk.payload.length + 15) / 16

/-- A packet from its bytes. -/
def parsePacket (bs : List Byte) : Packet :=
  let f (i n : Nat) : Nat := leNat ((bs.drop i).take n)
  let ptype := f 0 1
  let len := f 8 2
  { ptype := BitVec.ofNat 8 ptype, partition := BitVec.toFin (BitVec.ofNat 4 (f 1 1)), epoch := BitVec.ofNat 4 (f 1 1 / 16)
    dst := BitVec.ofNat 18 (f 2 3), src := BitVec.ofNat 18 (f 5 3), lenM1 := BitVec.ofNat 11 len
    ctr := BitVec.toFin (BitVec.ofNat 12 (f 10 2)), accEtype := BitVec.ofNat 5 (f 12 1), vc := BitVec.ofNat 3 (f 12 1 / 32)
    reason := BitVec.ofNat 8 (f 13 1), tracker := BitVec.ofNat 13 (f 14 2), dstAddr := BitVec.ofNat 48 (f 16 6)
    seq := BitVec.ofNat 64 (f 24 8), tag := (bs.drop 32).take 16
    payload := (bs.drop 48).take (payloadLen ptype (len % 2048))
    resBad := f 2 3 / 2 ^ 18 != 0 || f 5 3 / 2 ^ 18 != 0 || len / 2 ^ 11 != 0 || f 10 2 / 2 ^ 12 != 0 || f 14 2 / 2 ^ 13 != 0 || f 22 2 != 0 }

/-- The whole packets at the front of received bytes, and the bytes left. -/
def takePackets : Nat → List Byte → List Packet × List Byte
  | 0, bs => ([], bs)
  | n + 1, bs =>
    if bs.length < 48 then ([], bs)
    else
      let pk := parsePacket bs
      let len := 16 * (3 + (payloadLen pk.ptype.toNat pk.lenM1.toNat + 15) / 16)
      if bs.length < len then ([], bs)
      else
        let r := takePackets n (bs.drop len)
        (pk :: r.1, r.2)

-- Flits as bytes (R338)

/-- The type of a flit: the units of 16 B in its body, 32 a message of CTL, 33 a replay request. -/
def flitType : XlBody → Nat
  | .units bs => (bs.length + 15) / 16
  | .sliceStop _ _ _ => 32
  | .replay _ => 33

def flitBody : XlBody → List Byte
  | .units bs => bs
  | .sliceStop id origin cause => leBytes 2 id.toNat ++ leBytes 3 origin.toNat ++ [BitVec.ofNat 8 cause.toNat]
  | .replay seq => leBytes 2 seq.toNat

/-- The 12 B of a flit's header. -/
def flitHeader (f : XlFlit) : List Byte :=
  let c (i : Nat) : Nat := (f.credits.getD i (0, 0)).1 + 8 * (f.credits.getD i (0, 0)).2
  leBytes 12 (f.seq.toNat + 2 ^ 12 * f.acked.toNat + 2 ^ 24 * flitType f.body + 2 ^ 32 * c 0 + 2 ^ 64 * c 1)

/-- The 512 B of a flit. -/
def flitBytes (f : XlFlit) : List Byte :=
  let b := flitBody f.body
  let bs := flitHeader f ++ b ++ List.replicate (496 - b.length) 0
  bs ++ leBytes 4 (crc32c bs)

/-- A flit from its bytes; none where its CRC-32C is wrong, its length is not that of a flit, or its type is reserved. -/
def parseFlit (bs : List Byte) : Option XlFlit :=
  let f (i n : Nat) : Nat := leNat ((bs.drop i).take n)
  let c (w : Nat) : List (Nat × Nat) := if w / 8 % 2 ^ 17 = 0 then [] else [(w % 8, w / 8 % 2 ^ 17)]
  let ty := f 3 1
  let b := bs.drop 12
  if bs.length != 512 || crc32c (bs.take 508) != f 508 4 || 33 < ty then none
  else some
    { seq := BitVec.ofNat 12 (f 0 3), acked := BitVec.ofNat 12 (f 0 3 / 2 ^ 12), credits := c (f 4 4) ++ c (f 8 4)
      body := if ty == 32 then .sliceStop (BitVec.ofNat 16 (leNat (b.take 2))) (BitVec.ofNat 18 (leNat ((b.drop 2).take 3)))
          (BitVec.ofNat 2 (leNat ((b.drop 5).take 1)))
        else if ty == 33 then .replay (BitVec.ofNat 12 (leNat (b.take 2)))
        else .units (b.take (16 * ty)) }

-- Credits and the input buffer (R349)

/-- Units reserved for a channel, 4 for CTL, of the 131,072 of an input buffer; the rest is shared. -/
def vcReserve (v : Nat) : Nat := if v == 4 then 256 else 1024
def vcShared : Nat := 131072 - 4 * 1024 - 256

/-- Shared units in use. -/
def sharedUsed (used : List Nat) : Nat := (used.zipIdx.map (fun x => x.1 - vcReserve x.2)).foldl (· + ·) 0

/-- The port holds credits for `n` units of a channel, from its reserved space or the shared one. -/
def hasCredit (p : XlPort) (v n : Nat) : Bool := sharedUsed (listModify (· + n) p.used v) ≤ vcShared

/-- The channel and the units of a message. -/
def msgVc : XlMsg → Nat
  | .packet pk => min 4 pk.vc.toNat
  | .sliceStop _ _ _ => 4

def msgUnits : XlMsg → Nat
  | .packet pk => packetUnits pk
  | .sliceStop _ _ _ => 1

/-- A port in service. -/
def portServes (p : XlPort) : Bool := p.st == .up || p.st == .swap

/-- The message is the first of its channel in the input buffer. -/
def inInput (p : XlPort) (m : XlMsg) : Bool := p.input.find? (fun x => msgVc x == msgVc m) == some m

/-- The link starts anew: nothing has been sent or received, and every credit is held. -/
def initLink (p : XlPort) : XlPort :=
  { p with rxSeq := 0, acked := 0xFFF, replayed := none, stopped := false, rxBytes := [], input := [], used := [0, 0, 0, 0, 0]
           owed := [0, 0, 0, 0, 0], ctl := [], rsp := [], req := [], turn := 15, deficit := [], through := [], granted := 0, small := 0
           txSeq := 0, sent := [] }

-- Sending flits (R338, R339)

/-- Flits sent and not acknowledged: no more than the replay buffer keeps. -/
def unacked (p : XlPort) : Nat := (p.txSeq - 1 - p.acked).toNat

/-- The credit returns of the next flit: of at most two channels. -/
def creditReturns (p : XlPort) : List (Nat × Nat) := ((p.owed.zipIdx.filter (fun x => x.1 != 0)).map (fun x => (x.2, x.1))).take 2

/-- Sends a flit, with what it acknowledges and the credits it returns, and keeps it for replay. -/
def emit (p : XlPort) (b : XlBody) : XlPort :=
  let cs := creditReturns p
  let f : XlFlit := { seq := p.txSeq, acked := p.rxSeq - 1, credits := cs, body := b }
  { p with txSeq := p.txSeq + 1, owed := cs.foldl (fun o c => listSet o c.1 0) p.owed
           sent := (p.sent ++ [f]).drop (p.sent.length + 1 - 2048), tx := p.tx ++ [f] }

/-- Sends bytes of packets, 496 a flit. -/
def emitUnits (p : XlPort) : Nat → List Byte → XlPort
  | 0, _ => p
  | n + 1, bs => if bs.isEmpty then p else emitUnits (emit p (.units (bs.take 496))) n (bs.drop 496)

def flushUnits (p : XlPort) (bs : List Byte) : XlPort := emitUnits p (bs.length / 496 + 1) bs

/-- Sends messages in order, packets back to back. -/
def emitMsgs (p : XlPort) (bs : List Byte) : List XlMsg → XlPort
  | [] => flushUnits p bs
  | .packet pk :: ms => emitMsgs p (bs ++ packetBytes pk) ms
  | .sliceStop id origin cause :: ms => emitMsgs (emit (flushUnits p bs) (.sliceStop id origin cause)) [] ms

/-- Idle flits return what credits are owed. -/
def emitCredits (p : XlPort) : Nat → XlPort
  | 0 => p
  | n + 1 => if p.owed.all (· == 0) || 2047 ≤ unacked p then p else emitCredits (emit p (.units [])) n

/-- Returns credits on a port that sends. -/
def returnCredits (s : State) (n : Nat) : State :=
  let p := portOf s n
  if p.st == .up && !p.stopped then modPort s n (fun p => emitCredits p 3) else s

/-- A message leaves the input buffer. -/
def freeInput (s : State) (n vc units : Nat) : State := returnCredits (modPort s n (fun p => { p with owed := listModify (· + units) p.owed vc })) n

def takeInput (s : State) (n : Nat) (m : XlMsg) : State :=
  freeInput (modPort s n (fun p => { p with input := p.input.erase m })) n (msgVc m) (msgUnits m)

-- The output (R374)

/-- A packet that can be granted now: the first of its channel, with credits for it. -/
def firstReady (p : XlPort) (q : List OutPkt) : Option OutPkt := q.find? (fun x =>
  q.find? (fun y => y.pk.vc == x.pk.vc) == some x && hasCredit p x.pk.vc.toNat (packetUnits x.pk))

/-- The next packet of a saggar: through packets and the module's own alternate. -/
def sagPacket (p : XlPort) (k : Nat) : Option OutPkt :=
  let q := p.req.filter (fun x => x.pk.partition.val == k)
  let pick (t : Bool) : Option OutPkt := firstReady p (q.filter (fun x => x.came.isSome == t))
  let t := !(tblGet false p.through k)
  match pick t with
  | some x => some x
  | none => pick (!t)

/-- The deficit round-robin goes on to the next saggar. One with a packet to send takes the credit of its weight; one that leaves its
turn without packets keeps none. -/
def nextTurn (weight : Nat → Nat) (p : XlPort) : XlPort :=
  let k := p.turn.val
  let p := if p.req.any (fun x => x.pk.partition.val == k) then p else { p with deficit := tblSet 0 p.deficit k 0 }
  let j := (k + 1) % 16
  let p := { p with turn := p.turn + 1 }
  if (sagPacket p j).isSome then { p with deficit := tblSet 0 p.deficit j (tblGet 0 p.deficit j + weight j * 2096) } else p

/-- The next packet of REQ. -/
def nextReq (weight : Nat → Nat) (p : XlPort) : Nat → Option (XlPort × OutPkt)
  | 0 => none
  | n + 1 =>
    let k := p.turn.val
    let have_ := tblGet 0 p.deficit k
    match sagPacket p k with
    | some x =>
      let size := 16 * packetUnits x.pk
      if size ≤ have_ then
        some ({ p with req := p.req.erase x, deficit := tblSet 0 p.deficit k (have_ - size)
                       through := tblSet false p.through k x.came.isSome }, x)
      else nextReq weight (nextTurn weight p) n
    | none => nextReq weight (nextTurn weight p) n

/-- Units are granted: of the 248 of eight flit bodies, CTL and RSP take no more than one body's while REQ waits. -/
def countUnits (p : XlPort) (m : XlMsg) (small : Bool) : XlPort :=
  let n := msgUnits m
  let p := { p with used := listModify (· + n) p.used (msgVc m) }
  if 248 ≤ p.granted + n then { p with granted := 0, small := 0 }
  else { p with granted := p.granted + n, small := p.small + (if small then n else 0) }

/-- The next grant of the output: the message, and for a through packet where it came from. -/
def grantNext (weight : Nat → Nat) (p : XlPort) : Option (XlPort × XlMsg × Option (PortId × Nat)) :=
  let req := nextReq weight p 34
  let fits (n : Nat) : Bool := req.isNone || p.small + n ≤ 31
  let fromReq : Option (XlPort × XlMsg × Option (PortId × Nat)) :=
    req.map (fun r => (countUnits r.1 (.packet r.2.pk) false, .packet r.2.pk, r.2.came))
  let fromRsp := match firstReady p p.rsp with
    | some x => if fits (packetUnits x.pk) then
        some (countUnits { p with rsp := p.rsp.erase x } (.packet x.pk) true, .packet x.pk, x.came) else fromReq
    | none => fromReq
  match p.ctl with
  | c :: cs => if hasCredit p 4 1 && fits 1 then
      some (countUnits { p with ctl := cs } (.sliceStop c.1 c.2.1 c.2.2) true, .sliceStop c.1 c.2.1 c.2.2, none) else fromRsp
  | [] => fromRsp

/-- Grants while the replay buffer has room. -/
def grantAll (weight : Nat → Nat) : Nat → Nat → XlPort → XlPort × List (XlMsg × Option (PortId × Nat))
  | 0, _, p => (p, [])
  | n + 1, room, p =>
    if room < 200 then (p, [])
    else match grantNext weight p with
      | none => (p, [])
      | some (q, m, from_) =>
        let r := grantAll weight n (room - (match m with
          | .packet pk => packetUnits pk
          | .sliceStop _ _ _ => 62)) q
        (r.1, (m, from_) :: r.2)

/-- What waits at the output. -/
def waitingMsgs (p : XlPort) : Nat := p.ctl.length + p.rsp.length + p.req.length

/-- A port in UP sends what it has credits for, and the places of through packets in the input buffers become free. -/
def pumpPort (s : State) (n : Nat) : State :=
  let p := portOf s n
  if p.st != .up || p.stopped then s
  else
    let r := grantAll (fun k => max 1 (sagOf s k).linkWeight.toNat) (waitingMsgs p) (31 * (2047 - unacked p)) p
    let s := modPort s n (fun _ => emitMsgs r.1 [] (r.2.map (fun x => x.1)))
    r.2.foldl (fun t x => match x.2 with
      | some c => freeInput t c.1.val c.2 (msgUnits x.1)
      | none => t) (returnCredits s n)

/-- A packet goes to a port's output; a port out of service carries nothing. -/
def putPacket (s : State) (n : Nat) (pk : Packet) (came : Option (PortId × Nat)) : State :=
  if portServes (portOf s n) then
    pumpPort (modPort s n (fun p =>
      if pk.ptype == 4 || pk.ptype == 5 then { p with rsp := p.rsp ++ [⟨pk, came⟩] } else { p with req := p.req ++ [⟨pk, came⟩] })) n
  else s

/-- A message of CTL goes to a port's output. -/
def putStop (s : State) (n : Nat) (m : BitVec 16 × Coord × BitVec 2) : State :=
  pumpPort (modPort s n (fun p => { p with ctl := p.ctl ++ [m] })) n

/-- The flits from a sequence number on that the replay buffer keeps. -/
def keptFrom (p : XlPort) (seq : BitVec 12) : List XlFlit := p.sent.filter (fun f => (f.seq - seq).toNat < 2048)

/-- The port replays from a flit on; while its packet flits stand still it sends nothing. -/
def replayFrom (s : State) (n : Nat) (seq : BitVec 12) : State :=
  modPort s n (fun p => if p.st == .up && !p.stopped then { p with tx := p.tx ++ keptFrom p seq } else p)

/-- Sending resumes, with replay from the oldest flit not acknowledged (R341). -/
def resumePort (s : State) (n : Nat) : State := pumpPort (replayFrom s n ((portOf s n).acked + 1)) n

end Sys2Proof.Machine
end

