-- ==== Sys2Proof/Machine/Events.lean ====
section
/-!
DEFINITION. What every unit reports: performance counts (R395), interrupts (R412), the firing log (R426), fence signals
(R327, R328), fault records (R321), SLICE_STOP (R358) and the domain stop (R264, R419).
-/
namespace Sys2Proof.Machine

open Sys2Proof

-- Performance counters (R395)

def perfNONE : Nat := 0
def perfISSUE : Nat := 1
def perfDUNITS : Nat := 2
def perfL1MISS : Nat := 3
def perfREAD : Nat := 4
def perfWRITE : Nat := 5
def perfTILES : Nat := 6
def perfCOPY : Nat := 7
def perfLINKTX : Nat := 8
def perfLINKRX : Nat := 9
def perfFARATOMIC : Nat := 10

/-- Event code that counter `n` of a saggar counts (Table 15-15). -/
def perfEvent (sel : W64) (n : Nat) : Nat := field sel (8 * n) 8

/-- Adds `k` to each of the eight true counts that select event `ev`. -/
def perfAdd (sel : W64) (ev k : Nat) (counts : List Nat) : List Nat :=
  counts.zipIdx.map (fun p => if perfEvent sel p.2 == ev then p.1 + k else p.1)

/-- `k` events of code `ev` charged to saggar `sag`. -/
def perf (s : State) (sag ev k : Nat) : State :=
  modSag s sag (fun g => { g with perfTrue := perfAdd g.perfSel ev k g.perfTrue })

-- Interrupts (R412)

/-- A cause of vector `v`: the pending bit is set; the INT of an unmasked vector whose bit was 0 joins the queue of
INTs, behind the requests sent so far. -/
def raise (s : State) (v : Fin 18) : State :=
  if s.dl.pending.getLsbD v then s
  else
    { s with dl := { s.dl with
        pending := s.dl.pending ||| BitVec.ofNat 18 (2 ^ v.val)
        ints := if s.dl.mask.getLsbD v then s.dl.ints else s.dl.ints ++ [(v, s.dl.sent)] } }

def vService : Fin 18 := 16
def vFatal : Fin 18 := 17

/-- QUEUE_ERROR of a saggar (Table 16-7). -/
def queueError (s : State) (sag : SagId) : State := raise s ⟨sag.val, by omega⟩

-- The firing log (R426)

/-- Unit types of Table 17-6. -/
def unitCore (c : Nat) : Nat := 0x1000 + c
def unitChannel (p : Nat) : Nat := 0x2000 + p
def unitStack (i : Nat) : Nat := 0x3000 + i
def unitPort (n : Nat) : Nat := 0x4000 + n
def unitDerset : Nat := 0x5000
def unitScc (c : Nat) : Nat := 0x6000 + c
def unitBridge (b : Nat) : Nat := 0x7000 + b
def unitSlice (die slice : Nat) : Nat := 0x8000 + 48 * die + slice
def unitCopy (e : Nat) : Nat := 0x9000 + e
def unitCodec (st : Nat) : Nat := 0xA000 + st
def unitDevice : Nat := 0xF000

/-- Codes that enter the event history beside the classes RECOVERED, SLICE and DOMAIN (R426). -/
def historyCode (code cls : Nat) : Bool :=
  cls == 1 || cls == 3 || cls == 4 || code == 0x16 || code == 0x15 || code == 0x17 || code == 0x18

/-- The last calendar stamp, or 0. -/
def lastStamp (c : Crazing) : W64 := match c.stampLast with
  | some p => p.1
  | none => 0

/-- Recoveries running and queued, in order (R416). -/
def recoveries (s : State) : List Recovery := s.ras.running.toList ++ s.ras.queue

/-- The core of a role has failed, and its failover runs or waits: what the role does waits with it (R420). -/
def roleFails (s : State) (role : Nat) : Bool := (recoveries s).any (fun r => match r with
  | .failover c => (s.ras.sccs.getD c {}).role == some role
  | _ => false)

/-- An entry takes its number and stands in the firing log. An entry that is overwritten and was never read counts in LOST_COUNT. Each
entry raises SERVICE (R411). -/
def enterLog (s : State) (x : LogRec) : State :=
  let e := { x with seq := s.ras.nextSeq }
  let lost := match s.ras.log.drop 4095 with
    | o :: _ => if o.read then 0 else 1
    | [] => 0
  let hist := if historyCode e.code.toNat e.cls.toNat then (e, lastStamp s.ras.craze) :: s.ras.history else s.ras.history
  raise
    { s with ras := { s.ras with
        log := e :: s.ras.log.take 4095
        nextSeq := s.ras.nextSeq + 1
        lostCount := sat s.ras.lostCount lost
        history := hist.take 27648 } }
    vService

/-- What H has buffered enters the firing log, in order (R420). -/
def releaseLog (s : State) : State := s.ras.logHeld.foldl enterLog { s with ras := { s.ras with logHeld := [] } }

/-- An entry without its number: its time and its powered seconds are those of the moment. -/
def logRec (s : State) (code cls part unit d0 d1 : Nat) : LogRec :=
  { seq := 0, code := BitVec.ofNat 8 code, cls := BitVec.ofNat 3 cls, partition := BitVec.ofNat 5 part
    unit := BitVec.ofNat 16 unit, time := s.ras.clock, detail0 := BitVec.ofNat 64 d0
    poweredS := s.ras.craze.poweredS.setWidth 32, detail1 := BitVec.ofNat 32 d1 }

/-- The C-cycle counter of H goes on by what the manual leaves open. -/
def clockRuns (s : State) : State := { s with ras := { s.ras with clock := s.ras.clock + Config.elapsed s.free }, free := s.free + 1 }

/-- An entry is made at once. -/
def logNow (s : State) (code cls part unit d0 d1 : Nat) : State := enterLog (clockRuns s) (logRec s code cls part unit d0 d1)

/-- An entry is made; while the core that holds the firing log fails over, H buffers it (R420). -/
def logEvent (s : State) (code cls part unit d0 d1 : Nat) : State :=
  if roleFails s 0 then
    (let t := clockRuns s
     { t with ras := { t.ras with logHeld := t.ras.logHeld ++ [logRec s code cls part unit d0 d1] } })
  else logNow s code cls part unit d0 d1

/-- PARTITION of an entry that concerns no saggar. -/
def noPart : Nat := 0x1F

/-- Counts of the crazing record (Table 17-9, ERRORS): 0 DRAM corrected, 1 DRAM uncorrected, 2 SRAM corrected, 3 L2
corrected, 4 BAD lines, 5 link replays, 6 contained faults, 7 domain stops. -/
def crazeError (s : State) (i k : Nat) : State :=
  { s with ras := { s.ras with craze := { s.ras.craze with errors := listModify (· + k) s.ras.craze.errors i } } }

-- Harvest (R478)

/-- A map bit changes: GEN_COUNTS follows from the units; HARVEST_CHANGED is set and counted once start-up has made the
maps final. -/
def harvestChanged (s : State) : State :=
  if s.gen.mapped then { s with gen := { s.gen with changed := true, count := sat s.gen.count 1 } } else s

-- Fences (R326 to R330)

/-- The comparison of R327: `v` is ahead of `c`. -/
def ahead (v c : W64) : Bool := (v - c) != 0#64 && (v - c).toNat < 2 ^ 63

/-- The comparison of R327 for a wait. -/
def reached (c t : W64) : Bool := (c - t).toNat < 2 ^ 63

def pageIsLive (s : State) (f : Nat) : Bool := (pageOf s (f / 128)).st == .live

/-- A page on which front-end signals act. -/
def pageActs (s : State) (f : Nat) : Bool := (pageOf s (f / 128)).st == .live || (pageOf s (f / 128)).st == .draining

/-- A value taken by a fence. -/
def fenceTake (k : Fence) (v : W64) : Fence :=
  if ahead v k.value then { k with value := v } else { k with ooo := sat k.ooo 1 }

/-- A front-end signal (R327). -/
def fenceSignal (s : State) (f : Nat) (v : W64) : State :=
  if pageActs s f then setFence s f (fenceTake (fenceOf s f) v) else s

def fenceError (s : State) (f : Nat) : State :=
  if pageActs s f then
    let k := fenceOf s f
    setFence s f { k with error := true, errorCount := sat k.errorCount 1 }
  else s

def fenceAbandon (s : State) (f : Nat) : State :=
  if pageActs s f then
    let k := fenceOf s f
    setFence s f { k with abandoned := true, abandonedCount := sat k.abandonedCount 1 }
  else s

/-- A tag is current (R318). -/
def tagCurrent (s : State) (tag : BitVec 16) : Bool :=
  let c := ctxOf s (tag.toNat % 4096)
  c.st == .open && c.gen == tag.extractLsb' 12 4

/-- A fence is usable by a context (R329). -/
def fenceUsable (s : State) (tag : BitVec 16) (f : Nat) : Bool :=
  let p := pageOf s (f / 128)
  p.st == .live && (p.owner == tag || p.grants.contains tag)

-- Fault records (R321, R388)

/-- The fields of a record that locate the work are 0. -/
def hideWork (r : FaultRec) : FaultRec := { r with pc := 0, thread := 0, bidX := 0, bidY := 0, bidZ := 0, addr := 0 }

/-- Charges a fault to a context slot: the first writes the record, the next ones only count. In a SEALED saggar the
fields that locate the work read 0. -/
def chargeFault (s : State) (ctx : Nat) (r : FaultRec) : State :=
  let c := ctxOf s ctx
  let r := if (sagOf s c.sag).st == .sealed then hideWork r else r
  let f := if c.fault.valid then { c.fault with count := sat c.fault.count 1 } else { r with valid := true, count := 1 }
  crazeError (setCtx s ctx { c with fault := f }) 6 1

-- Xator control messages (R358)

def coordX (c : Coord) : Nat := bitsOf c.toNat 0 6
def coordY (c : Coord) : Nat := bitsOf c.toNat 6 6
def coordZ (c : Coord) : Nat := bitsOf c.toNat 12 6
def mkCoord (x y z : Nat) : Coord := BitVec.ofNat 18 (x + 64 * y + 4096 * z)

/-- The length of each axis (R345): NX = 4 × racks, NY = NZ = 4. -/
def axisLen (s : State) : Nat → Nat
  | 0 => 4 * (s.xl.racksM1.toNat + 1)
  | _ => 4

/-- A coordinate lies in a slice (R346). -/
def inSlice (r : SliceReg) (c : Coord) : Bool :=
  coordX r.origin ≤ coordX c && coordX c < coordX r.origin + r.exM1.toNat + 1 &&
  coordY r.origin ≤ coordY c && coordY c < coordY r.origin + r.eyM1.toNat + 1 &&
  coordZ r.origin ≤ coordZ c && coordZ c < coordZ r.origin + r.ezM1.toNat + 1

/-- One step of a coordinate on an axis of length `n` from port direction: + for an even port, − for an odd one. -/
def axisStep (plus : Bool) (n c : Nat) : Option Nat :=
  if plus then (if c + 1 < n then some (c + 1) else none) else (if c = 0 then none else some (c - 1))

/-- The coordinate one hop from `c` through port `n` (X+ 0, X− 1, Y+ 2, Y− 3, Z+ 4, Z− 5), along the wrap link where
the axis's flag allows it. -/
def neighbour (s : State) (r : SliceReg) (n : Nat) (c : Coord) : Option Coord :=
  let plus := n % 2 == 0
  let hop (len i : Nat) (wrap : Bool) : Option Nat :=
    match axisStep plus len i with
    | some j => some j
    | none => if wrap then some (if plus then 0 else len - 1) else none
  match n / 2 with
  | 0 => (hop (axisLen s 0) (coordX c) r.wx).map (fun x => mkCoord x (coordY c) (coordZ c))
  | 1 => (hop (axisLen s 1) (coordY c) r.wy).map (fun y => mkCoord (coordX c) y (coordZ c))
  | _ => (hop (axisLen s 2) (coordZ c) r.wz).map (fun z => mkCoord (coordX c) (coordY c) z)

/-- Whether a port carries packets of a slice: it is UP or in SWAP and joins the module to another member. -/
def portInSlice (s : State) (r : SliceReg) (n : Nat) : Bool :=
  portServes (portOf s n) &&
  match neighbour s r n s.xl.coord with
  | some c => inSlice r c
  | none => false

/-- Sends SLICE_STOP of a slice on every UP port that leads to a member, but for the port it came from (R358). -/
def sendSliceStop (s : State) (r : SliceReg) (origin : Coord) (cause : BitVec 2) (from_ : Option Nat) : State :=
  let out := (List.range 6).filter (fun n => portInSlice s r n && (portOf s n).st == .up && from_ != some n)
  let s := out.foldl (fun t n => putStop t n (r.sliceId, origin, cause)) s
  { s with xl := { s.xl with seen := (r.sliceId, origin) :: s.xl.seen } }

/-- Counters assigned to a saggar become unassigned (R359). -/
def unassignCones (s : State) (k : Nat) : State :=
  { s with xl := { s.xl with cones := (s.xl.cones.map (fun p =>
      if p.2.assigned && p.2.partition.val == k then (p.1, { p.2 with assigned := false }) else p)).filter (fun p => p.2 != {}) } }

/-- A slice of the module stops (R359): its status and its counters. The waits on those counters and the LINK nodes fail
at their next event. -/
def sliceMark (s : State) (k : Nat) (origin : Coord) (cause : BitVec 2) : State :=
  let r := sliceOf s k
  if r.stopped then s
  else
    let s := setSlice s k { r with stopped := true, stopOrigin := origin, cause, stopCount := sat r.stopCount 1 }
    logEvent (unassignCones s k) 0x10 3 k unitDevice origin.toNat cause.toNat

/-- The module stops a slice it belongs to and tells the other members (R358). -/
def raiseSliceStop (s : State) (k : Nat) (cause : BitVec 2) : State :=
  let r := sliceOf s k
  if r.valid then sliceMark (sendSliceStop s r s.xl.coord cause none) k s.xl.coord cause else s

/-- SLICE_STOP of every configured slice of the module. -/
def sendAllStops (s : State) (cause : BitVec 2) : State := (List.range 16).foldl (fun t k => raiseSliceStop t k cause) s

-- The domain stop (R264, R419)

/-- Takes the coherent domain down. `cause` is the row of Table 09-5, from 1; `line` names the line, and with it its
home (R241, R264); `byLink` says that the Derset link in DOWN is the cause (R419). The entry is made before FATAL is raised, in a
failover behind what H has buffered, and every member slice receives SLICE_STOP. -/
def domainStop (s : State) (cause : Nat) (line : Nat) (byLink : Bool) : State :=
  if s.ras.domain == .running then
    let s := crazeError (logNow (releaseLog s) 0x13 4 noPart unitDevice line cause) 7 1
    let s := { s with ras := { s.ras with
      domain := .stopped, stopCount := sat s.ras.stopCount 1, lastStop := BitVec.ofNat 8 cause, stopByLink := byLink } }
    sendAllStops (raise s vFatal) 0
  else s

/-- Rows of Table 09-5 that stop the domain. -/
def causeTag : Nat := 4
def causeProtocol : Nat := 5
def causeSnoop : Nat := 6
def causeBridge : Nat := 7
def causeHost : Nat := 8

/-- The coherent domain serves requests. -/
def running (s : State) : Bool := s.ras.domain == .running

/-- New work starts: the domain runs, the input is not in BROWNOUT (R441), the PLL is not in holdover (R443), and no quiesce
has got beyond its draining (R468, R470). -/
def newWork (s : State) : Bool := running s && s.pwr.input != .brownout && !s.pwr.holdover && s.ras.qstate.toNat ≤ 1

/-- PHASE reads READY and no quiesce has started (R464, R468, R470). -/
def ready (s : State) : Bool := s.ras.phase == 8 && s.ras.qstate == 0

/-- Commands, doorbells and trainings are taken: PHASE reads READY, no quiesce has started, and the domain is not
stopped (R419, R464, R468, R470). -/
def accepting (s : State) : Bool := ready s && running s

end Sys2Proof.Machine
end

