-- ==== Sys2Proof/Machine/Memory.lean ====
section
/-!
DEFINITION. Device memory as the banks and the L2 hold it (spec/05, 09): the address map, DRAM reads and writes with
their errors, home and far copies with replacement, reservations, and the indivisible coherent accesses that cores and
engines make to one line.
-/
namespace Sys2Proof.Machine

open Sys2Proof

-- Lines and where they land (R136, R137, R241)

def mkLine (p o : Nat) : Nat := p * 2 ^ 25 + o / 128
def lineChan (l : Nat) : Nat := l / 2 ^ 25
def lineOfs (l : Nat) : Nat := l % 2 ^ 25 * 128
def lineDie (l : Nat) : Nat := lineChan l / 64
def lineKey (l : Nat) : Nat := lineChan l * 2 ^ 32 + lineOfs l
def pairOf (l : Nat) : Nat := l / 2

def lineSlice (l : Nat) : Nat :=
  8 * ((lineOfs l / 2048 + lineChan l % 64) % 6) + lineOfs l / 256 % 8

def lineSet (l : Nat) : Nat :=
  (2 * (lineOfs l / 2048 + 11 * (lineChan l % 64)) + lineOfs l / 128 % 2) % 1024

def lineSlot (l : Nat) : Nat := lineSlice l * 1024 + lineSet l

/-- Row and bank of a channel offset (R137). -/
def ofsRow (o : Nat) : Nat := o / 2 ^ 17 % 2 ^ 15
def ofsBank (o : Nat) : Nat := (o / 2 ^ 11 % 64) ^^^ (o / 2 ^ 17 % 64)

/-- The owned channels of a saggar in the order of R135, from PT_CHAN: rank by 16 c + s. -/
def ownedChannels (g : Saggar) : List Nat :=
  (List.range 256).filterMap (fun r =>
    let p := 16 * (r % 16) + r / 16
    if ((g.chans.getD (p / 64) 0).getLsbD (p % 64)) then some p else none)

/-- Bytes of a channel: 4 GiB, or 3.75 GiB under strong ECC (R132, R140). -/
def chanCap (c : Channel) : Nat := if c.strong then 15 * 2 ^ 28 else 2 ^ 32

/-- The size of a carve-out. -/
def carveSize (s : State) (k : Nat) : Nat :=
  match ownedChannels (sagOf s k) with
  | [] => 0
  | p :: ps => (ps.length + 1) * chanCap (chanOf s p)

/-- The map of R136: channel and channel offset of a partition-relative address. -/
def mapAddr (s : State) (k a : Nat) : Option (Nat × Nat) :=
  let own := ownedChannels (sagOf s k)
  if a < carveSize s k then
    some (own.getD (a / 2048 % own.length) 0, a / 2048 / own.length * 2048 + a % 2048)
  else none

/-- The line of a partition-relative address. -/
def mapLine (s : State) (k a : Nat) : Option Nat := (mapAddr s k a).map (fun p => mkLine p.1 p.2)

/-- The partition-relative address of a cell key, where a saggar owns its channel. -/
def unmapKey (own : List Nat) (key : Nat) : Option Nat :=
  let o := key % 2 ^ 32
  match own.findIdx? (fun p => p == key / 2 ^ 32) with
  | some j => some ((o / 2048 * own.length + j) * 2048 + o % 2048)
  | none => none

-- DRAM

/-- Why an access to memory gives no data. -/
inductive MemErr where
  | data
  | key
deriving DecidableEq, Repr

/-- What the next line of an access meets, and what the line `n` places on meets. -/
def nextEnv (env : MemEnv) : MemEnv := { noErr with line := env.more.headD cleanLine, more := env.more.tail }
def skipEnv (env : MemEnv) : Nat → MemEnv
  | 0 => env
  | n + 1 => skipEnv (nextEnv env) n

/-- The channel takes bank accesses of its saggar or of the front end: it is OWNED (or FREE), and its stack is not in
STOP (R133, R151, R156). -/
def chanServes (s : State) (p : Nat) : Bool :=
  ((chanOf s p).st == .owned || (chanOf s p).st == .free) && (stackOf s (p / 16)).throttle != .stop

-- Error correction (R139 to R141)

/-- The codeword of a symbol: lanes 0 to 63, 128 to 135 and 144 to 147 are codeword 0. -/
def symWord (lane : Nat) : Nat :=
  if lane < 64 then 0 else if lane < 128 then 1 else if lane < 136 then 0 else if lane < 144 then 1 else if lane < 148 then 0 else 1

/-- One more error of a symbol: errors of one symbol combine bit by bit. -/
def addErr (es : List SymErr) (e : SymErr) : List SymErr :=
  let m := ((es.find? (fun x => x.lane == e.lane)).map (fun x => x.mask)).getD 0 ^^^ e.mask
  let rest := es.filter (fun x => x.lane != e.lane)
  if m == 0 then rest else rest ++ [{ e with mask := m }]

/-- What the decoder of an ECC mode makes of the errors of a burst: how many codewords it corrects and in which lanes, whether it
finds one that it cannot correct, and whether one has more wrong symbols than the code is sure to detect. -/
structure Decoding where
  words : Nat
  lanes : List Nat
  bad : Bool
  beyond : Bool
deriving DecidableEq, Repr

/-- R139 and R140: up to 2 symbols of a codeword are corrected and up to 6 detected, under strong ECC up to 4 and 8. -/
def decodeBurst (strong : Bool) (es : List SymErr) : Decoding :=
  let fix := if strong then 4 else 2
  let find := if strong then 8 else 6
  let seen := es.filter (fun e => e.mask != 0 && (strong || e.lane.val < 144))
  let ws := [0, 1].map (fun c => seen.filter (fun e => symWord e.lane.val == c))
  { words := (ws.filter (fun w => 0 < w.length && w.length ≤ fix)).length
    lanes := (ws.filter (fun w => w.length ≤ fix)).flatMap (fun w => w.map (fun e => e.lane.val))
    bad := ws.any (fun w => fix < w.length && w.length ≤ find)
    beyond := ws.any (fun w => find < w.length) }

/-- The symbol errors of a burst in its bank. -/
def burstErrs (s : State) (l : Nat) : List SymErr := tblGet [] s.symErrs l

/-- Symbol errors arise in a bank. -/
def bankErrs (s : State) (l : Nat) (es : List SymErr) : State :=
  if es.isEmpty then s else { s with symErrs := tblSet [] s.symErrs l (es.foldl addErr (burstErrs s l)) }

-- What the banks hold (R132, R141, R146)

/-- A byte of the ADDR pattern: each 8 B word holds its own channel offset (Table 05-6). -/
def addrByte (o : Nat) : Byte := BitVec.ofNat 8 (o / 8 * 8 / 256 ^ (o % 8))

/-- The data of a burst as its bank stores it: under the XTS keys of the owning saggar in an OWNED or RETRAIN channel, with the
tweak of R146, as it is in another, where the first 1 MiB may still hold what training has written. -/
def bankData (s : State) (l : Nat) : List Byte :=
  let c := chanOf s (lineChan l)
  let data := if c.addrPattern && lineOfs l < 2 ^ 20 then (List.range 128).map (fun i => addrByte (lineOfs l + i))
    else memRead s.dram (lineKey l) 128
  match c.partition.bind (fun k => (sagOf s k.val).memKey) with
  | some k => if c.st == .owned || c.st == .retrain then xtsSeal (Config.keyBytes k) (lineKey l / 128) data else data
  | none => data

/-- The burst on its lanes as symbols, the data before the check bytes that are computed over it, with the errors that have arisen
in the bank. -/
def bankBurst (s : State) (l : Nat) : List Byte :=
  let sym := bankData s l ++ Config.rsCheck (chanOf s (lineChan l)).strong (bankData s l)
  (burstErrs s l).foldl (fun b e => listModify (· ^^^ e.mask) b e.lane.val) sym

/-- Reports a row as a remap candidate. -/
def nameRow (c : Channel) (row : Nat × Nat) : Channel :=
  { c with candidates := if c.candidates.contains row then c.candidates else c.candidates ++ [row] }

/-- The corrections of the current powered second, the model's window of 1 s (R151), by lane. -/
def laneCount (c : Channel) (now lane : Nat) : Nat := (c.laneErrs.filter (fun e => e == (lane, now))).length

/-- Corrected codewords of a burst (R141), with the lanes of their symbols (R151); 16 in one row within 24 powered hours make it a
remap candidate (R423). -/
def dramCorrected (s : State) (l k : Nat) (lanes : List Nat) : State :=
  if k = 0 then s
  else
    let p := lineChan l
    let row := (ofsBank (lineOfs l), ofsRow (lineOfs l))
    let now := s.ras.craze.poweredS.toNat
    let errs := ((chanOf s p).rowErrs.filter (fun e => now < e.2 + 86400)) ++ List.replicate (min k 16) (row, now)
    let s := modChan s p (fun c => { c with corrected := sat c.corrected k, rowErrs := errs
                                            laneErrs := c.laneErrs.filter (fun e => e.2 == now) ++ lanes.map (fun n => (n, now)) })
    let s := if 16 ≤ (errs.filter (fun e => e.1 == row)).length then modChan s p (fun c => nameRow c row) else s
    crazeError s 0 k

/-- CA parity errors of an access (R151). -/
def parityErrors (s : State) (p k : Nat) : State :=
  if k = 0 then s
  else
    let now := s.ras.craze.poweredS.toNat
    modChan s p (fun c => { c with parityErrs := c.parityErrs.filter (· == now) ++ List.replicate k now })

/-- An uncorrectable read (R143): the burst stays as it is, UNCORRECTED is set and counted, the row is reported as a
remap candidate, and the firing log takes it, charged to the saggar of its consumer if it has one (Table 17-7). The
eighth within 720 powered hours advises the channel's retirement (R424). -/
def dramUncorrected (s : State) (l : Nat) (consumer : Option Nat) : State :=
  let p := lineChan l
  let o := lineOfs l
  let row := (ofsBank o, ofsRow o)
  let now := s.ras.craze.poweredS.toNat
  let errs := ((chanOf s p).uncErrs.filter (fun t => now < t + 2592000)) ++ [now]
  let s := modChan s p (fun c =>
    { nameRow c row with uncorrected := true, uncorrectedCount := sat c.uncorrectedCount 1, uncErrs := errs })
  let s := crazeError s 1 1
  let s := match consumer with
    | some k => logEvent s 0x0A 2 k (unitChannel p) o 0
    | none => logEvent s 0x0A 0 noPart (unitChannel p) o 0
  if errs.length == 8 then logEvent s 0x15 7 noPart (unitChannel p) 0 0 else s

-- Key tags (R147)

/-- A request that carries another key tag than the channel's is refused (R147). -/
def keyRefuse (s : State) (p : Nat) : State :=
  modChan s p (fun c => { c with keyRefused := true, keyRefusedCount := sat c.keyRefusedCount 1 })

/-- The tag of a request: its saggar, or that of the channel's owner, and the key epoch, or the one before where the request is
still on its way from then. -/
def requestTag (s : State) (p : Nat) (consumer : Option Nat) (stale : Bool) : KeyTag :=
  let k : SagId := match consumer with
    | some k => BitVec.toFin (BitVec.ofNat 4 k)
    | none => (chanOf s p).partition.getD 0
  ⟨k, (sagOf s k.val).epoch - (if stale then 1 else 0)⟩

/-- The controller compares the tag of a request with the channel's current tag; a channel in no carve-out has none. -/
def tagRefused (s : State) (p : Nat) (consumer : Option Nat) (stale : Bool) : Bool := match (chanOf s p).tag with
  | some t => t != requestTag s p consumer stale
  | none => false

/-- What the two decoders of a read find: the base die on the burst of the bank, the controller on what crosses the interface. -/
def readDecodings (s : State) (l : Nat) (bus : List SymErr) : Decoding × Decoding :=
  (decodeBurst (chanOf s (lineChan l)).strong (burstErrs s l), decodeBurst (chanOf s (lineChan l)).strong bus)

/-- Reads one burst of a bank for a consumer, or for the channel itself. Where more symbols of a codeword are wrong than its code is
sure to detect, whether it is found and what the bytes are is open (a free value). -/
def burstRead (s : State) (l : Nat) (consumer : Option Nat) (env : MemEnv) : State × Except MemErr (List Byte) :=
  let s := parityErrors (bankErrs s l env.line.bank) (lineChan l) env.line.parity
  let d := readDecodings s l env.line.bus
  let s := dramCorrected s l (d.1.words + d.2.words) (d.1.lanes ++ d.2.lanes)
  let s := match consumer with
    | some k => perf s k perfREAD 1
    | none => s
  if d.1.bad || d.2.bad then (dramUncorrected s l consumer, .error .data)
  else if d.1.beyond || d.2.beyond then
    let f := takeFree s
    if Config.freeNat f.1 % 2 = 0 then (dramUncorrected f.2 l consumer, .error .data)
    else (f.2, .ok ((List.range 128).map (Config.freeByte f.1)))
  else (s, .ok (memRead s.dram (lineKey l) 128))

/-- A request of a consumer reads one burst: under another key tag it is refused (R147). -/
def dramRead (s : State) (l : Nat) (consumer : Option Nat) (env : MemEnv) : State × Except MemErr (List Byte) :=
  if tagRefused s (lineChan l) consumer env.line.stale then (keyRefuse s (lineChan l), .error .key)
  else burstRead s l consumer env

/-- The channel writes back or copies what it has read of a burst: an uncorrectable one stays as it is (R145, R152, R423). -/
def rewriteBurst (s : State) (l : Nat) (r : Except MemErr (List Byte)) : State := match r with
  | .ok data => { s with dram := memWrite s.dram (lineKey l) data, symErrs := tblDel s.symErrs l }
  | .error _ => s

/-- The bursts that `hit` names and that hold an error. -/
def errLines (s : State) (hit : Nat → Bool) : List Nat := (s.symErrs.map (fun e => e.1)).filter hit

/-- A write of a whole burst: its check bits are computed anew, so it clears every error (R143). -/
def dramWrite (s : State) (l : Nat) (data : List Byte) : State :=
  let s := { s with dram := memWrite s.dram (lineKey l) data, symErrs := tblDel s.symErrs l }
  match (chanOf s (lineChan l)).partition with
  | some k => perf s k.val perfWRITE 1
  | none => s

/-- Bytes of a line with some of them replaced. -/
def mergeLine (data : List Byte) (upd : Tbl Byte) : List Byte := upd.foldl (fun d p => listSet d p.1 p.2) data

/-- Bytes cover the whole line. -/
def wholeLine (upd : Tbl Byte) : Bool := upd.length ≥ 128

/-- Bytes as updates from offset `o` of their line on. -/
def updatesAt (o : Nat) (bs : List Byte) : Tbl Byte := bs.zipIdx.map (fun p => (o + p.2, p.1))

-- L2 copies

def nearKey (l way : Nat) : Nat := lineSlot l * 16 + way

/-- The way of the home copy of a line. -/
def nearWay (d : Die) (l : Nat) : Option Nat :=
  (List.range 15).find? (fun w => match tblFind d.near (nearKey l w) with
    | some x => x.line.toNat == l
    | none => false)

def homeCopy (s : State) (l : Nat) : Option NearLine :=
  match nearWay (dieOf s (lineDie l)) l with
  | some w => tblFind (dieOf s (lineDie l)).near (nearKey l w)
  | none => none

/-- Rewrites the home copy where there is one. -/
def modHome (s : State) (l : Nat) (f : NearLine → NearLine) : State :=
  modDie s (lineDie l) (fun d => match nearWay d l with
    | some w => match tblFind d.near (nearKey l w) with
      | some x => { d with near := tblPut d.near (nearKey l w) (f x) }
      | none => d
    | none => d)

def farCopy (s : State) (d l : Nat) : Option FarLine :=
  match tblFind (dieOf s d).far (lineSlot l) with
  | some x => if x.line.toNat == l then some x else none
  | none => none

def setFar (s : State) (d l : Nat) (st : FarSt) (data : List Byte) : State :=
  modDie s d (fun k => { k with far := tblPut k.far (lineSlot l) { line := BitVec.ofNat 33 l, st, data } })

/-- A granted line in the far way, for which the home snooped another copy or none (R256). -/
def setWon (s : State) (d l : Nat) (st : FarSt) (data : List Byte) (snooped : Bool) : State :=
  modDie s d (fun k => { k with far := tblPut k.far (lineSlot l) { line := BitVec.ofNat 33 l, st, data, won := some snooped } })

def dropFar (s : State) (d l : Nat) : State :=
  modDie s d (fun k => match tblFind k.far (lineSlot l) with
    | some x => if x.line.toNat == l then { k with far := tblDel k.far (lineSlot l) } else k
    | none => k)

-- The snoop filter (R252)

def filtKey (d l : Nat) : Nat := d * 49152 + lineSlot l

/-- The filter names a line in the slot of a die. -/
def filtOf (s : State) (d l : Nat) : Option FiltEntry :=
  match tblFind s.filter (filtKey d l) with
  | some e => if e.line.toNat == l then some e else none
  | none => none

def setFilt (s : State) (d l : Nat) (unique : Bool) : State :=
  { s with filter := tblPut s.filter (filtKey d l) { line := BitVec.ofNat 33 l, unique } }

/-- Clears the entry when it still names the line (R253). -/
def clearFilt (s : State) (d l : Nat) : State :=
  match filtOf s d l with
  | some _ => { s with filter := tblDel s.filter (filtKey d l) }
  | none => s

/-- The dies whose filter entries name a line. -/
def holders (s : State) (l : Nat) : List Nat := (List.range 4).filter (fun d => (filtOf s d l).isSome)

-- The host filter (R262)

def hostEntry (s : State) (l : Nat) : Option HostEntry := s.hostFilter.find? (fun e => e.line.toNat == l)

def hostUnique (s : State) (l : Nat) : Bool := match hostEntry s l with
  | some e => e.s0 == .unique || e.s1 == .unique
  | none => false

-- Reservations (R222 to R224, R259 to R261)

/-- A thread's place in the device. -/
structure Thread where
  core : Nat
  sub : Nat
  slot : Nat
  lane : Nat
deriving DecidableEq, Repr

/-- Clears the reservations that `hit` names on every core of a die, but for one thread. -/
def clearRsvIn (s : State) (die : Nat) (keep : Option Thread) (hit : Rsv → Bool) : State :=
  { s with cores := s.cores.map (fun pc =>
      if pc.1 / 64 == die then
        (pc.1, { pc.2 with subs := pc.2.subs.zipIdx.map (fun ps =>
          { ps.1 with slots := ps.1.slots.map (fun pg =>
              (pg.1, { pg.2 with lanes := pg.2.lanes.zipIdx.map (fun pl =>
                match pl.1.rsv with
                | some r =>
                  if hit r && keep != some ⟨pc.1, ps.2, pg.1, pl.2⟩ then { pl.1 with rsv := none } else pl.1
                | none => pl.1) })) }) })
      else pc) }

/-- Near reservations on a line, held in a die's L2. -/
def clearNear (s : State) (die l : Nat) (keep : Option Thread) : State :=
  clearRsvIn s die keep (fun r => !r.far && r.line.toNat == l)

/-- Far reservations on a pair. -/
def clearFarRsv (s : State) (die pair : Nat) (keep : Option Thread) : State :=
  clearRsvIn s die keep (fun r => r.far && pairOf r.line.toNat == pair)

/-- Clears an entry of the reservation array and sends RSV_KILL to each die of its mask (R261), but for `but`. -/
def killPair (s : State) (l : Nat) (but : Option Nat) : State :=
  let die := lineDie l
  let pair := pairOf l
  match (dieOf s die).rsvArray.find? (fun e => e.pair == pair) with
  | none => s
  | some e =>
    let s := modDie s die (fun d => { d with rsvArray := d.rsvArray.filter (fun x => x.pair != pair) })
    let dies := (List.finRange 4).filter (fun d => e.mask.getLsbD d.val && but != some d.val)
    { s with fabric := s.fabric ++ dies.map (fun d => .rsvKill d (BitVec.ofNat 33 l)) }

/-- The reservation of a thread. -/
def threadRsv (s : State) (t : Thread) : Option Rsv :=
  (tblFind (subOf (coreOf s t.core) t.sub).slots t.slot).bind (fun g => (g.lanes.getD t.lane {}).rsv)

/-- A thread that holds a far reservation on the pair writes to it: every other reservation goes, and its own stays with its die's
bit in the entry (R224, R261; log 75). -/
def keepPair (s : State) (l : Nat) (who : Thread) : State :=
  let h := lineDie l
  let d := who.core / 64
  let dies : List DieId := match (dieOf s h).rsvArray.find? (fun e => e.pair == pairOf l) with
    | some e => (List.finRange 4).filter (fun x => e.mask.getLsbD x.val && x.val != d)
    | none => []
  let s := modDie s h (fun k => { k with rsvArray := k.rsvArray.map (fun e =>
    if e.pair == pairOf l then { e with mask := e.mask &&& BitVec.ofNat 4 (2 ^ d) } else e) })
  clearFarRsv { s with fabric := s.fabric ++ dies.map (fun x => .rsvKill x (BitVec.ofNat 33 l)) } d (pairOf l) (some who)

/-- A write to a line by some agent: near reservations of every other thread in every L2 and the pair's entry go. -/
def writeKills (s : State) (l : Nat) (who : Option Thread) : State :=
  let s := (List.range 4).foldl (fun t d => clearNear t d l who) s
  match who with
  | some t => if (threadRsv s t).any (fun r => r.far && pairOf r.line.toNat == pairOf l) then keepPair s l t else killPair s l none
  | none => killPair s l none

-- Home copies: replacement (R245), and lines leaving

/-- A line leaves a die's near ways: a dirty one is written to DRAM, and near reservations of the die's threads go. -/
def evictNear (s : State) (die : Nat) (x : NearLine) : State :=
  let s := clearNear s die x.line.toNat none
  if x.st == .hd then dramWrite s x.line.toNat x.data else s

/-- The way that a fill takes, with the ages of the set. -/
def pickWay (d : Die) (l : Nat) (mask : BitVec 15) : Nat → Die × Option Nat
  | 0 => (d, none)
  | fuel + 1 =>
    let ways := (List.range 15).filter (fun w => mask.getLsbD w)
    match ways.find? (fun w => (tblFind d.near (nearKey l w)).isNone) with
    | some w => (d, some w)
    | none =>
      match ways.find? (fun w => match tblFind d.near (nearKey l w) with
          | some x => x.age == 3 && x.st != .bad
          | none => false) with
      | some w => (d, some w)
      | none =>
        let age (t : Tbl NearLine) (w : Nat) : Tbl NearLine :=
          match tblFind t (nearKey l w) with
          | some x => tblPut t (nearKey l w) { x with age := min 3 (x.age + 1) }
          | none => t
        pickWay { d with near := ways.foldl age d.near } l mask fuel

/-- Enters a line in the near ways of its home under a mask. A line that finds no way stays out: a dirty one goes to
DRAM. A copy that is there already is rewritten in its way. -/
def allocHome (s : State) (l : Nat) (st : NearSt) (data : List Byte) (mask : BitVec 15) (age : Nat) : State :=
  match homeCopy s l with
  | some _ => modHome s l (fun x => { x with st, data })
  | none =>
    let die := lineDie l
    match pickWay (dieOf s die) l mask 4 with
    | (_, none) => if st == .hd then dramWrite s l data else s
    | (d, some w) =>
      let victim := tblFind d.near (nearKey l w)
      let s := modDie s die (fun _ => { d with near := tblDel d.near (nearKey l w) })
      let s := match victim with
        | some x => evictNear s die x
        | none => s
      modDie s die (fun d => { d with near := tblPut d.near (nearKey l w) { line := BitVec.ofNat 33 l, st, age, data } })

/-- Removes the home copy without a write-back. -/
def dropHome (s : State) (l : Nat) : State :=
  modDie s (lineDie l) (fun d => match nearWay d l with
    | some w => { d with near := tblDel d.near (nearKey l w) }
    | none => d)

/-- A BAD line stands at its home (R264). -/
def isBadHome (s : State) (l : Nat) : Bool := match homeCopy s l with
  | some x => x.st == .bad
  | none => false

/-- The home copy leaves, a dirty one to DRAM. -/
def homeToDram (s : State) (l : Nat) : State := match homeCopy s l with
  | some x => dropHome (if x.st == .hd then dramWrite s l x.data else s) l
  | none => s

/-- The mask of a class for the saggar that owns the line (R247). -/
def wayMask (s : State) (l : Nat) (cls : ReqClass) : BitVec 15 :=
  match (chanOf s (lineChan l)).partition with
  | none => 0x7FFF
  | some k =>
    let m := tblGet {} (dieOf s (lineDie l)).masks k.val
    match cls with
    | .core => m.core
    | .ae => m.ae
    | .engine => m.engine

/-- How a fill enters the near ways: under which mask and at which age (R245 to R247). A mask of 0 lets it enter nowhere. -/
structure Fill where
  mask : BitVec 15
  age : Nat
deriving DecidableEq, Repr

/-- Age with which a hint enters the near ways (Table 09-1). -/
def hintAge (hint : Nat) : Nat := if hint == 1 then 3 else 1

/-- The fill of a request's class and hint. -/
def fillOf (s : State) (l : Nat) (cls : ReqClass) (hint : Nat) : Fill :=
  ⟨if hint == 2 then 0 else wayMask s l cls, hintAge hint⟩

/-- A fill that enters nowhere: dirty data goes to DRAM. -/
def noFill : Fill := ⟨0, 1⟩

-- Errors of the L2 (Table 09-5)

/-- A line becomes BAD at its home. -/
def becomeBad (s : State) (l : Nat) (data : List Byte) : State :=
  let s := allocHome s l .bad data 0x7FFF 1
  let s := modDie s (lineDie l) (fun d => { d with bad := true, badCount := sat d.badCount 1 })
  crazeError (logEvent s 0x0B 0 noPart (unitSlice (lineDie l) (lineSlice l)) (lineKey l) 0) 4 1

/-- Corrected errors of tags, data and filter entries. -/
def l2Corrected (s : State) (die k : Nat) : State :=
  if k = 0 then s else crazeError (modDie s die (fun d => { d with corrected := sat d.corrected k })) 3 k

/-- A far copy shows an uncorrectable data word: a clean one is dropped, a modified one becomes BAD at its home. -/
def farBad (s : State) (d l : Nat) (x : FarLine) : State :=
  let s := clearNear (dropFar s d l) d l none
  if x.st == .fm then becomeBad (clearFilt s d l) l x.data else s

/-- What a lookup of a line by die `d` meets in the slices: corrections, and an uncorrectable data word, of the die's own copy, of
the home copy, or of the copy of a die that the home snoops. -/
def l2Errors (s : State) (d l : Nat) (env : MemEnv) : State :=
  let s := l2Corrected s (if (farCopy s d l).isSome then d else lineDie l) env.line.l2Fixed
  if env.line.l2Bad then
    match farCopy s d l with
    | some x => farBad s d l x
    | none =>
      match homeCopy s l with
      | some x =>
        match x.st with
        | .hc => dropHome (clearNear s (lineDie l) l none) l
        | .hd => becomeBad s l x.data
        | .bad => s
      | none => (holders s l).foldl (fun t e => match farCopy t e l with
        | some x => farBad t e l x
        | none => t) s
  else s

/-- A lookup that meets an uncorrectable tag error takes the domain down (Table 09-5): nothing else comes of the command. -/
def meets (env : MemEnv) (s t : State) : State := match env.tagBad with
  | some l => domainStop s causeTag (lineKey l.toNat) false
  | none => t

-- Errors of the filters (R254)

/-- The filter entry of the line's slot on a die reads with an uncorrectable error: it is taken as UNIQUE for the line. -/
def badFilt (s : State) (l : Nat) (d : DieId) : State := l2Corrected (setFilt s d.val l true) (lineDie l) 1

/-- The host filter's set of a line. -/
def hostSet (l : Nat) : Nat := l % 2048

/-- A host-filter entry of the line's set, the `w`-th allocated, reads with an uncorrectable error: it is taken as UNIQUE for the
line, in both sectors. -/
def badHostEntry (s : State) (l : Nat) (w : Fin 16) : State :=
  let e : HostEntry := { line := BitVec.ofNat 33 l, s0 := .unique, s1 := .unique }
  let hit := ((s.hostFilter.filter (fun x => hostSet x.line.toNat == hostSet l))[w.val]?).map (fun x => x.line)
  let rest := s.hostFilter.filter (fun x => x.line.toNat != l && some x.line != hit)
  l2Corrected { s with hostFilter := rest ++ [e] } (lineDie l) 1

/-- What a lookup of the filters meets. -/
def filterErrors (s : State) (l : Nat) (env : MemEnv) : State :=
  let s := env.line.filtBad.foldl (fun t d => badFilt t l d) s
  match env.line.hostBad with
  | some w => badHostEntry s l w
  | none => s

-- Snoops, as the home performs them within one of the indivisible accesses below

/-- A snoop finds no copy: the entry is cleared and the answer counted (R253). -/
def snoopMiss (s : State) (d l : Nat) : State := clearFilt (modDie s (lineDie l) (fun k => { k with stale := sat k.stale 1 })) d l

/-- SNP_SHARED to every holder: an FM copy returns its data to the home, which takes it under the fill, and stays FS. -/
def snoopShared (s : State) (l : Nat) (f : Fill) : State :=
  (holders s l).foldl (fun t d => match farCopy t d l with
    | some x =>
      let t := setFilt (setFar t d l .fs x.data) d l false
      if x.st == .fm then allocHome t l .hd x.data f.mask f.age else t
    | none => snoopMiss t d l) s

/-- SNP_INVALIDATE to every holder but `except_`: an FM copy returns its data to the home. -/
def snoopInvalidate (s : State) (l : Nat) (except_ : Option Nat) (f : Fill) : State :=
  ((holders s l).filter (fun d => except_ != some d)).foldl (fun t d => match farCopy t d l with
    | some x =>
      let t := clearFilt (clearNear (dropFar t d l) d l none) d l
      if x.st == .fm then allocHome t l .hd x.data f.mask f.age else t
    | none => snoopMiss t d l) s

/-- SNP_CLEAN to every holder: an FM copy writes its data back and stays FE (R250, R176). -/
def snoopClean (s : State) (l : Nat) : State :=
  (holders s l).foldl (fun t d => match farCopy t d l with
    | some x => if x.st == .fm then dramWrite (setFar t d l .fe x.data) l x.data else t
    | none => snoopMiss t d l) s

/-- Whether a home would snoop a copy other than that of die `d`. -/
def othersHold (s : State) (d l : Nat) : Bool := (holders s l).any (· != d)

/-- A message about the line is on its way. -/
def msgLine : FabMsg → Nat
  | .snpShared _ l => l.toNat
  | .snpInvalidate _ l => l.toNat
  | .snpClean _ l => l.toNat
  | .rsvKill _ _ => 2 ^ 33
  | .dataS _ l _ _ => l.toNat
  | .dataE _ l _ _ => l.toNat
  | .dataM _ l _ _ => l.toNat
  | .grant _ l _ _ => l.toNat
  | .error _ l => l.toNat
  | .snpData _ l _ _ => l.toNat
  | .snpAck _ l _ => l.toNat
  | .notPresent _ l => l.toNat
  | .writeBack _ l _ => l.toNat
  | .result _ l _ => l.toNat

/-- The line has no transaction open or waiting and no message on its way (R249). -/
def lineIdle (s : State) (l : Nat) : Bool :=
  let h := homeOf s l
  h.queue.isEmpty && h.txn.isNone && !(s.fabric.any (fun m => msgLine m == l))

/-- The hold time of R255 lets die `d` take the line from its holder. -/
def holdLets (s : State) (l d : Nat) : Bool := match (homeOf s l).hold with
  | some (.die x) => x.val == d || (filtOf s x.val l).isNone
  | some .host => (hostEntry s l).isNone
  | none => true

/-- The die that a request comes from, if its grant fills a far way. -/
def fillsFar : HomeReq → Option DieId
  | .readShared d _ hint => if hint == 2 then none else some d
  | .readUnique d _ _ => some d
  | .upgrade d => some d
  | _ => none

/-- The die that a message's data or grant fills the far way of. -/
def msgFills : FabMsg → Option DieId
  | .dataS (.die d) _ _ true => some d
  | .dataE d _ _ _ => some d
  | .dataM d _ _ _ => some d
  | .grant (.die d) _ true _ => some d
  | _ => none

/-- A request of a die for a line of a far slot is open, or its grant or the write-back of the slot's victim on its way: the die
sends no request for another line of the slot before (the model's choice, log 73). -/
def slotOpen (s : State) (d l : Nat) : Bool :=
  s.homes.any (fun p => lineSlot p.1 == lineSlot l && lineDie p.1 != d &&
    ((p.2.txn.map (fun t => t.req)).toList ++ p.2.queue).any (fun r => (fillsFar r).any (fun x => x.val == d))) ||
  s.fabric.any (fun m => lineSlot (msgLine m) == lineSlot l && lineDie (msgLine m) != d &&
    ((msgFills m).any (fun x => x.val == d) || (match m with
      | .writeBack x _ _ => x.val == d
      | _ => false)))

/-- Writes back and drops the line that occupies the slot of `l` in the far way of die `d` (R253). -/
def clearSlot (s : State) (d l : Nat) : State :=
  match tblFind (dieOf s d).far (lineSlot l) with
  | none => s
  | some x =>
    if x.line.toNat == l then s
    else
      let v := x.line.toNat
      let s := clearNear (dropFar s d v) d v none
      if x.st == .fm then
        allocHome (clearFilt s d v) v .hd x.data (wayMask s v .core) 1
      else s

/-- The slot is free for the line: no request for another line of it is open, and its victim can leave. -/
def slotLets (s : State) (d l : Nat) : Bool :=
  !(slotOpen s d l) &&
  match tblFind (dieOf s d).far (lineSlot l) with
  | none => true
  | some x => x.line.toNat == l || lineIdle s x.line.toNat

/-- The result of an access: the state, the line's bytes or the error, and whether the home snooped or invalidated
another copy (R256). -/
structure Got where
  s : State
  res : Except MemErr (List Byte)
  snooped : Bool := false

/-- The bytes of a line at its home, brought from DRAM where there is no home copy. -/
def homeData (s : State) (l : Nat) (consumer : Option Nat) (env : MemEnv) : State × Except MemErr (List Byte) :=
  match homeCopy s l with
  | some x => if x.st == .bad then (s, .error .data) else (s, .ok x.data)
  | none => dramRead s l consumer env

/-- Whether the home can serve a read at all: it is running, the line is idle, no host sector is UNIQUE, and the channel
serves where DRAM is needed. -/
def canRead (s : State) (l : Nat) : Bool :=
  running s && lineIdle s l && !(hostUnique s l) && ((homeCopy s l).isSome || chanServes s (lineChan l))

/-- The home's part of a coherent read: hits keep or reset their age, a miss allocates by hint and mask. -/
def homeRead (s : State) (l : Nat) (cls : ReqClass) (hint : Nat) (consumer : Option Nat) (env : MemEnv) :
    State × Except MemErr (List Byte) :=
  let hit := (homeCopy s l).isSome
  let f := fillOf s l cls hint
  let s := if hit then s else snoopShared s l f
  let (s, r) := homeData s l consumer env
  match r with
  | .error e => (s, .error e)
  | .ok data =>
    if hit then ((if hint == 2 then s else modHome s l (fun x => { x with age := 0 })), .ok data)
    else if (homeCopy s l).isSome then (s, .ok data)
    else (allocHome s l .hc data f.mask f.age, .ok data)

/-- A read that misses the home copy asks the filters. -/
def readFilters (s : State) (l : Nat) (env : MemEnv) : State := if (homeCopy s l).isSome then s else filterErrors s l env

/-- A coherent read of a line by a core or an access engine of die `d`, in one step (R242, R245, R246, R252). -/
def readLine (s : State) (d l : Nat) (cls : ReqClass) (hint : Nat) (consumer : Option Nat) (env : MemEnv) : Option Got :=
  let s := l2Errors s d l env
  match farCopy s d l with
  | some x => if running s then some { s, res := .ok x.data } else none
  | none =>
    let s := readFilters s l env
    if canRead s l && (lineDie l == d || hint == 2 || slotLets s d l) then
      if lineDie l == d || hint == 2 then
        let (s, r) := homeRead s l cls hint consumer env
        some { s, res := r }
      else
        let s := clearSlot s d l
        let (s, r) := homeRead s l cls hint consumer env
        match r with
        | .error e => some { s, res := .error e }
        | .ok data => some { s := setFilt (setFar s d l .fs data) d l false, res := .ok data }
    else none

/-- A coherent read by an engine on H or on an edge die, or by a channel engine: no far copy is made; a miss allocates
under the ENGINE mask (R247). -/
def readEngine (s : State) (l : Nat) (consumer : Option Nat) (env : MemEnv) : Option Got :=
  let s := readFilters (l2Errors s (lineDie l) l env) l env
  if canRead s l then
    let (s, r) := homeRead s l .engine 0 consumer env
    some { s, res := r }
  else none

/-- The line can be taken unique by die `d` (or by the home for itself), which needs its slot where it fills it. -/
def canOwn (s : State) (d l : Nat) : Bool :=
  running s && lineIdle s l && (hostEntry s l).isNone && holdLets s l d && (lineDie l == d || slotLets s d l)

/-- A line granted unique to die `d` enters its far way, and the hold time begins (R255). -/
def ownFar (s : State) (d l : Nat) (st : FarSt) (data : List Byte) : State :=
  let s := setFilt (setFar s d l st data) d l true
  setHome s l { homeOf s l with hold := some (.die (BitVec.toFin (BitVec.ofNat 2 d))) }

/-- Takes a line unique for die `d`: into its far way as FE, or, at the home die, with every other copy gone and the
home copy present where the fill allows it. `whole` says that the whole line is about to be written, so that an
uncorrectable burst or a BAD line is no error. -/
def ownLine (s : State) (d l : Nat) (f : Fill) (consumer : Option Nat) (whole : Bool) (env : MemEnv) : Option Got :=
  let s := l2Errors s d l env
  match (if lineDie l == d then none else farCopy s d l) with
  | some x =>
    if x.st != .fs then (if running s then some { s, res := .ok x.data, snooped := x.won.getD false } else none)
    else
      let s := filterErrors s l env
      if canOwn s d l then
        let sn := othersHold s d l
        if isBadHome s l && !whole then some { s, res := .error .data, snooped := sn }
        else
          let s := homeToDram (clearNear (snoopInvalidate s l (some d) noFill) (lineDie l) l none) l
          some { s := ownFar s d l .fe x.data, res := .ok x.data, snooped := sn }
      else none
  | none =>
    let s := filterErrors s l env
    if canOwn s d l && ((homeCopy s l).isSome || chanServes s (lineChan l)) then
      let sn := othersHold s d l
      let hit := (homeCopy s l).isSome
      let s := snoopInvalidate s l none f
      let (s, r) := homeData s l consumer env
      let blank : List Byte := List.replicate 128 0
      let r : Except MemErr (List Byte) := match r with
        | .error .data => if whole then .ok blank else .error .data
        | r => r
      match r with
      | .error e => some { s, res := .error e, snooped := sn }
      | .ok data =>
        if lineDie l == d then
          let s := if hit then modHome s l (fun x => { x with age := 0 })
            else if whole || (homeCopy s l).isSome then s
            else allocHome s l .hc data f.mask f.age
          some { s, res := .ok data, snooped := sn }
        else
          let dirty : Bool := match homeCopy s l with
            | some x => x.st == .hd
            | none => false
          let s := dropHome (clearNear (clearSlot s d l) (lineDie l) l none) l
          some { s := ownFar s d l (if dirty then .fm else .fe) data, res := .ok data, snooped := sn }
    else none

/-- Puts new bytes into a line that die `d` has taken unique; a home copy that is not there enters under the fill. -/
def storeOwned (s : State) (d l : Nat) (data : List Byte) (who : Option Thread) (f : Fill) : State :=
  let s := writeKills s l who
  if lineDie l == d then
    match homeCopy s l with
    | some _ => modHome s l (fun x => { x with st := .hd, data })
    | none => allocHome s l .hd data f.mask f.age
  else setFar s d l .fm data

/-- What such a write does at its home. -/
def writeNoAllocBody (s : State) (l : Nat) (whole : Bool) (f : List Byte → List Byte) (who : Option Thread)
    (consumer : Option Nat) (env : MemEnv) : Got :=
  let s := snoopInvalidate s l none noFill
  if isBadHome s l && !whole then { s, res := .error .data }
  else
    let s := homeToDram s l
    let (s, r) :=
      if !whole then dramRead s l consumer env
      else if tagRefused s (lineChan l) consumer env.line.stale then (keyRefuse s (lineChan l), Except.error .key)
      else (parityErrors s (lineChan l) env.line.parity, Except.ok (List.replicate 128 0))
    match r with
    | .error e => { s, res := .error e }
    | .ok old => { s := dramWrite (writeKills s l who) l (f old), res := .ok (f old) }

/-- A write that allocates nowhere: every copy is invalidated, modified data reaches DRAM first, and the new bytes of the
line are merged there (R144, R177, R263). `whole` says that they do not depend on the old ones. A partial write that
meets an uncorrectable burst, or a BAD line, is discarded. -/
def writeNoAllocWith (s : State) (l : Nat) (whole : Bool) (f : List Byte → List Byte) (who : Option Thread)
    (consumer : Option Nat) (env : MemEnv) : Option Got :=
  let s := filterErrors (l2Errors s (lineDie l) l env) l env
  if running s && lineIdle s l && (hostEntry s l).isNone && holdLets s l 4 && chanServes s (lineChan l) then
    some (writeNoAllocBody s l whole f who consumer env)
  else none

/-- Such a write of some bytes of the line. -/
def writeNoAlloc (s : State) (l : Nat) (upd : Tbl Byte) (who : Option Thread) (consumer : Option Nat) (env : MemEnv) : Option Got :=
  writeNoAllocWith s l (wholeLine upd) (fun old => mergeLine old upd) who consumer env

/-- A store of some bytes of a line by die `d` with its L2 hint (R246): under NO_ALLOC a hit is served where it is and keeps its
age, and a miss goes to DRAM; else the line is taken unique. -/
def storeLine (s : State) (d l : Nat) (upd : Tbl Byte) (cls : ReqClass) (hint : Nat) (who : Option Thread) (consumer : Option Nat)
    (env : MemEnv) : Option Got :=
  let f := fillOf s l cls hint
  let own : Unit → Option Got := fun _ => (ownLine s d l f consumer (wholeLine upd) env).map (fun g => match g.res with
    | .ok data => { g with s := storeOwned g.s d l (mergeLine data upd) who f, res := .ok (mergeLine data upd) }
    | .error _ => g)
  if hint != 2 || (farCopy s d l).isSome then own ()
  else match homeCopy s l with
    | none => writeNoAlloc s l upd who consumer env
    | some x =>
      if running s && lineIdle s l && (hostEntry s l).isNone && holdLets s l d then
        if x.st == .bad && !(wholeLine upd) then some { s, res := .error .data }
        else
          let data := mergeLine x.data upd
          let s := writeKills (snoopInvalidate s l none noFill) l who
          some { s := modHome s l (fun y => { y with st := .hd, data }), res := .ok data }
      else none

end Sys2Proof.Machine
end

