-- ==== Sys2Proof/Machine/Access.lean ====
section
/-!
DEFINITION. Who may reach which address (R138, R217, R312, R322, R324), and what a faulting thread and an aborted launch
leave (R40 to R44, R79, R129, R130, R183, R321).
-/
namespace Sys2Proof.Machine

open Sys2Proof

/-- Table 01-5. -/
inductive TFault where
  | illegal
  | registerRange
  | misaligned
  | address
  | permission
  | localBounds
  | divergent
  | uncorrectable
  | token
  | nearMemory
  | aborted
deriving DecidableEq, Repr

def tfCode : TFault → Nat
  | .illegal => 1
  | .registerRange => 2
  | .misaligned => 3
  | .address => 4
  | .permission => 5
  | .localBounds => 6
  | .divergent => 7
  | .uncorrectable => 8
  | .token => 9
  | .nearMemory => 10
  | .aborted => 11

/-- The start of the host aperture (R322). -/
def apertureBase : Nat := 2 ^ 47

/-- The global addresses an object covers: base and length. -/
def objExtent (o : Obj) : Nat × Nat :=
  if o.host then (apertureBase + o.aperture.toNat * 4096, o.len.toNat) else (o.base.toNat, o.len.toNat)

def covers (o : Obj) (a len : Nat) : Bool := (objExtent o).1 ≤ a && a + len ≤ (objExtent o).1 + (objExtent o).2

/-- An object is usable by a launch (R324). -/
def usableByLaunch (o : Obj) (launch : Nat) : Bool :=
  o.st == .live || (o.st == .draining && o.launches.contains launch)

/-- The objects of a context. -/
def objectsOf (s : State) (tag : Nat) : List (Nat × Obj) :=
  s.obj.objs.filter (fun p => p.2.st != .free && p.2.tag.toNat == tag)

/-- Some byte lies in the graph store of a slot that is not FREE (R312). -/
def inGraphStore (s : State) (sag a len : Nat) : Bool :=
  s.fe.graphs.any (fun p => p.2.st != .free && p.2.sag.val == sag &&
    let b := (objExtent (objOf s p.2.storeObj)).1 + p.2.storeOfs
    a < b + p.2.storeLen && b < a + len)

/-- The checks ADDRESS and PERMISSION of Table 01-5 on an access of a launch. -/
def accessFault (s : State) (info : LaunchInfo) (a len : Nat) (write : Bool) : Option TFault :=
  let objs := (objectsOf s info.ctx).filter (fun p => covers p.2 a len && usableByLaunch p.2 info.id)
  if a < apertureBase && carveSize s info.sag.val < a + len then some .address
  else if objs.isEmpty then some .address
  else if inGraphStore s info.sag.val a len then some .permission
  else if write && objs.all (fun p => p.2.ro) then some .permission
  else none

/-- The address is host memory. -/
def isHostAddr (a : Nat) : Bool := apertureBase ≤ a

/-- The host physical address behind an access to the host aperture (R322). -/
def hostPhys (s : State) (info : LaunchInfo) (a len : Nat) : Option Nat :=
  ((objectsOf s info.ctx).find? (fun p => p.2.host && covers p.2 a len && usableByLaunch p.2 info.id)).map
    (fun p => p.2.base.toNat + (a - (objExtent p.2).1))

-- Launches

def launchOf (s : State) (id : Nat) : Option Launch := s.fe.launches.find? (fun l => l.info.id == id)

def modLaunch (s : State) (id : Nat) (f : Launch → Launch) : State :=
  { s with fe := { s.fe with launches := s.fe.launches.map (fun l => if l.info.id == id then f l else l) } }

/-- Coordinates of a block by its linear index, BID_X fastest (R309). -/
def blockCoords (info : LaunchInfo) (lin : Nat) : Nat × Nat × Nat :=
  (lin % info.gx.toNat, lin / info.gx.toNat % info.gy.toNat, lin / info.gx.toNat / info.gy.toNat)

-- Taking a block off its core

/-- Frees what a block holds on its core: its groups, its slab work and lease, its streams and spans, its slot. The stores in
the sub-cores' buffers stay and drain as they are, those of the threads that did not fault too: R41 leaves every other output of
an aborted launch unspecified, the model's choice (log 66). -/
def removeBlock (k : Core) (b : Nat) : Core :=
  match tblFind k.blocks b with
  | none => k
  | some blk =>
    let subs := k.subs.zipIdx.map (fun p =>
      let gone : List SlotId := blk.groups.filterMap (fun g => if g.1.val == p.2 then some g.2 else none)
      { p.1 with
        slots := p.1.slots.filter (fun x => !(gone.any (fun q => q.val == x.1)))
        active := p.1.active.filter (fun x => !(gone.contains x))
        ring := p.1.ring.filter (fun x => !(gone.contains x))
        ready := p.1.ready.filter (fun x => !(gone.contains x)) })
    { k with
      subs := subs
      blocks := tblDel k.blocks b
      slabs := k.slabs.map (fun sl => { sl with queue := sl.queue.filter (fun e => e.blk.val != b) })
      lease := if k.lease.any (fun x => x.val == b) then none else k.lease
      leaseQueue := k.leaseQueue.filter (fun x => x.val != b)
      engines := k.engines.map (fun e =>
        { e with streams := e.streams.filter (fun x => x.1 / 4 != b)
                 spans := e.spans.filter (fun x => x.ctx / 4 != b) }) }

/-- The block slots of a core that hold blocks of a launch. -/
def blocksOfLaunch (k : Core) (id : Nat) : List Nat :=
  k.blocks.filterMap (fun p => if p.2.info.id == id then some p.1 else none)

/-- Whether a saggar is SEALED. -/
def isSealed (s : State) (k : Nat) : Bool := (sagOf s k).st == .sealed

/-- An update belongs to an operation. -/
def updateOf (id : Nat) (u : AccUpdate) : Bool := match u.src with
  | .op i _ => i == id
  | .packet _ _ => false

/-- An operation leaves: its descriptor and the updates it still has in accumulate paths. -/
def forgetNmOp (s : State) (id : Nat) : State :=
  { s with
    nmOps := s.nmOps.filter (fun o => o.id != id)
    memStacks := s.memStacks.map (fun st => { st with accQueue := st.accQueue.filter (fun u => !(updateOf id u)) }) }

/-- Discards a near-memory operation: the part-queue entries it holds on each channel, which its admission keeps until the stack's
results are written, are freed and counted in ABORT_COUNT, but not those of a SEALED saggar (R165, R183, R395). -/
def dropNmOp (s : State) (op : NmOp) : State :=
  let s := forgetNmOp s op.id
  if isSealed s op.sag.val then s
  else
    (op.shares.flatMap (fun sh => if sh.phase == .running then sh.parts else [])).foldl
      (fun t p => modChan t p.val (fun c => { c with abortCount := sat c.abortCount 1 })) s

/-- Stops every block of a launch and every operation it issued; the blocks not yet started never start (R42). -/
def abortLaunch (s : State) (id : Nat) : State :=
  let s := { s with cores := s.cores.map (fun p => (p.1, (blocksOfLaunch p.2 id).foldl removeBlock p.2)) }
  let s := modLaunch s id (fun l => { l with aborted := true, next := l.blocks, returned := [], places := [] })
  let s := { s with fe := { s.fe with
    handed := s.fe.handed.filter (fun h => h.launch != id)
    rtQueue := s.fe.rtQueue.filter (· != id), bulkQueue := s.fe.bulkQueue.filter (· != id) } }
  (s.nmOps.filter (fun o => match o.issuer with
    | .block _ _ i _ _ _ _ => i.id == id
    | .node _ => false)).foldl dropNmOp s

/-- The entry that a node belongs to, for a fault record. -/
def nodeFields (n : NodeRef) (r : FaultRec) : FaultRec :=
  { r with
    ring := BitVec.ofNat 10 n.ring
    seq := n.seq.setWidth 32
    node := match n.graph with
      | some g => BitVec.ofNat 16 g.2
      | none => 0xFFFF }

/-- The place of a fault in the work of a launch. -/
structure FaultPlace where
  core : Nat
  lin : Nat
  thread : Nat
  pc : W32
deriving DecidableEq, Repr

/-- Records a fault of a launch with its source, code and status (R43, R44), and aborts the launch. -/
def launchFault (s : State) (info : LaunchInfo) (source code status : Nat) (pl : FaultPlace) (addr : W64) : State :=
  let xyz := blockCoords info pl.lin
  let base : FaultRec :=
    { code := BitVec.ofNat 8 code, status := BitVec.ofNat 8 status, source := BitVec.ofNat 4 source
      thread := BitVec.ofNat 10 pl.thread, pc := pl.pc, bidX := BitVec.ofNat 32 xyz.1
      bidY := BitVec.ofNat 16 xyz.2.1, bidZ := BitVec.ofNat 16 xyz.2.2, addr := addr }
  let r := match launchOf s info.id with
    | some l => nodeFields l.node base
    | none => { base with ring := BitVec.ofNat 10 info.ring, node := 0xFFFF }
  let s := chargeFault s (info.ctx % 4096) r
  let s := modLaunch s info.id (fun l => { l with faulted := true })
  abortLaunch s info.id

/-- A thread faults (R40): the count of its core, the record, the abort. -/
def threadFault (s : State) (info : LaunchInfo) (f : TFault) (pl : FaultPlace) (addr : W64) : State :=
  launchFault (modCore s pl.core (fun k => { k with faultCount := sat k.faultCount 1 })) info 1 (tfCode f) 0 pl addr

/-- Threads that fault at one instruction, in the order in which R43 takes them. -/
def threadFaults (s : State) (info : LaunchInfo) (fs : List (TFault × FaultPlace × W64)) : State :=
  fs.foldl (fun t x => threadFault t info x.1 x.2.1 x.2.2) s

end Sys2Proof.Machine
end

