-- ==== Sys2Proof/Machine/Sched.lean ====
section
/-!
DEFINITION. The two-level scheduler of a sub-core (R18 to R24): which group and subset issue, what an issue counts, and
how groups move between the active set and the pending set.
-/
namespace Sys2Proof.Machine

open Sys2Proof

-- Waits (Table 01-2)

def isLongWait : Wait → Bool
  | .load => true
  | .atomic => true
  | .tok => true
  | .nm => true
  | .bar => true
  | .cone => true
  | .fenceDevice => true
  | .fenceSys => true
  | .slab => true
  | .ready => false
  | .buffer => false
  | .slabStore => false
  | .fenceBlock => false
  | .slabIssue => false

def laneReady (l : Lane) : Bool := !l.exited && l.wait == .ready

def grpReady (g : Grp) : Bool := g.lanes.any laneReady

/-- Every non-exited thread is blocked on a long wait, or none is left. -/
def grpLongWait (g : Grp) : Bool := g.lanes.all (fun l => l.exited || isLongWait l.wait)

/-- 60 issue opportunities have passed since the thread last issued (R23). -/
def isStarving (l : Lane) : Bool := l.starving || 60 ≤ l.waited

def noGrp : Grp := { blk := 0, idx := 0, lanes := [] }

def grpOf (u : Sub) (slot : Nat) : Grp := tblGet noGrp u.slots slot

def setGrp (u : Sub) (slot : Nat) (g : Grp) : Sub := { u with slots := tblPut u.slots slot g }

def noBlock : Block := { info := {}, lin := 0, groups := [] }

def blockOf (k : Core) (b : Nat) : Block := tblGet noBlock k.blocks b

def setBlock (k : Core) (b : Nat) (x : Block) : Core := { k with blocks := tblPut k.blocks b x }

-- Choosing (R18, R23)

/-- The groups of the active set in round-robin order, the next to be served first. A group that has entered the active set
since the last issue stands behind those that were in it: the model's choice (log 72), under which R18's bound of 4 issue
opportunities holds whatever groups come and go. -/
def ringOrder (u : Sub) : List SlotId :=
  u.ring.filter (fun a => u.active.contains a) ++ u.active.filter (fun a => !(u.ring.contains a))

/-- The group that issues: of the active set, with a ready subset, next in round-robin order. -/
def pickGroup (u : Sub) : Option Nat :=
  ((ringOrder u).find? (fun a => grpReady (grpOf u a.val))).map (fun a => a.val)

/-- The round-robin order after an issue: it starts with the group after the one that issued. -/
def ringAfter (u : Sub) (slot : Nat) : List SlotId :=
  let o := ringOrder u
  let n := o.findIdx (fun a => a.val == slot) + 1
  o.drop n ++ o.take n

/-- Ready lanes with their indices. -/
def readyLanes (g : Grp) : List (Nat × Lane) :=
  (g.lanes.zipIdx.filter (fun p => laneReady p.1)).map (fun p => (p.2, p.1))

/-- The pc of the subset that issues: that of the starving lane that has waited longest, else the lowest. A subset whose
threads last issued at different times has waited as long as its thread that waits longest, and of two starving subsets that
have waited equally long the one with the lower pc issues: R23 says neither, the model's choices (log 72). -/
def pickPc (g : Grp) : Option W32 :=
  let ls := readyLanes g
  let st := ls.filter (fun p => isStarving p.2)
  match st with
  | [] => match ls with
    | [] => none
    | x :: xs => some (xs.foldl (fun m p => if p.2.pc.toNat < m.toNat then p.2.pc else m) x.2.pc)
  | x :: xs =>
    some (xs.foldl (fun (m : Lane) p =>
      if m.waited < p.2.waited || (m.waited == p.2.waited && p.2.pc.toNat < m.pc.toNat) then p.2 else m) x.2).pc

/-- One issue: the group, the subset's pc and its lanes, ascending. -/
structure Issue where
  core : Nat
  sub : Nat
  slot : Nat
  pc : W32
  lanes : List Nat
deriving DecidableEq, Repr

/-- The issue that the state of the sub-core selects. -/
def pickIssue (k : Core) (c b : Nat) : Option Issue :=
  let u := subOf k b
  match pickGroup u with
  | none => none
  | some slot =>
    let g := grpOf u slot
    match pickPc g with
    | none => none
    | some pc =>
      some { core := c, sub := b, slot, pc, lanes := ((readyLanes g).filter (fun p => p.2.pc == pc)).map (fun p => p.1) }

/-- Lanes of a group with some of them changed. -/
def modLanes (g : Grp) (ls : List Nat) (f : Nat → Lane → Lane) : Grp :=
  { g with lanes := g.lanes.zipIdx.map (fun p => if ls.contains p.2 then f p.2 p.1 else p.1) }

/-- Lane `n` of a group at an issue to the lanes `ls` of it: an issued thread starts its wait anew, another non-exited one
has waited one more opportunity. -/
def countLane (ls : List Nat) (l : Lane) (n : Nat) : Lane :=
  if ls.contains n then { l with waited := 0, starving := false }
  else if l.exited then l
  else { l with waited := l.waited + 1 }

/-- A group of the active set at an issue to some of its lanes, none where another group issues. -/
def countGrp (ls : List Nat) (g : Grp) : Grp := { g with lanes := g.lanes.zipIdx.map (fun l => countLane ls l.1 l.2) }

/-- What an issue counts: every other non-exited thread of the active set has waited one more opportunity. -/
def countIssue (u : Sub) (i : Issue) : Sub :=
  { u with
    ring := ringAfter u i.slot
    slots := u.slots.map (fun p => (p.1,
      if u.active.any (fun a => a.val == p.1) then countGrp (if p.1 == i.slot then i.lanes else []) p.2 else p.2)) }

/-- An issue opportunity at which no group is ready counts as well: every non-exited thread of the active set has waited one
more (R18, R23). -/
def countNone (u : Sub) : Sub :=
  { u with slots := u.slots.map (fun p => (p.1, if u.active.any (fun a => a.val == p.1) then countGrp [] p.2 else p.2)) }

-- Moving between the sets (R19, R20)

/-- Demotes the groups that are held by long waits, and queues the pending groups that have become ready. Groups that one
event makes ready at the same moment join in ascending slot number: R20 orders only by the moment, the model's choice
(log 72). -/
def settleSub (u : Sub) : Sub :=
  let active := u.active.filter (fun a => !(grpLongWait (grpOf u a.val)))
  let fresh := (List.finRange 16).filter (fun a =>
    (tblFind u.slots a.val).isSome && grpReady (grpOf u a.val) && !(active.contains a) && !(u.ready.contains a))
  { u with active := active, ready := u.ready.filter (fun a => grpReady (grpOf u a.val)) ++ fresh }

def settleCore (k : Core) : Core := { k with subs := k.subs.map settleSub }

def settle (s : State) (c : Nat) : State := modCore s c settleCore

/-- Every core settles: an event of another unit may have woken threads anywhere. -/
def settleAll (s : State) : State := { s with cores := s.cores.map (fun p => (p.1, settleCore p.2)) }

-- Reading and writing the group of an issue

def issueGrp (s : State) (i : Issue) : Grp := grpOf (subOf (coreOf s i.core) i.sub) i.slot

def issueBlock (s : State) (i : Issue) : Block := blockOf (coreOf s i.core) (issueGrp s i).blk.val

def issueInfo (s : State) (i : Issue) : LaunchInfo := (issueBlock s i).info

def modGrp (s : State) (c b slot : Nat) (f : Grp → Grp) : State :=
  modCore s c (fun k => setSub k b (setGrp (subOf k b) slot (f (grpOf (subOf k b) slot))))

def modIssueGrp (s : State) (i : Issue) (f : Grp → Grp) : State := modGrp s i.core i.sub i.slot f

/-- The fault place of a lane of a group. -/
def lanePlace (s : State) (i : Issue) (lane : Nat) : FaultPlace :=
  { core := i.core, lin := (issueBlock s i).lin, thread := (issueGrp s i).idx * 32 + lane, pc := i.pc }

/-- Faults of lanes at the issued instruction, lowest lane first. -/
def faultLanes (s : State) (i : Issue) (fs : List (Nat × TFault × Nat)) : State :=
  threadFaults s (issueInfo s i) (fs.map (fun f => (f.2.1, lanePlace s i f.1, BitVec.ofNat 64 f.2.2)))

/-- The state after an issue is counted: the waits of the sub-core, and the saggar's count of issues. -/
def counted (s : State) (i : Issue) : State :=
  perf (modCore s i.core (fun k => setSub k i.sub (countIssue (subOf k i.sub) i))) (issueInfo s i).sag.val perfISSUE 1

-- Instruction fetch (R234, R239)

/-- The global address of a code address. -/
def codeAddr (x : LaunchInfo) (pc : Nat) : Nat := x.objAddr.toNat + x.codeOfs + pc

/-- A line of the instruction cache of cluster `g`, by its global address / 64. -/
def codeLine (s : State) (g : Nat) (sag : SagId) (n : Nat) : Option CodeLine :=
  (tblGet [] s.icaches g).find? (fun x => x.sag == sag && x.line == n)

/-- A line enters the instruction cache: of 256 sets of 8 ways. A full set gives up its oldest fill, the model's choice (log 15). -/
def putCode (s : State) (g : Nat) (x : CodeLine) : State :=
  let old := (tblGet [] s.icaches g).filter (fun y => !(y.sag == x.sag && y.line == x.line))
  let keep := match (old.filter (fun y => y.line % 256 == x.line % 256)).drop 7 with
    | [] => old
    | v :: _ => old.filter (· != v)
  { s with icaches := tblPut s.icaches g (x :: keep) }

/-- The instruction word that the cache of an issue's cluster holds at a code address. -/
def heldWord (s : State) (i : Issue) (pc : Nat) : Option W64 :=
  let info := issueInfo s i
  let a := codeAddr info pc
  (codeLine s (i.core / 16) info.sag (a / 64)).map (fun x => BitVec.ofNat 64 (leNat ((x.data.drop (a % 64)).take 8)))

/-- The major opcodes of Table 08-5; every other one is reserved (R214, R215). -/
def opcKnown (o : Nat) : Bool :=
  o ≤ 0x11 || (0x20 ≤ o && o ≤ 0x29) || (0x30 ≤ o && o ≤ 0x33) || o == 0x40 || o == 0x41 || (0x48 ≤ o && o ≤ 0x4C) ||
  (0x50 ≤ o && o ≤ 0x53) || o == 0x58 || o == 0x59 || (0x60 ≤ o && o ≤ 0x65) || (0x68 ≤ o && o ≤ 0x6B) || (0x70 ≤ o && o ≤ 0x74)

/-- A word of the long form (R213). -/
def longWord (w : W64) : Bool := 1 ≤ field w 56 8 && field w 56 8 ≤ 0x33 && bit w 15

/-- The code addresses whose lines an instruction needs: its own, and that of bits 127:64 of a long form inside the code. -/
def fetchPcs (s : State) (i : Issue) : List Nat :=
  let pc := i.pc.toNat
  if (heldWord s i pc).any longWord && pc + 8 < (issueInfo s i).codeLen then [pc, pc + 8] else [pc]

/-- The subset's fetch lies inside the code of its launch (R234), and its cluster's instruction cache holds the instruction, whose
major opcode is not reserved (R214, R239). -/
def fetchOk (s : State) (i : Issue) : Bool :=
  decide (i.pc.toNat < (issueInfo s i).codeLen) && (fetchPcs s i).all (fun a => (heldWord s i a).isSome) &&
  (heldWord s i i.pc.toNat).any (fun w => opcKnown (field w 56 8))

/-- How the fetch of a line ended. -/
inductive Fetched where
  | held
  | waits
  | bad
deriving DecidableEq, Repr

/-- Fetches the line of a code address where the cluster's cache does not hold it: from L2, under the CORE mask (R247), or from host
memory, which no L2 holds (R243). -/
def fetchLine (s : State) (i : Issue) (pc : Nat) (e : FetchEnv) : State × Fetched :=
  let info := issueInfo s i
  let n := codeAddr info pc / 64
  let put (t : State) (bs : List Byte) : State := putCode t (i.core / 16) { sag := info.sag, line := n, data := bs }
  if (codeLine s (i.core / 16) info.sag n).isSome then (s, .held)
  else if isHostAddr (n * 64) then if e.host.fail then (s, .bad) else (put s (e.host.bytes.take 64), .held)
  else match mapLine s info.sag.val (n * 64) with
    | none => (s, .bad)
    | some l => match readLine s (i.core / 64) l .core 0 (some info.sag.val) e.env with
      | none => (s, .waits)
      | some g => match g.res with
        | .error _ => (g.s, .bad)
        | .ok data => (put g.s ((data.drop (n * 64 % 128)).take 64), .held)

/-- Fetches what an instruction needs, line by line. -/
def fetchLines (s : State) (i : Issue) (e : FetchEnv) : List Nat → State × Fetched
  | [] => (s, .held)
  | a :: as => match fetchLine s i a e with
    | (t, .held) => fetchLines t i { e with env := nextEnv e.env, host := { e.host with bytes := e.host.bytes.drop 64 } } as
    | r => r

/-- The fetch of an issue: its own word first, then the rest of a long form. -/
def fetchCode (s : State) (i : Issue) (e : FetchEnv) : State × Fetched := match fetchLine s i i.pc.toNat e with
  | (t, .held) => fetchLines t i { e with env := nextEnv e.env, host := { e.host with bytes := e.host.bytes.drop 64 } } ((fetchPcs t i).drop 1)
  | r => r

/-- The lines of a launch's code object leave the instruction cache of every cluster of the saggar (R239). -/
def invalidateCode (s : State) (x : LaunchInfo) : State :=
  let lo := x.objAddr.toNat
  let gone (c : CodeLine) : Bool := c.sag == x.sag && lo < c.line * 64 + 64 && c.line * 64 < lo + x.objLen
  { s with icaches := s.icaches.map (fun p =>
      if (sagOf s x.sag.val).clusters.getLsbD p.1 then (p.1, p.2.filter (fun c => !(gone c))) else p) }

/-- All lanes of an issue fault at its instruction. -/
def faultIssue (s : State) (i : Issue) (f : TFault) : State :=
  settle (faultLanes (counted s i) i (i.lanes.map (fun l => (l, f, 0)))) i.core

/-- One issue opportunity of a sub-core at which nothing issues. -/
def passOpportunity (s : State) (p : Place) : State :=
  modCore s p.core.val (fun k => setSub k p.sub.val (countNone (subOf k p.sub.val)))

/-- An issue whose instruction the cache did not hold: the fetch, and with it the instruction where it succeeds. An uncorrectable
error faults with UNCORRECTABLE_DATA, a reserved major opcode with ILLEGAL_INSTRUCTION (R214, R239). -/
def issueFetch (s : State) (p : Place) (i : Issue) (body : State → Issue → State) : State :=
  match fetchCode s i p.fetch with
  | (t, .waits) => passOpportunity t p
  | (t, .bad) => faultIssue t i .uncorrectable
  | (t, .held) => if fetchOk t i then settle (body (counted t i) i) i.core else faultIssue t i .illegal

/-- One issue opportunity: the scheduler chooses, the counters count, and a subset whose fetch lies at or beyond
CODE_LENGTH faults (R234), one that the instruction cache does not hold is fetched; then the instruction does what `body` says. With no ready subset nothing issues, and the
opportunity counts. -/
def issue (s : State) (p : Place) (body : State → Issue → State) : State :=
  match pickIssue (coreOf s p.core.val) p.core.val p.sub.val with
  | none => passOpportunity s p
  | some i =>
    if fetchOk s i then settle (body (counted s i) i) i.core
    else if (issueInfo s i).codeLen ≤ i.pc.toNat then faultIssue s i .address
    else meets p.fetch.env s (issueFetch s p i body)

/-- The subset goes on to the next instruction. -/
def advance (i : Issue) (bytes : Nat) (g : Grp) : Grp :=
  modLanes g i.lanes (fun _ l => { l with pc := l.pc + BitVec.ofNat 32 bytes })

-- Events of the scheduler

/-- R20: the head of the ready queue takes a free active slot. -/
def promote (u : Sub) : Sub :=
  match u.ready with
  | [] => u
  | x :: rest => if u.active.length < 4 then { u with active := u.active ++ [x], ready := rest } else u

/-- R21: with a ready pending group and no free active slot, the group longest in the active set gives way. -/
def rotate (u : Sub) : Sub :=
  match u.active, u.ready with
  | a :: as, x :: rest =>
    if as.length + 1 < 4 then u
    else { u with active := as ++ [x], ready := rest ++ (if grpReady (grpOf u a.val) then [a] else []) }
  | _, _ => u

/-- R23: marks the threads that have waited 60 opportunities in the active set. -/
def markStarving (u : Sub) : Sub :=
  { u with slots := u.slots.map (fun p =>
      if u.active.any (fun a => a.val == p.1) then
        (p.1, { p.2 with lanes := p.2.lanes.map (fun l =>
          if laneReady l && 60 ≤ l.waited then { l with starving := true } else l) })
      else p) }

def modSubAt (s : State) (p : Place) (f : Sub → Sub) : State :=
  modCore s p.core.val (fun k => setSub k p.sub.val (f (subOf k p.sub.val)))

/-- GROUP_PROMOTION (R20, R22). -/
def execGroupPromotion (p : Place) (s : State) : Host.Outcome State Fault Refusal :=
  .next (modSubAt s p promote)

/-- ROTATION (R21). -/
def execRotation (p : Place) (s : State) : Host.Outcome State Fault Refusal :=
  .next (modSubAt s p rotate)

/-- STARVING_SUBSET (R23, R24). -/
def execStarvingSubset (p : Place) (s : State) : Host.Outcome State Fault Refusal :=
  .next (modSubAt s p markStarving)

end Sys2Proof.Machine
end

