-- ==== Sys2Proof/Machine/Operands.lean ====
section
/-!
DEFINITION. Operand specifiers (R209), registers (R205 to R208), special registers (R210), and the values lanes read and
write.
-/
namespace Sys2Proof.Machine

open Sys2Proof

/-- A decoded operand specifier (Table 08-2). -/
inductive Opd where
  | v (n : Nat)
  | u (n : Nat)
  | special (n : Nat)
  | p (n : Nat)
  | none
  | reserved
  | imm (i : Int)
deriving DecidableEq, Repr

def opdOf (x : BitVec 9) : Opd :=
  let n := x.toNat
  if n < 0x100 then .v n
  else if n < 0x140 then .u (n % 64)
  else if n < 0x180 then .special (n % 64)
  else if n < 0x188 then .p (n % 8)
  else if n = 0x188 then .none
  else if n < 0x1C0 then .reserved
  else .imm (sext 6 n)

/-- What an instruction accepts in a source position. -/
inductive SrcKind where
  /-- Unused: NONE. -/
  | unused
  /-- A 32-bit source: V, U, SPECIAL or IMM. -/
  | word
  /-- MOV's source: any source kind; a predicate is read as 0 or 1. -/
  | any
  /-- V or U, `w` registers from an aligned one. -/
  | reg (w : Nat)
  /-- V, U or IMM, as wide as `w` registers. -/
  | regImm (w : Nat)
  /-- U only, `w` registers. -/
  | uniform (w : Nat)
  | pred
deriving DecidableEq, Repr

/-- A special register that Table 08-3 names (R210). -/
def specialOk (n : Nat) : Bool := n ≤ 0x16

def aligned (w n : Nat) : Bool := n % w == 0

/-- A specifier is of a kind that the position accepts, aligned as R207 asks. -/
def srcOk (k : SrcKind) (o : Opd) : Bool :=
  match k, o with
  | .unused, .none => true
  | .word, .v _ => true
  | .word, .u _ => true
  | .word, .imm _ => true
  | .word, .special n => specialOk n
  | .any, .v _ => true
  | .any, .u _ => true
  | .any, .imm _ => true
  | .any, .p _ => true
  | .any, .special n => specialOk n
  | .reg w, .v n => aligned w n
  | .reg w, .u n => aligned w n
  | .regImm w, .v n => aligned w n
  | .regImm w, .u n => aligned w n
  | .regImm _, .imm _ => true
  | .uniform w, .u n => aligned w n
  | .pred, .p _ => true
  | _, _ => false

/-- How many registers a position names. -/
def srcWidth : SrcKind → Nat
  | .reg w => w
  | .regImm w => w
  | .uniform w => w
  | _ => 1

/-- Where an instruction puts its result. -/
inductive DstKind where
  | unused
  /-- V or U, `w` registers from an aligned one. -/
  | reg (w : Nat)
  /-- V or U, or NONE where no result is wanted. -/
  | regOrNone (w : Nat)
  | uniform
  | pred
deriving DecidableEq, Repr

def dstOk (k : DstKind) (o : Opd) : Bool :=
  match k, o with
  | .unused, .none => true
  | .reg w, .v n => aligned w n
  | .reg w, .u n => aligned w n
  | .regOrNone w, .v n => aligned w n
  | .regOrNone w, .u n => aligned w n
  | .regOrNone _, .none => true
  | .uniform, .u _ => true
  | .pred, .p _ => true
  | _, _ => false

def dstWidth : DstKind → Nat
  | .reg w => w
  | .regOrNone w => w
  | _ => 1

/-- A specifier names a v register at or above the thread's allocation, with `w` registers (R205, R207). -/
def outOfRange (regs w : Nat) : Opd → Bool
  | .v n => regs < n + w
  | _ => false

-- Registers

def vReg (l : Lane) (n : Nat) : W32 := tblGet 0 l.v n

def setV (l : Lane) (n : Nat) (x : W32) : Lane := { l with v := tblSet 0 l.v n x }

def uReg (g : Grp) (n : Nat) : W32 := tblGet 0 g.u n

def setU (g : Grp) (n : Nat) (x : W32) : Grp := { g with u := tblSet 0 g.u n x }

/-- p7 always reads 1. -/
def pReg (l : Lane) (n : Nat) : Bool := if n ≥ 7 then true else l.preds.getLsbD n

/-- A write to p7 is discarded. -/
def setP (l : Lane) (n : Nat) (b : Bool) : Lane :=
  if n ≥ 7 then l
  else
    let m := BitVec.ofNat 7 (2 ^ n)
    { l with preds := if b then l.preds ||| m else l.preds &&& (~~~m) }

/-- A guard (R211). -/
def guardTrue (l : Lane) (pg : Fin 8) (pn : Bool) : Bool := pReg l pg.val != pn

/-- What the lanes of an issue read. `clk` is the die's counter at this issue. -/
structure LaneCtx where
  core : Nat
  sub : Nat
  grp : Grp
  info : LaunchInfo
  lin : Nat
  clk : W64

/-- A lane's special register (Table 08-3). CLOCK_LO latches the counter's high half, CLOCK_HI returns and empties the
latch. -/
def readSpecial (x : LaneCtx) (lane : Nat) (l : Lane) (n : Nat) : W32 × Lane :=
  let t := x.grp.idx * 32 + lane
  let bid := blockCoords x.info x.lin
  let w (k : Nat) : W32 × Lane := (BitVec.ofNat 32 k, l)
  match n with
  | 0x00 => w lane
  | 0x01 => w x.grp.idx
  | 0x02 => w (t % x.info.bx)
  | 0x03 => w (t / x.info.bx % x.info.bY)
  | 0x04 => w (t / x.info.bx / x.info.bY)
  | 0x05 => w x.info.bx
  | 0x06 => w x.info.bY
  | 0x07 => w x.info.bz
  | 0x08 => w bid.1
  | 0x09 => w bid.2.1
  | 0x0A => w bid.2.2
  | 0x0B => (x.info.gx, l)
  | 0x0C => (x.info.gy, l)
  | 0x0D => (x.info.gz, l)
  | 0x0E => w x.sub
  | 0x0F => w x.core
  | 0x10 => w x.info.sag.val
  | 0x11 => (x.clk.extractLsb' 0 32, { l with clkHi := some (x.clk.extractLsb' 32 32) })
  | 0x12 => (l.clkHi.getD (x.clk.extractLsb' 32 32), { l with clkHi := none })
  | 0x13 => (x.info.objAddr.extractLsb' 0 32, l)
  | 0x14 => (x.info.objAddr.extractLsb' 32 32, l)
  | 0x15 => w x.info.lsBytes
  | 0x16 => w x.info.regs
  | _ => (0, l)

/-- `w` registers from `n` on, the lowest-order bits in the first (R207). -/
def regsValue (rd : Nat → W32) (n : Nat) : Nat → Nat
  | 0 => 0
  | w + 1 => (rd n).toNat + 2 ^ 32 * regsValue rd (n + 1) w

/-- A lane's source of `w` registers as a number; `flt`: an immediate stands for its value as binary32 (Table 08-2). -/
def readOpd (x : LaneCtx) (lane : Nat) (l : Lane) (o : Opd) (w : Nat) (flt : Bool) : Nat × Lane :=
  match o with
  | .v n => (regsValue (vReg l) n w, l)
  | .u n => (regsValue (uReg x.grp) n w, l)
  | .special n => let r := readSpecial x lane l n; (r.1.toNat, r.2)
  | .p n => (boolNat (pReg l n), l)
  | .imm i => (if flt then (round32 (intVal i)).toNat else lowBits (32 * w) i, l)
  | .none => (0, l)
  | .reserved => (0, l)

/-- Whether an operand reads the die's counter. -/
def readsClock : Opd → Bool
  | .special n => n == 0x11 || n == 0x12
  | _ => false

/-- The die's counter at this issue, when the instruction reads it: it has advanced by an amount that the manual leaves
open (R210). -/
def clockTick (s : State) (die : Nat) (reads : Bool) : State × W64 :=
  if reads then
    let t := modDie { s with free := s.free + 1 } die (fun d => { d with clock := d.clock + Config.elapsed s.free })
    (t, (dieOf t die).clock)
  else (s, 0)

/-- `w` registers of a lane written from `n` on. -/
def setVs (l : Lane) (n : Nat) : Nat → Nat → Lane
  | 0, _ => l
  | w + 1, x => setVs (setV l n (BitVec.ofNat 32 x)) (n + 1) w (x / 2 ^ 32)

def setUs (g : Grp) (n : Nat) : Nat → Nat → Grp
  | 0, _ => g
  | w + 1, x => setUs (setU g n (BitVec.ofNat 32 x)) (n + 1) w (x / 2 ^ 32)

/-- An instruction that issues writes `w` u registers from `n` on: no operation issued earlier writes them afterwards (R208). -/
def freeU (g : Grp) (n w : Nat) : Grp := { g with uOwner := g.uOwner.filter (fun p => !(n ≤ p.1 && p.1 < n + w)) }

/-- Writes each lane's result. A U destination takes the value of the lowest lane (R208). -/
def writeResults (g : Grp) (d : Opd) (w : Nat) (rs : List (Nat × Nat)) : Grp :=
  match d with
  | .v n => rs.foldl (fun g r => modLanes g [r.1] (fun _ l => setVs l n w r.2)) g
  | .u n => match rs with
    | [] => g
    | r :: _ => freeU (setUs g n w r.2) n w
  | .p n => rs.foldl (fun g r => modLanes g [r.1] (fun _ l => setP l n (r.2 % 2 == 1))) g
  | _ => g

/-- An operation that lanes `m` are held at has still to write the u registers of its destination, behind those issued before it. -/
def ownU (g : Grp) (m : BitVec 32) (d : Opd) (w : Nat) : Grp := match d with
  | .u n => { g with uOwner := g.uOwner ++ (List.range w).map (fun k => (n + k, m)) }
  | _ => g

/-- An operation that lanes `m` were held at leaves its u registers as they are. -/
def disownU (g : Grp) (m : BitVec 32) : Grp := { g with uOwner := g.uOwner.filter (fun p => p.2 != m) }

/-- One u register of the result of an operation that lanes `m` were held at: written unless a later one has been, and with that
the operations issued before it write it no more. -/
def lateU (g : Grp) (m : BitVec 32) (n : Nat) (x : W32) : Grp :=
  if g.uOwner.contains (n, m) then
    let later := (g.uOwner.reverse.takeWhile (fun p => p != (n, m))).reverse
    { setU g n x with uOwner := (g.uOwner.take (g.uOwner.length - later.length)).filter (fun p => p.1 != n) ++ later }
  else g

/-- Writes the results of an operation that lanes `m` were held at. Writes to one u register take effect in issue order (R208): a
register that an instruction issued later has written keeps that value. -/
def writeLate (g : Grp) (m : BitVec 32) (d : Opd) (w : Nat) (rs : List (Nat × Nat)) : Grp := match d, rs with
  | .u n, r :: _ => (List.range w).foldl (fun g k => lateU g m (n + k) (BitVec.ofNat 32 (r.2 / 2 ^ (32 * k)))) g
  | _, _ => writeResults g d w rs

/-- What the lanes of an issue read, at a value of the die's counter. -/
def ctxOfIssue (s : State) (i : Issue) (clk : W64) : LaneCtx :=
  { core := i.core, sub := i.sub, grp := issueGrp s i, info := issueInfo s i, lin := (issueBlock s i).lin, clk }

/-- Lanes of the issue whose guard is true, ascending (R211). -/
def guardedLanes (s : State) (i : Issue) (pg : Fin 8) (pn : Bool) : List Nat :=
  i.lanes.filter (fun n => guardTrue ((issueGrp s i).lanes.getD n {}) pg pn)

def laneOf (g : Grp) (n : Nat) : Lane := g.lanes.getD n {}

end Sys2Proof.Machine
end

