-- ==== Sys2Proof/Machine/Flags.lean ====
section
/-!
DEFINITION. Predicates: the comparisons of ISETP and FSETP, the truth table of PLOP, and the votes (R92, R215, R216,
R228). The part has no other flags: the lanes record no floating-point exceptions (R92).
-/
namespace Sys2Proof.Machine

open Sys2Proof

/-- CMP in integers, signed or unsigned (R215). -/
def cmpInt (c : Nat) (uns : Bool) (a b : W32) : Bool :=
  let lt (x y : W32) : Bool := if uns then x.toNat < y.toNat else x.toInt < y.toInt
  match c with
  | 0 => a == b
  | 1 => a != b
  | 2 => lt a b
  | 3 => !lt b a
  | 4 => lt b a
  | _ => !lt a b

/-- Bit (4a + 2b + c) of LUT. -/
def lutBit (lut : Nat) (a b c : Bool) : Bool := bitsOf lut (4 * boolNat a + 2 * boolNat b + boolNat c) 1 == 1

/-- ALL, ANY, BALLOT and COUNT over the guarded lanes with their predicates (R228). -/
def voteAllOf (vs : List (Nat × Bool)) : Nat := boolNat (vs.all (fun v => v.2))
def voteAnyOf (vs : List (Nat × Bool)) : Nat := boolNat (vs.any (fun v => v.2))
def voteBallotOf (vs : List (Nat × Bool)) : Nat := vs.foldl (fun m v => m + boolNat v.2 * 2 ^ v.1) 0
def voteCountOf (vs : List (Nat × Bool)) : Nat := vs.foldl (fun m v => m + boolNat v.2) 0

end Sys2Proof.Machine
end

