-- ==== Sys2Proof/Machine/Alu.lean ====
section
/-!
DEFINITION. The ALU instructions and the group collectives VOTE and SHFL (Tables 08-5 and 08-6, R215, R216, R228, R229).
-/
namespace Sys2Proof.Machine

open Sys2Proof

/-- The form of a general instruction: what each position accepts, which MOD bits it uses beside L, whether its
operands are binary32, and whether L may be set. -/
structure GForm where
  d : DstKind
  a : SrcKind := .unused
  b : SrcKind := .unused
  c : SrcKind := .unused
  mods : Nat := 0
  flt : Bool := false
  long : Bool := true

def modBit (f : FmtG) (i : Nat) : Bool := bitsOf f.mod.toNat i 1 == 1

/-- The long form (R213). -/
def isLong (m : GForm) (f : FmtG) : Bool := m.long && modBit f 15

/-- The instruction's length in bytes. -/
def gLen (m : GForm) (f : FmtG) : Nat := if isLong m f then 16 else 8

/-- Whether B takes an immediate at all, so that the long form can supply it. -/
def takesLong : SrcKind → Bool
  | .word => true
  | .any => true
  | _ => false

/-- The word is a defined encoding of its opcode (R207, R209, R213, R214, R216). `wide`: the long form takes 64 bits. -/
def gLegal (m : GForm) (f : FmtG) (wide : Bool) (extra : Bool) : Bool :=
  let l := isLong m f
  let modOk := f.mod.toNat &&& (0xFFFF - m.mods - (if m.long then 0x8000 else 0)) == 0
  let bOk := if l then f.b == 0 && takesLong m.b && (wide || f.ext.toNat / 2 ^ 32 == 0) else srcOk m.b (opdOf f.b)
  dstOk m.d (opdOf f.d) && srcOk m.a (opdOf f.a) && bOk && srcOk m.c (opdOf f.c) && modOk && extra

/-- Some operand names a register beyond the allocation. -/
def gRange (m : GForm) (f : FmtG) (regs : Nat) : Bool :=
  outOfRange regs (dstWidth m.d) (opdOf f.d) || outOfRange regs (srcWidth m.a) (opdOf f.a) ||
  (!isLong m f && outOfRange regs (srcWidth m.b) (opdOf f.b)) || outOfRange regs (srcWidth m.c) (opdOf f.c)

/-- The fault that the word alone gives a lane: an undefined encoding, then a register out of range. -/
def gFault (m : GForm) (f : FmtG) (wide extra : Bool) (regs : Nat) : Option TFault :=
  if !gLegal m f wide extra then some .illegal
  else if gRange m f regs then some .registerRange
  else none

/-- Sources of one lane: A, B and C. -/
structure Srcs where
  a : Nat
  b : Nat
  c : Nat
deriving DecidableEq, Repr

/-- Reads a lane's sources, in the order A, B, C. -/
def readSrcs (m : GForm) (f : FmtG) (x : LaneCtx) (n : Nat) (l : Lane) : Srcs × Lane :=
  let a := readOpd x n l (opdOf f.a) (srcWidth m.a) m.flt
  let b := if isLong m f then (f.ext.toNat, a.2) else readOpd x n a.2 (opdOf f.b) (srcWidth m.b) m.flt
  let c := readOpd x n b.2 (opdOf f.c) (srcWidth m.c) m.flt
  (⟨a.1, b.1, c.1⟩, c.2)

/-- Whether the instruction reads the die's counter. -/
def gClock (f : FmtG) : Bool := readsClock (opdOf f.a) || readsClock (opdOf f.b) || readsClock (opdOf f.c)

/-- Bits 127:64 of a long form lie inside the code of its launch (R213, R234). -/
def longFits (m : GForm) (f : FmtG) (s : State) (i : Issue) : Bool :=
  !(isLong m f) || decide (i.pc.toNat + 8 < (issueInfo s i).codeLen)

/-- A general instruction over the lanes of its subset: the fetch of a long form's second half and the word's own
faults, else each guarded lane's result, which `res` computes from the sources of all guarded lanes; then the subset
goes on. -/
def gIssue (m : GForm) (f : FmtG) (wide extra : Bool) (res : Nat → List (Nat × Srcs) → List (Nat × Nat))
    (s : State) (i : Issue) : State :=
  let ls := guardedLanes s i f.pg f.pn
  if !(longFits m f s i) then faultLanes s i (i.lanes.map (fun n => (n, .address, 0)))
  else match gFault m f wide extra (issueInfo s i).regs with
  | some e => if ls.isEmpty then modIssueGrp s i (advance i (gLen m f)) else faultLanes s i (ls.map (fun n => (n, e, 0)))
  | none =>
    let (s1, clk) := clockTick s (i.core / 64) (gClock f && !ls.isEmpty)
    let x := ctxOfIssue s1 i clk
    let rd := ls.map (fun n => (n, readSrcs m f x n (laneOf x.grp n)))
    let out := res s1.free (rd.map (fun r => (r.1, r.2.1)))
    let s2 := { s1 with free := s1.free + 1 }
    modIssueGrp s2 i (fun g =>
      let g := rd.foldl (fun g r => modLanes g [r.1] (fun _ _ => r.2.2)) g
      advance i (gLen m f) (writeResults g (opdOf f.d) (dstWidth m.d) out))

/-- Lane by lane. -/
def lanewise (op : Srcs → Nat) (_ : Nat) (ls : List (Nat × Srcs)) : List (Nat × Nat) := ls.map (fun p => (p.1, op p.2))

def w32 (n : Nat) : W32 := BitVec.ofNat 32 n

/-- A general ALU instruction as a command. -/
def alu (p : Place) (m : GForm) (f : FmtG) (wide extra : Bool) (res : Nat → List (Nat × Srcs) → List (Nat × Nat))
    (s : State) : Host.Outcome State Fault Refusal :=
  .next (issue s p (gIssue m f wide extra res))

/-- D ← op(A, B). -/
def formBin (mods : Nat) : GForm := { d := .reg 1, a := .word, b := .word, mods }
/-- D ← op(A, B, C). -/
def formTri (mods : Nat) : GForm := { d := .reg 1, a := .word, b := .word, c := .word, mods }
/-- D ← op(A). -/
def formUn (mods : Nat) : GForm := { d := .reg 1, a := .word, mods }

/-- U, bit 14 of MOD. -/
def modU : Nat := 0x4000
/-- NA, NB, NC, AA and AB (Table 08-6). -/
def modF : Nat := 0x7C00

def uBit (f : FmtG) : Bool := modBit f 14

-- Integer operations (Table 08-5)

def iaddOp (x : Srcs) : Nat := (w32 x.a + w32 x.b).toNat
def isubOp (x : Srcs) : Nat := (w32 x.a - w32 x.b).toNat
def imulOp (x : Srcs) : Nat := (w32 x.a * w32 x.b).toNat
/-- Bits 63:32 of the product, signed or unsigned. -/
def imulhiOp (uns : Bool) (x : Srcs) : Nat :=
  if uns then (w32 x.a).toNat * (w32 x.b).toNat / 2 ^ 32
  else lowBits 32 ((w32 x.a).toInt * (w32 x.b).toInt / 2 ^ 32)
def imadOp (x : Srcs) : Nat := (w32 x.a * w32 x.b + w32 x.c).toNat
/-- Pair A + B, with B of 32 bits sign- or zero-extended; the long form gives all 64 bits. -/
def iaddWOp (uns long : Bool) (x : Srcs) : Nat :=
  let b : Int := if long then x.b else if uns then (w32 x.b).toNat else (w32 x.b).toInt
  lowBits 64 (x.a + b)
def iminOp (uns : Bool) (x : Srcs) : Nat := (if cmpInt 2 uns (w32 x.b) (w32 x.a) then w32 x.b else w32 x.a).toNat
def imaxOp (uns : Bool) (x : Srcs) : Nat := (if cmpInt 2 uns (w32 x.a) (w32 x.b) then w32 x.b else w32 x.a).toNat
def andOp (x : Srcs) : Nat := (w32 x.a &&& w32 x.b).toNat
def orOp (x : Srcs) : Nat := (w32 x.a ||| w32 x.b).toNat
def xorOp (x : Srcs) : Nat := (w32 x.a ^^^ w32 x.b).toNat
def shlOp (x : Srcs) : Nat := (w32 x.a <<< (x.b % 32)).toNat
def shrOp (uns : Bool) (x : Srcs) : Nat :=
  (if uns then w32 x.a >>> (x.b % 32) else (w32 x.a).sshiftRight (x.b % 32)).toNat
def popcOp (x : Srcs) : Nat := ((List.range 32).filter (fun i => (w32 x.a).getLsbD i)).length
def clzOp (x : Srcs) : Nat := if (w32 x.a).toNat = 0 then 32 else 31 - Nat.log2 (w32 x.a).toNat
def brevOp (x : Srcs) : Nat := (w32 x.a).reverse.toNat

/-- NOP: no effect. -/
def execNop (p : Place) (f : FmtG) (s : State) : Host.Outcome State Fault Refusal :=
  alu p { d := .unused, long := false } f false true (fun _ _ => []) s

/-- IADD. -/
def execIadd (p : Place) (f : FmtG) (s : State) : Host.Outcome State Fault Refusal :=
  alu p (formBin 0) f false true (lanewise iaddOp) s

/-- ISUB. -/
def execIsub (p : Place) (f : FmtG) (s : State) : Host.Outcome State Fault Refusal :=
  alu p (formBin 0) f false true (lanewise isubOp) s

/-- IMUL. -/
def execImul (p : Place) (f : FmtG) (s : State) : Host.Outcome State Fault Refusal :=
  alu p (formBin 0) f false true (lanewise imulOp) s

/-- IMULHI. -/
def execImulhi (p : Place) (f : FmtG) (s : State) : Host.Outcome State Fault Refusal :=
  alu p (formBin modU) f false true (lanewise (imulhiOp (uBit f))) s

/-- IMAD. -/
def execImad (p : Place) (f : FmtG) (s : State) : Host.Outcome State Fault Refusal :=
  alu p (formTri 0) f false true (lanewise imadOp) s

/-- IADD.W (R207, R213). -/
def execIaddW (p : Place) (f : FmtG) (s : State) : Host.Outcome State Fault Refusal :=
  alu p { d := .reg 2, a := .reg 2, b := .word, mods := modU } f true true
    (lanewise (iaddWOp (uBit f) (modBit f 15))) s

/-- IMIN. -/
def execImin (p : Place) (f : FmtG) (s : State) : Host.Outcome State Fault Refusal :=
  alu p (formBin modU) f false true (lanewise (iminOp (uBit f))) s

/-- IMAX. -/
def execImax (p : Place) (f : FmtG) (s : State) : Host.Outcome State Fault Refusal :=
  alu p (formBin modU) f false true (lanewise (imaxOp (uBit f))) s

/-- AND. -/
def execAnd (p : Place) (f : FmtG) (s : State) : Host.Outcome State Fault Refusal :=
  alu p (formBin 0) f false true (lanewise andOp) s

/-- OR. -/
def execOr (p : Place) (f : FmtG) (s : State) : Host.Outcome State Fault Refusal :=
  alu p (formBin 0) f false true (lanewise orOp) s

/-- XOR. -/
def execXor (p : Place) (f : FmtG) (s : State) : Host.Outcome State Fault Refusal :=
  alu p (formBin 0) f false true (lanewise xorOp) s

/-- SHL. -/
def execShl (p : Place) (f : FmtG) (s : State) : Host.Outcome State Fault Refusal :=
  alu p (formBin 0) f false true (lanewise shlOp) s

/-- SHR. -/
def execShr (p : Place) (f : FmtG) (s : State) : Host.Outcome State Fault Refusal :=
  alu p (formBin modU) f false true (lanewise (shrOp (uBit f))) s

/-- POPC. -/
def execPopc (p : Place) (f : FmtG) (s : State) : Host.Outcome State Fault Refusal :=
  alu p (formUn 0) f false true (lanewise popcOp) s

/-- CLZ. -/
def execClz (p : Place) (f : FmtG) (s : State) : Host.Outcome State Fault Refusal :=
  alu p (formUn 0) f false true (lanewise clzOp) s

/-- BREV. -/
def execBrev (p : Place) (f : FmtG) (s : State) : Host.Outcome State Fault Refusal :=
  alu p (formUn 0) f false true (lanewise brevOp) s

/-- CMP, bits 3:0 of MOD. -/
def cmpField (f : FmtG) : Nat := bitsOf f.mod.toNat 0 4

def isetpOp (c : Nat) (uns : Bool) (x : Srcs) : Nat := boolNat (cmpInt c uns (w32 x.a) (w32 x.b))

/-- ISETP (R216). -/
def execIsetp (p : Place) (f : FmtG) (s : State) : Host.Outcome State Fault Refusal :=
  alu p { d := .pred, a := .word, b := .word, mods := modU + 15 } f false (cmpField f < 6)
    (lanewise (isetpOp (cmpField f) (uBit f))) s

-- Binary32 operations (R92, R93), with NA, NB, NC, AA and AB

/-- An operand after its absolute value and its negation. -/
def fSrc (ab neg : Bool) (w : Nat) : FVal :=
  let v := val32 (w32 w)
  let v := if ab then absF v else v
  if neg then negF v else v

def fA (f : FmtG) (x : Srcs) : FVal := fSrc (modBit f 11) (modBit f 14) x.a
def fB (f : FmtG) (x : Srcs) : FVal := fSrc (modBit f 10) (modBit f 13) x.b
def fC (f : FmtG) (x : Srcs) : FVal := fSrc false (modBit f 12) x.c

/-- The operand of a one-source operation as a binary32 word. -/
def fAWord (f : FmtG) (x : Srcs) : W32 := round32 (fA f x)

def fltBin : GForm := { d := .reg 1, a := .word, b := .word, mods := modF, flt := true }
def fltUn : GForm := { d := .reg 1, a := .word, mods := modF, flt := true }

/-- Lane by lane, within `n` units in the last place: which of the results there a lane gives is open (R92). -/
def lanewiseUlp (n : Nat) (op : Srcs → Approx) (draw : Nat) (ls : List (Nat × Srcs)) : List (Nat × Nat) :=
  ls.map (fun p => (p.1, (pickNear n (Config.ulp draw p.1) (op p.2)).toNat))

/-- FADD; with NB, A − B. -/
def execFadd (p : Place) (f : FmtG) (s : State) : Host.Outcome State Fault Refusal :=
  alu p fltBin f false true (lanewise (fun x => (round32 (addF (fA f x) (fB f x))).toNat)) s

/-- FMUL. -/
def execFmul (p : Place) (f : FmtG) (s : State) : Host.Outcome State Fault Refusal :=
  alu p fltBin f false true (lanewise (fun x => (round32 (mulF (fA f x) (fB f x))).toNat)) s

/-- FFMA, rounded once; with NC, A × B − C. -/
def execFfma (p : Place) (f : FmtG) (s : State) : Host.Outcome State Fault Refusal :=
  alu p { d := .reg 1, a := .word, b := .word, c := .word, mods := modF, flt := true } f false true
    (lanewise (fun x => (round32 (addF (mulF (fA f x) (fB f x)) (fC f x))).toNat)) s

/-- FMIN. -/
def execFmin (p : Place) (f : FmtG) (s : State) : Host.Outcome State Fault Refusal :=
  alu p fltBin f false true (lanewise (fun x => (round32 (minF (fA f x) (fB f x))).toNat)) s

/-- FMAX. -/
def execFmax (p : Place) (f : FmtG) (s : State) : Host.Outcome State Fault Refusal :=
  alu p fltBin f false true (lanewise (fun x => (round32 (maxF (fA f x) (fB f x))).toNat)) s

/-- FRCP, within 1 unit in the last place. -/
def execFrcp (p : Place) (f : FmtG) (s : State) : Host.Outcome State Fault Refusal :=
  alu p fltUn f false true (lanewiseUlp 1 (fun x => rcp32 (fAWord f x))) s

/-- FRSQ, within 1 unit in the last place. -/
def execFrsq (p : Place) (f : FmtG) (s : State) : Host.Outcome State Fault Refusal :=
  alu p fltUn f false true (lanewiseUlp 1 (fun x => rsq32 (fAWord f x))) s

/-- FEX2, within 2 units in the last place. -/
def execFex2 (p : Place) (f : FmtG) (s : State) : Host.Outcome State Fault Refusal :=
  alu p fltUn f false true (lanewiseUlp 2 (fun x => ex232 (fAWord f x))) s

/-- FLG2, within 2 units in the last place. -/
def execFlg2 (p : Place) (f : FmtG) (s : State) : Host.Outcome State Fault Refusal :=
  alu p fltUn f false true (lanewiseUlp 2 (fun x => lg232 (fAWord f x))) s

/-- FSETP (R92, R216). -/
def execFsetp (p : Place) (f : FmtG) (s : State) : Host.Outcome State Fault Refusal :=
  alu p { d := .pred, a := .word, b := .word, mods := modF + 15, flt := true } f false (cmpField f < 6)
    (lanewise (fun x => boolNat (cmpF (cmpField f) (fA f x) (fB f x)))) s

-- Conversion (R94 to R99, R216)

def cvtFrom (f : FmtG) : Nat := bitsOf f.mod.toNat 10 5
def cvtTo (f : FmtG) : Nat := bitsOf f.mod.toNat 5 5
def cvtMode (f : FmtG) : Nat := bitsOf f.mod.toNat 3 2

/-- The conversion that the fields name is one that R94 to R97 and R480 permit. -/
def cvtOk (f : FmtG) : Bool :=
  match etypeOf (cvtFrom f), etypeOf (cvtTo f) with
  | some a, some b => cvtLegal a b (cvtMode f)
  | _, _ => false

/-- Rounding by RMODE, with the draw of a lane under SR (R98). -/
def rmode (m draw lane : Nat) : Rounding :=
  match m with
  | 0 => .rn
  | 1 => .rz
  | _ => .sr (Config.draw draw lane).toNat

/-- One lane's conversion: the source from the low bits of A, the result in the low bits with 0 above. -/
def cvtLane (f : FmtG) (draw lane a : Nat) : Nat :=
  match etypeOf (cvtFrom f), etypeOf (cvtTo f) with
  | some x, some y => convert x y (rmode (cvtMode f) draw lane) (modBit f 2) (a % 2 ^ etypeBits x)
  | _, _ => 0

/-- Each lane's conversion. -/
def cvtLanes (f : FmtG) (draw : Nat) (ls : List (Nat × Srcs)) : List (Nat × Nat) :=
  ls.map (fun q => (q.1, cvtLane f draw q.1 q.2.a))

/-- CVT. -/
def execCvt (p : Place) (f : FmtG) (s : State) : Host.Outcome State Fault Refusal :=
  alu p { d := .reg 1, a := .word, mods := 0x7FFC, flt := cvtFrom f == 0 } f false (cvtOk f)
    (fun draw ls => ls.map (fun (q : Nat × Srcs) => (q.1, cvtLane f draw q.1 q.2.a))) s

-- Moves and predicates

/-- MOV: A may be of any source kind. -/
def execMov (p : Place) (f : FmtG) (s : State) : Host.Outcome State Fault Refusal :=
  alu p { d := .reg 1, a := .any } f false true (lanewise (fun x => x.a)) s

/-- SEL: A when predicate C is true, else B. -/
def execSel (p : Place) (f : FmtG) (s : State) : Host.Outcome State Fault Refusal :=
  alu p { d := .reg 1, a := .word, b := .word, c := .pred } f false true
    (lanewise (fun x => if x.c == 1 then x.a else x.b % 2 ^ 32)) s

/-- PLOP. -/
def execPlop (p : Place) (f : FmtG) (s : State) : Host.Outcome State Fault Refusal :=
  alu p { d := .pred, a := .pred, b := .pred, c := .pred, mods := 0xFF } f false true
    (lanewise (fun x => boolNat (lutBit (bitsOf f.mod.toNat 0 8) (x.a == 1) (x.b == 1) (x.c == 1)))) s

-- VOTE and SHFL (R25, R228, R229)

/-- The MODE field of VOTE and SHFL holds the mode of the command. -/
def modeIs (f : FmtG) (m : Nat) : Bool := bitsOf f.mod.toNat 0 2 == m

/-- A vote: every guarded lane receives the result. -/
def vote (op : List (Nat × Bool) → Nat) (_ : Nat) (ls : List (Nat × Srcs)) : List (Nat × Nat) :=
  let r := op (ls.map (fun p => (p.1, p.2.a == 1)))
  ls.map (fun p => (p.1, r))

def votePredForm : GForm := { d := .pred, a := .pred, mods := 3, long := false }
def voteRegForm : GForm := { d := .reg 1, a := .pred, mods := 3, long := false }

/-- VOTE ALL. -/
def execVoteAll (p : Place) (f : FmtG) (s : State) : Host.Outcome State Fault Refusal :=
  alu p votePredForm f false (modeIs f 0) (vote voteAllOf) s

/-- VOTE ANY. -/
def execVoteAny (p : Place) (f : FmtG) (s : State) : Host.Outcome State Fault Refusal :=
  alu p votePredForm f false (modeIs f 1) (vote voteAnyOf) s

/-- VOTE BALLOT. -/
def execVoteBallot (p : Place) (f : FmtG) (s : State) : Host.Outcome State Fault Refusal :=
  alu p voteRegForm f false (modeIs f 2) (vote voteBallotOf) s

/-- VOTE COUNT. -/
def execVoteCount (p : Place) (f : FmtG) (s : State) : Host.Outcome State Fault Refusal :=
  alu p voteRegForm f false (modeIs f 3) (vote voteCountOf) s

/-- A shuffle: each guarded lane takes A of its source lane, or its own A where that lane is not a guarded lane of the
subset. -/
def shuffle (from_ : Nat → Nat → Option Nat) (_ : Nat) (ls : List (Nat × Srcs)) : List (Nat × Nat) :=
  ls.map (fun p =>
    (p.1, match (from_ p.1 p.2.b).bind (fun k => ls.find? (fun (q : Nat × Srcs) => q.1 == k)) with
      | some q => q.2.a
      | none => p.2.a))

def shflForm : GForm := { d := .reg 1, a := .word, b := .word, mods := 3, long := false }

def shflIdxFrom (_ b : Nat) : Option Nat := some (b % 32)
def shflUpFrom (l b : Nat) : Option Nat := if b ≤ l then some (l - b) else none
def shflDownFrom (l b : Nat) : Option Nat := some (l + b)
def shflXorFrom (l b : Nat) : Option Nat := some (l ^^^ (b % 32))

/-- SHFL IDX. -/
def execShflIdx (p : Place) (f : FmtG) (s : State) : Host.Outcome State Fault Refusal :=
  alu p shflForm f false (modeIs f 0) (shuffle shflIdxFrom) s

/-- SHFL UP. -/
def execShflUp (p : Place) (f : FmtG) (s : State) : Host.Outcome State Fault Refusal :=
  alu p shflForm f false (modeIs f 1) (shuffle shflUpFrom) s

/-- SHFL DOWN. -/
def execShflDown (p : Place) (f : FmtG) (s : State) : Host.Outcome State Fault Refusal :=
  alu p shflForm f false (modeIs f 2) (shuffle shflDownFrom) s

/-- SHFL XOR. -/
def execShflXor (p : Place) (f : FmtG) (s : State) : Host.Outcome State Fault Refusal :=
  alu p shflForm f false (modeIs f 3) (shuffle shflXorFrom) s

end Sys2Proof.Machine
end

