-- ==== Sys2Proof/Machine/MemForms.lean ====
section
/-!
DEFINITION. What the memory instructions share: the checks of format M (R217, R218), lane addresses, local-store bytes, the
store buffer's view of an address (R268, R272) and the L1 (R112, R113).
-/
namespace Sys2Proof.Machine

open Sys2Proof

-- Format M (Tables 08-4 and 08-7)

/-- Bytes of an access; a reserved SZ has none. -/
def szBytes (f : FmtM) : Nat := if f.sz.toNat ≤ 4 then 2 ^ f.sz.toNat else 0

/-- Registers of an access. -/
def szRegs (n : Nat) : Nat := if n ≤ 4 then 1 else n / 4

/-- The signed byte offset OFS. -/
def ofsM (f : FmtM) : Int := sext 15 f.ofs.toNat

/-- The field rules that every format M instruction obeys: SZ not reserved, SX only for 1 B and 2 B, AOP 0 but for ATOM,
HINT as its opcode gives. -/
def mFields (f : FmtM) (hinted atom : Bool) : Bool :=
  f.sz.toNat ≤ 4 && (!f.sx || f.sz.toNat ≤ 1) && (atom || f.aop == 0) && (if hinted then f.hint != 3 else f.hint == 0)

/-- A data source of `n` bytes (R218): V, U, IMM, and SPECIAL for 1, 2 and 4 B. -/
def dataKind (n : Nat) : SrcKind := if n ≤ 4 then .word else .regImm (szRegs n)

/-- The fault that the word alone gives: an undefined encoding, then a register beyond the allocation. -/
def mFault (legal : Bool) (regs : Nat) (ops : List (Opd × Nat)) : Option TFault :=
  if !legal then some .illegal
  else if ops.any (fun o => outOfRange regs o.2 o.1) then some .registerRange
  else none

/-- A lane's global address: pair + sext(OFS), as an integer (R217). -/
def globalAddr (x : LaneCtx) (lane : Nat) (l : Lane) (f : FmtM) : Int :=
  (readOpd x lane l (opdOf f.a) 2 false).1 + ofsM f

/-- A lane's block-relative address: zext(A) + sext(OFS) (R217). -/
def localAddr (x : LaneCtx) (lane : Nat) (l : Lane) (f : FmtM) : Int :=
  ((readOpd x lane l (opdOf f.a) 1 false).1 % 2 ^ 32 : Nat) + ofsM f

/-- An access of `n` bytes at a block-relative address lies within the allocation. -/
def inLocal (info : LaunchInfo) (a : Int) (n : Nat) : Bool := 0 ≤ a && a + n ≤ info.lsBytes

/-- The value that a load of bytes puts in its registers: zero-filled, or sign-filled under SX. -/
def loadValue (bs : List Byte) (sx : Bool) : Nat :=
  if sx then lowBits 32 (sext (8 * bs.length) (leNat bs)) else leNat bs

-- Local store

def lsRead (b : Block) (a n : Nat) : List Byte := (List.range n).map (fun i => tblGet 0 b.ls (a + i))

def lsWrite (b : Block) (a : Nat) (bs : List Byte) : Block :=
  { b with ls := bs.zipIdx.foldl (fun t p => tblSet 0 t (a + p.2) p.1) b.ls }

def modBlock (s : State) (c b : Nat) (f : Block → Block) : State :=
  modCore s c (fun k => setBlock k b (f (blockOf k b)))

/-- The passes of an LD.L or ST.L: the largest number of distinct 16 B words in one bank (R110). -/
def passes (accesses : List (Nat × Nat)) : Nat :=
  let words := (accesses.flatMap (fun p => (List.range ((p.1 % 16 + p.2 + 15) / 16)).map (fun i => p.1 / 16 + i))).eraseDups
  (List.range 64).foldl (fun m b => max m (words.filter (fun w => w % 64 == b)).length) 0

/-- REPLAY_PASSES takes the passes beyond the first. -/
def countPasses (s : State) (c : Nat) (accesses : List (Nat × Nat)) : State :=
  modCore s c (fun k => { k with replay := sat k.replay (passes accesses - 1) })

/-- The saggar of a core for the firing log. -/
def corePart (k : Core) : Nat := match k.partition with
  | some p => p.val
  | none => noPart

/-- A core that meets a condition of Table 17-4 is marked RETIRING (R421). -/
def retireCore (s : State) (c row : Nat) : State :=
  if (coreOf s c).st == .active then
    logEvent (modCore s c (fun k => { k with st := .retiring })) 0x07 7 (corePart (coreOf s c)) (unitCore c) 0 row
  else s

/-- Corrected errors of core SRAM (R107); 4,096 within a powered hour retire the core (Table 17-4). -/
def sramCorrected (s : State) (c n : Nat) : State :=
  if n = 0 then s
  else
    let now := s.ras.craze.poweredS.toNat
    let at_ : List (Nat × Nat) := ((coreOf s c).sramFixedAt.filter (fun p => now < p.1 + 3600)) ++ [(now, n)]
    let s := crazeError (modCore s c (fun k => { k with corrected := sat k.corrected n, sramFixedAt := at_ })) 2 n
    let total : Nat := at_.foldl (fun a p => a + p.2) 0
    if 4096 ≤ total then retireCore s c 2 else s

/-- An uncorrectable error of core SRAM: the second within 24 powered hours retires the core (Table 17-4). -/
def sramUncorrected (s : State) (c : Nat) : State :=
  let now := s.ras.craze.poweredS.toNat
  let at_ := ((coreOf s c).sramBadAt.filter (fun t => now < t + 86400)) ++ [now]
  let s := modCore s c (fun k => { k with sramBadAt := at_ })
  if 2 ≤ at_.length then retireCore s c 1 else s

/-- A group has a SLAB.ST whose last write is still to come (R71). -/
def slabStorePending (k : Core) (b slot launch : Nat) : Bool :=
  k.slabs.any (fun sl => sl.queue.any (fun e =>
    e.sub.val == b && e.grp.val == slot && e.launch == launch && (match e.form with
      | .store _ => true
      | _ => false)))

-- The store buffer's view (R268, R272)

/-- The byte of a global address in the youngest entry that holds it. -/
def sbByte (buf : List SbEntry) (sag : SagId) (a : Nat) : Option SbByte :=
  (buf.reverse.find? (fun e => e.sag == sag && e.line == a / 128 && (tblFind e.bytes (a % 128)).isSome)).bind
    (fun e => tblFind e.bytes (a % 128))

def sameThread (x : SbByte) (launch slot lane : Nat) : Bool :=
  x.launch == launch && x.grp.val == slot && x.lane.val == lane

/-- Some undrained entry holds the byte as another thread's. -/
def sbForeign (buf : List SbEntry) (sag : SagId) (a launch slot lane : Nat) : Bool :=
  buf.any (fun e => e.sag == sag && e.line == a / 128 && (match tblFind e.bytes (a % 128) with
    | some x => !(sameThread x launch slot lane)
    | none => false))

/-- How the store buffer serves a load. -/
inductive SbView where
  | own (bs : List Byte)
  | wait
  | clear
deriving DecidableEq, Repr

/-- R272: a load takes all its bytes from the thread's own youngest stores, or waits, or reads elsewhere. -/
def sbView (buf : List SbEntry) (sag : SagId) (a n launch slot lane : Nat) : SbView :=
  let bs := (List.range n).map (fun i => sbByte buf sag (a + i))
  let own := bs.map (fun x => match x with
    | some y => sameThread y launch slot lane
    | none => false)
  if own.all (fun x => x) then .own (bs.map (fun x => match x with
    | some y => y.v
    | none => 0))
  else if (List.range n).any (fun i => sbForeign buf sag (a + i) launch slot lane) || own.any (fun x => x) then .wait
  else .clear

/-- The thread has a store in some entry. -/
def hasStores (buf : List SbEntry) (launch slot lane : Nat) : Bool :=
  buf.any (fun e => e.writers.any (fun w => w.1 == launch && w.2.1.val == slot && w.2.2.val == lane))

-- The L1 (R112, R113)

def l1Sets (k : Core) : Nat := 256 * (12 - k.split)

def l1Way (k : Core) (line : Nat) : Option Nat :=
  (List.range 8).find? (fun w => match tblFind k.l1 (line % l1Sets k * 8 + w) with
    | some x => x.addr == line
    | none => false)

def l1Line (k : Core) (line : Nat) : Option L1Line :=
  (l1Way k line).bind (fun w => tblFind k.l1 (line % l1Sets k * 8 + w))

def l1Mod (k : Core) (line : Nat) (f : L1Line → L1Line) : Core :=
  match l1Way k line with
  | some w => match tblFind k.l1 (line % l1Sets k * 8 + w) with
    | some x => { k with l1 := tblPut k.l1 (line % l1Sets k * 8 + w) (f x) }
    | none => k
  | none => k

def l1Drop (k : Core) (line : Nat) : Core :=
  match l1Way k line with
  | some w => { k with l1 := tblDel k.l1 (line % l1Sets k * 8 + w) }
  | none => k

/-- The way of a fill: the first invalid one, else the lowest of age 3, ageing the set until there is one. -/
def l1Pick (t : Tbl L1Line) (set : Nat) : Nat → Tbl L1Line × Nat
  | 0 => (t, 0)
  | fuel + 1 =>
    let ways := List.range 8
    match ways.find? (fun w => (tblFind t (set * 8 + w)).isNone) with
    | some w => (t, w)
    | none =>
      match ways.find? (fun w => match tblFind t (set * 8 + w) with
          | some x => x.age == 3
          | none => false) with
      | some w => (t, w)
      | none =>
        let age (u : Tbl L1Line) (w : Nat) : Tbl L1Line :=
          match tblFind u (set * 8 + w) with
          | some x => tblPut u (set * 8 + w) { x with age := min 3 (x.age + 1) }
          | none => u
        l1Pick (ways.foldl age t) set fuel

/-- Fills a line; a line that is there already is replaced in its way (R276). -/
def l1Install (k : Core) (line : Nat) (data : List Byte) (age stamp : Nat) : Core :=
  match l1Way k line with
  | some w => { k with l1 := tblPut k.l1 (line % l1Sets k * 8 + w) { addr := line, data, age, stamp } }
  | none =>
    let p := l1Pick k.l1 (line % l1Sets k) 4
    { k with l1 := tblPut p.1 (line % l1Sets k * 8 + p.2) { addr := line, data, age, stamp } }

/-- A byte of a line that is current for a thread whose latest ordering point is `ord` (R276). -/
def l1Byte (k : Core) (a ord : Nat) : Option Byte :=
  match l1Line k (a / 128) with
  | some x => if ord < x.stamp then some (x.data.getD (a % 128) 0) else none
  | none => none

end Sys2Proof.Machine
end

