-- ==== Sys2Proof/Machine/Loads.lean ====
section
/-!
DEFINITION. Loads, stores and the store buffers: LD.L, ST.L, LD.G, ST.G, the fills of the L1, the entries that a waiting
store takes, and the drains (R107, R110 to R117, R217, R218, R267 to R277, R481).
-/
namespace Sys2Proof.Machine

open Sys2Proof

-- Held operations

/-- The bit mask of lanes. -/
def laneMask (ls : List Nat) : BitVec 32 := BitVec.ofNat 32 (ls.foldl (fun m l => m + 2 ^ l) 0)

def maskLanes (m : BitVec 32) : List Nat := (List.range 32).filter (fun l => m.getLsbD l)

/-- Lanes that block at an instruction with what it still has to do. -/
def holdLanes (g : Grp) (ls : List Nat) (w : Wait) (pc : W32) (op : Held) : Grp :=
  let g := modLanes g ls (fun _ l => { l with wait := w })
  { g with held := g.held ++ [{ lanes := laneMask ls, guarded := laneMask ls, pc, op }] }

/-- Lanes that go on behind their instruction. -/
def passLanes (g : Grp) (ls : List Nat) (bytes : Nat) : Grp :=
  modLanes g ls (fun _ l => { l with pc := l.pc + BitVec.ofNat 32 bytes, wait := .ready })

def dropHeld (g : Grp) (m : BitVec 32) : Grp := { g with held := g.held.filter (fun h => h.lanes != m) }

/-- Held operations of a core: sub-core, slot and operation. -/
def heldOps (k : Core) : List (Nat × Nat × HeldOp) :=
  k.subs.zipIdx.flatMap (fun us => us.1.slots.flatMap (fun pg => pg.2.held.map (fun h => (us.2, pg.1, h))))

/-- The issue that a held operation stands for. -/
def heldIssue (c b slot : Nat) (h : HeldOp) : Issue := { core := c, sub := b, slot, pc := h.pc, lanes := maskLanes h.lanes }

-- Buffer addresses

/-- The base of host addresses among the buffer addresses. -/
def hostBase : Nat := 2 ^ 52

/-- The address under which the store buffers know a global address. -/
def bufAddr (s : State) (info : LaunchInfo) (a len : Nat) : Nat :=
  if isHostAddr a then hostBase + (hostPhys s info a len).getD 0 else a

-- Loads of global memory

/-- Trackers in use: misses of a sub-core, and all of the core with the spans of its engines (R115). -/
def subMisses (k : Core) (b : Nat) : Nat := (k.misses.filter (fun m => m.sub.val == b)).length

def spanCount (k : Core) : Nat := (k.engines.map (fun e => e.spans.length)).foldl (· + ·) 0

/-- A tracker for a line, unless the line is in flight already; none where no tracker is free. A load that joins a miss of another
hint leaves the miss's hint in force: R113 does not say which decides, the model's choice (log 74). -/
def takeMiss (k : Core) (b line hint : Nat) : Option (Core × Nat) :=
  if k.misses.any (fun m => m.line == line) then some (k, 0)
  else if subMisses k b < 96 && k.misses.length + spanCount k < 512 then
    some ({ k with misses := k.misses ++ [{ sub := BitVec.toFin (BitVec.ofNat 2 b), line, hint }] }, 1)
  else none

def takeMisses (b hint : Nat) : List Nat → Core × Nat → Option (Core × Nat)
  | [], r => some r
  | l :: ls, r => (takeMiss r.1 b l hint).bind (fun q => takeMisses b hint ls (q.1, r.2 + q.2))

/-- What the service of one lane of a load does: the core, the lane's request, the misses counted, and the host sectors
asked for. -/
structure Served where
  k : Core
  r : LaneReq
  miss : Nat := 0
  io : List Nat := []

/-- Serves a lane of a load that has asked for nothing yet: from the thread's own stores, from current L1 lines, by
misses, or by reads of host sectors (R272, R276, R277). -/
def serveLoad (k : Core) (b slot : Nat) (info : LaunchInfo) (hint n ord : Nat) (r : LaneReq) : Served :=
  if !(r.got.isEmpty) || !(r.val.isEmpty) then { k, r }
  else
    match sbView (subOf k b).buffer info.sag r.addr n info.id slot r.lane.val with
    | .own bs => { k, r := { r with val := bs } }
    | .wait => { k, r }
    | .clear =>
      if hostBase ≤ r.addr then
        { k, r := { r with got := List.replicate n none }
          io := ((List.range n).map (fun i => (r.addr + i) / 64)).eraseDups }
      else
        let bytes := (List.range n).map (fun i => l1Byte k (r.addr + i) ord)
        let lines := ((List.range n).map (fun i => (r.addr + i) / 128)).eraseDups
        let hits := lines.filter (fun l => match l1Line k l with
          | some x => decide (ord < x.stamp)
          | none => false)
        let k1 := if hint == 2 then k else hits.foldl (fun k l => l1Mod k l (fun x => { x with age := 0 })) k
        if bytes.all (fun x => x.isSome) then { k := k1, r := { r with val := bytes.map (fun x => x.getD 0) } }
        else
          match takeMisses b hint (lines.filter (fun l => !(hits.contains l))) (k1, 0) with
          | some q => { k := q.1, r := { r with got := bytes }, miss := q.2 }
          | none => { k, r }

/-- A request whose bytes have all arrived has its value. -/
def settleReq (r : LaneReq) : LaneReq :=
  if r.val.isEmpty && !(r.got.isEmpty) && r.got.all (fun x => x.isSome) then
    { r with val := r.got.map (fun x => x.getD 0) }
  else r

/-- Serves every lane of a held load. -/
def serveReqs (k : Core) (b slot : Nat) (info : LaunchInfo) (g : Grp) (hint n : Nat) :
    List LaneReq → Core × List LaneReq × Nat × List Nat
  | [] => (k, [], 0, [])
  | r :: rs =>
    let v := serveLoad k b slot info hint n (laneOf g r.lane.val).ordPt r
    let w := serveReqs v.k b slot info g hint n rs
    (w.1, settleReq v.r :: w.2.1, v.miss + w.2.2.1, v.io ++ w.2.2.2)

/-- The wait of a load: a long one once a lane asks L2 or the host (Table 01-2). -/
def loadWait (k : Core) (b slot : Nat) (info : LaunchInfo) (n : Nat) (rs : List LaneReq) : Wait :=
  if rs.any (fun r => r.val.isEmpty && (!(r.got.isEmpty) ||
      sbView (subOf k b).buffer info.sag r.addr n info.id slot r.lane.val == .clear)) then .load else .buffer

/-- Requests for host sectors that are not under way for this group already. -/
def askHost (s : State) (c b slot launch : Nat) (sectors : List Nat) : State :=
  let owner (x : Nat) : IoOwner :=
    .load (BitVec.toFin (BitVec.ofNat 8 c)) (BitVec.toFin (BitVec.ofNat 2 b)) (BitVec.toFin (BitVec.ofNat 4 slot)) launch x
  sectors.eraseDups.foldl (fun t x =>
    if t.dl.waiting.any (fun q => q.owner == owner x) || t.dl.tags.any (fun q => q.2.owner == owner x) then t
    else { t with dl := { t.dl with waiting := t.dl.waiting ++
      [{ owner := owner x, who := 1 + c / 64, write := false, addr := BitVec.ofNat 52 (64 * x), len := 64 }] } }) s

/-- Serves one held load of a group; a load whose lanes all have their bytes completes. -/
def pumpLoad (s : State) (c b slot : Nat) (h : HeldOp) (d : BitVec 9) (sz : Nat) (sx : Bool) (hint : Nat)
    (reqs : List LaneReq) : State :=
  let k := coreOf s c
  let g := grpOf (subOf k b) slot
  let info := (blockOf k g.blk.val).info
  let v := serveReqs k b slot info g hint sz reqs
  let ls := maskLanes h.lanes
  let s := perf (askHost (setCore s c v.1) c b slot info.id (v.2.2.2.map (fun x => x - hostBase / 64)))
    info.sag.val perfL1MISS v.2.2.1
  if v.2.1.all (fun r => !(r.val.isEmpty)) then
    modGrp s c b slot (fun g =>
      passLanes (writeLate (dropHeld g h.lanes) h.lanes (opdOf d) (szRegs sz)
        (v.2.1.map (fun r => (r.lane.val, loadValue r.val sx)))) ls 8)
  else
    let w := loadWait v.1 b slot info sz v.2.1
    modGrp s c b slot (fun g =>
      { modLanes g ls (fun _ l => { l with wait := w }) with
        held := g.held.map (fun x => if x.lanes == h.lanes then { x with op := .loadG d sz sx hint (w == .load) v.2.1 } else x) })

/-- Serves every held load of a core. -/
def pumpLoads (s : State) (c : Nat) : State :=
  settle ((heldOps (coreOf s c)).foldl (fun t x => match x.2.2.op with
    | .loadG d sz sx hint _ reqs => pumpLoad t c x.1 x.2.1 x.2.2 d sz sx hint reqs
    | _ => t) s) c

/-- The bytes from buffer address `base` on arrive for a request that waits for them. -/
def fillReq (base : Nat) (bs : List Byte) (r : LaneReq) : LaneReq :=
  { r with got := r.got.zipIdx.map (fun p => match p.1 with
      | some x => some x
      | none =>
        let a := r.addr + p.2
        if base ≤ a && a < base + bs.length then some (bs.getD (a - base) 0) else none) }

/-- A request waits for a byte in a range of buffer addresses. -/
def reqWants (base len : Nat) (r : LaneReq) : Bool :=
  r.val.isEmpty && r.got.zipIdx.any (fun p => p.1.isNone && base ≤ r.addr + p.2 && r.addr + p.2 < base + len)

/-- Delivers bytes to the held loads of the groups of a core that `sel` selects. -/
def deliver (k : Core) (sel : Nat → Nat → Bool) (base : Nat) (bs : List Byte) : Core :=
  { k with subs := k.subs.zipIdx.map (fun us =>
      { us.1 with slots := us.1.slots.map (fun pg =>
          if sel us.2 pg.1 then
            (pg.1, { pg.2 with held := pg.2.held.map (fun h => match h.op with
              | .loadG d sz sx hint m reqs => { h with op := .loadG d sz sx hint m (reqs.map (fillReq base bs)) }
              | _ => h) })
          else pg) }) }

/-- The threads of a core that wait for a byte in a range fault with UNCORRECTABLE_DATA, each at its load (R143, R409). -/
def failLoads (s : State) (c : Nat) (sel : Nat → Nat → Bool) (base len : Nat) : State :=
  let k := coreOf s c
  let fs := (heldOps k).flatMap (fun x =>
    if sel x.1 x.2.1 then
      match x.2.2.op with
      | .loadG _ _ _ _ _ reqs =>
        let i := heldIssue c x.1 x.2.1 x.2.2
        (reqs.filter (reqWants base len)).map (fun r =>
          (issueInfo s i, lanePlace s i r.lane.val, BitVec.ofNat 64 r.gaddr))
      | _ => []
    else [])
  settle (fs.foldl (fun t f => threadFault t f.1 .uncorrectable f.2.1 f.2.2) s) c

/-- The word of a load or store to global memory: A is a pair; `w` registers of data. -/
def opsLdG (f : FmtM) : List (Opd × Nat) := [(opdOf f.d, szRegs (szBytes f)), (opdOf f.a, 2)]

/-- Checks the address of each lane, in order of R217 and Table 01-5. -/
def globalFaults (s : State) (i : Issue) (x : LaneCtx) (f : FmtM) (write : Bool) (ls : List Nat) :
    List (Nat × TFault × Nat) :=
  ls.filterMap (fun l =>
    let a := lowBits 64 (globalAddr x l (laneOf x.grp l) f)
    if 2 ^ 48 ≤ a then some (l, .address, a)
    else (accessFault s (issueInfo s i) a (szBytes f) write).map (fun e => (l, e, a)))

/-- The fault that the word gives to every guarded lane. -/
def wordFaults (e : TFault) (ls : List Nat) : List (Nat × TFault × Nat) := ls.map (fun l => (l, e, 0))

/-- An uncorrectable error in the first current L1 line that the lanes address: the line goes (R117). -/
def l1Refetch (k : Core) (addrs : List (Nat × Nat)) : Core :=
  match addrs.find? (fun a => match l1Line k (a.1 / 128) with
      | some x => decide (a.2 < x.stamp)
      | none => false) with
  | some a => { l1Drop k (a.1 / 128) with l1Refetch := sat k.l1Refetch 1 }
  | none => k

/-- LD.G. -/
def execLdG (p : Place) (f : FmtM) (env : MemEnv) (s : State) : Host.Outcome State Fault Refusal :=
  .next (issue s p (fun s i =>
    let ls := guardedLanes s i f.pg f.pn
    let x := ctxOfIssue s i 0
    let n := szBytes f
    let legal := mFields f true false && srcOk (.reg 2) (opdOf f.a) && dstOk (.reg (szRegs n)) (opdOf f.d) &&
      opdOf f.b == .none
    match mFault legal x.info.regs (opsLdG f) with
    | some e => if ls.isEmpty then modIssueGrp s i (advance i 8) else faultLanes s i (wordFaults e ls)
    | none =>
      let fs := globalFaults s i x f false ls
      if !(fs.isEmpty) then faultLanes s i fs
      else if ls.isEmpty then modIssueGrp s i (advance i 8)
      else
        let reqs : List LaneReq := ls.map (fun l =>
          { lane := BitVec.toFin (BitVec.ofNat 5 l)
            addr := bufAddr s x.info (lowBits 64 (globalAddr x l (laneOf x.grp l) f)) n
            gaddr := lowBits 64 (globalAddr x l (laneOf x.grp l) f) })
        let s := sramCorrected s i.core env.sramFixed
        let s := if env.l1Bad then
            modCore (sramUncorrected s i.core) i.core (fun k => l1Refetch k (reqs.map (fun r => (r.addr, (laneOf x.grp r.lane.val).ordPt))))
          else s
        let off := i.lanes.filter (fun l => !(ls.contains l))
        pumpLoads (modIssueGrp s i (fun g =>
          ownU (holdLanes (passLanes g off 8) ls .load i.pc (.loadG f.d n f.sx f.hint.toNat false reqs)) (laneMask ls) (opdOf f.d)
            (szRegs n))) i.core))

/-- L1_FILL: the line of miss `i` of a core is read at L2 and filled, and its loads are served (R112 to R116). -/
def execL1Fill (c : CoreId) (i : Nat) (env : MemEnv) (s : State) : Host.Outcome State Fault Refusal :=
  .next (meets env s (
    let k := coreOf s c.val
    match k.misses[i]? with
    | none => s
    | some m =>
      let sag : Option Nat := k.partition.map (fun x => x.val)
      let drop (t : State) : State := modCore t c.val (fun k => { k with misses := k.misses.filter (fun x => x.line != m.line) })
      match sag.bind (fun x => mapLine s x (m.line * 128)) with
      | none => drop s
      | some l =>
        match readLine s (c.val / 64) l .core (if m.hint == 1 then 1 else 0) sag env with
        | none => s
        | some g =>
          let t := drop g.s
          match g.res with
          | .error _ => failLoads t c.val (fun _ _ => true) (m.line * 128) 128
          | .ok data =>
            let t := tickNow t
            let t := if m.hint == 2 then t
              else modCore t c.val (fun k => l1Install k m.line data (if m.hint == 1 then 3 else 1) t.now)
            pumpLoads (modCore t c.val (fun k => deliver k (fun _ _ => true) (m.line * 128) data)) c.val))

-- Loads and stores of local store

def opsL (f : FmtM) : List (Opd × Nat) := [(opdOf f.d, szRegs (szBytes f)), (opdOf f.a, 1)]

def localFaults (x : LaneCtx) (f : FmtM) (ls : List Nat) : List (Nat × TFault × Nat) :=
  ls.filterMap (fun l =>
    let a := localAddr x l (laneOf x.grp l) f
    if inLocal x.info a (szBytes f) then none else some (l, .localBounds, lowBits 64 a))

/-- An LD.L is performed at the banks: passes are counted, the lanes receive their bytes, which `put` writes, and go on. -/
def doLoadL (s : State) (c b slot : Nat) (sz : Nat) (sx : Bool) (reqs : List LaneReq) (put : Grp → List (Nat × Nat) → Grp) : State :=
  let g := grpOf (subOf (coreOf s c) b) slot
  let blk := blockOf (coreOf s c) g.blk.val
  let rs := reqs.map (fun r => (r.lane.val, loadValue (lsRead blk r.addr sz) sx))
  modGrp (countPasses s c (reqs.map (fun r => (r.addr, sz)))) c b slot (fun g =>
    passLanes (put g rs) (reqs.map (fun r => r.lane.val)) 8)

/-- An ST.L is performed: of two lanes that write one byte the higher one's is kept (R110). -/
def doStoreL (s : State) (c b slot : Nat) (reqs : List LaneReq) : State :=
  let g := grpOf (subOf (coreOf s c) b) slot
  let s := modBlock s c g.blk.val (fun blk => reqs.foldl (fun blk r => lsWrite blk r.addr r.val) blk)
  modGrp (countPasses s c (reqs.map (fun r => (r.addr, r.val.length)))) c b slot (fun g =>
    passLanes g (reqs.map (fun r => r.lane.val)) 8)

/-- Whether a group's accesses to local store wait for its SLAB.ST (R71). -/
def slabStoreHolds (s : State) (c b slot : Nat) : Bool :=
  let k := coreOf s c
  let g := grpOf (subOf k b) slot
  slabStorePending k b slot (blockOf k g.blk.val).info.id

/-- LD.L. An uncorrectable error in local store faults the first guarded lane, with its address: R107 does not say which lane takes
it, the model's choice (log 74). -/
def execLdL (p : Place) (f : FmtM) (env : MemEnv) (s : State) : Host.Outcome State Fault Refusal :=
  .next (issue s p (fun s i =>
    let ls := guardedLanes s i f.pg f.pn
    let x := ctxOfIssue s i 0
    let n := szBytes f
    let legal := mFields f false false && srcOk (.regImm 1) (opdOf f.a) && dstOk (.reg (szRegs n)) (opdOf f.d) &&
      opdOf f.b == .none
    match mFault legal x.info.regs (opsL f) with
    | some e => if ls.isEmpty then modIssueGrp s i (advance i 8) else faultLanes s i (wordFaults e ls)
    | none =>
      let fs := localFaults x f ls
      if !(fs.isEmpty) then faultLanes s i fs
      else if ls.isEmpty then modIssueGrp s i (advance i 8)
      else
        let reqs : List LaneReq := ls.map (fun l =>
          { lane := BitVec.toFin (BitVec.ofNat 5 l), addr := (localAddr x l (laneOf x.grp l) f).toNat })
        let s := sramCorrected s i.core env.sramFixed
        match ls, reqs with
        | l :: _, r :: _ =>
          if env.sramBad then faultLanes (sramUncorrected s i.core) i [(l, .uncorrectable, r.addr)]
          else
            let off := i.lanes.filter (fun l => !(ls.contains l))
            let s1 := modIssueGrp s i (fun g => passLanes g off 8)
            if slabStoreHolds s i.core i.sub i.slot then
              modIssueGrp s1 i (fun g =>
                ownU (holdLanes g ls .slabStore i.pc (.loadL f.d n f.sx reqs)) (laneMask ls) (opdOf f.d) (szRegs n))
            else doLoadL s1 i.core i.sub i.slot n f.sx reqs (fun g => writeResults g (opdOf f.d) (szRegs n))
        | _, _ => s))

/-- A lane's data: `n` bytes of D (R218). -/
def storeBytes (x : LaneCtx) (f : FmtM) (l : Nat) : List Byte :=
  leBytes (szBytes f) (readOpd x l (laneOf x.grp l) (opdOf f.d) (szRegs (szBytes f)) false).1

/-- The latch after a store of CLOCK_LO or CLOCK_HI. -/
def latchLanes (x : LaneCtx) (f : FmtM) (ls : List Nat) (g : Grp) : Grp :=
  modLanes g ls (fun n l =>
    { l with clkHi := (readOpd x n (laneOf x.grp n) (opdOf f.d) (szRegs (szBytes f)) false).2.clkHi })

/-- ST.L. -/
def execStL (p : Place) (f : FmtM) (s : State) : Host.Outcome State Fault Refusal :=
  .next (issue s p (fun s i =>
    let ls := guardedLanes s i f.pg f.pn
    let n := szBytes f
    let x0 := ctxOfIssue s i 0
    let legal := mFields f false false && srcOk (.regImm 1) (opdOf f.a) && srcOk (dataKind n) (opdOf f.d) &&
      opdOf f.b == .none
    match mFault legal x0.info.regs (opsL f) with
    | some e => if ls.isEmpty then modIssueGrp s i (advance i 8) else faultLanes s i (wordFaults e ls)
    | none =>
      let fs := localFaults x0 f ls
      if !(fs.isEmpty) then faultLanes s i fs
      else if ls.isEmpty then modIssueGrp s i (advance i 8)
      else
        let (s, clk) := clockTick s (i.core / 64) (readsClock (opdOf f.d))
        let x := ctxOfIssue s i clk
        let reqs : List LaneReq := ls.map (fun l =>
          { lane := BitVec.toFin (BitVec.ofNat 5 l), addr := (localAddr x l (laneOf x.grp l) f).toNat
            val := storeBytes x f l })
        let off := i.lanes.filter (fun l => !(ls.contains l))
        let s1 := modIssueGrp s i (fun g => latchLanes x f ls (passLanes g off 8))
        if slabStoreHolds s i.core i.sub i.slot then
          modIssueGrp s1 i (fun g => holdLanes g ls .slabStore i.pc (.storeL reqs))
        else doStoreL s1 i.core i.sub i.slot reqs))

-- Stores to global memory

/-- The pieces of a store, each within one line, the lower line first (R268). -/
def storePieces (r : LaneReq) : List LaneReq :=
  let room := 128 - r.addr % 128
  if r.val.length ≤ room then [r]
  else [{ r with val := r.val.take room }, { r with addr := r.addr + room, val := r.val.drop room }]

/-- The last store of a launch into an entry. -/
def markEntry (e : SbEntry) (m : StoreMark) : List StoreMark :=
  e.marks.filter (fun x => x.launch != m.launch) ++ [m]

/-- An entry with one more piece of a store. -/
def addPiece (e : SbEntry) (m : StoreMark) (slot : SlotId) (r : LaneReq) : SbEntry :=
  let w := (m.launch, slot, r.lane)
  { e with
    bytes := r.val.zipIdx.foldl (fun t p =>
      tblPut t (r.addr % 128 + p.2) { v := p.1, launch := m.launch, grp := slot, lane := r.lane }) e.bytes
    marks := markEntry e m
    writers := if e.writers.contains w then e.writers else e.writers ++ [w] }

/-- The youngest entry of the buffer takes the piece when it holds the piece's line and has not begun to drain; else a new entry
does, if one is free (R268). -/
def bufferPiece (buf : List SbEntry) (sag : SagId) (hint : Nat) (m : StoreMark) (slot : SlotId) (r : LaneReq) :
    Option (List SbEntry) :=
  let line := r.addr / 128
  let merges : Bool := match buf.getLast? with
    | some e => e.sag == sag && e.line == line && !e.draining
    | none => false
  if merges then some (listModify (fun e => addPiece e m slot r) buf (buf.length - 1))
  else if buf.length < 16 then some (buf ++ [addPiece { sag, line, hint } m slot r])
  else none

/-- The entries that the pieces of a store take now, and the pieces that are left. -/
def bufferPieces (sag : SagId) (hint : Nat) (mark : LaneReq → StoreMark) (slot : SlotId) :
    List LaneReq → List SbEntry → List SbEntry × List LaneReq
  | [], buf => (buf, [])
  | r :: rs, buf => match bufferPiece buf sag hint (mark r) slot r with
    | some b => bufferPieces sag hint mark slot rs b
    | none => (buf, r :: rs)

/-- Blocks a whole subset at an instruction: its guarded lanes have something to do there, the others wait with them. -/
def holdSubset (g : Grp) (all ls : List Nat) (w : Wait) (pc : W32) (op : Held) : Grp :=
  let g := modLanes g all (fun _ l => { l with wait := w })
  { g with held := g.held ++ [{ lanes := laneMask all, guarded := laneMask ls, pc, op }] }

/-- The stores of lanes `m` of a group that a LOAD stream waits for have taken entries: all of the buffer comes before its first
span, and with `done` nothing more of them is owed (R127). -/
def storesTaken (k : Core) (b slot : Nat) (m : BitVec 32) (done : Bool) : Core :=
  { k with engines := k.engines.map (fun e => { e with streams := e.streams.map (fun p =>
      (p.1, if p.2.sub.val == b && p.2.grp.val == slot && p.2.owed &&& m != 0 then
        { p.2 with before := (subOf k b).buffer.length, owed := if done then p.2.owed &&& ~~~m else p.2.owed } else p.2)) }) }

/-- A store of a group goes on taking entries; it completes when every piece has one. -/
def pumpStore (s : State) (c b slot : Nat) (m : BitVec 32) (pc : W32) (hint : Nat) (pieces : List LaneReq) : State :=
  let k := coreOf s c
  let u := subOf k b
  let g := grpOf u slot
  let blk := blockOf k g.blk.val
  let mark (r : LaneReq) : StoreMark :=
    { launch := blk.info.id, pc, blk := blk.lin, thread := g.idx * 32 + r.lane.val }
  let v := bufferPieces blk.info.sag hint mark (BitVec.toFin (BitVec.ofNat 4 slot)) pieces u.buffer
  let k1 := setSub k b { u with buffer := v.1 }
  let s := setCore s c (if v.2.length < pieces.length then storesTaken k1 b slot m v.2.isEmpty else k1)
  match v.2 with
  | [] => modGrp s c b slot (fun g => passLanes (dropHeld g m) (maskLanes m) 8)
  | rest => modGrp s c b slot (fun g =>
      { g with held := g.held.map (fun x => if x.lanes == m then { x with op := .storeG hint rest } else x) })

/-- ST.G. The whole issuing subset waits at issue while the store takes its entries (R269). -/
def execStG (p : Place) (f : FmtM) (s : State) : Host.Outcome State Fault Refusal :=
  .next (issue s p (fun s i =>
    let ls := guardedLanes s i f.pg f.pn
    let n := szBytes f
    let x0 := ctxOfIssue s i 0
    let legal := mFields f true false && srcOk (.reg 2) (opdOf f.a) && srcOk (dataKind n) (opdOf f.d) &&
      opdOf f.b == .none
    match mFault legal x0.info.regs (opsLdG f) with
    | some e => if ls.isEmpty then modIssueGrp s i (advance i 8) else faultLanes s i (wordFaults e ls)
    | none =>
      let fs := globalFaults s i x0 f true ls
      if !(fs.isEmpty) then faultLanes s i fs
      else if ls.isEmpty then modIssueGrp s i (advance i 8)
      else
        let (s, clk) := clockTick s (i.core / 64) (readsClock (opdOf f.d))
        let x := ctxOfIssue s i clk
        let pieces : List LaneReq := (ls.map (fun l =>
          ({ lane := BitVec.toFin (BitVec.ofNat 5 l)
             addr := bufAddr s x.info (lowBits 64 (globalAddr x l (laneOf x.grp l) f)) n
             val := storeBytes x f l } : LaneReq))).flatMap storePieces
        let s1 := modIssueGrp s i (fun g =>
          holdSubset (latchLanes x f ls g) i.lanes ls .buffer i.pc (.storeG f.hint.toNat pieces))
        pumpStore s1 i.core i.sub i.slot (laneMask i.lanes) i.pc f.hint.toNat pieces))

/-- STORE_BUFFER_ALLOCATE: the stores of a sub-core that wait for entries take those that are free (R269). -/
def execStoreBufferAllocate (p : Place) (s : State) : Host.Outcome State Fault Refusal :=
  let t := (heldOps (coreOf s p.core.val)).foldl (fun t x => match x.2.2.op with
      | .storeG hint pieces =>
        if x.1 == p.sub.val then pumpStore t p.core.val x.1 x.2.1 x.2.2.lanes x.2.2.pc hint pieces else t
      | _ => t) s
  .next (pumpLoads t p.core.val)

-- The block barrier (R227): it is looked at wherever what it waits for may have come about

/-- Every thread of a block that is not exited waits at BAR.BLOCK, none of its stores stands in a store buffer, and no
SLAB.ST of its groups is pending. -/
def barComplete (k : Core) (b : Nat) : Bool :=
  match tblFind k.blocks b with
  | none => false
  | some blk =>
    blk.groups.all (fun p =>
      (grpOf (subOf k p.1.val) p.2.val).lanes.all (fun l => l.exited || l.wait == .bar) &&
      !((subOf k p.1.val).buffer.any (fun e => e.writers.any (fun w => w.1 == blk.info.id && w.2.1 == p.2))) &&
      !(slabStorePending k p.1.val p.2.val blk.info.id)) &&
    blk.groups.any (fun p => (grpOf (subOf k p.1.val) p.2.val).lanes.any (fun l => !l.exited))

/-- The barrier of a block releases: its waiting threads go on. -/
def releaseBar (k : Core) (b : Nat) : Core :=
  match tblFind k.blocks b with
  | none => k
  | some blk => blk.groups.foldl (fun k p =>
      let u := subOf k p.1.val
      let g := grpOf u p.2.val
      setSub k p.1.val (setGrp u p.2.val { g with lanes := g.lanes.map (fun l =>
        if l.wait == .bar then { l with wait := .ready, pc := l.pc + 8 } else l) })) k

/-- Releases every barrier of a core that is complete. -/
def checkBars (s : State) (c : Nat) : State :=
  settle (modCore s c (fun k => (k.blocks.map (fun p => p.1)).foldl (fun k b =>
    if barComplete k b then releaseBar k b else k) k)) c

-- Drains

/-- The oldest entry leaves its store buffer. -/
def popBuffer (s : State) (c b : Nat) : State :=
  modCore s c (fun k =>
    let k := setSub k b { subOf k b with buffer := (subOf k b).buffer.drop 1 }
    { k with engines := k.engines.map (fun e => { e with streams := e.streams.map (fun p =>
      (p.1, if p.2.sub.val == b then { p.2 with before := p.2.before - 1 } else p.2)) }) })

/-- The launches of an entry are aborted with UNCORRECTABLE_DATA, each at its last store (R481, R409). -/
def failMarks (s : State) (core : Nat) (marks : List StoreMark) (addr : Nat) : State :=
  marks.foldl (fun t m => match launchOf t m.launch with
    | some l => threadFault t l.info .uncorrectable ⟨core, m.blk, m.thread, m.pc⟩ (BitVec.ofNat 64 addr)
    | none => t) s

/-- Updates of an entry as bytes of its line. -/
def entryBytes (e : SbEntry) : Tbl Byte := e.bytes.map (fun p => (p.1, p.2.v))

/-- A drained store's bytes reach the own core's L1 (R114). -/
def l1Update (k : Core) (line : Nat) (upd : Tbl Byte) : Core := l1Mod k line (fun x => { x with data := mergeLine x.data upd })

/-- Everything a drain may set going on its core. -/
def afterDrain (s : State) (c : Nat) : State := checkBars (pumpLoads s c) c

/-- A host entry asks the link for its IO_WR; it drains when the link grants it (R271, R408). -/
def drainHost (s : State) (p : Place) (e : SbEntry) : State :=
  if e.draining then s
  else
    let s := modCore s p.core.val (fun k =>
      setSub k p.sub.val { subOf k p.sub.val with buffer := listModify (fun x => { x with draining := true }) (subOf k p.sub.val).buffer 0 })
    let owner : IoOwner := .store p.core p.sub (e.marks.map (fun m => (m.launch, m.blk, m.thread, m.pc)))
    { s with dl := { s.dl with waiting := s.dl.waiting ++
        [{ owner, who := 1 + p.core.val / 64, write := true, addr := BitVec.ofNat 52 (e.line * 128 - hostBase), len := 128
           data := (List.range 128).map (fun i => (tblFind e.bytes i).map (fun x => x.v)) }] } }

/-- The oldest entry is written into the coherent copy of its line (R270, R481), or asks the link. -/
def drainBuffer (p : Place) (env : MemEnv) (s : State) : State :=
  match (subOf (coreOf s p.core.val) p.sub.val).buffer with
  | [] => s
  | e :: _ =>
    if hostBase ≤ e.line * 128 then drainHost s p e
    else
      match mapLine s e.sag.val (e.line * 128) with
      | none => afterDrain (popBuffer s p.core.val p.sub.val) p.core.val
      | some l =>
        let d := p.core.val / 64
        let upd := entryBytes e
        let who : Option Thread := match e.writers with
          | [w] => some ⟨p.core.val, p.sub.val, w.2.1.val, w.2.2.val⟩
          | _ => none
        let done (t : State) : State :=
          afterDrain (popBuffer (modCore t p.core.val (fun k => l1Update k e.line upd)) p.core.val p.sub.val) p.core.val
        let failed (t : State) : State :=
          afterDrain (failMarks (popBuffer t p.core.val p.sub.val) p.core.val e.marks (e.line * 128)) p.core.val
        match storeLine s d l upd .core e.hint who (some e.sag.val) env with
        | none => s
        | some g => match g.res with
          | .error _ => failed g.s
          | .ok _ => done g.s

/-- STORE_BUFFER_DRAIN. -/
def execStoreBufferDrain (p : Place) (env : MemEnv) (s : State) : Host.Outcome State Fault Refusal :=
  .next (meets env s (drainBuffer p env s))

end Sys2Proof.Machine
end

