-- ==== Sys2Proof/Machine/Atomics.lean ====
section
/-!
DEFINITION. ATOM, LDX and STX (R219 to R225, R256 to R261, R283, R284): their issue, the contention predictor, the
reservation array, and the indivisible steps that perform them near or far.
-/
namespace Sys2Proof.Machine

open Sys2Proof

-- Values (Table 08-8)

def opBytes (wide : Bool) : Nat := if wide then 8 else 4

/-- The new value of a word of `n` bits. -/
def atomNew (op : AtomOp) (wide : Bool) (old b c : Nat) : Nat :=
  let n := 8 * opBytes wide
  let m (v : Nat) : Nat := v % 2 ^ n
  let sLt (x y : Nat) : Bool := sext n x < sext n y
  match op with
  | .add => m (old + b)
  | .fadd => (round32 (addF (val32 (BitVec.ofNat 32 old)) (val32 (BitVec.ofNat 32 b)))).toNat
  | .smin => if sLt b old then m b else old
  | .smax => if sLt old b then m b else old
  | .umin => if m b < old then m b else old
  | .umax => if old < m b then m b else old
  | .and => old &&& m b
  | .or => old ||| m b
  | .xor => old ^^^ m b
  | .exch => m b
  | .cas => if old == m c then m b else old

/-- A combined operation: each operand in its place, the old values returned, and the final value (R220). -/
def atomRun (op : AtomOp) (wide : Bool) : List (W64 × W64) → Nat → List Nat × Nat
  | [], old => ([], old)
  | o :: os, old =>
    let r := atomRun op wide os (atomNew op wide old o.1.toNat o.2.toNat)
    (old :: r.1, r.2)

def wordAt (data : List Byte) (ofs n : Nat) : Nat := leNat ((data.drop ofs).take n)

def putWord (data : List Byte) (ofs n v : Nat) : List Byte := mergeLine data (updatesAt ofs (leBytes n v))

def aopCode : AtomOp → Nat
  | .add => 0
  | .fadd => 1
  | .smin => 2
  | .smax => 3
  | .umin => 4
  | .umax => 5
  | .and => 6
  | .or => 7
  | .xor => 8
  | .exch => 9
  | .cas => 10

-- Issue

/-- The first check that an address fails, in the order of R221. -/
def atomicFault (s : State) (info : LaunchInfo) (a n : Nat) (write : Bool) : Option TFault :=
  if 2 ^ 48 ≤ a then some .address
  else if a % n != 0 then some .misaligned
  else if isHostAddr a then some .address
  else accessFault s info a n write

/-- A clock read by a lane's operand changes its latch. -/
def latchOpnd (x : LaneCtx) (o : BitVec 9) (ls : List Nat) (g : Grp) : Grp :=
  if readsClock (opdOf o) then
    modLanes g ls (fun n l => { l with clkHi := (readOpd x n (laneOf x.grp n) (opdOf o) 1 false).2.clkHi })
  else g

/-- Issues an atomic instruction: its checks, then its lanes block as a long wait until ATOMIC_PERFORM has performed
every one of them. -/
def issueAtomic (p : Place) (f : FmtM) (legal : Bool) (ops : List (Opd × Nat)) (write : Bool)
    (dst : Opd × Nat) (op : LaneCtx → List AtomReq → Held) (req : LaneCtx → Nat → AtomReq) (s : State) : State :=
  issue s p (fun s i =>
    let ls := guardedLanes s i f.pg f.pn
    let n := szBytes f
    let x0 := ctxOfIssue s i 0
    match mFault legal x0.info.regs ops with
    | some e => if ls.isEmpty then modIssueGrp s i (advance i 8) else faultLanes s i (wordFaults e ls)
    | none =>
      let fs := ls.filterMap (fun l =>
        let a := lowBits 64 (globalAddr x0 l (laneOf x0.grp l) f)
        (atomicFault s x0.info a n write).map (fun e => (l, e, a)))
      if !(fs.isEmpty) then faultLanes s i fs
      else if ls.isEmpty then modIssueGrp s i (advance i 8)
      else
        let (s, clk) := clockTick s (i.core / 64) (readsClock (opdOf f.b) || readsClock (opdOf f.d))
        let x := ctxOfIssue s i clk
        let off := i.lanes.filter (fun l => !(ls.contains l))
        modIssueGrp s i (fun g =>
          ownU (holdLanes (latchOpnd x f.d ls (latchOpnd x f.b ls (passLanes g off 8))) ls .atomic i.pc (op x (ls.map (req x))))
            (laneMask ls) dst.1 dst.2))

/-- Sizes of ATOM, LDX and STX: B4 and B8. -/
def atomSize (f : FmtM) : Bool := f.sz == 2 || f.sz == 3

def isWide (f : FmtM) : Bool := f.sz == 3

/-- The bytes of an operand of a lane; of a floating operation an IMM stands for its binary32 value (Table 08-2). -/
def laneOpnd (x : LaneCtx) (o : BitVec 9) (w l : Nat) (float : Bool) : W64 :=
  BitVec.ofNat 64 (readOpd x l (laneOf x.grp l) (opdOf o) w float).1

/-- ATOM with operation `op` (R219). -/
def atomIssue (op : AtomOp) (p : Place) (f : FmtM) (s : State) : State :=
  let n := szBytes f
  let w := szRegs n
  let cas := op == .cas
  let legal := mFields f false true && f.aop.toNat == aopCode op && atomSize f && !(op == .fadd && isWide f) &&
    srcOk (.reg 2) (opdOf f.a) && dstOk (if cas then .reg w else .regOrNone w) (opdOf f.d) &&
    srcOk (dataKind n) (opdOf f.b)
  issueAtomic p f legal [(opdOf f.d, w), (opdOf f.a, 2), (opdOf f.b, w)] true (opdOf f.d, w)
    (fun _ reqs => .atom op (isWide f) f.d reqs)
    (fun x l =>
      { lane := BitVec.toFin (BitVec.ofNat 5 l), addr := lowBits 64 (globalAddr x l (laneOf x.grp l) f)
        opnd := laneOpnd x f.b w l (op == .fadd), cmp := laneOpnd x f.d w l false }) s

/-- ATOM ADD. -/
def execAtomAdd (p : Place) (f : FmtM) (s : State) : Host.Outcome State Fault Refusal := .next (atomIssue .add p f s)

/-- ATOM FADD. -/
def execAtomFadd (p : Place) (f : FmtM) (s : State) : Host.Outcome State Fault Refusal := .next (atomIssue .fadd p f s)

/-- ATOM SMIN. -/
def execAtomSmin (p : Place) (f : FmtM) (s : State) : Host.Outcome State Fault Refusal := .next (atomIssue .smin p f s)

/-- ATOM SMAX. -/
def execAtomSmax (p : Place) (f : FmtM) (s : State) : Host.Outcome State Fault Refusal := .next (atomIssue .smax p f s)

/-- ATOM UMIN. -/
def execAtomUmin (p : Place) (f : FmtM) (s : State) : Host.Outcome State Fault Refusal := .next (atomIssue .umin p f s)

/-- ATOM UMAX. -/
def execAtomUmax (p : Place) (f : FmtM) (s : State) : Host.Outcome State Fault Refusal := .next (atomIssue .umax p f s)

/-- ATOM AND. -/
def execAtomAnd (p : Place) (f : FmtM) (s : State) : Host.Outcome State Fault Refusal := .next (atomIssue .and p f s)

/-- ATOM OR. -/
def execAtomOr (p : Place) (f : FmtM) (s : State) : Host.Outcome State Fault Refusal := .next (atomIssue .or p f s)

/-- ATOM XOR. -/
def execAtomXor (p : Place) (f : FmtM) (s : State) : Host.Outcome State Fault Refusal := .next (atomIssue .xor p f s)

/-- ATOM EXCH. -/
def execAtomExch (p : Place) (f : FmtM) (s : State) : Host.Outcome State Fault Refusal := .next (atomIssue .exch p f s)

/-- ATOM CAS. -/
def execAtomCas (p : Place) (f : FmtM) (s : State) : Host.Outcome State Fault Refusal := .next (atomIssue .cas p f s)

/-- LDX (R222). -/
def execLdx (p : Place) (f : FmtM) (s : State) : Host.Outcome State Fault Refusal :=
  let w := szRegs (szBytes f)
  let legal := mFields f false false && atomSize f && srcOk (.reg 2) (opdOf f.a) && dstOk (.reg w) (opdOf f.d) &&
    opdOf f.b == .none
  .next (issueAtomic p f legal [(opdOf f.d, w), (opdOf f.a, 2)] false (opdOf f.d, w)
    (fun _ reqs => .ldx (isWide f) f.d reqs)
    (fun x l => { lane := BitVec.toFin (BitVec.ofNat 5 l), addr := lowBits 64 (globalAddr x l (laneOf x.grp l) f) }) s)

/-- The predicate that a P specifier names. -/
def predNo (o : BitVec 9) : Fin 8 := match opdOf o with
  | .p n => BitVec.toFin (BitVec.ofNat 3 n)
  | _ => 7

/-- STX (R223). -/
def execStx (p : Place) (f : FmtM) (s : State) : Host.Outcome State Fault Refusal :=
  let n := szBytes f
  let w := szRegs n
  let legal := mFields f false false && atomSize f && srcOk (.reg 2) (opdOf f.a) && srcOk (dataKind n) (opdOf f.d) &&
    dstOk .pred (opdOf f.b)
  .next (issueAtomic p f legal [(opdOf f.d, w), (opdOf f.a, 2)] true (.none, 0)
    (fun _ reqs => .stx (isWide f) (predNo f.b) reqs)
    (fun x l =>
      { lane := BitVec.toFin (BitVec.ofNat 5 l), addr := lowBits 64 (globalAddr x l (laneOf x.grp l) f)
        opnd := laneOpnd x f.d w l false }) s)

-- The contention predictor (R256)

def predKey (l : Nat) : Nat :=
  lineSlice l * 1024 + ((lineOfs l / 2 ^ 7) ^^^ (lineOfs l / 2 ^ 17) ^^^ lineChan l) % 1024

def predOf (s : State) (d l : Nat) : Nat := tblGet 0 (dieOf s d).predictor (predKey l)

def predStep (s : State) (d l : Nat) (up : Bool) : State :=
  let n := predOf s d l
  modDie s d (fun k => { k with predictor := tblSet 0 k.predictor (predKey l) (if up then min 3 (n + 1) else n - 1) })

/-- What a near operation does to the entry. -/
def predNear (s : State) (d l : Nat) (owned snooped : Bool) : State :=
  if owned then predStep s d l false else if snooped then predStep s d l true else s

/-- What a far operation does to the entry, and the home's record. -/
def predFar (s : State) (d l : Nat) : State :=
  let up := match tblFind (dieOf s (lineDie l)).lastFar l with
    | some x => x.val != d
    | none => false
  let s := predStep s d l up
  modDie s (lineDie l) (fun k => { k with lastFar := tblPut k.lastFar l (BitVec.toFin (BitVec.ofNat 2 d)) })

/-- A far operation of a die's core is counted at the home and for the saggar (Table 09-7, R395). -/
def countFar (s : State) (l sag : Nat) : State :=
  perf (modDie s (lineDie l) (fun k => { k with farAtomics := sat k.farAtomics 1 })) sag perfFARATOMIC 1

-- The reservation array (R259)

/-- The set of a pair within the array of its home slice: 512 sets of 8 ways. The two lines of a pair lie in neighbouring sets of the
slice (R241), so the set number without its lowest bit names one of 512 sets for each pair: R259 gives no index, the model's
choice (log 75). -/
def rsvSet (pair : Nat) : Nat := lineSet (2 * pair) / 2

/-- Enters a die's reservation on the pair of a line; a full set loses its earliest entry. -/
def reserveFar (s : State) (d l : Nat) : State :=
  let h := lineDie l
  let pair := pairOf l
  let bit : BitVec 4 := BitVec.ofNat 4 (2 ^ d)
  if (dieOf s h).rsvArray.any (fun e => e.pair == pair) then
    modDie s h (fun k => { k with rsvArray := k.rsvArray.map (fun e =>
      if e.pair == pair then { e with mask := e.mask ||| bit } else e) })
  else
    let same := (dieOf s h).rsvArray.filter (fun e => e.slice == lineSlice l && rsvSet e.pair == rsvSet pair)
    let s := if same.length < 8 then s
      else match same with
        | e :: _ => killPair s (2 * e.pair) none
        | [] => s
    modDie s h (fun k => { k with rsvArray := k.rsvArray ++ [{ slice := lineSlice l, pair, mask := bit }] })

-- The performing steps

/-- A write of a word by an atomic of thread `who`: the line is owned by `at_`, every other reservation goes. -/
def atomStore (s : State) (at_ l : Nat) (data : List Byte) (who : Option Thread) : State :=
  storeOwned s at_ l data who (fillOf s l .core 0)

/-- The thread of a lane. -/
def threadOf (c b slot : Nat) (lane : LaneId) : Thread := ⟨c, b, slot, lane.val⟩

def modLaneAt (s : State) (c b slot lane : Nat) (f : Lane → Lane) : State :=
  modGrp s c b slot (fun g => modLanes g [lane] (fun _ l => f l))

/-- The order in which a combined FADD is applied: the one given, where it names every lane once (R220). -/
def addOrder (order : List LaneId) (ls : List LaneId) : List LaneId :=
  if order.length == ls.length && ls.all (fun l => order.contains l) then order else ls

/-- Requests of one held operation rewritten. -/
def setReqs (s : State) (c b slot : Nat) (m : BitVec 32) (op : Held) : State :=
  modGrp s c b slot (fun g => { g with held := g.held.map (fun h => if h.lanes == m then { h with op } else h) })

/-- Lanes whose operation has been performed pass an ordering point (R276). -/
def passOrdering (s : State) (c b slot : Nat) (ls : List LaneId) : State :=
  let s := tickNow s
  modGrp s c b slot (fun g => modLanes g (ls.map (fun l => l.val)) (fun _ l => { l with ordPt := s.now }))

/-- When every lane of an atomic instruction is performed, its results are written and its lanes go on. -/
def finishAtomic (s : State) (c b slot : Nat) (m : BitVec 32) (d : Opd) (w : Nat) (reqs : List AtomReq) : State :=
  if reqs.all (fun r => r.res.isSome) then
    settle (modGrp s c b slot (fun g =>
      passLanes (writeLate (dropHeld g m) m d w (reqs.map (fun r => (r.lane.val, (r.res.getD 0).toNat)))) (maskLanes m) 8)) c
  else s

/-- Threads fault with UNCORRECTABLE_DATA at an atomic. -/
def failAtomic (s : State) (c b slot : Nat) (h : HeldOp) (rs : List AtomReq) : State :=
  let i := heldIssue c b slot h
  settle (faultLanes s i (rs.map (fun r => (r.lane.val, .uncorrectable, r.addr)))) c

/-- An access of an atomic takes the line unique where it executes: at the home when far, else at the requester. -/
def atomOwn (s : State) (d l : Nat) (far : Bool) (sag : Nat) (env : MemEnv) : Option Got :=
  ownLine s (if far then lineDie l else d) l (fillOf s l .core 0) (some sag) false env

/-- The die holds the line FE or FM from before: not by a grant that no operation has used since (R256). -/
def ownedHere (s : State) (d l : Nat) : Bool := match farCopy s d l with
  | some x => x.st != .fs && x.won.isNone
  | none => false

/-- An operation that writes nothing has used the grant of a line. -/
def useGrant (s : State) (d l : Nat) : State := match farCopy s d l with
  | some x => if x.won.isSome then setFar s d l x.st x.data else s
  | none => s

/-- The combined operation of an ATOM on the word of request `r0`. -/
def performAtom (s : State) (c b slot : Nat) (h : HeldOp) (op : AtomOp) (wide : Bool) (dst : BitVec 9)
    (reqs : List AtomReq) (r0 : AtomReq) (order : List LaneId) (env : MemEnv) : State :=
  let i := heldIssue c b slot h
  let info := issueInfo s i
  let mine := reqs.filter (fun r => r.addr == r0.addr)
  if mine.any (fun r => hasStores (subOf (coreOf s c) b).buffer info.id slot r.lane.val) then s
  else
    match mapLine s info.sag.val r0.addr with
    | none => s
    | some l =>
      let d := c / 64
      let remote := lineDie l != d
      let far := remote && (2 ≤ mine.length || 2 ≤ predOf s d l)
      let owned := ownedHere s d l
      match atomOwn s d l far info.sag.val env with
      | none => s
      | some g =>
        match g.res with
        | .error _ => failAtomic g.s c b slot h mine
        | .ok data =>
          let ids := mine.map (fun r => r.lane)
          let ord := if op == .fadd then addOrder order ids else ids
          let inOrder := ord.filterMap (fun x => mine.find? (fun r => r.lane == x))
          let ofs := r0.addr % 128
          let run := atomRun op wide (inOrder.map (fun r => (r.opnd, r.cmp))) (wordAt data ofs (opBytes wide))
          let olds := inOrder.zip run.1
          let data' := putWord data ofs (opBytes wide) run.2
          let who := match mine with
            | [r] => some (threadOf c b slot r.lane)
            | _ => none
          let t := atomStore g.s (if far then lineDie l else d) l data' who
          let t := if far then countFar (predFar t d l) l info.sag.val
            else if remote then predNear t d l owned g.snooped else t
          let t := modCore t c (fun k => l1Update k (r0.addr / 128) (updatesAt ofs (leBytes (opBytes wide) run.2)))
          let t := passOrdering t c b slot ids
          let reqs' := reqs.map (fun r => match olds.find? (fun q => q.1.lane == r.lane) with
            | some q => { r with res := some (BitVec.ofNat 64 q.2) }
            | none => r)
          finishAtomic (setReqs t c b slot h.lanes (.atom op wide dst reqs')) c b slot h.lanes (opdOf dst)
            (szRegs (opBytes wide)) reqs'

/-- One lane of an LDX. -/
def performLdx (s : State) (c b slot : Nat) (h : HeldOp) (wide : Bool) (dst : BitVec 9) (reqs : List AtomReq)
    (r : AtomReq) (env : MemEnv) : State :=
  let i := heldIssue c b slot h
  let info := issueInfo s i
  if hasStores (subOf (coreOf s c) b).buffer info.id slot r.lane.val then s
  else
    match mapLine s info.sag.val r.addr with
    | none => s
    | some l =>
      let d := c / 64
      let remote := lineDie l != d
      let far := remote && 2 ≤ predOf s d l
      let owned := ownedHere s d l
      match atomOwn s d l far info.sag.val env with
      | none => s
      | some g =>
        match g.res with
        | .error _ => failAtomic g.s c b slot h [r]
        | .ok data =>
          let t := if far then countFar (predFar (reserveFar g.s d l) d l) l info.sag.val
            else if remote then predNear (useGrant g.s d l) d l owned g.snooped else g.s
          let present := far || (if remote then (farCopy t d l).isSome else (homeCopy t l).isSome)
          let rsv : Option Rsv := if present then some { line := BitVec.ofNat 33 l, far } else none
          let t := modLaneAt t c b slot r.lane.val (fun x => { x with rsv })
          let t := passOrdering t c b slot [r.lane]
          let reqs' := reqs.map (fun q => if q.lane == r.lane then
            { q with res := some (BitVec.ofNat 64 (wordAt data (r.addr % 128) (opBytes wide))) } else q)
          finishAtomic (setReqs t c b slot h.lanes (.ldx wide dst reqs')) c b slot h.lanes (opdOf dst)
            (szRegs (opBytes wide)) reqs'

/-- The reservation of a thread covers a line. -/
def rsvCovers (r : Option Rsv) (l : Nat) : Bool := match r with
  | none => false
  | some x => if x.far then pairOf x.line.toNat == pairOf l else x.line.toNat == l

/-- The store of a successful STX: near as a store of its thread; far it clears the pair's entry, and RSV_KILL goes to
every other die of the mask (R260). -/
def stxStore (s : State) (d l : Nat) (far : Bool) (data : List Byte) (who : Thread) : State :=
  if far then
    let h := lineDie l
    let t := killPair s l (some d)
    let t := clearFarRsv t d (pairOf l) none
    storeOwned t h l data none (fillOf t l .core 0)
  else storeOwned s d l data (some who) (fillOf s l .core 0)

/-- In service ordering mode an STX may fail with no cause, but not after 255 that have failed on its pair since one succeeded
there: at least one succeeds in each 256 iterations (R225). -/
def stxFails (s : State) (l : Nat) : Bool × State :=
  if s.ras.serviceOrdering && tblGet 0 s.ras.stxTries (pairOf l) < 255 then
    (Config.freeNat s.free % 2 == 1, { s with free := s.free + 1 })
  else (false, s)

/-- The count of failed STX on a pair since one succeeded, kept in service ordering mode. -/
def countTry (s : State) (l : Nat) (ok : Bool) : State :=
  if s.ras.serviceOrdering then
    { s with ras := { s.ras with stxTries := tblSet 0 s.ras.stxTries (pairOf l) (if ok then 0 else tblGet 0 s.ras.stxTries (pairOf l) + 1) } }
  else s

/-- One lane of an STX ends with its outcome; its reservation is cleared. -/
def stxEnd (s : State) (c b slot : Nat) (h : HeldOp) (wide : Bool) (p : Fin 8) (reqs : List AtomReq) (lane : LaneId)
    (ok : Bool) : State :=
  let t := modLaneAt s c b slot lane.val (fun x => { x with rsv := none })
  let t := passOrdering t c b slot [lane]
  let reqs' := reqs.map (fun q => if q.lane == lane then { q with res := some (BitVec.ofNat 64 (boolNat ok)) } else q)
  finishAtomic (setReqs t c b slot h.lanes (.stx wide p reqs')) c b slot h.lanes (.p p.val) 1 reqs'

/-- One lane of an STX. -/
def performStx (s : State) (c b slot : Nat) (h : HeldOp) (wide : Bool) (p : Fin 8) (reqs : List AtomReq)
    (r : AtomReq) (env : MemEnv) : State :=
  let i := heldIssue c b slot h
  let info := issueInfo s i
  if hasStores (subOf (coreOf s c) b).buffer info.id slot r.lane.val then s
  else
    match mapLine s info.sag.val r.addr with
    | none => s
    | some l =>
      let d := c / 64
      let rsvNow (t : State) : Option Rsv := (laneOf (grpOf (subOf (coreOf t c) b) slot) r.lane.val).rsv
      let fail := stxFails s l
      if !(rsvCovers (rsvNow s) l) || fail.1 then stxEnd (countTry fail.2 l false) c b slot h wide p reqs r.lane false
      else
        let s := fail.2
        let far := match rsvNow s with
          | some x => x.far
          | none => false
        let inArray := (dieOf s (lineDie l)).rsvArray.any (fun e => e.pair == pairOf l && e.mask.getLsbD d)
        if far && !inArray then stxEnd (countTry s l false) c b slot h wide p reqs r.lane false
        else
          match atomOwn s d l far info.sag.val env with
          | none => s
          | some g =>
            match g.res with
            | .error _ => failAtomic g.s c b slot h [r]
            | .ok data =>
              if !far && !(rsvCovers (rsvNow g.s) l) then stxEnd (countTry g.s l false) c b slot h wide p reqs r.lane false
              else
                let ofs := r.addr % 128
                let bs := leBytes (opBytes wide) r.opnd.toNat
                let t := stxStore g.s d l far (mergeLine data (updatesAt ofs bs)) (threadOf c b slot r.lane)
                let t := modCore t c (fun k => l1Update k (r.addr / 128) (updatesAt ofs bs))
                stxEnd (countTry t l true) c b slot h wide p reqs r.lane true

/-- ATOMIC_PERFORM: the operation of lane `l` of the group in slot `g`, with every lane of its subset that names the same
word; lanes of an STX to one granule go in ascending order (R223, R257, R283). -/
def execAtomicPerform (p : Place) (g : SlotId) (l : LaneId) (order : List LaneId) (env : MemEnv) (s : State) :
    Host.Outcome State Fault Refusal :=
  let c := p.core.val
  let b := p.sub.val
  let held := (grpOf (subOf (coreOf s c) b) g.val).held
  .next (meets env s (match held.find? (fun h => h.lanes.getLsbD l.val) with
    | none => s
    | some h =>
      let open_ (reqs : List AtomReq) : Option AtomReq := reqs.find? (fun r => r.lane == l && r.res.isNone)
      match h.op with
      | .atom op wide d reqs => match open_ reqs with
        | some r => performAtom s c b g.val h op wide d reqs r order env
        | none => s
      | .ldx wide d reqs => match open_ reqs with
        | some r => performLdx s c b g.val h wide d reqs r env
        | none => s
      | .stx wide q reqs => match open_ reqs with
        | some r =>
          match reqs.find? (fun x => x.res.isNone && x.addr / 256 == r.addr / 256) with
          | some x => performStx s c b g.val h wide q reqs x env
          | none => s
        | none => s
      | _ => s))

end Sys2Proof.Machine
end

