-- ==== Sys2Proof/Machine/Engines.lean ====
section
/-!
DEFINITION. The access engines (spec/04): tensor walks, tokens and credits, TOK.WAIT and TOK.POST, spans, and the errors
of a walk (R118 to R130, R231).
-/
namespace Sys2Proof.Machine

open Sys2Proof

-- A system instruction of format G

/-- Issues an instruction of format G that is not an ALU instruction: the faults of its word, then `body` over the
guarded lanes; with no guarded lane the subset goes on. -/
def gSystem (p : Place) (m : GForm) (f : FmtG) (extra : Bool) (body : State → Issue → List Nat → State) (s : State) : State :=
  issue s p (fun s i =>
    let ls := guardedLanes s i f.pg f.pn
    match gFault m f false extra (issueInfo s i).regs with
    | some e => if ls.isEmpty then modIssueGrp s i (advance i 8) else faultLanes s i (wordFaults e ls)
    | none => if ls.isEmpty then modIssueGrp s i (advance i 8) else body s i ls)

/-- Lanes of the subset whose guard is false go on. -/
def passOthers (s : State) (i : Issue) (ls : List Nat) : State :=
  modIssueGrp s i (fun g => passLanes g (i.lanes.filter (fun l => !(ls.contains l))) 8)

/-- The subset faults as one: its lowest guarded lane takes the fault. -/
def faultSubset (s : State) (i : Issue) (ls : List Nat) (e : TFault) (addr : Nat) : State :=
  match ls with
  | l :: _ => faultLanes s i [(l, e, addr)]
  | [] => s

-- Streams

def streamOf (e : AEngine) (ctx : Nat) : Stream := tblGet {} e.streams ctx

def setStream (e : AEngine) (ctx : Nat) (x : Stream) : AEngine := { e with streams := tblSet {} e.streams ctx x }

def modStream (s : State) (c e ctx : Nat) (f : Stream → Stream) : State :=
  modCore s c (fun k => setEngine k e (setStream (engineOf k e) ctx (f (streamOf (engineOf k e) ctx))))

def streamAt (s : State) (c e ctx : Nat) : Stream := streamOf (engineOf (coreOf s c) e) ctx

/-- A block holds a stream (R118). -/
def streamHeld (x : Stream) : Bool := x.st != .idle

-- Walks (R119, R120)

/-- Word `w` of a descriptor. -/
def wordN (ws : List W64) (n : Nat) : W64 := ws.getD n 0

/-- The walk of a descriptor. -/
def walkOf (ws : List W64) : Walk :=
  let w0 := wordN ws 0
  let w1 := wordN ws 1
  let run := (field w1 0 12 + 1) * 16
  let pitch := field (wordN ws 7) 0 16 * 16
  { base := field w0 0 48, store := bit w0 48, hint := field w0 49 2, ndim := field w0 51 3 + 1, tdim := field w0 54 3
    run, slots := field w1 16 8 + 1, slotBase := field w1 32 15 * 128, slotStride := field w1 48 15 * 128
    strides := (List.range 5).map (fun i => sext 40 (field (wordN ws (i + 2)) 0 40))
    counts := (List.range 5).map (fun i => field (wordN ws (i + 2)) 40 16 + 1)
    pitch := if pitch = 0 then run else pitch }

/-- The count of dimension `d`, from 1; a dimension at or above NDIM counts once. -/
def walkCount (w : Walk) (d : Nat) : Nat := if d < w.ndim then w.counts.getD (d - 1) 1 else 1

/-- Rows of a slot, slots of the walk, bytes of a slot. -/
def walkRows (w : Walk) : Nat := (List.range w.tdim).foldl (fun m d => if d = 0 then m else m * walkCount w d) 1

def walkSlots (w : Walk) : Nat := (List.range w.ndim).foldl (fun m d => if d < w.tdim then m else m * walkCount w d) 1

def slotBytes (w : Walk) : Nat := walkRows w * w.run

/-- A slot's extent in local store. -/
def slotExtent (w : Walk) : Nat := (walkRows w - 1) * w.pitch + w.run

/-- Global offset of index number `n` over dimensions `ds`, the first fastest. -/
def walkOffset (w : Walk) : List Nat → Nat → Int
  | [], _ => 0
  | d :: ds, n => (n % walkCount w d : Nat) * w.strides.getD (d - 1) 0 + walkOffset w ds (n / walkCount w d)

def dimsFrom (lo hi : Nat) : List Nat := (List.range hi).filter (fun d => lo ≤ d)

/-- The global address of byte `at_` of slot `t`. -/
def walkGlobal (w : Walk) (t at_ : Nat) : Int :=
  w.base + walkOffset w (dimsFrom 1 w.tdim) (at_ / w.run) + walkOffset w (dimsFrom w.tdim w.ndim) t + (at_ % w.run : Nat)

/-- The block-relative address of byte `at_` of slot `t`. -/
def walkLocal (w : Walk) (t at_ : Nat) : Nat :=
  w.slotBase + t % w.slots * w.slotStride + at_ / w.run * w.pitch + at_ % w.run

/-- The checks of a descriptor's fields (R121). -/
def walkFieldsOk (ws : List W64) : Bool :=
  let w := walkOf ws
  let w0 := wordN ws 0
  let used := dimsFrom 1 w.ndim
  field w0 57 7 == 0 && w.hint != 3 && w.ndim ≤ 6 && 1 ≤ w.tdim && w.tdim ≤ w.ndim &&
  field (wordN ws 1) 12 4 == 0 && field (wordN ws 1) 24 8 == 0 && !bit (wordN ws 1) 47 && !bit (wordN ws 1) 63 &&
  used.all (fun d => field (wordN ws (d + 1)) 56 8 == 0 && w.strides.getD (d - 1) 0 % 16 == 0) &&
  field (wordN ws 7) 16 48 == 0 && w.base % 16 == 0 && w.run ≤ w.pitch &&
  (w.slots == 1 || slotExtent w ≤ w.slotStride)

/-- Every byte of every buffer lies within the allocation. -/
def walkFits (w : Walk) (lsBytes : Nat) : Bool := w.slotBase + (w.slots - 1) * w.slotStride + slotExtent w ≤ lsBytes

-- Tokens and credits

/-- Every slot of the walk has been granted to the group side. -/
def allGranted (x : Stream) : Bool := walkSlots x.walk ≤ x.taken

/-- Ends the TOK.WAIT that holds lanes `m` of a group: with the address of a buffer, or with 0 in the predicate. -/
def endWait (s : State) (c b slot : Nat) (m : BitVec 32) (grant : Option Nat) : State :=
  modGrp s c b slot (fun g => match g.held.find? (fun h => h.lanes == m) with
    | some h => match h.op with
      | .tokWait _ _ d pr =>
        let ls := maskLanes m
        let g := dropHeld g m
        let g := match grant with
          | some a => writeLate g m (opdOf d) 1 (ls.map (fun l => (l, a)))
          | none => disownU g m
        passLanes (writeResults g (opdOf pr) 1 (ls.map (fun l => (l, boolNat grant.isSome)))) ls 8
      | _ => g
    | none => g)

/-- Grants counts to the blocked subsets of a stream, in the order in which they blocked (R123). -/
def serveWaiters (s : State) (c e ctx : Nat) : Nat → State
  | 0 => s
  | fuel + 1 =>
    let x := streamAt s c e ctx
    match x.waiters with
    | [] => s
    | w :: ws =>
      if allGranted x then
        serveWaiters (endWait (modStream s c e ctx (fun x => { x with waiters := ws })) c w.1.val w.2.1.val w.2.2 none) c e ctx fuel
      else if 0 < x.groupCount then
        let a := (x.walk.slotBase + x.taken % x.walk.slots * x.walk.slotStride) / 128
        let s := modStream s c e ctx (fun x => { x with waiters := ws, groupCount := x.groupCount - 1, taken := x.taken + 1 })
        serveWaiters (endWait s c w.1.val w.2.1.val w.2.2 (some a)) c e ctx fuel
      else s

def wakeStream (s : State) (c e ctx : Nat) : State :=
  settle (serveWaiters s c e ctx ((streamAt s c e ctx).waiters.length)) c

/-- A post on a stream: the engine-side count, or an excess post (R124). -/
def postStream (s : State) (c e ctx : Nat) : State :=
  let x := streamAt s c e ctx
  if x.posted < x.taken then modStream s c e ctx (fun x => { x with engineCount := x.engineCount + 1, posted := x.posted + 1 })
  else modCore s c (fun k => setEngine k e { engineOf k e with excess := sat (engineOf k e).excess 1 })

-- TOK.WAIT and TOK.POST

/-- Engine and stream of MOD bits 3:2 and 1:0. -/
def tokEng (f : FmtG) : EngId := BitVec.toFin (BitVec.ofNat 2 (bitsOf f.mod.toNat 2 2))
def tokStr (f : FmtG) : Fin 4 := BitVec.toFin (BitVec.ofNat 2 (bitsOf f.mod.toNat 0 2))

def ctxNo (blk : SlotId) (q : Fin 4) : Nat := 4 * blk.val + q.val

def tokWaitForm : GForm := { d := .uniform, c := .pred, mods := 0xF, long := false }

/-- TOK.WAIT (R123). -/
def execTokWait (p : Place) (f : FmtG) (s : State) : Host.Outcome State Fault Refusal :=
  .next (gSystem p tokWaitForm f true (fun s i ls =>
    let e := tokEng f
    let q := tokStr f
    let ctx := ctxNo (issueGrp s i).blk q
    if !(streamHeld (streamAt s i.core e.val ctx)) then faultSubset s i ls .token 0
    else
      let s := modIssueGrp (passOthers s i ls) i (fun g => ownU (holdLanes g ls .tok i.pc (.tokWait e q f.d f.c)) (laneMask ls) (opdOf f.d) 1)
      let w : SubId × SlotId × BitVec 32 :=
        (BitVec.toFin (BitVec.ofNat 2 i.sub), BitVec.toFin (BitVec.ofNat 4 i.slot), laneMask ls)
      wakeStream (modStream s i.core e.val ctx (fun x => { x with waiters := x.waiters ++ [w] })) i.core e.val ctx) s)

/-- Bytes of local store of a block's slot. -/
def blockBytes (s : State) (c : Nat) (blk : SlotId) (a n : Nat) : List Byte := lsRead (blockOf (coreOf s c) blk.val) a n

/-- Entries of a store buffer up to the youngest one that a group has written to (R127). -/
def entriesBefore (buf : List SbEntry) (launch slot : Nat) : Nat :=
  buf.zipIdx.foldl (fun m p => if p.1.writers.any (fun w => w.1 == launch && w.2.1.val == slot) then p.2 + 1 else m) 0

/-- The lanes of a group whose stores still wait for entries of the store buffer (R269). -/
def owedLanes (g : Grp) : BitVec 32 := g.held.foldl (fun m h => match h.op with
  | .storeG _ _ => m ||| h.lanes
  | _ => m) 0

/-- The stream that TOK.POST with ARM starts, or the fault (R121). A LOCAL_STORE_BOUNDS fault records the first byte of the
descriptor, or of the last buffer, the model's choice (log 76). An uncorrectable error of the descriptor's read stops the walk
before it begins (R107, R128). -/
def armStream (s : State) (i : Issue) (ls : List Nat) (e : EngId) (q : Fin 4) (desc fixed : Nat) (bad : Option Nat) : State :=
  let g := issueGrp s i
  let info := issueInfo s i
  let ctx := ctxNo g.blk q
  let old := streamAt s i.core e.val ctx
  let a := desc * 128
  if info.lsBytes < a + 64 then faultSubset s i ls .localBounds a
  else if (streamHeld old && old.st != .done) || old.stopping then faultSubset s i ls .token 0
  else if bad.isSome then
    faultSubset (sramUncorrected s i.core) i ls .uncorrectable (if a ≤ bad.getD a && bad.getD a < a + 64 then bad.getD a else a)
  else
    let s := sramCorrected s i.core fixed
    let ws := wordsOf 8 (blockBytes s i.core g.blk a 64)
    let w := walkOf ws
    if !(walkFieldsOk ws) then faultSubset s i ls .token 0
    else if !(walkFits w info.lsBytes) then faultSubset s i ls .localBounds (w.slotBase + (w.slots - 1) * w.slotStride)
    else
      let buf := (subOf (coreOf s i.core) i.sub).buffer
      let x : Stream :=
        { st := .running, walk := w, blk := g.blk, sub := BitVec.toFin (BitVec.ofNat 2 i.sub)
          grp := BitVec.toFin (BitVec.ofNat 4 i.slot), lane := BitVec.toFin (BitVec.ofNat 5 (ls.headD 0)), pc := i.pc
          groupCount := if w.store then w.slots else 0, engineCount := if w.store then 0 else w.slots
          before := if w.store then 0 else entriesBefore buf info.id i.slot, owed := if w.store then 0 else owedLanes g
          gen := old.gen + 1 }
      modIssueGrp (modStream s i.core e.val ctx (fun _ => x)) i (fun g => passLanes g ls 8)

/-- Performs a TOK.POST: 0 a post, 1 ARM, 2 STOP. -/
def doPost (s : State) (i : Issue) (ls : List Nat) (e : EngId) (q : Fin 4) (kind desc fixed : Nat) (bad : Option Nat) : State :=
  let ctx := ctxNo (issueGrp s i).blk q
  let held := streamHeld (streamAt s i.core e.val ctx)
  if kind == 1 then armStream s i ls e q desc fixed bad
  else if !held then faultSubset s i ls .token 0
  else
    let s := modIssueGrp s i (fun g => passLanes g ls 8)
    if kind == 0 then postStream s i.core e.val ctx
    else
      let loading := !((streamAt s i.core e.val ctx).walk.store)
      modCore (modStream s i.core e.val ctx (fun x => { x with stopping := true })) i.core (fun k =>
        let n := engineOf k e.val
        if loading then setEngine k e.val { n with spans := n.spans.filter (fun z => z.ctx != ctx) } else k)

/-- Issues a TOK.POST of a kind; it waits behind a SLAB.ST of its group (R71). -/
def postIssue (kind : Nat) (p : Place) (f : FmtG) (env : MemEnv) (s : State) : State :=
  let form : GForm := { d := .unused, a := if kind == 1 then .uniform 1 else .unused, mods := 0x3F, long := false }
  gSystem p form f (bitsOf f.mod.toNat 4 2 == kind) (fun s i ls =>
    let desc := match opdOf f.a with
      | .u n => (uReg (issueGrp s i) n).toNat
      | _ => 0
    let s1 := passOthers s i ls
    let bad := if env.sramBad then some env.sramAt else none
    if slabStoreHolds s i.core i.sub i.slot then
      modIssueGrp s1 i (fun g => holdLanes g ls .slabStore i.pc (.post (tokEng f) (tokStr f) kind desc env.sramFixed bad))
    else doPost s1 i ls (tokEng f) (tokStr f) kind desc env.sramFixed bad) s

/-- TOK.POST (R124). -/
def execTokPost (p : Place) (f : FmtG) (s : State) : Host.Outcome State Fault Refusal := .next (postIssue 0 p f noErr s)

/-- TOK.POST with ARM (R119, R121). -/
def execTokPostArm (p : Place) (f : FmtG) (env : MemEnv) (s : State) : Host.Outcome State Fault Refusal :=
  .next (postIssue 1 p f env s)

/-- TOK.POST with STOP (R125). -/
def execTokPostStop (p : Place) (f : FmtG) (s : State) : Host.Outcome State Fault Refusal := .next (postIssue 2 p f noErr s)

/-- The blocked subsets of a stream in the order in which R43 takes their faults: by sub-core, then by lowest lane; of two groups of
a sub-core with the same lowest lane the one that blocked first is taken first, the model's choice (log 76). -/
def waitersInOrder (ws : List (SubId × SlotId × BitVec 32)) : List (SubId × SlotId × BitVec 32) :=
  (List.range 4).flatMap (fun b => (List.range 32).flatMap (fun l =>
    ws.filter (fun w => w.1.val == b && (maskLanes w.2.2).headD 0 == l)))

/-- The TOKEN faults of the subsets blocked on a stream, each at its lowest lane (R125). -/
def waiterFaults (s : State) (c : Nat) (ws : List (SubId × SlotId × BitVec 32)) : List (LaunchInfo × FaultPlace) :=
  (waitersInOrder ws).filterMap (fun w =>
    let held := (grpOf (subOf (coreOf s c) w.1.val) w.2.1.val).held
    (held.find? (fun h => h.lanes == w.2.2)).map (fun h =>
      let i := heldIssue c w.1.val w.2.1.val h
      (issueInfo s i, lanePlace s i ((maskLanes h.lanes).headD 0))))

/-- STREAM_STOP_COMPLETE: a stopped stream whose writes are done is released, and the subsets blocked on it fault. -/
def execStreamStopComplete (c : CoreId) (e : EngId) (q : Fin 64) (s : State) : Host.Outcome State Fault Refusal :=
  let x := streamAt s c.val e.val q.val
  let busy := (engineOf (coreOf s c.val) e.val).spans.any (fun z => z.ctx == q.val)
  .next (if !x.stopping || busy then s
    else
      let s1 := modStream s c.val e.val q.val (fun y => { gen := y.gen })
      settle ((waiterFaults s c.val x.waiters).foldl (fun t f => threadFault t f.1 .token f.2 0) s1) c.val)

-- Spans

/-- A walk stops with an error (R128): the fault of the launch lies at the arming instruction. -/
def walkFault (s : State) (c e ctx : Nat) (f : TFault) (addr : Nat) : State :=
  let x := streamAt s c e ctx
  let k := coreOf s c
  let blk := blockOf k x.blk.val
  let idx := (grpOf (subOf k x.sub.val) x.grp.val).idx
  let s := modStream s c e ctx (fun x => { x with failed := true })
  settle (threadFault s blk.info f ⟨c, blk.lin, idx * 32 + x.lane.val, x.pc⟩ (BitVec.ofNat 64 addr)) c

/-- A stream has a span to issue: a slot in progress, or a count that lets the next one start. -/
def streamReady (x : Stream) : Bool :=
  x.st == .running && !x.stopping && !x.failed &&
  ((0 < x.started && x.issued < slotBytes x.walk) ||
   (x.started < walkSlots x.walk && 0 < x.engineCount && (x.walk.store || (x.before == 0 && x.owed == 0))))

/-- The context that issues next, round robin. -/
def pickStream (n : AEngine) : Option Nat :=
  ((List.range 64).map (fun i => (n.last + 1 + i) % 64)).find? (fun c => streamReady (streamOf n c))

/-- `n` more bytes of a STORE's slot have been read from local store; the last of them gives the slot's credit back (R122). -/
def creditSlot (x : Stream) (slot n : Nat) : Stream :=
  let m := tblGet 0 x.drained slot + n
  if m == slotBytes x.walk then { x with groupCount := x.groupCount + 1, drained := tblDel x.drained slot }
  else { x with drained := tblSet 0 x.drained slot m }

/-- The bytes of a STORE span have been read from local store. -/
def drainSpan (s : State) (c e : Nat) (sp : Span) : State :=
  modStream s c e sp.ctx (fun x => if x.walk.store then creditSlot x sp.slot sp.len else x)

/-- Spans of an engine touch the addresses of another (R127). -/
def spansTouch (spans : List Span) (sp : Span) : Bool :=
  spans.any (fun z => z.gaddr < sp.gaddr + sp.len && sp.gaddr < z.gaddr + z.len)

/-- A span of host memory asks the link for its IO_RD or IO_WR, of whole units of 16 B (Table 16-3); the words that a STORE drains may be in error (R107, R128). -/
def hostSpan (s : State) (c : CoreId) (e : EngId) (sp : Span) (env : MemEnv) : State :=
  let x := streamAt s c.val e.val sp.ctx
  if x.walk.store && env.sramBad then walkFault (sramUncorrected s c.val) c.val e.val sp.ctx .uncorrectable sp.vaddr
  else
    let s := if x.walk.store then sramCorrected s c.val env.sramFixed else s
    let data : List (Option Byte) := if x.walk.store then units16 sp.gaddr (blockBytes s c.val x.blk sp.laddr sp.len) else []
    let s := { s with dl := { s.dl with waiting := s.dl.waiting ++
        [{ owner := .span c e sp.id, who := 1 + c.val / 64, write := x.walk.store
           addr := BitVec.ofNat 52 (sp.gaddr / 16 * 16 - hostBase), len := unitsLen sp.gaddr sp.len, data }] } }
    if x.walk.store then wakeStream (drainSpan s c.val e.val sp) c.val e.val sp.ctx else s

/-- AE_SPAN_ISSUE: one engine issues the next span of the stream whose turn it is (R122, R126, R128). A span of host memory whose
addresses an earlier one in flight touches waits for its answer, which the host may give in any order (R127, R408). -/
def execAeSpanIssue (c : CoreId) (e : EngId) (env : MemEnv) (s : State) : Host.Outcome State Fault Refusal :=
  let k := coreOf s c.val
  let n := engineOf k e.val
  .next (
    if 96 ≤ n.spans.length || 384 ≤ spanCount k || 512 ≤ k.misses.length + spanCount k then s
    else
      match pickStream n with
      | none => s
      | some ctx =>
        let x0 := streamOf n ctx
        let x := if 0 < x0.started && x0.issued < slotBytes x0.walk then x0
          else { x0 with started := x0.started + 1, issued := 0, engineCount := x0.engineCount - 1 }
        let w := x.walk
        let t := x.started - 1
        let ga := walkGlobal w t x.issued
        let a := lowBits 64 ga
        let len := min (w.run - x.issued % w.run) (2048 - a % 2048)
        let info := (blockOf k x.blk.val).info
        let err : Option TFault := if 2 ^ 48 ≤ a then some .address else accessFault s info a len w.store
        match err with
        | some f => walkFault (modStream s c.val e.val ctx (fun _ => x)) c.val e.val ctx f a
        | none =>
          let la := walkLocal w t x.issued
          let sp : Span := { ctx, slot := t, gaddr := bufAddr s info a len, vaddr := a, laddr := la, len, id := n.seq }
          if hostBase ≤ sp.gaddr && spansTouch n.spans sp then s
          else
            let s1 := modCore s c.val (fun k => setEngine k e.val
              { setStream (engineOf k e.val) ctx { x with issued := x.issued + len } with
                spans := (engineOf k e.val).spans ++ [sp], last := ctx, seq := n.seq + 1 })
            if hostBase ≤ sp.gaddr then hostSpan s1 c e sp env else s1)

/-- Completed slots leave in order of their sequence: a LOAD posts the slot's token, and the last slot ends the walk. -/
def endSlots (x : Stream) : Nat → Stream
  | 0 => x
  | fuel + 1 =>
    if x.ended < x.started && tblGet 0 x.moved x.ended == slotBytes x.walk then
      let y := { x with ended := x.ended + 1, groupCount := if x.walk.store then x.groupCount else x.groupCount + 1
                        moved := tblDel x.moved x.ended }
      endSlots (if y.ended == walkSlots y.walk then { y with st := .done } else y) fuel
    else x

/-- A span is through: it leaves the engine, and its slot has moved so much more. -/
def spanDone (s : State) (c e : Nat) (sp : Span) : State :=
  let s := modCore s c (fun k => setEngine k e { engineOf k e with spans := (engineOf k e).spans.filter (fun z => z.id != sp.id) })
  let s := modStream s c e sp.ctx (fun x =>
    endSlots { x with moved := tblSet 0 x.moved sp.slot (tblGet 0 x.moved sp.slot + sp.len) } (x.started + 1))
  wakeStream s c e sp.ctx

/-- Pieces of a range of addresses, one per line: line, offset, length. -/
def linePieces (a len : Nat) : List (Nat × Nat × Nat) :=
  (List.range ((a % 128 + len + 127) / 128)).map (fun i =>
    let l := a / 128 + i
    let lo := max a (128 * l)
    let hi := min (a + len) (128 * l + 128)
    (l, lo % 128, hi - lo))

/-- Reads the lines of a range through L2 for an access engine. -/
def readRange (s : State) (d sag hint : Nat) (env : MemEnv) :
    List (Nat × Nat × Nat) → Option (State × Except MemErr (List Byte))
  | [] => some (s, .ok [])
  | p :: ps =>
    match mapLine s sag (p.1 * 128) with
    | none => some (s, .error .data)
    | some l =>
      match readLine s d l .ae hint (some sag) env with
      | none => none
      | some g =>
        match g.res with
        | .error e => some (g.s, .error e)
        | .ok data =>
          match readRange g.s d sag hint (nextEnv env) ps with
          | none => none
          | some (t, .error e) => some (t, .error e)
          | some (t, .ok rest) => some (t, .ok ((data.drop p.2.1).take p.2.2 ++ rest))

/-- Writes bytes to the lines of a range through the L2 of die `d` (R114, R127). -/
def writeRange (s : State) (c d sag hint : Nat) (env : MemEnv) :
    List (Nat × Nat × Nat) → List Byte → Option (State × Except MemErr Unit)
  | [], _ => some (s, .ok ())
  | p :: ps, bs =>
    match mapLine s sag (p.1 * 128) with
    | none => some (s, .error .data)
    | some l =>
      let upd := updatesAt p.2.1 (bs.take p.2.2)
      match storeLine s d l upd .ae hint none (some sag) env with
      | none => none
      | some g =>
        match g.res with
        | .error e => some (g.s, .error e)
        | .ok _ => writeRange (modCore g.s c (fun k => l1Update k p.1 upd)) c d sag hint (nextEnv env) ps (bs.drop p.2.2)

/-- Earlier spans of an engine touch the same addresses (R127). -/
def spanBlocked (spans : List Span) (i : Nat) (sp : Span) : Bool := spansTouch (spans.take i) sp

/-- AE_SPAN_COMPLETE: span `i` of an engine reads or writes global memory through L2; a span of host memory is answered by
the Derset link instead. -/
def execAeSpanComplete (c : CoreId) (e : EngId) (i : Nat) (env : MemEnv) (s : State) : Host.Outcome State Fault Refusal :=
  let n := engineOf (coreOf s c.val) e.val
  .next (meets env s (match n.spans[i]? with
    | none => s
    | some sp =>
      let x := streamOf n sp.ctx
      let info := (blockOf (coreOf s c.val) x.blk.val).info
      let d := c.val / 64
      if hostBase ≤ sp.gaddr || spanBlocked n.spans i sp then s
      else if x.walk.store then
        if env.sramBad then walkFault (sramUncorrected s c.val) c.val e.val sp.ctx .uncorrectable sp.vaddr
        else
          match writeRange s c.val d info.sag.val x.walk.hint env (linePieces sp.gaddr sp.len)
              (blockBytes s c.val x.blk sp.laddr sp.len) with
          | none => s
          | some (t, .error _) => walkFault t c.val e.val sp.ctx .uncorrectable sp.vaddr
          | some (t, .ok _) => spanDone (drainSpan (sramCorrected t c.val env.sramFixed) c.val e.val sp) c.val e.val sp
      else
        match readRange s d info.sag.val x.walk.hint env (linePieces sp.gaddr sp.len) with
        | none => s
        | some (t, .error _) => walkFault t c.val e.val sp.ctx .uncorrectable sp.vaddr
        | some (t, .ok bs) => spanDone (modBlock t c.val x.blk.val (fun b => lsWrite b sp.laddr bs)) c.val e.val sp))

/-- The Derset link's answer to a span of host memory: data, the end of a write, or a failure (R409). -/
def spanAnswer (s : State) (c e id : Nat) (fail : Bool) (bs : List Byte) : State :=
  match (engineOf (coreOf s c) e).spans.find? (fun z => z.id == id) with
  | none => s
  | some sp =>
    let x := streamAt s c e sp.ctx
    if fail then walkFault s c e sp.ctx .uncorrectable sp.vaddr
    else if x.walk.store then spanDone s c e sp
    else spanDone (modBlock s c x.blk.val (fun b => lsWrite b sp.laddr ((bs.drop (sp.gaddr % 16)).take sp.len))) c e sp

end Sys2Proof.Machine
end

