-- ==== Sys2Proof/Machine/Slab.lean ====
section
/-!
DEFINITION. The matrix slabs (spec/02): collectives, the lease, the queues, products, SLAB.ZERO, SLAB.ST, the square
forms and the activity ramp (R26, R27, R48 to R79, R230).
-/
namespace Sys2Proof.Machine

open Sys2Proof

-- Formats (Tables 02-1 and 02-2)

def slabType (c : Nat) : EType :=
  match c with
  | 0 => .e4m3
  | 1 => .e5m2
  | 2 => .e4m3
  | 3 => .e5m2
  | 4 => .int8
  | 5 => .mxint8
  | 6 => .bf16
  | 7 => .fp16
  | 8 => .e3m2
  | 9 => .e2m3
  | 10 => .e2m1
  | _ => .int4

/-- 0: the 8-bit class; 1: the 16-bit class; 2: the narrow class. -/
def slabClass (c : Nat) : Nat := if c < 6 then 0 else if c < 8 then 1 else 2

def slabScaled (c : Nat) : Bool := c == 2 || c == 3 || c == 5 || c == 8 || c == 9 || c == 10

def slabInt (c : Nat) : Bool := c == 4 || c == 5 || c == 11

/-- R56. -/
def legalPair (fa fb : Nat) : Bool :=
  fa < 12 && fb < 12 && slabClass fa == slabClass fb && slabScaled fa == slabScaled fb && slabInt fa == slabInt fb

/-- Formats that a square form takes (R76). -/
def squareFormat (c : Nat) : Bool := c == 0 || c == 1 || c == 4 || c == 6 || c == 7

/-- Elements of K at depth D (Table 02-2). -/
def kElems (fa depth : Nat) (sparse : Bool) : Nat :=
  let dense := match slabClass fa with
    | 0 => depth
    | 1 => depth / 2
    | _ => 2 * depth
  if sparse then 2 * dense else dense

def typeBits (c : Nat) : Nat := etypeBits (slabType c)

-- Extents (R59, R60, R62, R76)

def rowsA (p : ProductForm) : Nat := match p.square with
  | some q => q.1
  | none => 256

def colsB (p : ProductForm) : Nat := match p.square with
  | some q => q.1
  | none => 32

def kOf (p : ProductForm) : Nat := kElems p.fa p.depth p.sparse

def lenA (p : ProductForm) : Nat := (if p.sparse then kOf p / 2 else kOf p) * (rowsA p * typeBits p.fa / 8)
def lenB (p : ProductForm) : Nat := kOf p * (colsB p * typeBits p.fb / 8)
def lenSa (p : ProductForm) : Nat := if slabScaled p.fa then kOf p / 32 * 256 else 0
def lenSb (p : ProductForm) : Nat := if slabScaled p.fb then kOf p / 32 * 32 else 0
def lenMeta (p : ProductForm) : Nat := if p.sparse then kOf p / 4 * 128 else 0

/-- Operand extents: base and length. -/
def productExtents (p : ProductForm) : List (Nat × Nat) :=
  [(p.baseA, lenA p), (p.baseB, lenB p), (p.baseSa, lenSa p), (p.baseSb, lenSb p), (p.baseMeta, lenMeta p)].filter
    (fun x => x.2 != 0)

/-- Bits of an output element (Table 02-5). -/
def storeType (ofmt : Nat) : EType :=
  match ofmt with
  | 0 => .fp32
  | 1 => .bf16
  | 2 => .fp16
  | 3 => .e4m3
  | 4 => .e5m2
  | _ => .int32

/-- Stored rows: the first, and how many. -/
def storeRows (f : StoreForm) : Nat × Nat := if f.rows = 0 then (0, 256) else ((f.rows - 1) * 32, 32)

def storeLen (f : StoreForm) : Nat := (storeRows f).2 * 32 * etypeBits (storeType f.ofmt) / 8

def formExtents : SlabForm → List (Nat × Nat)
  | .product p => productExtents p
  | .zero _ => []
  | .store f => [(f.dst, storeLen f)]

def overlaps (a b : Nat × Nat) : Bool := a.1 < b.1 + b.2 && b.1 < a.1 + a.2

/-- The accumulator set of an instruction, and the rows of it that it touches. -/
def formSet : SlabForm → Nat
  | .product p => p.set.val
  | .zero a => a.val
  | .store f => f.set.val

def formRows : SlabForm → Nat × Nat
  | .product p => match p.square with
    | some q => (32 * q.2, q.1)
    | none => (0, 256)
  | .zero _ => (0, 256)
  | .store f => storeRows f

def sameRows (a b : SlabForm) : Bool := formSet a == formSet b && overlaps (formRows a) (formRows b)

def isStore : SlabForm → Bool
  | .store _ => true
  | _ => false

def isSquare : SlabForm → Bool
  | .product p => p.square.isSome
  | _ => false

-- Checks at issue (R56, R63, R66, R70, R76, R78, R230)

/-- Format S is a defined encoding of its opcode. -/
def legalS (opc : Nat) (f : FmtS) : Bool :=
  let cr := f.crv || (f.cre == 0 && f.crq == 0)
  let pair := legalPair f.fa.toNat f.fb.toNat
  match opc with
  | 0x60 => pair && cr && !f.rsv && f.umeta == 0
  | 0x61 => pair && cr && !f.rsv
  | 0x64 => f.ua == 0 && f.ub == 0 && f.usa == 0 && f.usb == 0 && f.umeta == 0 && f.fa == 0 && f.fb == 0 && f.kd == 0 &&
      !f.z && !f.crv && f.cre == 0 && f.crq == 0 && !f.rsv
  | _ => pair && squareFormat f.fa.toNat && squareFormat f.fb.toNat && cr && !f.rsv && f.usa == 0 && f.usb == 0 &&
      f.umeta.toNat % 8 == 0

def legalT (f : FmtT) : Bool :=
  f.rsv == 0 && (f.scl || f.uscale == 0) && f.ofmt.toNat ≤ 5 && f.rows.toNat ≤ 8 &&
  (!f.sr || f.ofmt == 1 || f.ofmt == 3 || f.ofmt == 4) && (f.ofmt != 5 || (f.itype && !f.scl))

/-- A local-store address from a u register, in units of 128 B (R58). -/
def uAddr (g : Grp) (u : Nat) : Nat := (uReg g u).toNat * 128

/-- What a SLAB instruction of format S does, its registers read. -/
def formS (opc : Nat) (f : FmtS) (g : Grp) (ftz : Bool) : SlabForm :=
  if opc == 0x64 then .zero f.ac
  else
    let sq := opc == 0x62 || opc == 0x63
    .product
      { set := f.ac, sparse := opc == 0x61
        square := if sq then some (if opc == 0x62 then 16 else 32, f.umeta.toNat / 8) else none
        baseA := uAddr g f.ua.val, baseB := uAddr g f.ub.val, baseSa := uAddr g f.usa.val, baseSb := uAddr g f.usb.val
        baseMeta := uAddr g (f.umeta.toNat), fa := f.fa.toNat, fb := f.fb.toNat, depth := 32 * (f.kd.toNat + 1)
        zero := f.z, credit := if f.crv then some (f.cre, f.crq) else none, ftz }

def formT (f : FmtT) (g : Grp) : SlabForm :=
  .store { set := f.ac, dst := uAddr g f.ud.val, scale := if f.scl then some (uReg g f.uscale.val) else none
           ofmt := f.ofmt.toNat, itype := f.itype, rows := f.rows.toNat, sat := f.sat, sr := f.sr, clr := f.clr, rel := f.rel }

/-- The fault at issue, in the order of Table 02-8. Where extents pass the allocation, R63 does not say which address the fault
records: the first byte beyond it in the first such extent in the order A, B, A scales, B scales, metadata, the model's choice
(log 76). -/
def slabFault (s : State) (c : Nat) (blk : SlotId) (info : LaunchInfo) (legal : Bool) (form : SlabForm) :
    Option (TFault × Nat) :=
  if !legal then some (.illegal, 0)
  else
    match (formExtents form).find? (fun x => info.lsBytes < x.1 + x.2) with
    | some x => some (.localBounds, max x.1 info.lsBytes)
    | none => match form with
      | .product p => match p.credit with
        | some q => if streamHeld (streamAt s c q.1.val (ctxNo blk q.2)) then none else some (.token, 0)
        | none => none
      | _ => none

-- The lease and the queues (R50 to R53)

/-- A grant: every accumulator set of the core is cleared. -/
def grantLease (k : Core) (b : SlotId) : Core :=
  { k with lease := some b, leaseQueue := k.leaseQueue.filter (· != b), grantCount := sat k.grantCount 1
           slabs := k.slabs.map (fun sl => { sl with acc := [] }) }

/-- A group whose SLAB instruction has issued: sub-core, slot, held operation, slab and form. -/
def slabHolders (k : Core) : List (Nat × Nat × HeldOp × SlabId × SlabForm) :=
  (heldOps k).filterMap (fun x => match x.2.2.op with
    | .slab sl form => some (x.1, x.2.1, x.2.2, sl, form)
    | _ => none)

/-- The lowest non-exited lane of a group. -/
def lowestLane (g : Grp) : Nat := ((g.lanes.zipIdx.find? (fun p => !p.1.exited)).map (fun p => p.2)).getD 0

/-- Another group of the block waits for a place in the queue of a slab (R53). -/
def queueWaits (k : Core) (b slot : Nat) (blk : SlotId) (sl : SlabId) : Bool :=
  (slabHolders k).any (fun x => x.2.2.2.1 == sl && (x.1 != b || x.2.1 != slot) && (grpOf (subOf k x.1) x.2.1).blk == blk)

/-- A SLAB instruction enters its queue where there is room, and its group goes on. -/
def enterQueue (s : State) (c b slot : Nat) (h : HeldOp) (sl : SlabId) (form : SlabForm) : State :=
  let k := coreOf s c
  let g := grpOf (subOf k b) slot
  if 8 ≤ (slabOf k sl.val).queue.length then s
  else
    let e : SlabEntry :=
      { blk := g.blk, sub := BitVec.toFin (BitVec.ofNat 2 b), grp := BitVec.toFin (BitVec.ofNat 4 slot)
        launch := (blockOf k g.blk.val).info.id, lane := BitVec.toFin (BitVec.ofNat 5 (lowestLane g)), pc := h.pc
        form, seq := k.slabSeq }
    let s := setCore s c { setSlab k sl.val { slabOf k sl.val with queue := (slabOf k sl.val).queue ++ [e] } with
      slabSeq := k.slabSeq + 1 }
    modGrp s c b slot (fun g => passLanes (dropHeld g h.lanes) (maskLanes h.lanes) 8)

/-- A collective that is complete issues: its faults, the lease, the queue. A free lease is granted at once only where no block waits
for it (R50), and a free entry is taken at once only where no group waits for it (R53). -/
def issueSlab (s : State) (c b slot : Nat) (pc : W32) (sl : SlabId) (legal : Bool) (form : SlabForm) : State :=
  let k := coreOf s c
  let g := grpOf (subOf k b) slot
  let blk := blockOf k g.blk.val
  let ls := (List.range 32).filter (fun n => !(laneOf g n).exited)
  let i : Issue := { core := c, sub := b, slot, pc, lanes := ls }
  match slabFault s c g.blk blk.info legal form with
  | some e => faultLanes s i [(lowestLane g, e.1, e.2)]
  | none =>
    let h : HeldOp := { lanes := laneMask ls, guarded := laneMask ls, pc, op := .slab sl form }
    let s := modGrp s c b slot (fun g => holdLanes g ls .slabIssue pc (.slab sl form))
    if k.lease == some g.blk then
      if queueWaits k b slot g.blk sl then s else enterQueue s c b slot h sl form
    else if k.lease.isNone && (k.leaseQueue.isEmpty || k.leaseQueue.head? == some g.blk) then
      enterQueue (modCore s c (fun k => grantLease k g.blk)) c b slot h sl form
    else modCore s c (fun k => if k.leaseQueue.contains g.blk then k else { k with leaseQueue := k.leaseQueue ++ [g.blk] })

-- Collectives (R26, R27)

/-- Threads of a group blocked at a collective: lane and address. -/
def atSlab (g : Grp) : List (Nat × W32) :=
  (g.lanes.zipIdx.filter (fun p => !p.1.exited && p.1.wait == .slab)).map (fun p => (p.2, p.1.pc))

/-- Two non-exited threads of the group meet the condition of R27. -/
def divergent (g : Grp) : Bool :=
  match atSlab g with
  | [] => false
  | x :: xs => xs.any (fun y => y.2 != x.2) || g.lanes.any (fun l => !l.exited && l.wait == .bar)

/-- The lanes that have just arrived at a collective or a barrier make the group divergent, or complete the collective. -/
def arrive (s : State) (c b slot : Nat) (pc : W32) (ls : List Nat) : State :=
  let g := grpOf (subOf (coreOf s c) b) slot
  if divergent g then faultLanes s { core := c, sub := b, slot, pc, lanes := ls } [(ls.headD 0, .divergent, 0)] else s

/-- Completes the collective of a group when every non-exited thread is blocked at it. -/
def completeSlab (s : State) (c b slot : Nat) : State :=
  let k := coreOf s c
  let g := grpOf (subOf k b) slot
  match atSlab g with
  | [] => s
  | x :: xs =>
    if xs.all (fun y => y.2 == x.2) && g.lanes.all (fun l => l.exited || l.wait == .slab) then
      let ftz := (blockOf k g.blk.val).info.accFtz
      let clean (t : State) : State := modGrp t c b slot (fun g => { g with held := g.held.filter (fun h => match h.op with
        | .slabS _ _ => false
        | .slabT _ => false
        | _ => true) })
      match g.held.findSome? (fun h => match h.op with
          | .slabS opc f => some (f.s, legalS opc f, formS opc f g ftz)
          | .slabT f => some (f.s, legalT f, formT f g)
          | _ => none) with
      | some r => issueSlab (clean s) c b slot x.2 r.1 r.2.1 r.2.2
      | none => s
    else s

/-- A subset arrives at a SLAB instruction. -/
def slabArrive (p : Place) (op : Held) (s : State) : State :=
  issue s p (fun s i =>
    let s := modIssueGrp s i (fun g => holdLanes g i.lanes .slab i.pc op)
    let g := issueGrp s i
    if divergent g then arrive s i.core i.sub i.slot i.pc i.lanes else completeSlab s i.core i.sub i.slot)

/-- SLAB.MMA (R64). -/
def execSlabMma (p : Place) (f : FmtS) (s : State) : Host.Outcome State Fault Refusal :=
  .next (slabArrive p (.slabS 0x60 f) s)

/-- SLAB.MMAS (R60, R61). -/
def execSlabMmas (p : Place) (f : FmtS) (s : State) : Host.Outcome State Fault Refusal :=
  .next (slabArrive p (.slabS 0x61 f) s)

/-- SLAB.SQ16 (R76). -/
def execSlabSq16 (p : Place) (f : FmtS) (s : State) : Host.Outcome State Fault Refusal :=
  .next (slabArrive p (.slabS 0x62 f) s)

/-- SLAB.SQ32 (R76). -/
def execSlabSq32 (p : Place) (f : FmtS) (s : State) : Host.Outcome State Fault Refusal :=
  .next (slabArrive p (.slabS 0x63 f) s)

/-- SLAB.ZERO. -/
def execSlabZero (p : Place) (f : FmtS) (s : State) : Host.Outcome State Fault Refusal :=
  .next (slabArrive p (.slabS 0x64 f) s)

/-- SLAB.ST (R69). -/
def execSlabSt (p : Place) (f : FmtT) (s : State) : Host.Outcome State Fault Refusal :=
  .next (slabArrive p (.slabT f) s)

/-- SLAB_LEASE_GRANT: a free lease goes to the head of the queue (R50, R51). -/
def execSlabLeaseGrant (c : CoreId) (s : State) : Host.Outcome State Fault Refusal :=
  .next (modCore s c.val (fun k => match k.lease, k.leaseQueue with
    | none, b :: _ => grantLease k b
    | _, _ => k))

/-- SLAB_QUEUE_ENTER: of the groups whose block holds the lease and that wait for a place in the queue of slab `sl`, the one
on the lowest sub-core enters, and of groups of one sub-core the one in the lowest slot: R53 orders only those of one A-cycle, by
sub-core; the rest is the model's choice (log 77). -/
def execSlabQueueEnter (c : CoreId) (sl : SlabId) (s : State) : Host.Outcome State Fault Refusal :=
  let k := coreOf s c.val
  .next (match (slabHolders k).find? (fun x => x.2.2.2.1 == sl &&
      k.lease == some (grpOf (subOf k x.1) x.2.1).blk) with
    | some x => settle (enterQueue s c.val x.1 x.2.1 x.2.2.1 x.2.2.2.1 x.2.2.2.2) c.val
    | none => s)

-- Elements (R59 to R61)

/-- `n` bits from bit offset `o` of little-endian bytes. -/
def bitsAt (bs : List Byte) (o n : Nat) : Nat := leNat ((bs.drop (o / 8)).take (n / 8 + 2)) / 2 ^ (o % 8) % 2 ^ n

/-- Element (m, k) of the stored A operand, element (k, n) of B. -/
def elemA (p : ProductForm) (d : SlabData) (m k : Nat) : Nat :=
  bitsAt d.a (k * (rowsA p * typeBits p.fa / 8) * 8 + m * typeBits p.fa) (typeBits p.fa)

def elemB (p : ProductForm) (d : SlabData) (k n : Nat) : Nat :=
  bitsAt d.b (k * (colsB p * typeBits p.fb / 8) * 8 + n * typeBits p.fb) (typeBits p.fb)

/-- Pairs of elements that enter the sum for logical k from `k0` to `k0 + len - 1`, in order. -/
def pairs (p : ProductForm) (d : SlabData) (m n k0 len : Nat) : List (Nat × Nat) :=
  if p.sparse then
    (List.range (len / 4)).flatMap (fun j =>
      let g := k0 / 4 + j
      let fld := bitsAt d.md (g * 1024 + m * 4) 4
      [(elemA p d m (2 * g), elemB p d (4 * g + fld % 4) n), (elemA p d m (2 * g + 1), elemB p d (4 * g + fld / 4) n)])
  else (List.range len).map (fun j => (elemA p d m (k0 + j), elemB p d (k0 + j) n))

def prodVal (p : ProductForm) (x : Nat × Nat) : FVal := mulF (elemVal (slabType p.fa) x.1) (elemVal (slabType p.fb) x.2)

/-- round32 of a slab, under ACC_FTZ (R91). -/
def slabRound (ftz : Bool) (v : FVal) : W32 := if ftz then flush32 (round32 v) else round32 v

/-- The scale of a chunk. -/
def chunkScale (p : ProductForm) (d : SlabData) (m n j : Nat) : FVal :=
  if slabScaled p.fa then
    mulF (elemVal .e8m0 (d.sa.getD (j * 256 + m) 0).toNat) (elemVal .e8m0 (d.sb.getD (j * 32 + n) 0).toNat)
  else .fin false 1 0

/-- One cell of a product (R64). -/
def cell (p : ProductForm) (d : SlabData) (old : W32) (m n : Nat) : W32 :=
  let k := kOf p
  let init0 : W32 := if p.zero then 0 else old
  if slabInt p.fa && !(slabScaled p.fa) then
    (pairs p d m n 0 k).foldl (fun acc x =>
      BitVec.ofInt 32 (acc.toInt + sintOf (typeBits p.fa) x.1 * sintOf (typeBits p.fb) x.2)) init0
  else
    let init : W32 := if p.ftz then flush32 init0 else init0
    if slabClass p.fa == 1 then
      (pairs p d m n 0 k).foldl (fun acc x => slabRound p.ftz (addF (val32 acc) (prodVal p x))) init
    else
      (List.range (k / 32)).foldl (fun acc j =>
        let sum := sumProducts ((pairs p d m n (32 * j) 32).map (prodVal p))
        let sum := if slabScaled p.fa then mulF sum (chunkScale p d m n j) else sum
        slabRound p.ftz (addF (val32 acc) sum)) init

-- Accumulator sets

def accKey (set m n : Nat) : Nat := set * 8192 + m * 32 + n

def accGet (sl : Slab) (set m n : Nat) : W32 := tblGet 0 sl.acc (accKey set m n)

/-- Rows of an accumulator set rewritten cell by cell. -/
def accRows (sl : Slab) (set m0 rows : Nat) (f : Nat → Nat → W32 → W32) : Slab :=
  let lo := accKey set m0 0
  let hi := lo + rows * 32
  let mid : Tbl W32 := (List.range (rows * 32)).filterMap (fun i =>
    let v := f (i / 32) (i % 32) (tblGet 0 sl.acc (lo + i))
    if v = 0 then none else some (lo + i, v))
  { sl with acc := sl.acc.filter (fun x => x.1 < lo) ++ mid ++ sl.acc.filter (fun x => hi ≤ x.1) }

/-- The effect of a compute instruction on the accumulators. -/
def computeEffect (sl : Slab) (form : SlabForm) (d : SlabData) : Slab :=
  match form with
  | .zero a => accRows sl a.val 0 256 (fun _ _ _ => 0)
  | .product p =>
    let m0 := (formRows form).1
    accRows sl p.set.val m0 (rowsA p) (fun i n old => if n < colsB p then cell p d old i n else old)
  | .store _ => sl

/-- One stored element (R69, R70). -/
def storeElem (f : StoreForm) (draw i : Nat) (acc : W32) : Nat :=
  if f.ofmt == 5 then acc.toNat
  else
    let v : W32 := if f.itype then round32 (intVal acc.toInt) else acc
    let w := round32 (mulF (val32 (f.scale.getD 0x3F800000#32)) (val32 v))
    let r : Rounding := if f.sr then .sr (Config.draw draw i).toNat else .rn
    convert .fp32 (storeType f.ofmt) r f.sat w.toNat

/-- The bytes that a SLAB.ST writes. -/
def storeOut (sl : Slab) (f : StoreForm) (draw : Nat) : List Byte :=
  let rows := storeRows f
  let n := etypeBits (storeType f.ofmt) / 8
  (List.range (rows.2 * 32)).flatMap (fun i =>
    leBytes n (storeElem f draw i (accGet sl f.set.val (rows.1 + i / 32) (i % 32))))

-- Progress (R67, R68, R72, R73, R77)

def entryRunning (e : SlabEntry) : Bool := match e.phase with
  | .running _ _ => true
  | _ => false

/-- Still performing k-steps. A SLAB.ZERO has none: R74 does not say whether it counts as work for the ramp, and in the model it
starts no ramp-up (log 77). -/
def entryWorking (e : SlabEntry) : Bool := match e.phase with
  | .running left _ => 0 < left
  | _ => false

/-- Occupies the compute path: performing k-steps, or a SLAB.ZERO that is executing (R72, R77). -/
def entryBusy (e : SlabEntry) : Bool := match e.form with
  | .zero _ => entryRunning e
  | _ => entryWorking e

def entryQueued (e : SlabEntry) : Bool := match e.phase with
  | .queued => true
  | _ => false

/-- The compute instruction that starts next, in queue-entry order. -/
def nextCompute (sl : Slab) : Option SlabEntry := sl.queue.find? (fun e => !(isStore e.form) && entryQueued e)

/-- The compute path lets an instruction start (R72, R77). -/
def pathFree (sl : Slab) (e : SlabEntry) : Bool :=
  if isSquare e.form then
    !(sl.queue.any (fun x => entryBusy x && (!(isSquare x.form) || formRows x.form == formRows e.form ||
      overlaps (formRows x.form) (formRows e.form))))
  else !(sl.queue.any entryBusy)

/-- An earlier SLAB.ST of the group, or of slab `sl`, still has to write a byte of an operand (R54, R67). -/
def operandWaits (k : Core) (sl : Nat) (e : SlabEntry) : Bool :=
  k.slabs.zipIdx.any (fun y => y.1.queue.any (fun x =>
    isStore x.form && x.seq < e.seq && x.blk == e.blk && (y.2 == sl || (x.sub == e.sub && x.grp == e.grp && x.launch == e.launch)) &&
    (formExtents x.form).any (fun a => (formExtents e.form).any (overlaps a))))

/-- Changes the entry of a slab's queue that has number `seq`. -/
def modEntry (k : Core) (sl seq : Nat) (f : SlabEntry → SlabEntry) : Core :=
  setSlab k sl { slabOf k sl with queue := (slabOf k sl).queue.map (fun e => if e.seq == seq then f e else e) }

def dropEntry (k : Core) (sl seq : Nat) : Core :=
  setSlab k sl { slabOf k sl with queue := (slabOf k sl).queue.filter (fun e => e.seq != seq) }

/-- The local-store address that an error of an operand read has: the one met, where it is an operand's (R68). -/
def operandAddr (p : ProductForm) (a : Nat) : Nat :=
  if (productExtents p).any (fun x => x.1 ≤ a && a < x.1 + x.2) then a else p.baseA

/-- SLAB_COMPUTE_START: the next compute instruction of a slab starts and reads its operands. -/
def execSlabComputeStart (c : CoreId) (sl : SlabId) (env : MemEnv) (s : State) : Host.Outcome State Fault Refusal :=
  let k := coreOf s c.val
  .next (match nextCompute (slabOf k sl.val) with
    | none => s
    | some e =>
      if !(pathFree (slabOf k sl.val) e) || operandWaits k sl.val e then s
      else
        let blk := blockOf k e.blk.val
        match e.form with
        | .product p =>
          let s1 := sramCorrected s c.val env.sramFixed
          if env.sramBad then
            let s1 := sramUncorrected s1 c.val
            let idx := (grpOf (subOf k e.sub.val) e.grp.val).idx
            settle (threadFault s1 blk.info .uncorrectable
              ⟨c.val, blk.lin, idx * 32 + e.lane.val, e.pc⟩ (BitVec.ofNat 64 (operandAddr p env.sramAt))) c.val
          else
            let d : SlabData :=
              { a := lsRead blk p.baseA (lenA p), b := lsRead blk p.baseB (lenB p), sa := lsRead blk p.baseSa (lenSa p)
                sb := lsRead blk p.baseSb (lenSb p), md := lsRead blk p.baseMeta (lenMeta p) }
            modCore s1 c.val (fun k => modEntry k sl.val e.seq (fun x => { x with phase := .running p.depth d }))
        | _ => modCore s c.val (fun k => modEntry k sl.val e.seq (fun x => { x with phase := .running 0 ⟨[], [], [], [], []⟩ })))

/-- Ramp length of CD_SLAB_CFG.RAMP (Table 02-9). -/
def rampLength (r : BitVec 2) : Nat := if r == 0 then 32 else if r == 1 then 64 else 128

/-- One k-step: every running instruction of the slab performs one D-unit. -/
def kStep (sl : Slab) : Slab :=
  { sl with queue := sl.queue.map (fun e => match e.phase with
      | .running (n + 1) d => { e with phase := .running n d }
      | _ => e) }

/-- One A-cycle of a slab (R74): the slab and the D-units it performs. Progress counts in fortieths. -/
def rampCycle (sl : Slab) (ramp : BitVec 2) (cap : Nat) : Slab × Nat :=
  if sl.queue.any entryWorking then
    let len := if sl.wasWorking then sl.rampLen else rampLength ramp
    let level := if sl.wasWorking then sl.level else max 1 sl.level
    let j := if sl.wasWorking then sl.j else (level - 1) * (len / 8)
    let total := sl.progress + min (5 * level) (2 * cap)
    let done := 40 ≤ total
    let work := (sl.queue.filter entryWorking).length
    let sl1 : Slab := { sl with
      rampLen := len, j := j + 1, wasWorking := true, idle := 0, progress := if done then total - 40 else total
      level := if level < 8 && (j + 1) % (len / 8) == 0 then level + 1 else level }
    (if done then kStep sl1 else sl1, if done then work else 0)
  else
    let len := if sl.wasWorking then rampLength ramp else sl.rampLen
    let idle := sl.idle + 1
    ({ sl with
        rampLen := len, wasWorking := false, idle
        level := if 16 ≤ idle && 0 < sl.level && (idle - 16) % (len / 8) == 0 then sl.level - 1 else sl.level }, 0)

/-- The credits of the products that perform their last k-step, and with it their last operand read, between two states of a slab:
block and stream (R66). -/
def lastReads (old new : Slab) : List (SlotId × EngId × Fin 4) :=
  old.queue.filterMap (fun e => match e.form with
    | .product p =>
      if entryWorking e && new.queue.any (fun x => x.seq == e.seq && !(entryWorking x)) then p.credit.map (fun q => (e.blk, q)) else none
    | _ => none)

/-- ACTIVITY_RAMP: one A-cycle of a slab. -/
def execActivityRamp (c : CoreId) (sl : SlabId) (s : State) : Host.Outcome State Fault Refusal :=
  let k := coreOf s c.val
  let r := rampCycle (slabOf k sl.val) (dieOf s (c.val / 64)).ramp s.pwr.caps.slab
  let s1 := (lastReads (slabOf k sl.val) r.1).foldl (fun t x => postStream t c.val x.2.1.val (ctxNo x.1 x.2.2))
    (setCore s c.val (setSlab k sl.val r.1))
  .next (match k.partition with
    | some g => perf s1 g.val perfDUNITS r.2
    | none => s1)

/-- SLAB_COMPUTE_COMPLETE: the first compute instruction whose k-steps are over, with no earlier one on its rows and no
earlier SLAB.ST still to read them, puts its result into the accumulator set. -/
def execSlabComputeComplete (c : CoreId) (sl : SlabId) (s : State) : Host.Outcome State Fault Refusal :=
  let k := coreOf s c.val
  let q := (slabOf k sl.val).queue
  .next (match q.find? (fun e => match e.phase with
      | .running left _ => left == 0 && !(q.any (fun x => x.seq < e.seq && sameRows x.form e.form &&
          (!(isStore x.form) || entryQueued x)))
      | _ => false) with
    | none => s
    | some e =>
      let d : SlabData := match e.phase with
        | .running _ d => d
        | _ => ⟨[], [], [], [], []⟩
      let k1 := setSlab k sl.val (computeEffect (slabOf k sl.val) e.form d)
      setCore s c.val (dropEntry k1 sl.val e.seq))

/-- SLAB_ST_READ_START: the next SLAB.ST reads and converts its rows once every earlier compute instruction on them is
through and the store path is free. -/
def execSlabStReadStart (c : CoreId) (sl : SlabId) (s : State) : Host.Outcome State Fault Refusal :=
  let k := coreOf s c.val
  let q := (slabOf k sl.val).queue
  .next (match q.find? (fun e => isStore e.form) with
    | none => s
    | some e =>
      if !(entryQueued e) || q.any (fun x => x.seq < e.seq && sameRows x.form e.form && !(isStore x.form)) then s
      else match e.form with
        | .store f =>
          let bytes := storeOut (slabOf k sl.val) f s.free
          let k1 := if f.clr then
              setSlab k sl.val (accRows (slabOf k sl.val) f.set.val (storeRows f).1 (storeRows f).2 (fun _ _ _ => 0))
            else k
          { setCore s c.val (modEntry k1 sl.val e.seq (fun x => { x with phase := .storing bytes })) with free := s.free + 1 }
        | _ => s)

/-- Performs the local-store accesses and posts of a group that waited for its SLAB.ST (R71). -/
def releaseSlabStore (s : State) (c b slot : Nat) : State :=
  if slabStoreHolds s c b slot then s
  else
    ((grpOf (subOf (coreOf s c) b) slot).held).foldl (fun t h =>
      let drop (t : State) : State := modGrp t c b slot (fun g => dropHeld g h.lanes)
      match h.op with
      | .loadL d sz sx reqs => doLoadL (drop t) c b slot sz sx reqs (fun g => writeLate g h.lanes (opdOf d) (szRegs sz))
      | .storeL reqs => doStoreL (drop t) c b slot reqs
      | .post e q kind desc fixed bad => doPost (drop t) (heldIssue c b slot h) (maskLanes h.lanes) e q kind desc fixed bad
      | _ => t) s

/-- SLAB_ST_COMPLETE: the last write of the SLAB.ST on the store path, behind the operand reads of the slab's earlier
instructions (R54); with REL the lease is released where no other SLAB
instruction of the block is queued or executing (R52, R71). -/
def execSlabStComplete (c : CoreId) (sl : SlabId) (s : State) : Host.Outcome State Fault Refusal :=
  let k := coreOf s c.val
  .next (match (slabOf k sl.val).queue.find? (fun e => match e.phase with
      | .storing _ => true
      | _ => false) with
    | none => s
    | some e =>
      let early := (slabOf k sl.val).queue.any (fun x => x.seq < e.seq && entryQueued x &&
        (formExtents x.form).any (fun a => (formExtents e.form).any (overlaps a)))
      match e.form, e.phase with
      | .store f, .storing bytes =>
        if early then s
        else
        let s1 := modCore (modBlock s c.val e.blk.val (fun b => lsWrite b f.dst bytes)) c.val (fun k =>
          let k := dropEntry k sl.val e.seq
          let busy := k.slabs.any (fun x => x.queue.any (fun y => y.blk == e.blk))
          if f.rel && !busy && k.lease == some e.blk then { k with lease := none } else k)
        checkBars (releaseSlabStore s1 c.val e.sub.val e.grp.val) c.val
      | _, _ => s)

end Sys2Proof.Machine
end

