-- ==== Sys2Proof/Machine/Control.lean ====
section
/-!
DEFINITION. Fences, the block barrier, CONE.WAIT and control flow (R226, R227, R232, R234, R235, R276, R279).
-/
namespace Sys2Proof.Machine

open Sys2Proof

-- Fences (R226, Table 10-1)

def fenceForm : GForm := { d := .unused, long := false }

/-- The STORE slots that a block has posted and that are not complete: engine, stream, arming, count (R127). -/
def postedSlots (k : Core) (blk : SlotId) : List (EngId × Fin 4 × Nat × Nat) :=
  (List.finRange 4).flatMap (fun e => (List.finRange 4).filterMap (fun q =>
    let x := streamOf (engineOf k e.val) (ctxNo blk q)
    if streamHeld x && x.walk.store && x.ended < x.posted then some (e, q, x.gen, x.posted) else none))

/-- A fence issues: each guarded thread waits for FENCE_COMPLETE. -/
def fenceIssue (w : Wait) (p : Place) (f : FmtG) (s : State) : State :=
  gSystem p fenceForm f true (fun s i ls =>
    let need := postedSlots (coreOf s i.core) (issueGrp s i).blk
    modIssueGrp (passOthers s i ls) i (fun g => holdLanes g ls w i.pc (.fence need))) s

/-- FENCE.BLOCK. -/
def execFenceBlock (p : Place) (f : FmtG) (s : State) : Host.Outcome State Fault Refusal := .next (fenceIssue .fenceBlock p f s)

/-- FENCE.DEVICE. -/
def execFenceDevice (p : Place) (f : FmtG) (s : State) : Host.Outcome State Fault Refusal := .next (fenceIssue .fenceDevice p f s)

/-- FENCE.SYS. -/
def execFenceSys (p : Place) (f : FmtG) (s : State) : Host.Outcome State Fault Refusal := .next (fenceIssue .fenceSys p f s)

/-- A posted STORE slot is visible: it has drained, or its stream was armed anew or released since. -/
def slotVisible (k : Core) (blk : SlotId) (n : EngId × Fin 4 × Nat × Nat) : Bool :=
  let x := streamOf (engineOf k n.1.val) (ctxNo blk n.2.1)
  x.gen != n.2.2.1 || !(streamHeld x) || n.2.2.2 ≤ x.ended

/-- An IO_WR of a core's store of the launch awaits its IO_DONE (R408). -/
def hostWritesOpen (s : State) (core launch : Nat) : Bool :=
  s.dl.tags.any (fun t => t.2.write && (match t.2.owner with
    | .store c _ marks => c.val == core && marks.any (fun m => m.1 == launch)
    | _ => false))

/-- What a fence waits for has come about for one thread. -/
def fenceReady (s : State) (c b slot lane : Nat) (w : Wait) (need : List (EngId × Fin 4 × Nat × Nat)) : Bool :=
  let k := coreOf s c
  let g := grpOf (subOf k b) slot
  let id := (blockOf k g.blk.val).info.id
  !(hasStores (subOf k b).buffer id slot lane) &&
  (w == .fenceBlock || need.all (slotVisible k g.blk)) && (w != .fenceSys || !(hostWritesOpen s c id))

/-- FENCE_COMPLETE: the fence of one thread completes. -/
def execFenceComplete (p : Place) (g : SlotId) (l : LaneId) (s : State) : Host.Outcome State Fault Refusal :=
  let c := p.core.val
  let b := p.sub.val
  let grp := grpOf (subOf (coreOf s c) b) g.val
  let w := (laneOf grp l.val).wait
  .next (match grp.held.find? (fun h => h.lanes.getLsbD l.val) with
    | none => s
    | some h => match h.op with
      | .fence need =>
        if fenceReady s c b g.val l.val w need then
          let t := if w == .fenceBlock then s else tickNow s
          let rest : BitVec 32 := h.lanes &&& (~~~(BitVec.ofNat 32 (2 ^ l.val)))
          settle (modGrp t c b g.val (fun grp =>
            let grp := passLanes grp [l.val] 8
            let grp := if w == .fenceBlock then grp else modLanes grp [l.val] (fun _ x => { x with ordPt := t.now })
            { grp with held := if rest == 0 then grp.held.filter (fun x => x.lanes != h.lanes)
                else grp.held.map (fun x => if x.lanes == h.lanes then { x with lanes := rest, guarded := rest } else x) })) c
        else s
      | _ => s)

-- The barrier

/-- BAR.BLOCK (R227). A guard other than PG 7 with PN 0 faults the subset, whatever its lanes' predicates (R211). -/
def execBarBlock (p : Place) (f : FmtG) (s : State) : Host.Outcome State Fault Refusal :=
  .next (if f.pg != 7 || f.pn then issue s p (fun s i => faultLanes s i (wordFaults .illegal i.lanes))
  else gSystem p fenceForm f true (fun s i ls =>
    let s := modIssueGrp (passOthers s i ls) i (fun g => modLanes g ls (fun _ l => { l with wait := .bar }))
    if divergent (issueGrp s i) then arrive s i.core i.sub i.slot i.pc ls else checkBars s i.core) s)

-- CONE.WAIT (R232)

/-- A counter has reached a threshold. -/
def coneReached (c t : BitVec 48) : Bool := (c - t).toNat < 2 ^ 47

/-- Lanes whose CONE.WAIT completes go on, past an ordering point. -/
def endCone (s : State) (c b slot : Nat) (m : BitVec 32) : State :=
  let s := tickNow s
  settle (modGrp s c b slot (fun g =>
    passLanes (modLanes (dropHeld g m) (maskLanes m) (fun _ l => { l with ordPt := s.now })) (maskLanes m) 8)) c

def coneForm : GForm := { d := .unused, a := .uniform 1, b := .uniform 2, long := false }

/-- The value of `w` u registers that a specifier names. -/
def uValue (g : Grp) (o : BitVec 9) (w : Nat) : Nat := match opdOf o with
  | .u n => regsValue (uReg g) n w
  | _ => 0

/-- CONE.WAIT. -/
def execConeWait (p : Place) (f : FmtG) (s : State) : Host.Outcome State Fault Refusal :=
  .next (gSystem p coneForm f true (fun s i ls =>
    let n := uValue (issueGrp s i) f.a 1
    let t : BitVec 48 := BitVec.ofNat 48 (uValue (issueGrp s i) f.b 2)
    let k := coneOf s n
    if 4096 ≤ n || !k.assigned || k.partition != (issueInfo s i).sag then faultSubset s i ls .address n
    else
      let s := modIssueGrp (passOthers s i ls) i (fun g => holdLanes g ls .cone i.pc (.cone n t))
      if coneReached k.value t then endCone s i.core i.sub i.slot (laneMask ls) else s) s)

/-- Waits on a counter that is no longer their saggar's fault with ADDRESS (R232, R359). -/
def coneFaults (s : State) (n : Nat) : State :=
  let fs := s.cores.flatMap (fun pk => (heldOps pk.2).flatMap (fun x => match x.2.2.op with
    | .cone m _ =>
      let i := heldIssue pk.1 x.1 x.2.1 x.2.2
      let k := coneOf s n
      if m == n && (!k.assigned || k.partition != (issueInfo s i).sag) then
        i.lanes.map (fun l => (issueInfo s i, lanePlace s i l))
      else []
    | _ => []))
  if fs.isEmpty then s
  else settleAll (fs.foldl (fun t f => threadFault t f.1 .address f.2 (BitVec.ofNat 64 n)) s)

/-- The subsets whose threshold on a counter is reached go on. -/
def coneWakes (s : State) (n : Nat) : State :=
  let v := (coneOf s n).value
  s.cores.foldl (fun t pk => (heldOps pk.2).foldl (fun t x => match x.2.2.op with
      | .cone m thr => if m == n && coneReached v thr then endCone t pk.1 x.1 x.2.1 x.2.2.lanes else t
      | _ => t) t) s

/-- The subsets that wait on a counter read it again. -/
def wakeCone (s : State) (n : Nat) : State := coneWakes (coneFaults s n) n

/-- CONE_WAIT_WAKE. -/
def execConeWaitWake (n : ConeId) (s : State) : Host.Outcome State Fault Refusal := .next (wakeCone s n.val)

-- Control flow (R234, R235)

/-- Operands of a register target: V, U or IMM. -/
def targetOk : Opd → Bool
  | .v _ => true
  | .u _ => true
  | .imm _ => true
  | _ => false

/-- A jump's word: with T = 1 a register target and OFS 0; with T = 0 no register. -/
def legalJump (f : FmtJ) : Bool := !f.rsv && (if f.t then targetOk (opdOf f.a) && f.ofs == 0 else opdOf f.a == .none)

/-- The target of a lane. -/
def target (x : LaneCtx) (i : Issue) (f : FmtJ) (l : Nat) : W32 :=
  if f.t then BitVec.ofNat 32 (readOpd x l (laneOf x.grp l) (opdOf f.a) 1 false).1
  else i.pc + BitVec.ofInt 32 (8 * sext 32 f.ofs.toNat)

/-- A taken jump: the guarded lanes go to their targets, the others to the next instruction. -/
def jump (p : Place) (f : FmtJ) (legal : Bool) (link : Bool) (s : State) : State :=
  issue s p (fun s i =>
    let ls := guardedLanes s i f.pg f.pn
    let x := ctxOfIssue s i 0
    match mFault legal x.info.regs [(opdOf f.a, 1), (opdOf f.d, 1)] with
    | some e => if ls.isEmpty then modIssueGrp s i (advance i 8) else faultLanes s i (wordFaults e ls)
    | none =>
      let bad := ls.filter (fun l => f.t && (target x i f l).toNat % 8 != 0)
      if !(bad.isEmpty) then faultLanes s i (wordFaults .illegal bad)
      else
        modIssueGrp s i (fun g =>
          let g := if link then writeResults g (opdOf f.d) 1 (ls.map (fun l => (l, (i.pc + 8).toNat))) else g
          let g := passLanes g (i.lanes.filter (fun l => !(ls.contains l))) 8
          modLanes g ls (fun l y => { y with pc := target x i f l })))

/-- BRA. -/
def execBra (p : Place) (f : FmtJ) (s : State) : Host.Outcome State Fault Refusal :=
  .next (jump p f (legalJump f && opdOf f.d == .none) false s)

/-- CALL. -/
def execCall (p : Place) (f : FmtJ) (s : State) : Host.Outcome State Fault Refusal :=
  .next (jump p f (legalJump f && dstOk (.reg 1) (opdOf f.d)) true s)

/-- RET. -/
def execRet (p : Place) (f : FmtJ) (s : State) : Host.Outcome State Fault Refusal :=
  .next (jump p f (legalJump f && f.t && opdOf f.d == .none) false s)

/-- The word of EXIT and YIELD. -/
def legalPlain (f : FmtJ) : Bool := !f.rsv && !f.t && f.ofs == 0 && opdOf f.d == .none && opdOf f.a == .none

/-- Issues EXIT or YIELD. -/
def plain (p : Place) (f : FmtJ) (body : State → Issue → List Nat → State) (s : State) : State :=
  issue s p (fun s i =>
    let ls := guardedLanes s i f.pg f.pn
    if !(legalPlain f) then
      if ls.isEmpty then modIssueGrp s i (advance i 8) else faultLanes s i (wordFaults .illegal ls)
    else if ls.isEmpty then modIssueGrp s i (advance i 8)
    else body (passOthers s i ls) i ls)

/-- EXIT: the guarded lanes exit, which may complete a collective or the barrier (R26, R235). -/
def execExit (p : Place) (f : FmtJ) (s : State) : Host.Outcome State Fault Refusal :=
  .next (plain p f (fun s i ls =>
    let s := modIssueGrp s i (fun g => modLanes g ls (fun _ l => { l with exited := true }))
    checkBars (completeSlab s i.core i.sub i.slot) i.core) s)

/-- YIELD: the group leaves the active set (R19). -/
def execYield (p : Place) (f : FmtJ) (s : State) : Host.Outcome State Fault Refusal :=
  .next (plain p f (fun s i ls =>
    let s := modIssueGrp s i (fun g => passLanes g ls 8)
    modCore s i.core (fun k => setSub k i.sub { subOf k i.sub with
      active := (subOf k i.sub).active.filter (fun a => a.val != i.slot) })) s)

end Sys2Proof.Machine
end

