-- ==== Sys2Proof/Machine/DlLink.lean ====
section
/-!
DEFINITION. The message and link layers of the Derset link (R398, R399, R402, R403): messages and flits as bytes, credits, the receive
spaces, and the flits that the device sends. The codes of a flit's type, the filler between messages and what Table 16-3 leaves
open are the model's own (log 82).
-/
namespace Sys2Proof.Machine

open Sys2Proof

-- Messages as bytes (Tables 16-3, 16-4)

def dlHeader (op status tag lenM1 addr : Nat) : List Byte :=
  [BitVec.ofNat 8 op, BitVec.ofNat 8 status] ++ leBytes 2 tag ++ [BitVec.ofNat 8 lenM1, 0, 0, 0] ++ leBytes 8 addr

/-- Data in units of 16 B, one at least. -/
def dlUnits16 (bs : List Byte) : List Byte := bs ++ List.replicate (max 16 ((bs.length + 15) / 16 * 16) - bs.length) 0

/-- A message of the device. Bytes of an IO_WR that are not written carry no value. -/
def dlBytes : DlMsg → List Byte
  | .ioRd tag addr len => dlHeader 0x40 0 tag.toNat (len / 16 - 1) addr.toNat
  | .ioWr tag addr data =>
    dlHeader 0x41 0 tag.toNat (data.length / 16 - 1) addr.toNat ++ data.zipIdx.map (fun x => x.1.getD (Config.freeByte 0 x.2))
  | .snpShared _ _ addr => dlHeader 0x10 0 0 0 addr.toNat
  | .snpInv _ _ addr => dlHeader 0x11 0 0 0 addr.toNat
  | .snpClean _ _ addr => dlHeader 0x12 0 0 0 addr.toNat
  | .dataS tag data => dlHeader 0x20 0 tag.toNat 0 0 ++ data
  | .dataE tag data => dlHeader 0x21 0 tag.toNat 0 0 ++ data
  | .dataM tag data => dlHeader 0x22 0 tag.toNat 0 0 ++ data
  | .grant tag => dlHeader 0x23 0 tag.toNat 0 0
  | .done tag => dlHeader 0x27 0 tag.toNat 0 0
  | .refusal tag status => dlHeader 0x27 status.toNat tag.toNat 0 0
  | .ioData tag status data =>
    let d := dlUnits16 data
    dlHeader 0x50 status.toNat tag.toNat (d.length / 16 - 1) 0 ++ d
  | .ioDone tag status => dlHeader 0x51 status.toNat tag.toNat 0 0
  | .int v => dlHeader 0x60 0 v.val 0 0

/-- The credit class of a message of the device (Table 16-2). -/
def dlClass : DlMsg → Nat
  | .ioRd _ _ _ => 3
  | .ioWr _ _ _ => 3
  | .snpShared _ _ _ => 1
  | .snpInv _ _ _ => 1
  | .snpClean _ _ _ => 1
  | .ioData _ _ _ => 4
  | .ioDone _ _ => 4
  | .int _ => 5
  | _ => 2

def dlUnits (m : DlMsg) : Nat := (dlBytes m).length / 16

/-- The credit class of a message of the host; none for an OP that it does not send. -/
def hostClass (op : Nat) : Option Nat :=
  if 1 ≤ op && op ≤ 6 then some 0
  else if 0x24 ≤ op && op ≤ 0x26 then some 2
  else if op == 0x42 || op == 0x43 then some 3
  else if op == 0x50 || op == 0x51 then some 4
  else none

/-- Bytes of payload behind a header of the host (R403). -/
def hostPayload (op lenM1 : Nat) : Nat :=
  if op == 4 || op == 6 || op == 0x24 then 64 else if op == 0x50 then 16 * (lenM1 + 1) else if op == 0x43 then 16 else 0

/-- A message of the host from its bytes. -/
def parseDl (bs : List Byte) : DlIn :=
  let f (i n : Nat) : Nat := leNat ((bs.drop i).take n)
  { op := BitVec.ofNat 8 (f 0 1), status := BitVec.ofNat 4 (f 1 1), tag := BitVec.ofNat 11 (f 2 2), be := BitVec.ofNat 8 (f 5 1)
    addr := BitVec.ofNat 52 (f 8 8), malformed := f 1 1 / 16 != 0 || f 2 2 / 2048 != 0 || f 6 2 != 0 || f 8 8 / 2 ^ 52 != 0
    data := (bs.drop 16).take (hostPayload (f 0 1) (f 4 1)) }

/-- The whole messages at the front of received bytes, and the bytes left. -/
def takeDl : Nat → List Byte → List DlIn × List Byte
  | 0, bs => ([], bs)
  | n + 1, bs =>
    if bs.length < 4 then ([], bs)
    else if leNat (bs.take 4) == 0 then takeDl n (bs.drop 4)
    else if bs.length < 16 then ([], bs)
    else
      let x := parseDl bs
      let len := 16 + hostPayload x.op.toNat (leNat ((bs.drop 4).take 1))
      if bs.length < len then ([], bs)
      else
        let r := takeDl n (bs.drop len)
        (x :: r.1, r.2)

-- Flits as bytes (R398)

def dlFlitType : XlBody → Nat
  | .units bs => if bs.isEmpty then 0 else 1
  | .replay _ => 2
  | .sliceStop _ _ _ => 0

def dlFlitBody : XlBody → List Byte
  | .units bs => bs
  | .replay seq => leBytes 2 seq.toNat
  | .sliceStop _ _ _ => []

/-- The 256 B of a flit. -/
def dlFlitBytes (f : XlFlit) : List Byte :=
  let c (i : Nat) : Nat := (f.credits.getD i (0, 0)).1 + 8 * (f.credits.getD i (0, 0)).2
  let b := dlFlitBody f.body
  let bs := leBytes 8 (f.seq.toNat + 2 ^ 12 * f.acked.toNat + 2 ^ 24 * dlFlitType f.body + 2 ^ 28 * c 0 + 2 ^ 40 * c 1) ++
    b ++ List.replicate (244 - b.length) 0
  bs ++ leBytes 4 (crc32c bs)

/-- A flit from its bytes; none where its CRC-32C is wrong, its length is not that of a flit, or its type is reserved. -/
def dlParseFlit (bs : List Byte) : Option XlFlit :=
  let h := leNat (bs.take 8)
  let c (w : Nat) : List (Nat × Nat) := if w / 8 % 2 ^ 9 = 0 then [] else [(w % 8, w / 8 % 2 ^ 9)]
  let ty := h / 2 ^ 24 % 16
  let b := (bs.drop 8).take 244
  if bs.length != 256 || crc32c (bs.take 252) != leNat (bs.drop 252) || 2 < ty then none
  else some
    { seq := BitVec.ofNat 12 h, acked := BitVec.ofNat 12 (h / 2 ^ 12), credits := c (h / 2 ^ 28) ++ c (h / 2 ^ 40)
      body := if ty == 2 then .replay (BitVec.ofNat 12 (leNat (b.take 2))) else .units (if ty == 1 then b else []) }

-- Credits (R402)

/-- What the device grants the host in each class, in units of 16 B. -/
def deviceGrant : List Nat := [2048, 0, 4096, 1024, 8192, 0]

/-- What the host grants at least in each class. -/
def hostMinimum : List Nat := [0, 256, 4096, 257, 8192, 4]

/-- The device holds credits for the whole message. -/
def dlCredit (d : Derset) (m : DlMsg) : Bool := d.used.getD (dlClass m) 0 + dlUnits m ≤ d.grant.getD (dlClass m) 0

def inUnits (x : DlIn) : Nat := 1 + x.data.length / 16

/-- Units that the messages in the receive space of a class take. -/
def spaceUsed (d : Derset) (c : Nat) : Nat :=
  sumOf ((d.input.filter (fun x => hostClass x.op.toNat == some c)).map inUnits)

-- Sending (R399, R402)

/-- Flits sent and not acknowledged. -/
def dlUnacked (d : Derset) : Nat := (d.txSeq - 1 - d.acked).toNat

/-- Sends a flit, with what it acknowledges and the credits it returns, and keeps it for replay. -/
def dlEmit (d : Derset) (b : XlBody) : Derset :=
  let cs := ((d.owed.zipIdx.filter (fun x => x.1 != 0)).map (fun x => (x.2, min 511 x.1))).take 2
  let f : XlFlit := { seq := d.txSeq, acked := d.rxSeq - 1, credits := cs, body := b }
  { d with txSeq := d.txSeq + 1, owed := cs.foldl (fun o c => listModify (· - c.2) o c.1) d.owed
           kept := (d.kept ++ [f]).drop (d.kept.length + 1 - 1024), flits := d.flits ++ [f] }

/-- Sends bytes of messages, 244 a flit. -/
def dlEmitBytes (d : Derset) : Nat → List Byte → Derset
  | 0, _ => d
  | n + 1, bs => if bs.isEmpty then d else dlEmitBytes (dlEmit d (.units (bs.take 244))) n (bs.drop 244)

/-- Idle flits return what credits are owed. -/
def dlEmitCredits (d : Derset) : Nat → Derset
  | 0 => d
  | n + 1 => if d.owed.all (· == 0) || 1023 ≤ dlUnacked d then d else dlEmitCredits (dlEmit d (.units [])) n

/-- The messages that can be sent: in each class in order, while credits and the bytes of free flits last. -/
def dlGrants (d : Derset) (room : Nat) (held : List Nat) : List DlMsg → Derset × List DlMsg
  | [] => (d, [])
  | m :: ms =>
    let n := 16 * dlUnits m
    if held.contains (dlClass m) || !(dlCredit d m) || room < n then
      let r := dlGrants d room (dlClass m :: held) ms
      ({ r.1 with out := m :: r.1.out }, r.2)
    else
      let r := dlGrants { d with used := listModify (· + dlUnits m) d.used (dlClass m) } (room - n) held ms
      (r.1, m :: r.2)

/-- A link in UP sends what it has credits for, and returns the credits it owes. -/
def dlSendAll (d : Derset) : Derset :=
  let r := dlGrants { d with out := [] } (244 * (1023 - dlUnacked d)) [] d.out
  let bs := r.2.flatMap dlBytes
  let d := dlEmitBytes { r.1 with tx := r.1.tx ++ r.2 } (bs.length / 244 + 1) bs
  dlEmitCredits d 6

def pumpDl (s : State) : State := if s.dl.st == .up && !s.dl.stopped then { s with dl := dlSendAll s.dl } else s

/-- A message for the host waits for its credits. -/
def sendHost (s : State) (m : DlMsg) : State := pumpDl { s with dl := { s.dl with out := s.dl.out ++ [m] } }

/-- The link sends again from a flit on; while its message flits stand still it sends nothing. -/
def dlReplayFrom (s : State) (seq : BitVec 12) : State :=
  if s.dl.st == .up && !s.dl.stopped then
    { s with dl := { s.dl with flits := s.dl.flits ++ s.dl.kept.filter (fun f => (f.seq - seq).toNat < 1024) } }
  else s

/-- Sending resumes, with replay from the oldest flit not acknowledged (R401). -/
def dlResume (s : State) : State := pumpDl (dlReplayFrom s (s.dl.acked + 1))

-- Receiving

/-- The first message of a class in its receive space, if a test names it: it leaves, and its credits are to be returned. -/
def dlTake (s : State) (c : Nat) (p : DlIn → Bool) : Option (State × DlIn) :=
  match s.dl.input.find? (fun x => hostClass x.op.toNat == some c) with
  | none => none
  | some x =>
    if p x then
      some (pumpDl { s with dl := { s.dl with input := s.dl.input.erase x, owed := listModify (· + inUnits x) s.dl.owed c } }, x)
    else none

-- Addresses (R406)

/-- The saggar and the partition-relative address of a Derset address. -/
def dersetSag (a : BitVec 52) : Nat := a.toNat / 2 ^ 40
def dersetAddr (a : BitVec 52) : Nat := a.toNat % 2 ^ 40

/-- The line and the sector that a Derset address names. -/
def dersetSector (s : State) (a : BitVec 52) : Option (Nat × Fin 2) :=
  (mapLine s (dersetSag a) (dersetAddr a)).map (fun l => (l, if dersetAddr a / 64 % 2 = 0 then 0 else 1))

/-- The Derset address of a sector. -/
def dersetOf (s : State) (l : Nat) (i : Fin 2) : BitVec 52 :=
  match (chanOf s (lineChan l)).partition.map (fun k => (k, unmapKey (ownedChannels (sagOf s k.val)) (lineKey l))) with
  | some (k, some a) => BitVec.ofNat 52 (k.val * 2 ^ 40 + a + 64 * i.val)
  | _ => 0

-- Requesters and tags (R407)

/-- The core that a request serves. -/
def ownerCore : IoOwner → Option Nat
  | .load c _ _ _ _ => some c.val
  | .span c _ _ => some c.val
  | .store c _ _ => some c.val
  | _ => none

/-- The requester of an owner: 0 the front end, 1 to 4 the compute dies, 5 to 20 the copy engines. -/
def ownerWho (o : IoOwner) : Nat := match o with
  | .copy e _ _ => 5 + e.val
  | .gone w => w
  | o => match ownerCore o with
    | some c => 1 + c / 64
    | none => 0

/-- Requests that nobody waits for any more: the ungranted ones do not leave, and the answers to the others bring nothing. -/
def dropRequests (s : State) (mine : IoOwner → Bool) : State :=
  { s with dl := { s.dl with
      waiting := s.dl.waiting.filter (fun q => !(mine q.owner))
      tags := s.dl.tags.map (fun t => if mine t.2.owner then (t.1, { t.2 with owner := .gone (ownerWho t.2.owner) }) else t) } }

/-- The lowest tag that is neither in use nor held back after a timeout. -/
def freeTag (s : State) : Option Nat :=
  (List.range 2048).find? (fun t => (tblFind s.dl.tags t).isNone && !(s.dl.stale.contains (BitVec.ofNat 11 t)))

/-- An IO_RD or IO_WR is sent, in the order of the grants (R408). -/
def sendDl (s : State) (m : DlMsg) : State := sendHost { s with dl := { s.dl with sent := s.dl.sent + 1 } } m

end Sys2Proof.Machine
end

