-- ==== Sys2Proof/Machine/Nodes.lean ====
section
/-!
DEFINITION. Ring entries and graph nodes as they end: completion, failure, skip, the FAULTED ring, the failed graph launch,
and the advance of the retired sequence (R302 to R306, R315, R316, R324, R335).
-/
namespace Sys2Proof.Machine

open Sys2Proof

-- Descriptors (Table 11-7)

def word (ws : List W64) (i : Nat) : W64 := ws.getD i 0

def kindOf (ws : List W64) : Nat := field (word ws 0) 0 8

/-- ORD of a ring entry (R296). -/
def ordOf (ws : List W64) : Bool := bit (word ws 0) 63

def isTerminated (st : NodeSt) : Bool := st == .completed || st == .failed || st == .skipped

/-- Fetched, and not started. -/
def isUnstarted (st : NodeSt) : Bool := st == .waiting || st == .fetched || st == .held || st == .ready

-- Reaching a node

def modRingEntry (s : State) (n : Nat) (seq : W64) (f : Node → Node) : State :=
  modRing s n (fun r => { r with entries := r.entries.map (fun e => if e.seq == seq then f e else e) })

def ringEntry (s : State) (n : Nat) (seq : W64) : Option Node := (ringOf s n).entries.find? (fun e => e.seq == seq)

def runOf (s : State) (id : Nat) : Option GraphRun := s.fe.runs.find? (fun r => r.id == id)

def modRun (s : State) (id : Nat) (f : GraphRun → GraphRun) : State :=
  { s with fe := { s.fe with runs := s.fe.runs.map (fun r => if r.id == id then f r else r) } }

def nodeOf (s : State) (n : NodeRef) : Option Node := match n.graph with
  | none => ringEntry s n.ring n.seq
  | some g => (runOf s g.1).bind (fun r => r.nodes[g.2]?)

def modNode (s : State) (n : NodeRef) (f : Node → Node) : State := match n.graph with
  | none => modRingEntry s n.ring n.seq f
  | some g => modRun s g.1 (fun r => { r with nodes := listModify f r.nodes g.2 })

/-- The context tag and the saggar of a node's ring. -/
def nodeTag (s : State) (n : NodeRef) : BitVec 16 := (ringOf s n.ring).context
def nodeSag (s : State) (n : NodeRef) : SagId := (ringOf s n.ring).partition

-- Skips (R306, R335)

/-- What a skipped node's own fence takes: a SIGNAL of a usable fence of this module leaves ABANDONED. -/
def skipEffect (s : State) (n : Nat) (ws : List W64) : State :=
  let f := field (word ws 0) 16 16
  if kindOf ws == 0x43 && !(bit (word ws 0) 8) && fenceUsable s (ringOf s n).context f then fenceAbandon s f else s

/-- Skips the nodes of a graph launch that have not started; says whether there were any. -/
def skipRunNodes (s : State) (id : Nat) : State × Bool :=
  match runOf s id with
  | none => (s, false)
  | some r =>
    let gone := r.nodes.filter (fun x => isUnstarted x.st)
    let s := gone.foldl (fun t x => skipEffect t r.node.ring x.words) s
    (modRun s id (fun r => { r with nodes := r.nodes.map (fun x =>
      if isUnstarted x.st then { x with st := .skipped, objs := [] } else x) }), !(gone.isEmpty))

/-- The graph launch of a GRAPH entry. -/
def runOfEntry (s : State) (n : Nat) (seq : W64) : Option GraphRun :=
  s.fe.runs.find? (fun r => r.node.ring == n && r.node.seq == seq)

/-- A GRAPH entry that the destruction of its ring skips leaves ABANDONED on the fence of its launch, which it would have signalled,
where that fence is usable or its page is held (R335). -/
def skipGraph (s : State) (n : Nat) (e : Node) : State :=
  let f := field (word e.words 1) 0 16
  if kindOf e.words == 0x48 && (e.st == .ready || e.passed || fenceUsable s (ringOf s n).context f) then fenceAbandon s f else s

/-- Skips the entries of a ring that have not started; the launch of a skipped GRAPH entry has no node any more. Says whether
there were any. `destroy` says that the ring is destroyed. -/
def skipEntries (s : State) (n : Nat) (destroy : Bool) : State × Bool :=
  let gone := (ringOf s n).entries.filter (fun e => isUnstarted e.st)
  let s := gone.foldl (fun t e =>
    let t := skipEffect (if destroy then skipGraph t n e else t) n e.words
    match runOfEntry t n e.seq with
    | some r => modRun t r.id (fun r => { r with nodes := [] })
    | none => t) s
  (modRing s n (fun r => { r with entries := r.entries.map (fun e =>
    if isUnstarted e.st then { e with st := .skipped, objs := [] } else e) }), !(gone.isEmpty))

/-- The fetches that a ring has on their way are forgotten: their requests do not leave, their answers bring nothing, and their
entries count as never fetched (R305). -/
def cancelFetch (s : State) (n : Nat) : State :=
  let mine (o : IoOwner) : Bool := match o with
    | .fetch r _ _ => r == n
    | _ => false
  dropRequests (modRing s n (fun r => { r with fetches := [], next := (r.fetches.head?.map (fun f => f.first)).getD r.next })) mine

-- Failure (R304, R305, R315)

/-- A ring's entry has failed with a code: the ring enters FAULTED and skips what has not started. In destruction the
state does not change (R331), but a LAUNCH that fails still sets ERROR on the queue fence (R44, R306). -/
def ringFail (s : State) (n : Nat) (seq : W64) (code : Nat) : State :=
  let r := ringOf s n
  if r.st == .disabled then s
  else if r.st == .destroying then
    if (ringEntry s n seq).any (fun e => kindOf e.words == 0x40) then fenceError s r.qfence.toNat else s
  else
    let sk := skipEntries (cancelFetch s n) n false
    let s := fenceError sk.1 r.qfence.toNat
    let s := if sk.2 then fenceAbandon s r.qfence.toNat else s
    let s := modRing s n (fun r =>
      let r := { r with st := .faulted, failed := true, failCount := sat r.failCount 1 }
      if r.failHeld then r
      else { r with failHeld := true, failSeq := seq.setWidth 32, failCode := BitVec.ofNat 8 code })
    queueError s r.partition

/-- An entry fails; its record has been made. -/
def entryFail (s : State) (n : Nat) (seq : W64) (code : Nat) : State :=
  ringFail (modRingEntry s n seq (fun e => { e with st := .failed, objs := [] })) n seq code

/-- A graph launch enters the failed state: what has not started is skipped, and its fence receives ERROR, and ABANDONED
with a skip. -/
def runFail (s : State) (id : Nat) : State :=
  match runOf s id with
  | none => s
  | some r =>
    let sk := skipRunNodes s id
    let s := if r.failed then sk.1 else fenceError sk.1 r.fence
    let s := if sk.2 then fenceAbandon s r.fence else s
    modRun s id (fun r => { r with failed := true })

/-- A node fails whose record has been made: an entry with a code, or a node of a graph launch. -/
def nodeFailQuiet (s : State) (n : NodeRef) (code : Nat) : State := match n.graph with
  | none => entryFail s n.ring n.seq code
  | some g => runFail (modNode s n (fun x => { x with st := .failed, objs := [] })) g.1

/-- A node fails with a fault record of a source. A fetch rejection (source 6) puts its code into the record and, for an
entry, into FAIL_CODE. -/
def nodeFail (s : State) (n : NodeRef) (source code status : Nat) (addr : W64) : State :=
  let rec_ := nodeFields n
    { code := BitVec.ofNat 8 code, status := BitVec.ofNat 8 status, source := BitVec.ofNat 4 source, addr := addr }
  nodeFailQuiet (chargeFault s ((nodeTag s n).toNat % 4096) rec_) n (if source == 6 then code else 0)

/-- A node completes: its holds are released (R324). -/
def nodeDone (s : State) (n : NodeRef) : State := modNode s n (fun x => { x with st := .completed, objs := [] })

/-- A node is aborted by the destruction of its queue: it counts as skipped, with ABANDONED on its fence (R335). -/
def nodeAbort (s : State) (n : NodeRef) : State :=
  let s := match nodeOf s n with
    | some x => skipEffect s n.ring x.words
    | none => s
  let s := modNode s n (fun x => { x with st := .skipped, objs := [] })
  match n.graph with
  | none => fenceAbandon s (ringOf s n.ring).qfence.toNat
  | some g => match runOf s g.1 with
    | some r => fenceAbandon s r.fence
    | none => s

def nodeStart (s : State) (n : NodeRef) : State := modNode s n (fun x => { x with st := .started })

-- Starting order (R302)

/-- Entries of a ring before a sequence number. -/
def entriesAhead (r : Ring) (seq : W64) : List Node := r.entries.takeWhile (fun e => e.seq != seq)

/-- An entry may start: with ORD once every earlier entry has completed, without it once every earlier one has started. -/
def mayStart (r : Ring) (e : Node) : Bool :=
  r.st == .active &&
  if ordOf e.words then (entriesAhead r e.seq).all (fun x => isTerminated x.st)
  else (entriesAhead r e.seq).all (fun x => !(isUnstarted x.st))

-- Retirement (R303, R305)

/-- Entries that leave a ring: the leading completed ones, and, once nothing started is left, failed and skipped ones. -/
def retirable (r : Ring) : Nat :=
  let open_ := r.entries.any (fun e => e.st == .started)
  (r.entries.takeWhile (fun e => e.st == .completed || (isTerminated e.st && !open_))).length

/-- DB_RETIRED advances, and the queue fence with it. -/
def retire (s : State) (n : Nat) : State :=
  let r := ringOf s n
  let k := retirable r
  if k = 0 then s
  else
    let v := r.retired + BitVec.ofNat 64 k
    fenceSignal (setRing s n { r with retired := v, entries := r.entries.drop k }) r.qfence.toNat v

/-- RETIRED_ADVANCE. -/
def execRetiredAdvance (n : RingId) (s : State) : Host.Outcome State Fault Refusal := .next (retire s n.val)

-- Holds (R324, R325, R330)

/-- Every node that has passed its checks and has not terminated. -/
def liveNodes (s : State) : List Node :=
  (s.fe.rings.flatMap (fun r => r.2.entries) ++ s.fe.runs.flatMap (fun r => r.nodes)).filter
    (fun x => x.st == .ready || x.st == .started)

/-- The hold count of an object: the nodes that name it, each once, and the launches that held it when it was freed. -/
def holdCount (s : State) (o : Nat) : Nat :=
  ((liveNodes s).filter (fun x => x.objs.contains o)).length +
  ((objOf s o).launches.filter (fun id => s.fe.launches.any (fun l => l.info.id == id))).length

/-- The fence that a node names. -/
def nodeFence (ws : List W64) : Option Nat :=
  match kindOf ws with
  | 0x43 => if bit (word ws 0) 8 then none else some (field (word ws 0) 16 16)
  | 0x44 => if bit (word ws 0) 8 then none else some (field (word ws 0) 16 16)
  | 0x48 => some (field (word ws 1) 0 16)
  | _ => none

/-- Nodes that hold the fence page of their fence: the live ones, and GRAPH entries that wait at fetch. -/
def fenceHolders (s : State) : List Node :=
  liveNodes s ++ (s.fe.rings.flatMap (fun r => r.2.entries)).filter (fun x => x.passed && (x.st == .held || x.st == .fetched))

/-- A fence page is held (R330). -/
def pageHeld (s : State) (pg : Nat) : Bool :=
  s.fe.rings.any (fun r => r.2.st != .disabled && r.2.qfence.toNat / 128 == pg) ||
  (fenceHolders s).any (fun x => (nodeFence x.words).any (fun f => f / 128 == pg)) ||
  s.fe.runs.any (fun r => r.fence / 128 == pg)

end Sys2Proof.Machine
end

