-- ==== Sys2Proof/Machine/NearOps.lean ====
section
/-!
DEFINITION. The memory accesses that channel engines, stack reducers, codecs, copy engines and link engines share: coherent
reads, bank reads and writes of ranges of a saggar's carve-out (R177, R199).
-/
namespace Sys2Proof.Machine

open Sys2Proof

/-- Status of Table 06-4 of a memory error. -/
def errStatus : MemErr → Nat
  | .data => 9
  | .key => 10

/-- A bank read of one burst. -/
def bankLine (s : State) (l sag : Nat) (env : MemEnv) : Option (State × Except MemErr (List Byte)) :=
  if running s && chanServes s (lineChan l) then some (dramRead s l (some sag) env) else none

/-- Reads pieces of lines of a saggar, coherently or from the banks: the bytes, or an error with its address. None: a line
cannot be served now. -/
def engRead (s : State) (sag : Nat) (coherent : Bool) (env : MemEnv) :
    List (Nat × Nat × Nat) → Option (State × Except (MemErr × Nat) (List Byte))
  | [] => some (s, .ok [])
  | p :: ps =>
    match mapLine s sag (p.1 * 128) with
    | none => some (s, .error (.data, p.1 * 128 + p.2.1))
    | some l =>
      let got : Option (State × Except MemErr (List Byte)) :=
        if coherent then (readEngine s l (some sag) env).map (fun g => (g.s, g.res)) else bankLine s l sag env
      match got with
      | none => none
      | some (t, .error e) => some (t, .error (e, p.1 * 128 + p.2.1))
      | some (t, .ok data) =>
        match engRead t sag coherent (nextEnv env) ps with
        | none => none
        | some (t, .error e) => some (t, .error e)
        | some (t, .ok rest) => some (t, .ok ((data.drop p.2.1).take p.2.2 ++ rest))

/-- Writes bytes to pieces of lines, through the homes, allocating nowhere. -/
def engWrite (s : State) (sag : Nat) (env : MemEnv) :
    List (Nat × Nat × Nat) → List Byte → Option (State × Except (MemErr × Nat) Unit)
  | [], _ => some (s, .ok ())
  | p :: ps, bs =>
    match mapLine s sag (p.1 * 128) with
    | none => some (s, .error (.data, p.1 * 128 + p.2.1))
    | some l =>
      match writeNoAlloc s l (updatesAt p.2.1 (bs.take p.2.2)) none (some sag) env with
      | none => none
      | some g =>
        match g.res with
        | .error e => some (g.s, .error (e, p.1 * 128 + p.2.1))
        | .ok _ => engWrite g.s sag (nextEnv env) ps (bs.drop p.2.2)

/-- What the accesses behind those to a range meet. -/
def envAfter (env : MemEnv) (a len : Nat) : MemEnv := skipEnv env (linePieces a len).length

/-- A coherent read of a range. -/
def readCoh (s : State) (sag a len : Nat) (env : MemEnv) : Option (State × Except (MemErr × Nat) (List Byte)) :=
  engRead s sag true env (linePieces a len)

/-- A bank read of a range. -/
def readBank (s : State) (sag a len : Nat) (env : MemEnv) : Option (State × Except (MemErr × Nat) (List Byte)) :=
  engRead s sag false env (linePieces a len)

/-- A write of a range. -/
def writeMem (s : State) (sag a : Nat) (bs : List Byte) (env : MemEnv) : Option (State × Except (MemErr × Nat) Unit) :=
  engWrite s sag env (linePieces a bs.length) bs

-- Writes that leave bits of a byte alone (R83)

/-- A byte with its mask: bits of the mask take those of the value. -/
structure MaskByte where
  mask : Nat
  val : Nat
deriving DecidableEq, Repr

/-- Places bit by bit: an element of `w` bits at a bit address. -/
def placeBits (t : Tbl MaskByte) (at_ val : Nat) : Nat → Tbl MaskByte
  | 0 => t
  | w + 1 =>
    let m := tblGet ⟨0, 0⟩ t (at_ / 8)
    let k := 2 ^ (at_ % 8)
    let old := m.val - (if m.mask / k % 2 == 1 then m.val / k % 2 * k else 0)
    placeBits (tblPut t (at_ / 8) ⟨m.mask ||| k, old + val % 2 * k⟩) (at_ + 1) (val / 2) w

/-- Elements of `w` bits by bit address, as bytes with masks. Where extents of one operation overlap, R103 and R171 leave open which
element's value stands; a later element of the list overlays an earlier one, the model's choice (log 78). -/
def placeElems (w : Nat) (es : List (Nat × Nat)) : Tbl MaskByte :=
  es.foldl (fun t e =>
    if w % 8 == 0 && e.1 % 8 == 0 then
      (List.range (w / 8)).foldl (fun t j => tblPut t (e.1 / 8 + j) ⟨255, e.2 / 256 ^ j % 256⟩) t
    else placeBits t e.1 e.2 w) []

def maskByte (old : Byte) (m : MaskByte) : Byte :=
  BitVec.ofNat 8 ((old.toNat &&& (255 - m.mask)) ||| m.val)

/-- Line numbers of addresses, each once. -/
def linesOf (t : Tbl MaskByte) : List Nat := (t.map (fun p => p.1 / 128)).eraseDups

/-- Writes masked bytes, line by line. -/
def writeMasked (s : State) (sag : Nat) (t : Tbl MaskByte) (env : MemEnv) : List Nat → Option (State × Except (MemErr × Nat) Unit)
  | [] => some (s, .ok ())
  | n :: ns =>
    let here := t.filter (fun p => p.1 / 128 == n)
    match mapLine s sag (n * 128) with
    | none => some (s, .error (.data, n * 128))
    | some l =>
      let whole := here.length == 128 && here.all (fun p => p.2.mask == 255)
      match writeNoAllocWith s l whole (fun old => here.foldl (fun d p => listModify (fun b => maskByte b p.2) d (p.1 % 128)) old)
          none (some sag) env with
      | none => none
      | some g =>
        match g.res with
        | .error e => some (g.s, .error (e, n * 128))
        | .ok _ => writeMasked g.s sag t (nextEnv env) ns

/-- Masked bytes written to a block's local store. -/
def lsMasked (b : Block) (t : Tbl MaskByte) : Block :=
  { b with ls := t.foldl (fun l p => tblSet 0 l p.1 (maskByte (tblGet 0 l p.1) p.2)) b.ls }

end Sys2Proof.Machine
end

