-- ==== Sys2Proof/Machine/Pugmill.lean ====
section
/-!
DEFINITION. The pugmill stream format (spec/07): block headers, codebooks, the decoder and the encoder of one block,
as functions of bytes.
-/
namespace Sys2Proof.Machine

open Sys2Proof

-- Table 07-3

/-- How a block of one element type is cut: bytes of a unit, units, bits of a symbol, bits of a raw part. -/
structure Split where
  unitBytes : Nat
  units : Nat
  h : Nat
  l : Nat
deriving DecidableEq, Repr

/-- Table 07-3 by ETYPE. -/
def splitOf (et : Nat) : Option Split :=
  match et with
  | 0 => some ⟨4, 1024, 8, 24⟩
  | 1 => some ⟨2, 2048, 8, 8⟩
  | 2 => some ⟨2, 2048, 5, 11⟩
  | 3 => some ⟨1, 4096, 4, 4⟩
  | 4 => some ⟨1, 4096, 5, 3⟩
  | 7 => some ⟨1, 4096, 8, 0⟩
  | 9 => some ⟨1, 4096, 8, 0⟩
  | 10 => some ⟨1, 4096, 8, 0⟩
  | _ => none

/-- The symbol of a unit. -/
def unitSym (p : Split) (u : Nat) : Nat := if p.l = 0 then u else u / 2 ^ (p.l - 1) % 2 ^ p.h

/-- The raw part of a unit: its sign, then its mantissa. -/
def unitRaw (p : Split) (u : Nat) : Nat :=
  if p.l = 0 then 0 else u / 2 ^ (p.h + p.l - 1) % 2 * 2 ^ (p.l - 1) + u % 2 ^ (p.l - 1)

/-- The unit of a symbol and a raw part (R188). -/
def unitOf (p : Split) (sym raw : Nat) : Nat :=
  if p.l = 0 then sym
  else raw / 2 ^ (p.l - 1) * 2 ^ (p.h + p.l - 1) + sym * 2 ^ (p.l - 1) + raw % 2 ^ (p.l - 1)

def rawBytes (p : Split) : Nat := p.units * p.l / 8

-- Bits of bytes, lowest first

def byteBits (b : Byte) : List Bool := (List.range 8).map (fun i => b.getLsbD i)

def bitList (bs : List Byte) : List Bool := bs.flatMap byteBits

/-- The number of bits, lowest first. -/
def bitsNat : List Bool → Nat
  | [] => 0
  | b :: t => boolNat b + 2 * bitsNat t

/-- Bytes from bits; the last byte is filled with 0. -/
def bitsBytes : Nat → List Bool → List Byte
  | 0, _ => []
  | n + 1, bs => BitVec.ofNat 8 (bitsNat (bs.take 8)) :: bitsBytes n (bs.drop 8)

/-- The `n` bits of a number, lowest first. -/
def natBits : Nat → Nat → List Bool
  | 0, _ => []
  | n + 1, v => (v % 2 == 1) :: natBits n (v / 2)

/-- A list cut into `n` pieces of `k`. -/
def pieces {α : Type} (k : Nat) : Nat → List α → List (List α)
  | 0, _ => []
  | n + 1, l => l.take k :: pieces k n (l.drop k)

-- Codebooks (R190)

/-- The code lengths of a 128 B length table. -/
def bookLens (t : List Byte) : List Nat := t.flatMap (fun b => [b.toNat % 16, b.toNat / 16])

/-- Symbols of one code length, ascending. -/
def symsOf (lens : List Nat) (l : Nat) : List Nat :=
  if l = 0 then [] else (lens.zipIdx.filter (fun p => p.1 == l)).map (fun p => p.2)

/-- The first code of each length. -/
def firstCode (lens : List Nat) : Nat → Nat
  | 0 => 0
  | l + 1 => 2 * (firstCode lens l + (symsOf lens l).length)

/-- The code of a symbol. -/
def codeOf (lens : List Nat) (s : Nat) : Nat :=
  let l := lens.getD s 0
  firstCode lens l + ((symsOf lens l).filter (· < s)).length

/-- A length table is valid. -/
def bookValid (t : List Byte) : Bool :=
  let ls := (bookLens t).filter (· != 0)
  !(ls.isEmpty) && (ls.map (fun l => 2 ^ (15 - l))).foldl (· + ·) 0 ≤ 2 ^ 15

-- Reasons (Table 07-4)

def pmMagic : Nat := 1
def pmHeader : Nat := 2
def pmEtype : Nat := 3
def pmBook : Nat := 4
def pmLength : Nat := 5
def pmCode : Nat := 6
def pmPadding : Nat := 7
def pmCrc : Nat := 8

-- The header (R187)

def rd16 (h : List Byte) (o : Nat) : Nat := leNat ((h.drop o).take 2)
def rd32 (h : List Byte) (o : Nat) : Nat := leNat ((h.drop o).take 4)
def rd8 (h : List Byte) (o : Nat) : Nat := leNat ((h.drop o).take 1)

def hdrEtype (h : List Byte) : Nat := rd8 h 2 % 32
def hdrMode (h : List Byte) : Nat := rd8 h 3 % 4
def hdrLen (h : List Byte) : Nat := rd16 h 4
def hdrBook (h : List Byte) : Nat := rd8 h 6 % 64

/-- The checks that the header alone decides, in their order: a reason, or none. `expect` is the type that the consumer
requires. -/
def headerReason (h : List Byte) (books : Tbl (List Byte)) (expect : Option Nat) : Option Nat :=
  let mode := hdrMode h
  let plain := mode != 2 && (hdrBook h != 0 || rd32 h 12 != 0 || hdrLen h != (if mode == 1 then 4096 else 0))
  if rd16 h 0 != 0x4750 then some pmMagic
  else if 32 ≤ rd8 h 2 || 4 ≤ rd8 h 3 || 64 ≤ rd8 h 6 || rd8 h 7 != 0 || mode == 3 || (splitOf (hdrEtype h)).isNone ||
      plain then some pmHeader
  else if expect.any (fun e => hdrEtype h != e) then some pmEtype
  else if mode != 2 then none
  else
    let bookOk := (tblFind books (hdrBook h)).any (fun t => crc32c t == rd32 h 12)
    let raw := match splitOf (hdrEtype h) with
      | some p => rawBytes p
      | none => 0
    if !bookOk then some pmBook
    else if hdrLen h ≤ raw || 4096 ≤ hdrLen h then some pmLength
    else none

-- Decoding (R192)

/-- One code from the bits that are left: the symbol and the rest. -/
def takeCode (lens : List Nat) : Nat → Nat → Nat → List Bool → Except Nat (Nat × List Bool)
  | 0, _, _, _ => .error pmCode
  | _ + 1, _, _, [] => .error pmLength
  | fuel + 1, len, code, b :: rest =>
    let code := 2 * code + boolNat b
    let f := firstCode lens (len + 1)
    let ss := symsOf lens (len + 1)
    if f ≤ code && code < f + ss.length then .ok (ss.getD (code - f) 0, rest)
    else takeCode lens fuel (len + 1) code rest

/-- The symbols of `n` units, and the bits after the last code. -/
def takeSyms (lens : List Nat) (h : Nat) : Nat → List Bool → Except Nat (List Nat × List Bool)
  | 0, bs => .ok ([], bs)
  | n + 1, bs =>
    match takeCode lens 15 0 0 bs with
    | .error e => .error e
    | .ok (s, rest) =>
      if 2 ^ h ≤ s then .error pmCode
      else
        match takeSyms lens h n rest with
        | .error e => .error e
        | .ok (ss, r) => .ok (s :: ss, r)

/-- The decoded bytes of a CODED payload. -/
def decodeCoded (p : Split) (lens : List Nat) (clen : Nat) (pay : List Byte) : Except Nat (List Byte) :=
  let raw := rawBytes p
  match takeSyms lens p.h p.units (bitList ((pay.take clen).drop raw)) with
  | .error e => .error e
  | .ok (syms, rest) =>
    if 8 ≤ rest.length then .error pmLength
    else if rest.any (fun b => b) then .error pmPadding
    else
      let raws := (pieces p.l p.units (bitList (pay.take raw))).map bitsNat
      .ok ((syms.zip raws).flatMap (fun x => leBytes p.unitBytes (unitOf p x.1 x.2)))

/-- The decoder: 4,096 bytes or one reason. -/
def pmDecode (h pay : List Byte) (books : Tbl (List Byte)) (expect : Option Nat) : Except Nat (List Byte) :=
  match headerReason h books expect with
  | some e => .error e
  | none =>
    let out : Except Nat (List Byte) :=
      if hdrMode h == 0 then .ok (List.replicate 4096 0)
      else if hdrMode h == 1 then .ok (pay.take 4096)
      else
        match splitOf (hdrEtype h) with
        | none => .error pmHeader
        | some p => decodeCoded p (bookLens (tblGet [] books (hdrBook h))) (hdrLen h) pay
    match out with
    | .error e => .error e
    | .ok bs => if crc32c bs != rd32 h 8 then .error pmCrc else .ok bs

-- Encoding (R194)

/-- The header of a block. -/
def mkHeader (et mode clen book dcrc tag : Nat) : List Byte :=
  leBytes 2 0x4750 ++ leBytes 1 et ++ leBytes 1 mode ++ leBytes 2 clen ++ leBytes 1 book ++ leBytes 1 0 ++
  leBytes 4 dcrc ++ leBytes 4 tag

/-- The bits of a symbol's code, most significant code bit first. -/
def codeBits (lens : List Nat) (s : Nat) : List Bool := (natBits (lens.getD s 0) (codeOf lens s)).reverse

/-- Header and payload of one block. -/
def pmEncode (plain : List Byte) (et book : Nat) (table : List Byte) : List Byte × List Byte :=
  let crc := crc32c plain
  if plain.all (· == 0) then (mkHeader et 0 0 0 crc 0, [])
  else
    match splitOf et with
    | none => (mkHeader et 1 4096 0 crc 0, plain)
    | some p =>
      let lens := bookLens table
      let units := (pieces p.unitBytes p.units plain).map leNat
      let syms := units.map (unitSym p)
      let bits := syms.flatMap (codeBits lens)
      let clen := rawBytes p + (bits.length + 7) / 8
      if syms.all (fun s => lens.getD s 0 != 0) && clen < 4096 then
        (mkHeader et 2 clen book crc (crc32c table),
          bitsBytes (rawBytes p) (units.flatMap (fun u => natBits p.l (unitRaw p u))) ++ bitsBytes ((bits.length + 7) / 8) bits)
      else (mkHeader et 1 4096 0 crc 0, plain)

/-- Symbol counts of plain bytes, each saturating (Table 07-5). -/
def countSyms (p : Split) (plain : List Byte) (counts : List Nat) : List Nat :=
  let units := (pieces p.unitBytes (plain.length / p.unitBytes) plain).map leNat
  units.foldl (fun c u => listModify (fun n => min 0xFFFFFFFF (n + 1)) c (unitSym p u)) counts

/-- Bytes a block takes in a packed stream (R201). -/
def packedLen (clen : Nat) : Nat := 16 + 16 * ((clen + 15) / 16)

end Sys2Proof.Machine
end

