-- ==== Sys2Proof/Machine/NearMem.lean ====
section
/-!
DEFINITION. The channel engines and stack reducers (spec/06): descriptors and their checks, issue, admission, vector sets,
parts, the accumulate path, completion, failure.
-/
namespace Sys2Proof.Machine

open Sys2Proof

-- Descriptor fields (Tables 06-2, 06-6, 06-8, 06-9)

def nmMATVEC : Nat := 1
def nmGATHER : Nat := 2
def nmSCATTER : Nat := 3
def nmREDUCE : Nat := 4
def nmCLEAN : Nat := 5

def nmEtA (ws : List W64) : Nat := field (word ws 0) 8 5
def nmEtV (ws : List W64) : Nat := field (word ws 0) 13 5
def nmOet (ws : List W64) : Nat := field (word ws 0) 18 5
def nmDmode (ws : List W64) : Nat := field (word ws 0) 23 2
def nmCodec (ws : List W64) : Bool := bit (word ws 0) 25
def nmRmode (ws : List W64) : Nat := field (word ws 0) 26 2
def nmSat (ws : List W64) : Bool := bit (word ws 0) 28
def nmBarrier (ws : List W64) : Bool := bit (word ws 0) 29
def nmReload (ws : List W64) : Bool := bit (word ws 0) 30
def nmRowscale (ws : List W64) : Bool := bit (word ws 0) 31
def nmVecs (ws : List W64) : Nat := field (word ws 0) 32 3 + 1

/-- WBASE, TBASE, SBASE of REDUCE, BASE. -/
def nmBase (ws : List W64) : Nat := field (word ws 1) 0 48
def nmTk (ws : List W64) : Nat := 32 * 2 ^ field (word ws 1) 48 3
def nmRowTiles (ws : List W64) : Nat := field (word ws 2) 0 16 + 1
def nmKTiles (ws : List W64) : Nat := field (word ws 2) 16 16 + 1
def nmRstride (ws : List W64) : Nat := field (word ws 3) 0 32
def nmKstride (ws : List W64) : Nat := field (word ws 3) 32 32
def nmVbase (ws : List W64) : Nat := field (word ws 4) 0 48
def nmVstride (ws : List W64) : Nat := field (word ws 4) 48 16 * 16
def nmDstride (ws : List W64) : Nat := field (word ws 5) 48 16 * 16
def nmScales (ws : List W64) : Nat := field (word ws 6) 0 48
/-- Row length in bytes; index list; rows; table pitch in bytes. -/
def nmRow (ws : List W64) : Nat := (field (word ws 1) 48 8 + 1) * 16
def nmIbase (ws : List W64) : Nat := field (word ws 2) 0 48
def nmCount (ws : List W64) : Nat := field (word ws 3) 0 32
def nmPitch (ws : List W64) : Nat := field (word ws 3) 32 32 * 16
/-- SSTRIDE of REDUCE, LEN of CLEAN. -/
def nmStride (ws : List W64) : Nat := field (word ws 2) 0 48
def nmSources (ws : List W64) : Nat := field (word ws 3) 32 4 + 1

/-- Under LS_STORE, bits 31:0 of DBASE are a local-store address (Table 06-6). -/
def nmLocal (ws : List W64) : Bool := nmDmode ws == 2
def nmDbase (ws : List W64) : Nat := if nmLocal ws then field (word ws 5) 0 32 else field (word ws 5) 0 48

def bitsOfType (et : Nat) : Nat := match etypeOf et with
  | some t => etypeBits t
  | none => 8

/-- A weight type of the integer path. -/
def nmInt (ws : List W64) : Bool := nmEtA ws == 9 || nmEtA ws == 10

/-- Tile rows for TK (Table 06-5): a tile is 2 KiB. -/
def nmTr (ws : List W64) : Nat := 16384 / bitsOfType (nmEtA ws) / nmTk ws

/-- Rows of the matrix, elements of a vector, bytes of a vector. -/
def nmM (ws : List W64) : Nat := nmTr ws * nmRowTiles ws
def nmK (ws : List W64) : Nat := nmTk ws * nmKTiles ws
def nmVecBytes (ws : List W64) : Nat := nmK ws * bitsOfType (nmEtV ws) / 8

/-- The result of a row is binary32; else it is INT32. -/
def nmFloat (ws : List W64) : Bool := !nmInt ws || nmRowscale ws

/-- Output type of a MATVEC's stored element: OETYPE. -/
def nmOutBits (ws : List W64) : Nat := bitsOfType (nmOet ws)

/-- The block of tile (r, kt). -/
def tileBlock (ws : List W64) (r kt : Nat) : Nat := nmBase ws / 2048 + r * nmRstride ws + kt * nmKstride ws

-- Channels of an operation

/-- Channel ranks that hold tiles. -/
def tileRanks (ws : List W64) (n : Nat) : List Nat :=
  if n = 0 then []
  else
    let rs := ((List.range (min n (nmRowTiles ws))).map (fun r => (nmBase ws / 2048 + r * nmRstride ws) % n)).eraseDups
    let ks := ((List.range (min n (nmKTiles ws))).map (fun k => k * nmKstride ws % n)).eraseDups
    (List.range n).filter (fun i => rs.any (fun a => ks.any (fun b => (a + b) % n == i)))

/-- Channel ranks that a range of bytes touches. -/
def rangeRanks (a len n : Nat) : List Nat :=
  if n = 0 || len = 0 then []
  else
    let b0 := a / 2048
    let cnt := (a + len - 1) / 2048 - b0 + 1
    (List.range n).filter (fun i => (List.range (min n cnt)).any (fun j => (b0 + j) % n == i))

/-- The channels that need a part (R165, R174, R176). -/
def nmPartChans (s : State) (sag : Nat) (ws : List W64) : List Nat :=
  let own := ownedChannels (sagOf s sag)
  let pick (is : List Nat) : List Nat := is.map (fun i => own.getD i 0)
  match kindOf ws with
  | 1 => pick (tileRanks ws own.length)
  | 2 => own
  | 3 => own
  | 4 => pick (rangeRanks (if nmLocal ws then nmBase ws else nmDbase ws) (nmCount ws * bitsOfType (nmEtA ws) / 8) own.length)
  | _ => []

/-- A stack has an enabled channel engine that belongs to the saggar. -/
def stackHasEngine (s : State) (own : List Nat) (st : Nat) : Bool := own.any (fun p => p / 16 == st && (chanOf s p).engine)

-- The checks of R167

/-- Reserved bits, by OP. -/
def nmReservedOk (ws : List W64) : Bool :=
  let k := kindOf ws
  let z (i : Nat) : Bool := word ws i == 0#64
  field (word ws 0) 35 29 == 0 &&
  (if k == 1 then field (word ws 1) 51 13 == 0 && field (word ws 2) 32 32 == 0 && field (word ws 6) 48 16 == 0
   else if k == 2 || k == 3 then field (word ws 1) 56 8 == 0 && field (word ws 2) 48 16 == 0 && z 4 && z 6
   else if k == 4 then field (word ws 1) 48 16 == 0 && field (word ws 2) 48 16 == 0 && field (word ws 3) 36 28 == 0 &&
     field (word ws 5) 48 16 == 0 && z 4 && z 6
   else field (word ws 1) 48 16 == 0 && field (word ws 2) 48 16 == 0 && z 3 && z 4 && z 5 && z 6)

/-- A pair of Table 06-5, with its limit on TK. -/
def nmPairOk (ws : List W64) : Bool :=
  let a := nmEtA ws
  let v := nmEtV ws
  let flt := v == 1 || v == 2 || v == 3 || v == 4
  ((a == 3 || a == 4 || a == 7) && flt) || ((a == 9 || a == 10) && v == 9) ||
  ((a == 1 || a == 2) && (v == 1 || v == 2) && nmTk ws ≤ 1024)

/-- Every ETYPE field of word 0 names a type (R82). -/
def nmTypesOk (ws : List W64) : Bool :=
  (etypeOf (nmEtA ws)).isSome && (etypeOf (nmEtV ws)).isSome && (etypeOf (nmOet ws)).isSome

/-- OETYPE with DMODE and RMODE (R168, R171, R94 to R97). -/
def nmOutOk (ws : List W64) : Bool :=
  if nmDmode ws == 1 then nmOet ws == (if nmFloat ws then 0 else 8) && nmRmode ws == 0
  else
    match etypeOf (nmOet ws) with
    | none => false
    | some o =>
      cvtLegal (if nmFloat ws then .fp32 else .int32) o (nmRmode ws) &&
      !(nmInt ws && nmRowscale ws && (etypeFmt o).isNone)

/-- The destination lies in the carve-out or in the block's local store. -/
def nmDestOk (s : State) (sag : Nat) (ws : List W64) (lsBytes a len : Nat) : Bool :=
  if nmLocal ws then a + len ≤ lsBytes else a + len ≤ carveSize s sag

/-- Status of Table 06-4 of a descriptor, in the order of the table; 0 when every check passes. -/
def nmCheck (s : State) (sag : Nat) (ws : List W64) (kernel : Bool) (lsBytes : Nat) : Nat :=
  let k := kindOf ws
  let own := ownedChannels (sagOf s sag)
  let cap := carveSize s sag
  let chans := nmPartChans s sag ws
  let el := bitsOfType (nmEtA ws) / 8
  let aligned := field (word ws 5) 0 48 % 16 == 0
  if k = 0 || 5 < k || nmDmode ws == 3 || nmRmode ws == 3 || !(nmReservedOk ws) || (k == 1 && field (word ws 1) 48 3 == 7) then 1
  else if nmLocal ws && !kernel then 2
  else if k = 1 then
    if !(nmPairOk ws) || !(nmOutOk ws) then 2
    else if nmBase ws % 2048 != 0 || nmVbase ws % 16 != 0 || !aligned || (nmRowscale ws && nmScales ws % 4 != 0) ||
        cap < (tileBlock ws (nmRowTiles ws - 1) (nmKTiles ws - 1) + 1) * 2048 ||
        cap < nmVbase ws + (nmVecs ws - 1) * nmVstride ws + nmVecBytes ws ||
        (nmRowscale ws && cap < nmScales ws + 4 * nmM ws) ||
        !(nmDestOk s sag ws lsBytes (nmDbase ws + (nmVecs ws - 1) * nmDstride ws) ((nmM ws * nmOutBits ws + 7) / 8)) then 3
    else if 65536 < nmVecs ws * nmVecBytes ws then 4
    else if chans.any (fun p => !(stackHasEngine s own (p / 16))) then 5
    else if nmCodec ws && chans.any (fun p => !((stackOf s (p / 16)).codec)) then 6
    else if s.pwr.caps.nm = 0 then 7
    else 0
  else if k = 2 || k = 3 then
    let rl := nmRow ws
    if nmDmode ws == 1 || (k == 3 && nmLocal ws) then 2
    else if nmBase ws % 16 != 0 || nmIbase ws % 4 != 0 || !aligned || 2048 < rl || cap < nmIbase ws + 4 * nmCount ws ||
        (nmCount ws != 0 && !(nmDestOk s sag ws lsBytes (nmDbase ws + (nmCount ws - 1) * nmDstride ws) rl)) then 3
    else if own.any (fun p => !(stackHasEngine s own (p / 16))) then 5
    else if s.pwr.caps.nm = 0 then 7
    else 0
  else if k = 4 then
    if !(nmEtA ws == 0 || nmEtA ws == 1 || nmEtA ws == 2 || nmEtA ws == 8) || !(nmTypesOk ws) || nmRmode ws != 0 then 2
    else if nmBase ws % 16 != 0 || !aligned ||
        (nmCount ws != 0 && (cap < nmBase ws + (nmSources ws - 1) * nmStride ws + nmCount ws * el ||
          !(nmDestOk s sag ws lsBytes (nmDbase ws) (nmCount ws * el)))) then 3
    else 0
  else if !(nmTypesOk ws) then 2
  else if nmBase ws % 128 != 0 || nmStride ws % 128 != 0 || cap < nmBase ws + nmStride ws then 3
  else 0

/-- A rejection counts on every stack that holds a channel of the saggar, but not for a SEALED saggar (R184, R395). -/
def nmReject (s : State) (sag : Nat) : State :=
  if isSealed s sag then s
  else
    { s with memStacks := s.memStacks.zipIdx.map (fun p =>
        if (ownedChannels (sagOf s sag)).any (fun c => c / 16 == p.2) then { p.1 with rejectCount := sat p.1.rejectCount 1 }
        else p.1) }

-- Issue (R165, R179)

/-- An operation that does nothing: COUNT 0 or LEN 0. -/
def nmEmpty (ws : List W64) : Bool :=
  match kindOf ws with
  | 2 => nmCount ws == 0
  | 3 => nmCount ws == 0
  | 4 => nmCount ws == 0
  | _ => false

/-- A new operation: a share for every stack that holds a channel of the saggar. -/
def nmEnqueue (s : State) (sag : SagId) (ctx : Nat) (issuer : NmIssuer) (ws : List W64) : State :=
  let r := takeId s
  let chans := nmPartChans r.2 sag.val ws
  let own := ownedChannels (sagOf r.2 sag.val)
  let sts := (List.finRange 16).filter (fun st => own.any (fun p => p / 16 == st.val))
  let mk (st : StackId) : NmShare :=
    let ps : List ChanId := (chans.filter (fun p => p / 16 == st.val)).map (fun p => BitVec.toFin (BitVec.ofNat 8 p))
    { stack := st, parts := ps, left := ps }
  let op : NmOp := { id := r.1, sag, ctx, issuer, words := ws, shares := if nmEmpty ws then [] else sts.map mk }
  { r.2 with nmOps := r.2.nmOps ++ [op] }

/-- Operations of a core that have been issued and have not completed. -/
def nmHeld (s : State) (core : Nat) : Nat :=
  (s.nmOps.filter (fun o => match o.issuer with
    | .block c _ _ _ _ _ _ => c.val == core
    | .node _ => false)).length

/-- NM.ISSUE of lanes of a group: the descriptor is read, checked and sent, and the lanes go on; with 16 operations held
they block. -/
def nmIssueNow (s : State) (i : Issue) (ls : List Nat) (desc dword : Nat) : State :=
  let b := (issueGrp s i).blk
  let info := issueInfo s i
  let lead := ls.headD 0
  if 16 ≤ nmHeld s i.core then modIssueGrp s i (fun g => holdLanes g ls .nm i.pc (.nm desc dword))
  else
    let ws := wordsOf 8 (blockBytes s i.core b desc 64)
    let st := nmCheck s info.sag.val ws true info.lsBytes
    if st != 0 then
      let s := modCore (nmReject s info.sag.val) i.core (fun k => { k with faultCount := sat k.faultCount 1 })
      launchFault s info 2 10 st (lanePlace s i lead) 0
    else
      let pl := lanePlace s i lead
      let issuer : NmIssuer := .block (BitVec.toFin (BitVec.ofNat 8 i.core)) b info pl.lin i.pc pl.thread dword
      modIssueGrp (nmEnqueue s info.sag info.ctx issuer ws) i (fun g => passLanes g ls 8)

def nmForm : GForm := { d := .unused, a := .uniform 1, b := .uniform 1, long := false }

/-- NM_ISSUE. -/
def execNmIssue (p : Place) (f : FmtG) (s : State) : Host.Outcome State Fault Refusal :=
  .next (gSystem p nmForm f true (fun s i ls =>
    let lsb := (issueInfo s i).lsBytes
    let desc := uValue (issueGrp s i) f.a 1 * 128
    let dword := uValue (issueGrp s i) f.b 1 * 8
    if lsb < desc + 64 then faultSubset s i ls .localBounds desc
    else if lsb < dword + 8 then faultSubset s i ls .localBounds dword
    else nmIssueNow (passOthers s i ls) i ls desc dword) s)

/-- The subsets of a core that wait for a free operation issue, in turn, while there is room. -/
def nmWake (s : State) (c : Nat) : State :=
  settle ((heldOps (coreOf s c)).foldl (fun t x => match x.2.2.op with
    | .nm desc dword =>
      if nmHeld t c < 16 && (grpOf (subOf (coreOf t c) x.1) x.2.1).held.contains x.2.2 then
        let t := modGrp t c x.1 x.2.1 (fun g =>
          modLanes (dropHeld g x.2.2.lanes) (maskLanes x.2.2.lanes) (fun _ l => { l with wait := .ready }))
        nmIssueNow t (heldIssue c x.1 x.2.1 x.2.2) (maskLanes x.2.2.lanes) desc dword
      else t
    | _ => t) s) c

-- Failure (R182)

def nmOpOf (s : State) (id : Nat) : Option NmOp := s.nmOps.find? (fun o => o.id == id)

def modNmOp (s : State) (id : Nat) (f : NmOp → NmOp) : State :=
  { s with nmOps := s.nmOps.map (fun o => if o.id == id then f o else o) }

def modShare (s : State) (id : Nat) (st : StackId) (f : NmShare → NmShare) : State :=
  modNmOp s id (fun o => { o with shares := o.shares.map (fun h => if h.stack == st then f h else h) })

/-- The operation stops in every stack with a status: the launch is aborted, or the node fails. -/
def nmStop (s : State) (op : NmOp) (status addr : Nat) : State :=
  let code := if status == 9 || status == 10 then 8 else 10
  let s := forgetNmOp s op.id
  match op.issuer with
  | .node n => nodeFail s n 2 code status (BitVec.ofNat 64 addr)
  | .block core _ info lin pc thread _ =>
    settleAll (launchFault s info 2 code status { core := core.val, lin, thread, pc } (BitVec.ofNat 64 addr))

/-- The block that issued an operation, while it is resident: it may retire with operations open. -/
def issuerBlock (s : State) (op : NmOp) : Option (CoreId × SlotId) := match op.issuer with
  | .block core slot info lin _ _ _ =>
    match tblFind (coreOf s core.val).blocks slot.val with
    | some b => if b.info.id == info.id && b.lin == lin then some (core, slot) else none
    | none => none
  | .node _ => none

/-- A result in the local store of the issuing block (LS_STORE, R171). -/
def writeLocal (s : State) (op : NmOp) (f : Block → Block) : State := match issuerBlock s op with
  | some p => modBlock s p.1.val p.2.val f
  | none => s

/-- A part stopped with DATA or KEY (Table 06-10). -/
def nmDataErr (s : State) (sag p : Nat) : State :=
  if isSealed s sag then s else modChan s p (fun c => { c with dataErr := true, dataErrCount := sat c.dataErrCount 1 })

-- Order (R166, R178)

/-- Two operations have one issuer. -/
def sameIssuer : NmIssuer → NmIssuer → Bool
  | .block _ _ i n _ _ _, .block _ _ i' n' _ _ _ => i.id == i'.id && n == n'
  | .node n, .node n' => n.ring == n'.ring
  | _, _ => false

/-- BARRIER: no earlier operation of the issuer is left. -/
def nmBarrierOk (s : State) (op : NmOp) : Bool :=
  !(nmBarrier op.words) || !((s.nmOps.takeWhile (fun o => o.id != op.id)).any (fun o => sameIssuer o.issuer op.issuer))

/-- The global stores of the issuing group have drained. -/
def nmStoresDrained (s : State) (op : NmOp) : Bool := match op.issuer with
  | .node _ => true
  | .block core _ info _ _ thread _ => match issuerBlock s op with
    | none => true
    | some p =>
      let k := coreOf s core.val
      match (blockOf k p.2.val).groups[thread / 32]? with
      | none => true
      | some g => !((subOf k g.1.val).buffer.any (fun e => e.writers.any (fun w => w.1 == info.id && w.2.1 == g.2)))

-- Admission (R165)

/-- Running shares of a stack: the occupied entries of its operation table. -/
def stackShares (s : State) (st : Nat) : List (NmOp × NmShare) :=
  s.nmOps.flatMap (fun o => (o.shares.filter (fun h => h.stack.val == st && h.phase == .running)).map (fun h => (o, h)))

/-- Occupied part-queue entries of a channel. -/
def partsQueued (s : State) (p : Nat) : Nat :=
  ((stackShares s (p / 16)).filter (fun x => x.2.parts.any (fun q => q.val == p))).length

/-- Saggars with channels in a stack. -/
def sagsIn (s : State) (st : Nat) : List Nat :=
  (List.range 16).filter (fun k => (ownedChannels (sagOf s k)).any (fun p => p / 16 == st))

/-- The stack can take one more operation of a saggar with these parts. -/
def stackFits (s : State) (st sag : Nat) (parts : List ChanId) : Bool :=
  let used := stackShares s st
  let cnt (k : Nat) : Nat := (used.filter (fun x => x.1.sag.val == k)).length
  let overs := ((List.range 16).map (fun k => cnt k - 4)).foldl (· + ·) 0
  parts.all (fun p => partsQueued s p.val < 64) && (cnt sag < 4 || overs + 4 * (sagsIn s st).length < 64)

/-- The oldest waiting operation of a saggar in a stack. -/
def firstWaiting (s : State) (st sag : Nat) : Option (NmOp × NmShare) :=
  (s.nmOps.flatMap (fun o => (o.shares.filter (fun h => h.stack.val == st && h.phase == .waiting && o.sag.val == sag)).map
    (fun h => (o, h)))).head?

/-- NM_ADMISSION: one waiting operation of a stack is admitted, round robin across the saggars. -/
def execNmAdmission (st : StackId) (s : State) : Host.Outcome State Fault Refusal :=
  let last := (stackOf s st.val).lastSag.val
  let order := (List.range 16).map (fun i => (last + 1 + i) % 16)
  let pick := order.findSome? (fun k => match firstWaiting s st.val k with
    | some x => if stackFits s st.val k x.2.parts then some x else none
    | none => none)
  .next (match (if newWork s then pick else none) with
    | none => s
    | some x =>
      let r := takeId s
      let t := modShare r.2 x.1.id st (fun h => { h with phase := if h.parts.isEmpty then .done else .running, adm := r.1 })
      modStack t st.val (fun k => { k with lastSag := x.1.sag }))

-- INSTALL and MATVECs with CODEC (R191)

def codecKind (ws : List W64) : Nat := kindOf ws

/-- A pending INSTALL of the saggar that was admitted before number `adm` holds what was admitted later. -/
def installBefore (s : State) (sag adm : Nat) : Bool :=
  s.codecOps.any (fun o => o.sag.val == sag && codecKind o.words == 0x26 && o.id < adm)

-- Vector sets (R172)

def nmTag (op : NmOp) : VsetTag :=
  { sag := op.sag, vbase := nmVbase op.words, vstride := nmVstride op.words, vecs := nmVecs op.words, k := nmK op.words
    etype := nmEtV op.words }

/-- Inserts by order of admission. -/
def insertAdm (x : NmOp × NmShare) : List (NmOp × NmShare) → List (NmOp × NmShare)
  | [] => [x]
  | y :: ys => if x.2.adm < y.2.adm then x :: y :: ys else y :: insertAdm x ys

/-- The running MATVECs of a stack that still read their vector set, in order of admission. -/
def stackMatvecs (s : State) (st : Nat) : List (NmOp × NmShare) :=
  ((stackShares s st).filter (fun x => kindOf x.1.words == 1 && !(x.2.left.isEmpty))).foldl (fun l x => insertAdm x l) []

/-- The operation's vector set is resident. -/
def vsetReady (s : State) (st : Nat) (x : NmOp × NmShare) : Bool :=
  x.2.loaded || (!(nmReload x.1.words) && (stackOf s st).vset.any (fun v => v.tag == nmTag x.1))

/-- The MATVECs that work on the resident set, and the first that waits for its own. -/
def vsetUsers (s : State) (st : Nat) : List (NmOp × NmShare) := (stackMatvecs s st).takeWhile (vsetReady s st)
def vsetNext (s : State) (st : Nat) : Option (NmOp × NmShare) := ((stackMatvecs s st).dropWhile (vsetReady s st)).head?

/-- Reads the vectors one by one. -/
def readVectors (s : State) (op : NmOp) (env : MemEnv) : Nat → Nat → Option (State × Except (MemErr × Nat) (List Byte))
  | _, 0 => some (s, .ok [])
  | v, n + 1 =>
    match readCoh s op.sag.val (nmVbase op.words + v * nmVstride op.words) (nmVecBytes op.words) env with
    | none => none
    | some (t, .error e) => some (t, .error e)
    | some (t, .ok bs) =>
      match readVectors t op (envAfter env (nmVbase op.words + v * nmVstride op.words) (nmVecBytes op.words)) (v + 1) n with
      | none => none
      | some (t, .error e) => some (t, .error e)
      | some (t, .ok rest) => some (t, .ok (bs ++ rest))

/-- VECTOR_SET_FETCH: the set of the next MATVEC enters the staging buffer. -/
def execVectorSetFetch (st : StackId) (env : MemEnv) (s : State) : Host.Outcome State Fault Refusal :=
  .next (meets env s (match vsetNext s st.val with
    | none => s
    | some x =>
      if !(nmBarrierOk s x.1) || !(nmStoresDrained s x.1) || (stackOf s st.val).staging.any (fun v => v.op == x.1.id) then s
      else
        match readVectors s x.1 env 0 (nmVecs x.1.words) with
        | none => s
        | some (t, .error e) => nmStop t x.1 (errStatus e.1) e.2
        | some (t, .ok bs) => modStack t st.val (fun k => { k with staging := some { tag := nmTag x.1, data := bs, op := x.1.id } })))

/-- VECTOR_SET_BROADCAST: once the engines have read the old set for the last time, the staged one becomes resident. -/
def execVectorSetBroadcast (st : StackId) (s : State) : Host.Outcome State Fault Refusal :=
  .next (match vsetNext s st.val, (stackOf s st.val).staging with
    | some x, some v =>
      if v.op == x.1.id && (vsetUsers s st.val).isEmpty then
        modStack (modShare s x.1.id st (fun h => { h with loaded := true })) st.val
          (fun k => { k with vset := some v, staging := none })
      else s
    | _, _ => s)

-- MATVEC parts (R170)

/-- The tiles of a row tile that a channel holds, ascending. -/
def tilesIn (ws : List W64) (n rank r : Nat) : List Nat :=
  (List.range (nmKTiles ws)).filter (fun kt => tileBlock ws r kt % n == rank)

/-- All tiles of a channel, by row tile. -/
def partTiles (ws : List W64) (n rank : Nat) : List (Nat × Nat) :=
  (List.range (nmRowTiles ws)).flatMap (fun r => (tilesIn ws n rank r).map (fun kt => (r, kt)))

/-- The header area of a saggar's space begins here (R185). -/
def headerStart (s : State) (sag : Nat) : Nat := carveSize s sag - carveSize s sag / 256

/-- Header address of home row `h` in the channel of rank `i`, and the addresses of its two blocks (R186). -/
def homeHeader (s : State) (sag h i : Nat) : Nat :=
  let n := (ownedChannels (sagOf s sag)).length
  let o := headerStart s sag / n + 16 * h
  (o / 2048 * n + i) * 2048 + o % 2048

def homeBlock (n h i half : Nat) : Nat := ((2 * h + half) * n + i) * 2048

/-- Records a malformed home (R193), but not one of a SEALED saggar (R395). -/
def pmMalformed (s : State) (sag p h reason : Nat) : State :=
  if isSealed s sag then s
  else
    modStack s (p / 16) (fun k =>
      { k with malformed := true, malformedCount := sat k.malformedCount 1, lastPartition := BitVec.ofNat 4 sag
               lastReason := BitVec.ofNat 4 reason, lastHome := BitVec.ofNat 20 h, lastChannel := BitVec.ofNat 4 (p % 16) })

/-- A read from the banks of one or two halves of a home: the header and the payload's bytes. -/
def readHome (s : State) (sag h i : Nat) (env : MemEnv) : Option (State × Except (MemErr × Nat) (List Byte × List Byte)) :=
  let n := (ownedChannels (sagOf s sag)).length
  match readBank s sag (homeHeader s sag h i) 16 env with
  | none => none
  | some (t, .error e) => some (t, .error e)
  | some (t, .ok hdr) =>
    let len := if hdrMode hdr == 0 then 0 else min 4096 ((hdrLen hdr + 127) / 128 * 128)
    match readBank t sag (homeBlock n h i 0) (min 2048 len) (skipEnv env 1) with
    | none => none
    | some (t, .error e) => some (t, .error e)
    | some (t, .ok a) =>
      match readBank t sag (homeBlock n h i 1) (len - 2048) (skipEnv env 17) with
      | none => none
      | some (t, .error e) => some (t, .error e)
      | some (t, .ok b) => some (t, .ok (hdr, a ++ b))

/-- The home that a lane of the codec decoded last (R200): home row, channel rank, and its bytes. The lane of a channel keeps it for
one part: a part that starts later reads the home again, so that it observes what was written since (R177; log 79). -/
structure Decoded where
  row : Nat
  rank : Nat
  data : List Byte
deriving DecidableEq, Repr

/-- How reading a tile ended: its bytes, and the home decoded for it, or a status with an address. -/
def readTile (s : State) (op : NmOp) (b : Nat) (kept : Option Decoded) (env : MemEnv) :
    Option (State × Except (Nat × Nat) (List Byte × Option Decoded)) :=
  let sag := op.sag.val
  if !(nmCodec op.words) then
    (readBank s sag (b * 2048) 2048 env).map (fun x => match x with
      | (t, .error e) => (t, .error (errStatus e.1, e.2))
      | (t, .ok bs) => (t, .ok (bs, none)))
  else if headerStart s sag ≤ b * 2048 then some (s, .error (3, b * 2048))
  else
    let n := (ownedChannels (sagOf s sag)).length
    let i := b % n
    let h := b / n / 2
    let half (out : List Byte) : List Byte := (out.drop (b / n % 2 * 2048)).take 2048
    match (if kept.any (fun k => k.row == h && k.rank == i) then kept else none) with
    | some k => some (s, .ok (half k.data, kept))
    | none =>
      match readHome s sag h i env with
      | none => none
      | some (t, .error e) => some (t, .error (errStatus e.1, e.2))
      | some (t, .ok (hdr, pay)) =>
        match pmDecode hdr pay (sagOf t sag).books (some (nmEtA op.words)) with
        | .error r => some (pmMalformed t sag ((ownedChannels (sagOf t sag)).getD i 0) h r, .error (9, b * 2048))
        | .ok out => some (t, .ok (half out, some ⟨h, i, out⟩))

/-- The lines that a tile may take: 16 of a plain one, 33 of a coded home with its header. -/
def tileLines (op : NmOp) : Nat := if nmCodec op.words then 33 else 16

/-- Reads the tiles of a channel in order. -/
def readTiles (s : State) (op : NmOp) (kept : Option Decoded) (env : MemEnv) :
    List (Nat × Nat) → Option (State × Except (Nat × Nat) (List (Nat × Nat × List Byte)))
  | [] => some (s, .ok [])
  | rk :: rest =>
    match readTile s op (tileBlock op.words rk.1 rk.2) kept env with
    | none => none
    | some (t, .error e) => some (t, .error e)
    | some (t, .ok (bs, kept)) =>
      match readTiles t op kept (skipEnv env (tileLines op)) rest with
      | none => none
      | some (t, .error e) => some (t, .error e)
      | some (t, .ok l) => some (t, .ok ((rk.1, rk.2, bs) :: l))

/-- Element `i` of `w` bits. -/
def elemAt (bs : List Byte) (w i : Nat) : Nat := bitsAt bs (i * w) w

/-- One chunk of 32 products added to a partial. -/
def mvChunk (ws : List W64) (tile vset : List Byte) (i v kt j : Nat) (acc : W32) : W32 :=
  let tk := nmTk ws
  let wa := bitsOfType (nmEtA ws)
  let wv := bitsOfType (nmEtV ws)
  let ks := (List.range 32).map (fun q => (elemAt tile wa (i * tk + 32 * j + q), elemAt vset wv (v * nmK ws + kt * tk + 32 * j + q)))
  match etypeOf (nmEtA ws), etypeOf (nmEtV ws) with
  | some a, some x =>
    if nmInt ws then
      acc + BitVec.ofInt 32 ((ks.map (fun p => sintOf wa p.1 * sintOf wv p.2)).foldl (· + ·) 0)
    else round32 (addF (val32 acc) (sumProducts (ks.map (fun p => mulF (elemVal a p.1) (elemVal x p.2)))))
  | _, _ => acc

/-- The partial of a row over the channel's tiles of its row tile. -/
def mvPartial (ws : List W64) (tiles : List (Nat × Nat × List Byte)) (vset : List Byte) (r i v : Nat) : W32 :=
  (tiles.filter (fun t => t.1 == r)).foldl (fun acc t =>
    (List.range (nmTk ws / 32)).foldl (fun acc j => mvChunk ws t.2.2 vset i v t.2.1 j acc) acc) 0

/-- The partials of a channel: channel, row, vector, value. -/
def mvPartials (ws : List W64) (p : ChanId) (tiles : List (Nat × Nat × List Byte)) (vset : List Byte) :
    List (ChanId × Nat × Nat × W32) :=
  ((tiles.map (fun t => t.1)).eraseDups).flatMap (fun r =>
    (List.range (nmTr ws)).flatMap (fun i =>
      (List.range (nmVecs ws)).map (fun v => (p, r * nmTr ws + i, v, mvPartial ws tiles vset r i v))))

-- The stack reducer

/-- Sums the channel partials of a row in an order of the channels. -/
def mvSum (int : Bool) (ps : List (ChanId × Nat × Nat × W32)) (order : List ChanId) (m v : Nat) : W32 :=
  let here := ps.filter (fun q => q.2.1 == m && q.2.2.1 == v)
  let sorted := order.filterMap (fun c => (here.find? (fun q => q.1 == c)).map (fun q => q.2.2.2)) ++
    (here.filter (fun q => !(order.contains q.1))).map (fun q => q.2.2.2)
  sorted.foldl (fun y p => if int then y + p else round32 (addF (val32 y) (val32 p))) 0

/-- The row factor applied. -/
def mvScale (ws : List W64) (factors : List Byte) (m : Nat) (y : W32) : W32 :=
  if nmRowscale ws then
    let x : FVal := if nmInt ws then val32 (round32 (intVal y.toInt)) else val32 y
    round32 (mulF x (val32 (BitVec.ofNat 32 (elemAt factors 32 m))))
  else y

/-- Adds updates to the accumulate paths of their destinations' stacks, one line's elements at a time. `es` is element
addresses in ascending order with the words to add. -/
def accPush (s : State) (sag : SagId) (etype : Nat) (src : AccSource) (es : List (Nat × W32)) : State :=
  let lines := (es.map (fun e => e.1 / 128)).eraseDups
  lines.foldl (fun t n =>
    let here := es.filter (fun e => e.1 / 128 == n)
    match here, mapAddr t sag.val (n * 128) with
    | e :: _, some (p, _) =>
      modStack t (p / 16) (fun k => { k with accQueue := k.accQueue ++
        [{ sag, addr := e.1, etype, vals := here.map (fun x => x.2), src }] })
    | _, _ => t) s

/-- Writes the results of a stack for a MATVEC: (row, vector, result). -/
def mvWrite (s : State) (op : NmOp) (st : StackId) (res : List (Nat × Nat × W32)) (draw : Nat) (env : MemEnv) : Option (State × Except (MemErr × Nat) Unit) :=
  let ws := op.words
  if nmDmode ws == 1 then
    let vs := List.range (nmVecs ws)
    some (vs.foldl (fun t v => accPush t op.sag (nmOet ws) (.op op.id st)
      ((res.filter (fun x => x.2.1 == v)).map (fun x => (nmDbase ws + v * nmDstride ws + x.1 * 4, x.2.2)))) s, .ok ())
  else
    match etypeOf (nmOet ws) with
    | none => some (s, .ok ())
    | some o =>
      let w := etypeBits o
      let es := res.zipIdx.map (fun (x : (Nat × Nat × W32) × Nat) =>
        ((nmDbase ws + x.1.2.1 * nmDstride ws) * 8 + x.1.1 * w,
          convert (if nmFloat ws then .fp32 else .int32) o (rmode (nmRmode ws) draw x.2) (nmSat ws) x.1.2.2.toNat))
      let t := placeElems w es
      if nmLocal ws then some (writeLocal s op (fun k => lsMasked k t), .ok ())
      else writeMasked s op.sag.val t env (linesOf t)

/-- The stack's results of a MATVEC once every part is in. -/
def mvFinish (s : State) (op : NmOp) (st : StackId) (ps : List (ChanId × Nat × Nat × W32)) (order : List ChanId) (env : MemEnv) :
    Option (State × Except (MemErr × Nat) Unit) :=
  let ws := op.words
  let keys := (ps.map (fun q => (q.2.1, q.2.2.1))).eraseDups
  let sums := keys.map (fun k => (k.1, k.2, mvSum (nmInt ws) ps order k.1 k.2))
  let d := if nmRmode ws == 2 then takeFree s else (0, s)
  if nmRowscale ws then
    match readCoh d.2 op.sag.val (nmScales ws) (4 * nmM ws) env with
    | none => none
    | some (t, .error e) => some (t, .error e)
    | some (t, .ok fs) =>
      mvWrite t op st (sums.map (fun x => (x.1, x.2.1, mvScale ws fs x.1 x.2.2))) d.1 (envAfter env (nmScales ws) (4 * nmM ws))
  else mvWrite d.2 op st sums d.1 env

-- GATHER and SCATTER parts (R174)

/-- Address of table row of an index, and whether it stops the operation. -/
def rowAddr (ws : List W64) (idx : Nat) : Nat := nmBase ws + idx * nmPitch ws

def rowStatus (cap : Nat) (ws : List W64) (a : Nat) : Nat :=
  if cap < a + nmRow ws then 3 else if 2048 < a % 2048 + nmRow ws then 8 else 0

/-- The indices before the first that stops, with their numbers, and that one's status and address. -/
def goodRows (cap : Nat) (ws : List W64) : List (Nat × Nat) → List (Nat × Nat) × Option (Nat × Nat)
  | [] => ([], none)
  | (i, idx) :: rest =>
    let a := rowAddr ws idx
    let st := rowStatus cap ws a
    if st != 0 then ([], some (st, a))
    else
      let r := goodRows cap ws rest
      ((i, a) :: r.1, r.2)

/-- Moves rows one by one, in index order. -/
def moveRows (s : State) (op : NmOp) (env : MemEnv) : List (Nat × Nat) → Option (State × Except (MemErr × Nat) Unit)
  | [] => some (s, .ok ())
  | (i, a) :: rest =>
    let ws := op.words
    let d := nmDbase ws + i * nmDstride ws
    let rd := if kindOf ws == 2 then readBank s op.sag.val a (nmRow ws) env else readCoh s op.sag.val d (nmRow ws) env
    let env1 := envAfter env (if kindOf ws == 2 then a else d) (nmRow ws)
    let dst := if kindOf ws == 3 then a else d
    match rd with
    | none => none
    | some (t, .error e) => some (t, .error e)
    | some (t, .ok bs) =>
      let wr : Option (State × Except (MemErr × Nat) Unit) :=
        if kindOf ws != 3 && nmLocal ws then some (writeLocal t op (fun k => lsWrite k d bs), .ok ())
        else writeMem t op.sag.val dst bs env1
      match wr with
      | none => none
      | some (t, .error e) => some (t, .error e)
      | some (t, .ok _) => moveRows t op (if nmLocal ws then env1 else envAfter env1 dst (nmRow ws)) rest

-- REDUCE parts (R175)

/-- Destination pieces of a REDUCE that a channel holds: byte offset from the base and length, by 2 KiB block of `base`. -/
def reducePieces (base len n rank : Nat) : List (Nat × Nat) :=
  if len = 0 || n = 0 then []
  else
    (List.range ((base + len - 1) / 2048 - base / 2048 + 1)).filterMap (fun j =>
      let b := base / 2048 + j
      if b % n == rank then
        let lo := max base (b * 2048)
        let hi := min (base + len) (b * 2048 + 2048)
        some (lo - base, hi - lo)
      else none)

/-- One source added, element by element. -/
def reduceAdd (et : EType) (acc : List W32) (bs : List Byte) : List W32 :=
  let w := etypeBits et
  acc.zipIdx.map (fun (x : W32 × Nat) =>
    if et == .int32 then x.1 + BitVec.ofNat 32 (elemAt bs w x.2)
    else round32 (addF (val32 x.1) (elemVal et (elemAt bs w x.2))))

/-- The sums of a piece: source 0 in binary32 or INT32, then the others in order. -/
def reduceSum (s : State) (op : NmOp) (et : EType) (off len : Nat) (env : MemEnv) :
    Nat → Nat → List W32 → Option (State × Except (MemErr × Nat) (List W32))
  | _, 0, acc => some (s, .ok acc)
  | j, n + 1, acc =>
    let ws := op.words
    match readCoh s op.sag.val (nmBase ws + j * nmStride ws + off) len env with
    | none => none
    | some (t, .error e) => some (t, .error e)
    | some (t, .ok bs) =>
      let w := etypeBits et
      let next : List W32 :=
        if j = 0 then (List.range (len * 8 / w)).map (fun i =>
          if et == .int32 then BitVec.ofNat 32 (elemAt bs w i) else round32 (elemVal et (elemAt bs w i)))
        else reduceAdd et acc bs
      reduceSum t op et off len (envAfter env (nmBase ws + j * nmStride ws + off) len) (j + 1) n next

/-- The pieces of a channel, summed and written. -/
def reduceParts (s : State) (op : NmOp) (st : StackId) (et : EType) (env : MemEnv) :
    List (Nat × Nat) → Option (State × Except (MemErr × Nat) Unit)
  | [] => some (s, .ok ())
  | (off, len) :: rest =>
    let ws := op.words
    match reduceSum s op et off len env 0 (nmSources ws) [] with
    | none => none
    | some (t, .error e) => some (t, .error e)
    | some (t, .ok sums) =>
      let w := etypeBits et
      let d := nmDbase ws + off
      let env1 := (List.range (nmSources ws)).foldl (fun e j => envAfter e (nmBase ws + j * nmStride ws + off) len) env
      let bytes := sums.flatMap (fun v => leBytes (w / 8) (if et == .int32 then v.toNat else convert .fp32 et .rn false v.toNat))
      let wr : Option (State × Except (MemErr × Nat) Unit) :=
        if nmDmode ws == 1 then
          some (accPush t op.sag (nmEtA ws) (.op op.id st) (sums.zipIdx.map (fun (x : W32 × Nat) => (d + x.2 * (w / 8), x.1))), .ok ())
        else if nmLocal ws then some (writeLocal t op (fun k => lsWrite k d bytes), .ok ())
        else writeMem t op.sag.val d bytes env1
      match wr with
      | none => none
      | some (t, .error e) => some (t, .error e)
      | some (t, .ok _) => reduceParts t op st et (if nmDmode ws == 0 then envAfter env1 d bytes.length else env1) rest

-- A part completes

/-- Updates of the accumulate path that are still to be made of a stack's results of an operation. -/
def updatesLeft (s : State) (id : Nat) (st : StackId) : Bool :=
  s.memStacks.any (fun k => k.accQueue.any (fun u => match u.src with
    | .op i x => i == id && x == st
    | .packet _ _ => false))

/-- A stack's share ends once every part is complete and its results are written, those of the accumulate path too (R165). -/
def settleShare (s : State) (id : Nat) (st : StackId) : State :=
  let open_ := updatesLeft s id st
  modShare s id st (fun h => if h.phase == .running && h.left.isEmpty && !open_ then { h with phase := .done } else h)

/-- The part of a channel is through; the last one of a stack may end its share. -/
def partDone (s : State) (op : NmOp) (st : StackId) (ch : ChanId) (ps : List (ChanId × Nat × Nat × W32)) : State :=
  settleShare (modShare s op.id st (fun h =>
    let left := h.left.filter (fun p => p != ch)
    { h with left := left, partials := if left.isEmpty then [] else h.partials ++ ps })) op.id st

/-- An error stops the part with its status. -/
def partError (s : State) (op : NmOp) (ch : ChanId) (e : MemErr × Nat) : State :=
  nmStop (nmDataErr s op.sag.val ch.val) op (errStatus e.1) e.2

/-- The last part of a share. -/
def lastPart (h : NmShare) (ch : ChanId) : Bool := h.left.all (fun p => p == ch)

/-- One part of a MATVEC; the last one of the stack sums and writes. -/
def matvecPart (s : State) (op : NmOp) (h : NmShare) (ch : ChanId) (order : List ChanId) (env : MemEnv) : State :=
  let own := ownedChannels (sagOf s op.sag.val)
  let rank := own.idxOf ch.val
  match (stackOf s h.stack.val).vset with
  | none => s
  | some v =>
    let tiles := partTiles op.words own.length rank
    match readTiles s op none env tiles with
    | none => s
    | some (t, .error e) =>
      nmStop (if e.1 == 9 || e.1 == 10 then nmDataErr t op.sag.val ch.val else t) op e.1 e.2
    | some (t, .ok data) =>
      let ps := mvPartials op.words ch data v.data
      let t := perf t op.sag.val perfTILES data.length
      if lastPart h ch then
        match mvFinish t op h.stack (h.partials ++ ps) order (skipEnv env (tileLines op * tiles.length)) with
        | none => s
        | some (t, .error e) => partError t op ch e
        | some (t, .ok _) => partDone t op h.stack ch ps
      else partDone t op h.stack ch ps

/-- One part of a GATHER or SCATTER; the last one of the stack meets the index that stops it. -/
def rowsPart (s : State) (op : NmOp) (h : NmShare) (ch : ChanId) (env : MemEnv) : State :=
  let ws := op.words
  match readCoh s op.sag.val (nmIbase ws) (4 * nmCount ws) env with
  | none => s
  | some (t, .error e) => partError t op ch e
  | some (t, .ok bs) =>
    let idx := (List.range (nmCount ws)).map (fun i => (i, elemAt bs 32 i))
    let g := goodRows (carveSize t op.sag.val) ws idx
    let mine := g.1.filter (fun x => (mapAddr t op.sag.val x.2).any (fun p => p.1 == ch.val))
    match moveRows t op (envAfter env (nmIbase ws) (4 * nmCount ws)) mine with
    | none => s
    | some (t, .error e) => partError t op ch e
    | some (t, .ok _) =>
      match g.2 with
      | some e => if lastPart h ch then nmStop t op e.1 e.2 else partDone t op h.stack ch []
      | none => partDone t op h.stack ch []

/-- One part of a REDUCE. -/
def reducePart (s : State) (op : NmOp) (h : NmShare) (ch : ChanId) (env : MemEnv) : State :=
  let ws := op.words
  let own := ownedChannels (sagOf s op.sag.val)
  match etypeOf (nmEtA ws) with
  | none => s
  | some et =>
    let base := if nmLocal ws then nmBase ws else nmDbase ws
    match reduceParts s op h.stack et env (reducePieces base (nmCount ws * etypeBits et / 8) own.length (own.idxOf ch.val)) with
    | none => s
    | some (t, .error e) => partError t op ch e
    | some (t, .ok _) => partDone t op h.stack ch []

/-- A share has begun, or nothing keeps it from beginning: its BARRIER, its group's stores and, of a MATVEC, its vector set. -/
def shareStarts (s : State) (op : NmOp) (h : NmShare) : Bool :=
  h.phase == .done || (h.phase == .running && (h.left != h.parts || (nmBarrierOk s op && nmStoresDrained s op &&
    (kindOf op.words != 1 || (vsetUsers s h.stack.val).any (fun x => x.1.id == op.id)))))

/-- The order of parts: a channel takes the parts of its queue in order of admission, so that it keeps its accesses to one address in
order, and the earlier operations of the issuer have started in the stack (R178). -/
def partInTurn (s : State) (op : NmOp) (h : NmShare) (ch : ChanId) : Bool :=
  !((stackShares s h.stack.val).any (fun x => x.2.adm < h.adm && x.2.left.contains ch)) &&
  (s.nmOps.takeWhile (fun o => o.id != op.id)).all (fun o => !(sameIssuer o.issuer op.issuer) ||
    o.shares.all (fun x => x.stack != h.stack || shareStarts s o x))

/-- NM_PART_COMPLETE. `order` is the order over channels in which the reducer sums (R170). -/
def execNmPartComplete (st : StackId) (op : Nat) (ch : ChanId) (order : List ChanId) (env : MemEnv) (s : State) :
    Host.Outcome State Fault Refusal :=
  .next (meets env s (match nmOpOf s op with
    | none => s
    | some o =>
      match o.shares.find? (fun h => h.stack == st && h.phase == .running) with
      | none => s
      | some h =>
        if !(h.left.contains ch) || !(nmBarrierOk s o) || !(nmStoresDrained s o) || !(partInTurn s o h ch) then s
        else
          match kindOf o.words with
          | 1 =>
            if (vsetUsers s st.val).any (fun x => x.1.id == op) && !(nmCodec o.words && installBefore s o.sag.val h.adm) then
              matvecPart s o h ch order env
            else s
          | 4 => reducePart s o h ch env
          | _ => rowsPart s o h ch env))

-- The accumulate path (R173)

/-- An element of the destination type plus a word. -/
def accAdd (et : EType) (old : Nat) (v : W32) : Nat :=
  match et with
  | .int32 => (BitVec.ofNat 32 old + v).toNat
  | .fp32 => (round32 (addF (elemVal .fp32 old) (val32 v))).toNat
  | _ => convert .fp32 et .rn false (round32 (addF (elemVal et old) (val32 v))).toNat

/-- Elements of a line from an offset on, each with its word added. -/
def accLine (et : EType) (o : Nat) (vals : List W32) (old : List Byte) : List Byte :=
  let w := etypeBits et / 8
  vals.zipIdx.foldl (fun d (x : W32 × Nat) =>
    let at_ := o + x.2 * w
    (leBytes w (accAdd et (leNat ((old.drop at_).take w)) x.1)).zipIdx.foldl (fun d (b : Byte × Nat) => listSet d (at_ + b.2) b.1) d) old

-- Completion

/-- Every share is done, no update is queued, and a CLEAN has cleaned its range. -/
def nmAllDone (s : State) (o : NmOp) : Bool :=
  o.shares.all (fun h => h.phase == .done) &&
  s.memStacks.all (fun k => k.accQueue.all (fun u => !(updateOf o.id u))) &&
  (kindOf o.words != nmCLEAN || nmStride o.words ≤ 128 * o.cleaned) &&
  nmBarrierOk s o

/-- Every thread of a block passes an ordering point. -/
def orderBlock (s : State) (c b : Nat) : State :=
  let s := tickNow s
  modCore s c (fun k => { k with subs := k.subs.map (fun u =>
    { u with slots := u.slots.map (fun p =>
        if p.2.blk.val == b then (p.1, { p.2 with lanes := p.2.lanes.map (fun l => { l with ordPt := s.now }) }) else p) }) })

/-- NM_OP_COMPLETE: the node completes, or the core writes TAG to the completion word of the issuing block (R179). -/
def execNmOpComplete (op : Nat) (s : State) : Host.Outcome State Fault Refusal :=
  .next (match nmOpOf s op with
    | none => s
    | some o =>
      if !(nmAllDone s o) then s
      else
        let t := forgetNmOp s op
        match o.issuer with
        | .node n => nodeDone t n
        | .block c _ _ _ _ _ dword =>
          let t := match issuerBlock t o with
            | some p => orderBlock (writeLocal t o (fun k => lsWrite k dword (leBytes 8 (word o.words 7).toNat))) p.1.val p.2.val
            | none => t
          nmWake t c.val)

end Sys2Proof.Machine
end

