-- ==== Sys2Proof/Machine/Fetch.lean ====
section
/-!
DEFINITION. The checks that the front end makes of an entry or node at fetch (R299), with the reads it makes of code
objects and argument areas (R236 to R238, R297), and the route of a link packet (R347).
-/
namespace Sys2Proof.Machine

open Sys2Proof

-- Routes (R347)

/-- On an axis, whether a packet goes in the + direction. -/
def goesPlus (wrap : Bool) (len a b : Nat) : Bool :=
  if wrap then (b + len - a) % len ≤ (a + len - b) % len else a < b

/-- The port by which the route from this module to a coordinate leaves; none at the coordinate itself. -/
def routePort (s : State) (r : SliceReg) (dst : Coord) : Option Nat :=
  let c := s.xl.coord
  if coordX c != coordX dst then some (if goesPlus r.wx (axisLen s 0) (coordX c) (coordX dst) then 0 else 1)
  else if coordY c != coordY dst then some (if goesPlus r.wy (axisLen s 1) (coordY c) (coordY dst) then 2 else 3)
  else if coordZ c != coordZ dst then some (if goesPlus r.wz (axisLen s 2) (coordZ c) (coordZ dst) then 4 else 5)
  else none

-- Saggars and their cores

/-- Set bits of a mask. -/
def popcount {w : Nat} (m : BitVec w) : Nat := ((List.range w).filter (fun i => m.getLsbD i)).length

/-- The saggar is in die form (R362). -/
def dieForm (g : Saggar) : Bool := 4 ≤ popcount g.clusters

/-- Cores that the saggar's real-time rings reserve (R310). -/
def reservedCores (s : State) (sag : Nat) : List Nat :=
  s.fe.rings.flatMap (fun r => if r.2.st != .disabled && r.2.partition.val == sag then r.2.cores.map (fun c => c.val) else [])

/-- ACTIVE cores of a saggar. -/
def activeCores (s : State) (sag : Nat) : List Nat :=
  (List.range 256).filter (fun c => (coreOf s c).st == .active && (coreOf s c).partition.any (fun k => k.val == sag))

/-- Enabled copy engines of a saggar. -/
def copyEngines (s : State) (sag : Nat) : List Nat :=
  (List.range 16).filter (fun e => (sagOf s sag).copy.getLsbD e && !(s.fuses.copyOff.any (fun x => x.val == e)))

-- Named objects (R322 to R324)

/-- The object holds the graph store of a slot that is not FREE (R312). -/
def isGraphStore (s : State) (o : Nat) : Bool := s.fe.graphs.any (fun p => p.2.st != .free && p.2.storeObj == o)

/-- A descriptor of a context may name the object. -/
def objNameable (s : State) (tag : BitVec 16) (o : Nat) (dest : Bool) : Bool :=
  let x := objOf s o
  x.st == .live && x.tag == tag && !(isGraphStore s o) && !(dest && x.ro)

/-- What a descriptor names: objects with an extent, and whether they are a destination. -/
structure Named where
  obj : Nat
  ofs : Nat
  len : Nat
  dest : Bool
deriving DecidableEq, Repr

-- Field checks, stage 1

/-- Words `lo` to 7 are 0. -/
def zeroFrom (ws : List W64) (lo : Nat) : Bool := (List.range 8).all (fun i => i < lo || word ws i == 0#64)

def nopFields (ws : List W64) : Bool := field (word ws 0) 8 56 == 0 && zeroFrom ws 1

def launchThreads (ws : List W64) : Nat := field (word ws 3) 32 11 * field (word ws 3) 48 11 * field (word ws 4) 0 11

/-- The split that the launch runs with, and its local store in bytes (R34). -/
def launchSplit (s : State) (sag : Nat) (ws : List W64) : Nat :=
  if dieForm (sagOf s sag) then field (word ws 0) 12 4 else (sagOf s sag).lsSplit.toNat

def launchFields (s : State) (sag : Nat) (ws : List W64) : Bool :=
  let d8 := field (word ws 4) 16 6
  field (word ws 0) 10 2 == 0 && field (word ws 0) 28 4 == 0 && field (word ws 0) 48 16 == 0 &&
  field (word ws 1) 48 16 == 0 && field (word ws 3) 43 5 == 0 && field (word ws 3) 59 5 == 0 &&
  field (word ws 4) 11 5 == 0 && field (word ws 4) 22 10 == 0 && field (word ws 4) 44 20 == 0 && zeroFrom ws 5 &&
  launchThreads ws ≤ 1024 && field (word ws 3) 32 11 ≤ 1024 && field (word ws 3) 48 11 ≤ 1024 && field (word ws 4) 0 11 ≤ 1024 &&
  2 ≤ d8 && d8 ≤ 32 && (!(dieForm (sagOf s sag)) || field (word ws 0) 12 4 ≤ 11) &&
  field (word ws 4) 32 12 ≤ launchSplit s sag ws * 256

def copyMode (ws : List W64) : Nat := field (word ws 0) 8 2
def copyLen (ws : List W64) : Nat := field (word ws 3) 0 32
def copyMeasured (ws : List W64) : Bool := bit (word ws 0) 10 || copyMode ws == 2
def copyClass (ws : List W64) : Nat := field (word ws 0) 11 2
def copyKey (ws : List W64) : Nat := field (word ws 0) 48 8
def copySrcOfs (ws : List W64) : Nat := field (word ws 1) 0 48
def copyDstOfs (ws : List W64) : Nat := field (word ws 2) 0 48

/-- Bytes of a sealed image of `n` plaintext bytes (R392). -/
def imageLen (n : Nat) : Nat := 64 + n + 16 * ((n + 65535) / 65536)

def copyFields (s : State) (sag : Nat) (ws : List W64) : Bool :=
  let m := copyMode ws
  let g := sagOf s sag
  m != 3 && copyClass ws != 3 && (copyMeasured ws || copyClass ws == 0) && field (word ws 0) 13 3 == 0 &&
  field (word ws 0) 56 8 == 0 && (m == 2 || copyKey ws == 0) && (m == 1 || word ws 4 == 0#64) &&
  field (word ws 1) 48 16 == 0 && field (word ws 2) 48 16 == 0 && field (word ws 3) 32 32 == 0 && zeroFrom ws 5 &&
  (m != 1 || (copyDstOfs ws % 8 == 0 && copyLen ws % 8 == 0)) &&
  (m != 2 || (copyDstOfs ws % 128 == 0 && g.st == .sealed && copyKey ws ≤ 63 && (tblFind g.weightKeys (copyKey ws)).isSome &&
    copyClass ws != 0))

def linkOp (ws : List W64) : Nat := field (word ws 0) 8 2
def linkEtype (ws : List W64) : Nat := field (word ws 0) 10 5
def linkLen (ws : List W64) : Nat := field (word ws 3) 0 32
def linkDst (ws : List W64) : Coord := BitVec.ofNat 18 (field (word ws 4) 0 18)
def linkAddr (ws : List W64) : Nat := field (word ws 2) 0 48

/-- Destination types of WRITE_ACC. -/
def accTypeOk (e : Nat) : Bool := e == 0 || e == 1 || e == 2 || e == 8

def linkFields (s : State) (sag : Nat) (ws : List W64) : Bool :=
  let r := sliceOf s sag
  linkOp ws ≤ 1 && (linkOp ws == 1 || linkEtype ws == 0) && !(bit (word ws 0) 15) && field (word ws 0) 44 20 == 0 &&
  field (word ws 1) 48 16 == 0 && field (word ws 2) 48 16 == 0 && field (word ws 3) 32 32 == 0 && field (word ws 4) 18 46 == 0 &&
  zeroFrom ws 5 && r.valid && linkDst ws != s.xl.coord && inSlice r (linkDst ws) &&
  (linkOp ws == 0 || (accTypeOk (linkEtype ws) && linkLen ws % 4 == 0 && linkAddr ws % (bitsOfType (linkEtype ws) / 8) == 0))

def isRemote (ws : List W64) : Bool := bit (word ws 0) 8

def signalFields (sag : Nat) (ws : List W64) : Bool :=
  field (word ws 0) 9 7 == 0 && field (word ws 0) 32 32 == 0 && zeroFrom ws 3 &&
  (if isRemote ws then field (word ws 2) 18 2 == 0 && field (word ws 2) 20 4 == sag && field (word ws 2) 24 8 == 0 &&
    field (word ws 2) 48 16 == 0
   else word ws 2 == 0#64)

/-- SRC of a WAIT: 1 is a cone counter. -/
def waitCone (ws : List W64) : Bool := bit (word ws 0) 8
def waitNum (ws : List W64) : Nat := if waitCone ws then field (word ws 0) 16 12 else field (word ws 0) 16 16
def waitTarget (ws : List W64) : W64 := if waitCone ws then BitVec.ofNat 64 (field (word ws 1) 0 48) else word ws 1

def waitFields (ws : List W64) : Bool :=
  field (word ws 0) 10 6 == 0 && field (word ws 0) 32 32 == 0 && field (word ws 2) 32 32 == 0 && zeroFrom ws 3 &&
  (!(waitCone ws) || (field (word ws 0) 28 4 == 0 && field (word ws 1) 48 16 == 0))

-- Codec descriptors (Table 07-6, R196)

def cdEtype (ws : List W64) : Nat := field (word ws 0) 8 5
def cdBook (ws : List W64) : Nat := field (word ws 0) 13 6
def cdSbase (ws : List W64) : Nat := field (word ws 1) 0 48
def cdDbase (ws : List W64) : Nat := field (word ws 2) 0 48
def cdCount (ws : List W64) : Nat := field (word ws 3) 0 32
def cdDlen (ws : List W64) : Nat := field (word ws 4) 0 48
def cdRbase (ws : List W64) : Nat := field (word ws 5) 0 48

/-- Home rows from an address: aligned, and below row H0 / 4,096. -/
def homeRowsOk (s : State) (sag a count : Nat) : Bool :=
  let n := (ownedChannels (sagOf s sag)).length
  n != 0 && a % (n * 4096) == 0 && (a / (n * 4096) + count) * 4096 ≤ headerStart s sag / n

def codecFields (s : State) (sag : Nat) (ws : List W64) : Bool :=
  let k := kindOf ws
  let cap := carveSize s sag
  let exp := k == 0x23
  let imp := k == 0x24
  field (word ws 0) 19 45 == 0 && (List.range 5).all (fun i => i == 2 || field (word ws (i + 1)) 48 16 == 0) &&
  field (word ws 3) 32 32 == 0 && word ws 6 == 0#64 &&
  (if k == 0x21 || k == 0x25 then (splitOf (cdEtype ws)).isSome else cdEtype ws == 0) &&
  (k == 0x21 || k == 0x26 || cdBook ws == 0) &&
  (exp || imp || k == 0x25 || word ws 2 == 0#64) && (exp || imp || word ws 4 == 0#64) && (k != 0x26 || word ws 3 == 0#64) &&
  cdRbase ws % 16 == 0 && cdRbase ws + (if exp || imp then 24 else 16) ≤ cap &&
  (if k == 0x21 || k == 0x22 then homeRowsOk s sag (cdSbase ws) (cdCount ws)
   else if exp then homeRowsOk s sag (cdSbase ws) (cdCount ws) && cdDbase ws % 16 == 0 && cdDbase ws + cdDlen ws ≤ cap
   else if imp then homeRowsOk s sag (cdDbase ws) (cdCount ws) && cdSbase ws % 16 == 0 && cdSbase ws + cdDlen ws ≤ cap
   else if k == 0x25 then cdSbase ws % 16 == 0 && cdDbase ws % 16 == 0 && cdSbase ws + cdCount ws * 4096 ≤ cap &&
     cdDbase ws + 1024 ≤ cap
   else cdSbase ws % 16 == 0 && cdSbase ws + 128 ≤ cap)

def isNmKind (k : Nat) : Bool := 1 ≤ k && k ≤ 5
def isCodecKind (k : Nat) : Bool := 0x21 ≤ k && k ≤ 0x26

/-- KINDs that a graph may hold (Table 11-7). -/
def isNodeKind (k : Nat) : Bool :=
  k == 0 || isNmKind k || isCodecKind k || k == 0x40 || k == 0x41 || k == 0x42 || k == 0x43 || k == 0x44

/-- Stage 1 of a descriptor of a graph node's KIND. -/
def fieldsOk (s : State) (sag : Nat) (ws : List W64) : Bool :=
  let k := kindOf ws
  if k == 0 then nopFields ws
  else if k == 0x40 then launchFields s sag ws
  else if k == 0x41 then copyFields s sag ws
  else if k == 0x42 then linkFields s sag ws
  else if k == 0x43 then signalFields sag ws
  else if k == 0x44 then waitFields ws
  else if isCodecKind k then codecFields s sag ws
  else isNmKind k

/-- A graph node's fields as BIND and PATCH check them (R312, R317): the checks that the fields alone decide. -/
def nodeFieldsOk (s : State) (sag : Nat) (ws : List W64) : Bool :=
  isNodeKind (kindOf ws) && fieldsOk s sag ws && !(bit (word ws 0) 63) &&
  (!(isNmKind (kindOf ws)) || !([1, 2, 3, 4].contains (nmCheck s sag ws false 0)))

-- What a descriptor names

/-- The objects of a node's descriptor, with the extents that its fields give. -/
def namedOf (ws : List W64) : List Named :=
  match kindOf ws with
  | 0x40 => [⟨field (word ws 0) 32 16, field (word ws 1) 0 32 * 64, 128, false⟩,
             ⟨field (word ws 1) 32 16, field (word ws 2) 0 32 * 64, 64, false⟩]
  | 0x41 =>
    let src : Named := ⟨field (word ws 0) 16 16, copySrcOfs ws, if copyMode ws == 2 then imageLen (copyLen ws) else copyLen ws, false⟩
    let dst : Named := ⟨field (word ws 0) 32 16, copyDstOfs ws, copyLen ws, true⟩
    if copyMode ws == 1 then [dst] else [src, dst]
  | 0x42 => [⟨field (word ws 0) 16 16, field (word ws 1) 0 48, linkLen ws, false⟩]
  | _ => []

/-- Stage 3. -/
def fencesOk (s : State) (tag : BitVec 16) (sag : SagId) (ws : List W64) : Bool :=
  match kindOf ws with
  | 0x43 => isRemote ws || fenceUsable s tag (field (word ws 0) 16 16)
  | 0x44 =>
    if waitCone ws then (coneOf s (waitNum ws)).assigned && (coneOf s (waitNum ws)).partition == sag
    else fenceUsable s tag (waitNum ws)
  | _ => true

/-- Stage 5. -/
def unitsOk (s : State) (sag : Nat) (ws : List W64) : Bool :=
  match kindOf ws with
  | 0x41 => !((copyEngines s sag).isEmpty)
  | 0x42 => match routePort s (sliceOf s sag) (linkDst ws) with
    | some p => (portOf s p).st != .retired
    | none => true
  | _ => true

-- Reads of named objects

/-- The partition-relative or host address of an offset in an object. -/
def objAddr (s : State) (o ofs : Nat) : Nat := (objOf s o).base.toNat + ofs

/-- Reads bytes of an object: of device memory coherently, of host memory from the host's answer. None: the memory cannot
serve it now. -/
def readObj (s : State) (sag o ofs len : Nat) (h : HostAns) (env : MemEnv) :
    Option (State × HostAns × Except Nat (List Byte)) :=
  let a := objAddr s o ofs
  if (objOf s o).host then
    if h.fail then some (s, h, .error a)
    else
      let bs := h.bytes.take len
      some (s, { h with bytes := h.bytes.drop len }, .ok (bs ++ List.replicate (len - bs.length) 0))
  else
    (readCoh s sag a len env).map (fun x => match x with
      | (t, .error e) => (t, h, .error e.2)
      | (t, .ok bs) => (t, h, .ok bs))

/-- What the reads behind that of a part of an object meet. -/
def objEnv (s : State) (o ofs len : Nat) (env : MemEnv) : MemEnv :=
  if (objOf s o).host then env else envAfter env (objAddr s o ofs) len

-- Code objects (Tables 08-12, 08-13)

/-- Two sections do not overlap. -/
def apart (a la b lb : Nat) : Bool := a + la ≤ b || b + lb ≤ a

/-- The header of a code object is well formed. -/
def codeHeaderOk (h : List Byte) : Bool :=
  let len := rd32 h 8
  let co := rd32 h 12
  let cl := rd32 h 16
  let ko := rd32 h 20
  let kc := rd16 h 24
  let no := rd32 h 28
  let nl := rd32 h 32
  rd32 h 0 == 0x54465654 && rd16 h 4 == 1 && rd16 h 6 == 0 && rd16 h 26 == 0 && ((h.drop 36).take 88).all (· == 0) &&
  rd32 h 124 == crc32c (h.take 124) &&
  len % 64 == 0 && 128 ≤ len && len ≤ 0xFFFFFFC0 && co % 64 == 0 && cl % 8 == 0 && 8 ≤ cl && ko % 64 == 0 &&
  1 ≤ kc && kc ≤ 4096 && no % 64 == 0 && (nl != 0 || no == 0) &&
  128 ≤ co && co + cl ≤ len && 128 ≤ ko && ko + 32 * kc ≤ len && apart co cl ko (32 * kc) &&
  (nl == 0 || (128 ≤ no && no + nl ≤ len && apart no nl co cl && apart no nl ko (32 * kc)))

/-- The kernel entry is well formed and the launch gives it enough. -/
def kernelOk (e : List Byte) (codeLen regs lsBytes : Nat) : Bool :=
  rd32 e 0 % 8 == 0 && rd32 e 0 < codeLen && rd16 e 4 % 8 == 0 && 16 ≤ rd16 e 4 && rd16 e 4 ≤ 256 && rd16 e 6 == 0 &&
  rd32 e 12 == 0 && rd16 e 4 ≤ regs && rd32 e 8 ≤ lsBytes

/-- The global address of an offset in an object. -/
def objGlobal (s : State) (o ofs : Nat) : Nat := (objExtent (objOf s o)).1 + ofs

/-- The launch that a descriptor makes, with its code object's header, kernel entry and argument area. -/
def mkLaunch (s : State) (id : Nat) (n : NodeRef) (ws : List W64) (hdr ent args : List Byte) : LaunchInfo :=
  { id, sag := nodeSag s n, ctx := (nodeTag s n).toNat, ring := n.ring
    bx := field (word ws 3) 32 11, bY := field (word ws 3) 48 11, bz := field (word ws 4) 0 11
    gx := BitVec.ofNat 32 (field (word ws 2) 32 32), gy := BitVec.ofNat 32 (field (word ws 3) 0 16)
    gz := BitVec.ofNat 32 (field (word ws 3) 16 16), regs := field (word ws 4) 16 6 * 8, lsBytes := field (word ws 4) 32 12 * 1024
    objAddr := BitVec.ofNat 64 (objGlobal s (field (word ws 0) 32 16) (field (word ws 1) 0 32 * 64))
    objLen := rd32 hdr 8, codeOfs := rd32 hdr 12, codeLen := rd32 hdr 16, entryPc := BitVec.ofNat 32 (rd32 ent 0)
    args := (List.range 16).map (fun i => BitVec.ofNat 32 (rd32 args (4 * i))), accFtz := bit (word ws 0) 9
    coRes := bit (word ws 0) 8, rt := (ringOf s n.ring).rt, split := launchSplit s (nodeSag s n).val ws }

def launchBlocks (i : LaunchInfo) : Nat := i.gx.toNat * i.gy.toNat * i.gz.toNat

/-- A launch with a zero extent does nothing (R297). -/
def launchEmpty (i : LaunchInfo) : Bool := launchBlocks i == 0 || i.bx == 0 || i.bY == 0 || i.bz == 0

/-- Groups of a block. -/
def blockGroups (i : LaunchInfo) : Nat := (i.bx * i.bY * i.bz + 31) / 32

/-- Blocks of a launch that one core holds (Table 01-4). -/
def blocksPerCore (i : LaunchInfo) : Nat :=
  let q := (blockGroups i + 3) / 4
  if q = 0 then 0
  else
    let m := min 16 (min (16 / q) (131072 / (q * 128 * i.regs)))
    if i.lsBytes = 0 then m else min m (i.split * 262144 / i.lsBytes)

/-- The capacity of R38. -/
def launchCapacity (s : State) (i : LaunchInfo) : Nat :=
  let rs := reservedCores s i.sag.val
  blocksPerCore i * ((activeCores s i.sag.val).filter (fun c => i.rt || !(rs.contains c))).length

/-- A co-resident launch that fits its saggar. -/
def occupancyOk (s : State) (i : LaunchInfo) : Bool := !i.coRes || launchEmpty i || launchBlocks i ≤ launchCapacity s i

-- Sealed saggars (R387)

/-- A measurement entry is of program class and names the code object of a launch, whole. -/
def measuredProgram (ws : List W64) (len : Nat) (e : List Byte) : Bool :=
  rd8 e 0 == 1 && rd16 e 2 == field (word ws 0) 32 16 && rd32 e 4 == len &&
  leNat ((e.drop 8).take 6) == field (word ws 1) 0 32 * 64

/-- Table 15-9 for copies. -/
def sealedCopyOk (s : State) (sag : Nat) (ws : List W64) : Bool :=
  let src := (objOf s (field (word ws 0) 16 16)).host
  let dst := (objOf s (field (word ws 0) 32 16)).host
  if !(isSealed s sag) || kindOf ws != 0x41 then true
  else if copyMode ws == 1 then false
  else copyMode ws != 0 || (!(src && !(bit (word ws 0) 10)) && !(dst && !src))

/-- Table 15-9 for launches. -/
def sealedLaunchOk (s : State) (sag : Nat) (ws : List W64) (len : Nat) : Bool :=
  !(isSealed s sag) || (sagOf s sag).log.any (measuredProgram ws len)

-- The stages

/-- How a fetch check ended. -/
inductive Check where
  | pass (objs : List Nat) (launch : Option LaunchInfo)
  | reject (code status : Nat)
  | readFail (addr : Nat)
deriving DecidableEq, Repr

/-- Stages 6 and 7 of a LAUNCH: the reads, R238 and R38. -/
def checkLaunch (s : State) (n : NodeRef) (ws : List W64) (h : HostAns) (env : MemEnv) : Option (State × Check) :=
  let sag := (nodeSag s n).val
  let co := field (word ws 0) 32 16
  let cofs := field (word ws 1) 0 32 * 64
  let ao := field (word ws 1) 32 16
  match readObj s sag co cofs 128 h env with
  | none => none
  | some (t, _, .error a) => some (t, .readFail a)
  | some (t, h1, .ok hdr) =>
    let k := field (word ws 0) 16 12
    if !(codeHeaderOk hdr) || rd16 hdr 24 ≤ k || (objOf t co).len.toNat < cofs + rd32 hdr 8 then some (t, .reject 1 0)
    else
      let e1 := objEnv t co cofs 128 env
      let ko := cofs + rd32 hdr 20 + 32 * k
      match readObj t sag co ko 32 h1 e1 with
      | none => none
      | some (t, _, .error a) => some (t, .readFail a)
      | some (t, h2, .ok ent) =>
        if !(kernelOk ent (rd32 hdr 16) (field (word ws 4) 16 6 * 8) (field (word ws 4) 32 12 * 1024)) then some (t, .reject 1 0)
        else
          match readObj t sag ao (field (word ws 2) 0 32 * 64) 64 h2 (objEnv t co ko 32 e1) with
          | none => none
          | some (t, _, .error a) => some (t, .readFail a)
          | some (t, _, .ok args) =>
            let id := takeId t
            let info := mkLaunch t id.1 n ws hdr ent args
            if !(occupancyOk t info) then some (t, .reject 3 0)
            else if !(sealedLaunchOk t sag ws (rd32 hdr 8)) then some (t, .reject 2 0)
            else some (id.2, .pass [co, ao] (some info))

/-- The check of an entry or node of a graph node's KIND; `ws` is without ORD. -/
def checkNode (s : State) (n : NodeRef) (ws : List W64) (h : HostAns) (env : MemEnv) : Option (State × Check) :=
  let tag := nodeTag s n
  let sag := nodeSag s n
  let names := namedOf ws
  let nm := if isNmKind (kindOf ws) then nmCheck s sag.val ws false 0 else 0
  if nm != 0 then some (nmReject s sag.val, .reject 1 nm)
  else if !(fieldsOk s sag.val ws) || (n.graph.isSome && bit (word ws 0) 63) then some (s, .reject 1 0)
  else if names.any (fun x => !(objNameable s tag x.obj x.dest)) then some (s, .reject 2 0)
  else if !(fencesOk s tag sag ws) then some (s, .reject 6 0)
  else if !(unitsOk s sag.val ws) then some (s, .reject 5 0)
  else if names.any (fun x => (objOf s x.obj).len.toNat < x.ofs + x.len) ||
      (kindOf ws == 0x41 && copyMode ws == 2 && (objOf s (field (word ws 0) 32 16)).host) then some (s, .reject 1 0)
  else if kindOf ws == 0x40 then checkLaunch s n ws h env
  else if !(sealedCopyOk s sag.val ws) then some (s, .reject 2 0)
  else some (s, .pass (names.map (fun x => x.obj)) none)

/-- A descriptor without ORD (R296). -/
def stripOrd (ws : List W64) : List W64 :=
  listModify (fun w => w &&& 0x7FFFFFFFFFFFFFFF#64) ws 0

end Sys2Proof.Machine
end

