-- ==== Sys2Proof/Machine/Rings.lean ====
section
/-!
DEFINITION. Rings and the front end (spec/11, 12): ENABLE, RESUME, doorbells, fetch turns, the commands of ring entries, the
start of a node, waits, and the destruction of a queue.
-/
namespace Sys2Proof.Machine

open Sys2Proof

-- Enabling (R292, R310, R363)

/-- Rings of a saggar outside DISABLED. -/
def ringsOf (s : State) (sag : Nat) : List (Nat × Ring) :=
  s.fe.rings.filter (fun r => r.2.st != .disabled && r.2.partition.val == sag)

/-- The cores of a cluster. -/
def clusterCores (g : Nat) : List Nat := (List.range 16).map (fun i => 16 * g + i)

/-- One round over the clusters: the lowest free core of each. -/
def roundCores (free : List Nat) : List Nat :=
  (List.range 16).filterMap (fun g => free.find? (fun c => c / 16 == g))

/-- `k` cores spread round robin across the clusters. -/
def spreadCores (free : List Nat) (k : Nat) : Nat → List Nat
  | 0 => []
  | fuel + 1 =>
    let r := (roundCores free).take k
    if r.isEmpty || k = 0 then []
    else r ++ spreadCores (free.filter (fun c => !(r.contains c))) (k - r.length) fuel

def toCore (c : Nat) : CoreId := BitVec.toFin (BitVec.ofNat 8 c)

/-- Engines that the saggar's rings reserve. -/
def reservedEngines (s : State) (sag : Nat) : List Nat :=
  (ringsOf s sag).filterMap (fun r => r.2.engine.map (fun e => e.val))

/-- The cores and the copy engine that a ring reserves; none when R310 refuses. -/
def reserve (s : State) (r : Ring) : Option (List CoreId × Option CopyEngId) :=
  if !r.rt then some ([], none)
  else
    let sag := r.partition.val
    let free := (activeCores s sag).filter (fun c => !((reservedCores s sag).contains c))
    let k := r.rtCores.toNat
    let engines := (copyEngines s sag).filter (fun e => !((reservedEngines s sag).contains e))
    if free.length ≤ k then none
    else if r.rtCopy && engines.length ≤ 1 then none
    else
      some ((spreadCores free k 16).map toCore,
        if r.rtCopy then engines.getLast?.map (fun e => BitVec.toFin (BitVec.ofNat 4 e)) else none)

/-- The cases of R292, R363 and R386 that refuse an ENABLE, but for the reservation. -/
def enableOk (s : State) (r : Ring) : Bool :=
  let g := sagOf s r.partition.val
  let c := ctxOf s (r.context.toNat % 4096)
  6 ≤ r.sizeLog2.toNat && r.sizeLog2.toNat ≤ 16 && exists_ g && !g.sealing && tagCurrent s r.context && c.sag == r.partition &&
  fenceUsable s r.context r.qfence.toNat &&
  (!r.rt || (s.fe.rings.filter (fun x => x.2.st != .disabled && x.2.rt)).length < 16) &&
  (r.rt || (r.rtCores == 0 && !r.rtCopy)) && (ringsOf s r.partition.val).length < g.qRings.toNat

/-- ENABLE. -/
def execEnable (n : RingId) (s : State) : Host.Outcome State Fault Refusal :=
  let r := ringOf s n.val
  .next (
    if r.st != .disabled then s
    else
      match (if enableOk s r then reserve s r else none) with
      | none => queueError (setRing s n.val { r with enableReject := true, enableRejectCount := sat r.enableRejectCount 1 }) r.partition
      | some x => setRing s n.val
          { r with st := .active, tail := 0, retired := 0, next := 0, entries := [], fetches := [], failHeld := false
                   cores := x.1, engine := x.2, coresIn := [], engineIn := false, graceOver := false })

/-- RESUME (R305). -/
def execResume (n : RingId) (s : State) : Host.Outcome State Fault Refusal :=
  let r := ringOf s n.val
  .next (
    if r.st == .faulted && r.entries.all (fun e => isTerminated e.st) then
      modRing (retire s n.val) n.val (fun r => { r with st := .active, failHeld := false })
    else s)

-- Doorbells (R293, R294)

def ringSize (r : Ring) : Nat := 2 ^ r.sizeLog2.toNat

/-- A value of DB_TAIL is accepted. -/
def tailOk (r : Ring) (t : W64) : Bool :=
  (r.st == .active || r.st == .faulted) && (t - r.tail).toNat < 2 ^ 63 && (t - r.retired).toNat ≤ ringSize r

/-- DB_TAIL_WRITE. -/
def execDbTailWrite (n : RingId) (be : BitVec 8) (w : W64) (s : State) : Host.Outcome State Fault Refusal :=
  let r := ringOf s n.val
  .next (
    if !(accepting s) then s
    else if be == 0xFF && tailOk r w then setRing s n.val { r with tail := w }
    else queueError (setRing s n.val { r with dbReject := true, rejectCount := sat r.rejectCount 1 }) r.partition)

-- Fetch turns (R295, R307)

/-- Fetched and unretired entries, those on their way included. -/
def ringHeld (r : Ring) : Nat := (r.next - r.retired).toNat

def isHeldEntry (e : Node) : Bool := e.st == .held

def ringEligible (r : Ring) : Bool :=
  r.st == .active && r.next != r.tail && ringHeld r < 64 && !(r.entries.any isHeldEntry)

/-- Ring numbers from the one after `last` on. -/
def ringsAfter (s : State) (last : Nat) : List Nat :=
  let ns := s.fe.rings.map (fun r => r.1)
  ns.filter (fun n => last < n) ++ ns.filter (fun n => n ≤ last)

def pickRing (s : State) (rt : Bool) : Option Nat :=
  (ringsAfter s (if rt then s.fe.lastRt.val else s.fe.lastBulk.val)).find? (fun n => ringEligible (ringOf s n) && (ringOf s n).rt == rt)

/-- The ring that takes the turn: the classes alternate while both are eligible. -/
def turnRing (s : State) : Option Nat :=
  match pickRing s true, pickRing s false with
  | some a, some b => some (if s.fe.turnRt then b else a)
  | some a, none => some a
  | none, b => b

/-- The entries of one turn: at most 16, up to the accepted tail, within 64 held, and up to the end of the ring's memory. -/
def turnCount (r : Ring) : Nat :=
  min (min 16 (r.tail - r.next).toNat) (min (64 - ringHeld r) (ringSize r - r.next.toNat % ringSize r))

/-- FETCH_TURN. -/
def execFetchTurn (s : State) : Host.Outcome State Fault Refusal :=
  .next (match (if newWork s && accepting s then turnRing s else none) with
    | none => s
    | some n =>
      let r := ringOf s n
      let k := turnCount r
      let id : RingId := BitVec.toFin (BitVec.ofNat 10 n)
      let s := setRing s n { r with next := r.next + BitVec.ofNat 64 k, fetches := r.fetches ++ [{ first := r.next, count := k }] }
      { s with
        fe := { s.fe with turnRt := r.rt, lastRt := if r.rt then id else s.fe.lastRt, lastBulk := if r.rt then s.fe.lastBulk else id }
        dl := { s.dl with waiting := s.dl.waiting ++
          [{ owner := .fetch n r.next k, who := 0, write := false
             addr := BitVec.ofNat 52 (r.base.toNat * 4096 + r.next.toNat % ringSize r * 64), len := 64 * k }] } })

/-- The entries that a fetch has brought. -/
def fetchedNodes (first : W64) (count : Nat) (bs : List Byte) : List Node :=
  (List.range count).map (fun i => { seq := first + BitVec.ofNat 64 i, words := wordsOf 8 (bs.drop (64 * i)) })

/-- The answered fetches at the head enter the ring, in sequence order (R295). Of a failed one the first entry counts as fetched and
failed, the others as never fetched (R409). -/
def takeFetches (s : State) (n : Nat) : Nat → State
  | 0 => s
  | fuel + 1 =>
    let r := ringOf s n
    match r.fetches with
    | [] => s
    | f :: rest => match f.ans with
      | .pending => s
      | .data bs => takeFetches (setRing s n { r with fetches := rest, entries := r.entries ++ fetchedNodes f.first f.count bs }) n fuel
      | .failed a =>
        let s := setRing s n { r with fetches := [], next := f.first + 1, entries := r.entries ++ [{ seq := f.first }] }
        nodeFail s { ring := n, seq := f.first, graph := none } 6 0 0 (BitVec.ofNat 64 a)

/-- A fetch of a ring is answered. -/
def fetchAnswer (s : State) (n : Nat) (first : W64) (count : Nat) (ans : FetchAns) : State :=
  let r := ringOf s n
  if r.st == .active then
    let s := setRing s n { r with fetches := r.fetches.map (fun f => if f.first == first && f.count == count then { f with ans } else f) }
    takeFetches s n r.fetches.length
  else s

-- Launches entering dispatch (R308, R38)

/-- The first launch of a saggar in a queue. -/
def headOf (s : State) (q : List Nat) (sag : Nat) : Option Launch :=
  (q.filterMap (launchOf s)).find? (fun l => l.info.sag.val == sag)

def dropLaunchQueue (s : State) (id : Nat) : State :=
  { s with fe := { s.fe with rtQueue := s.fe.rtQueue.filter (· != id), bulkQueue := s.fe.bulkQueue.filter (· != id) } }

def dropLaunch (s : State) (id : Nat) : State :=
  let s := dropLaunchQueue s id
  { s with fe := { s.fe with
    launches := s.fe.launches.filter (fun l => l.info.id != id), handed := s.fe.handed.filter (fun h => h.launch != id) } }

/-- Cores whose reservation has taken effect, against bulk launches. -/
def effectiveCores (s : State) (sag : Nat) : List Nat := (ringsOf s sag).flatMap (fun r => r.2.coresIn.map (fun c => c.val))

/-- A co-resident launch at the head of its queue that no longer fits its saggar fails with OCCUPANCY (R38). -/
def failHead (s : State) (l : Option Launch) : State :=
  match l with
  | none => s
  | some l =>
    let rs := effectiveCores s l.info.sag.val
    let cores := (activeCores s l.info.sag.val).filter (fun c => l.info.rt || !(rs.contains c))
    if l.info.coRes && !l.chosen && blocksPerCore l.info * cores.length < l.blocks then
      nodeFail (dropLaunch s l.info.id) l.node 6 3 0 0
    else s

def failHeads (s : State) (sag : Nat) : State :=
  let s := failHead s (headOf s s.fe.rtQueue sag)
  failHead s (headOf s s.fe.bulkQueue sag)

/-- A launch whose dependences are met enters its dispatch queue. -/
def enterDispatch (s : State) (n : NodeRef) (i : LaunchInfo) : State :=
  let l : Launch := { info := i, node := n, blocks := launchBlocks i }
  let s := { s with fe := { s.fe with
    launches := s.fe.launches ++ [l]
    rtQueue := if i.rt then s.fe.rtQueue ++ [i.id] else s.fe.rtQueue
    bulkQueue := if i.rt then s.fe.bulkQueue else s.fe.bulkQueue ++ [i.id] } }
  failHeads s i.sag.val

-- Starting a node

/-- Bytes queued on a copy engine. -/
def copyQueued (s : State) (e : Nat) : Nat :=
  ((s.fe.copies.filter (fun j => j.engine.val == e)).map (fun j => copyLen j.words)).foldl (· + ·) 0

/-- The least of a list by a measure, the first on ties. -/
def leastBy (f : Nat → Nat) : List Nat → Option Nat
  | [] => none
  | x :: xs => some (xs.foldl (fun m y => if f y < f m then y else m) x)

/-- The copy engine of a node (R298, R310). -/
def pickEngine (s : State) (sag : Nat) (rt : Bool) : Option Nat :=
  leastBy (copyQueued s) ((copyEngines s sag).filter (fun e => rt || !((reservedEngines s sag).contains e)))

/-- Bytes queued on a link engine. -/
def linkQueued (s : State) (e : Nat) : Nat :=
  ((s.xl.engines.getD e {}).jobs.map (fun j => (if j.signal then 16 else linkLen j.words) - j.cut)).foldl (· + ·) 0

/-- Destination coordinate of a LINK or a remote SIGNAL. -/
def jobDst (ws : List W64) : Coord :=
  if kindOf ws == 0x43 then BitVec.ofNat 18 (field (word ws 2) 0 18) else linkDst ws

/-- The link engine of a node: on the edge die of its first port, with the fewest queued bytes (R354). -/
def pickLink (s : State) (sag : Nat) (ws : List W64) : Nat :=
  let east := match routePort s (sliceOf s sag) (jobDst ws) with
    | some p => p < 3
    | none => true
  (leastBy (linkQueued s) ((List.range 12).filter (fun e => (e < 6) == east))).getD 0

/-- A job on a link engine. -/
def linkStart (s : State) (n : NodeRef) (ws : List W64) : State :=
  let sag := nodeSag s n
  let e := pickLink s sag.val ws
  let r := takeId s
  let j : LinkJob := { id := r.1, graph := n.graph, ring := n.ring, seq := n.seq, sag, ctx := (nodeTag s n).toNat, words := ws
                       signal := kindOf ws == 0x43 }
  { r.2 with xl := { r.2.xl with engines := listModify (fun g => { g with jobs := g.jobs ++ [j] }) r.2.xl.engines e } }

/-- A node starts: it completes at once, or goes to the unit that does it. -/
def startNode (s : State) (n : NodeRef) (x : Node) : State :=
  let s := nodeStart s n
  let ws := stripOrd x.words
  let sag := nodeSag s n
  let ctx := (nodeTag s n).toNat
  let k := kindOf ws
  if k == 0x40 then
    match x.launch with
    | some i => if launchEmpty i then nodeDone s n else enterDispatch s n i
    | none => nodeDone s n
  else if k == 0x41 then
    if copyLen ws = 0 then nodeDone s n
    else
      match pickEngine s sag.val (ringOf s n.ring).rt with
      | some e =>
        let r := takeId s
        { r.2 with fe := { r.2.fe with copies := r.2.fe.copies ++
          [{ id := r.1, node := n, words := ws, sag, ctx, engine := BitVec.toFin (BitVec.ofNat 4 e), key := x.key }] } }
      | none => nodeFail s n 6 5 0 0
  else if k == 0x42 then
    if linkLen ws = 0 then nodeDone s n else linkStart s n ws
  else if k == 0x43 then
    if isRemote ws then linkStart s n ws else nodeDone (fenceSignal s (field (word ws 0) 16 16) (word ws 1)) n
  else if k == 0x44 then
    let r := takeId s
    { r.2 with fe := { r.2.fe with waits := r.2.fe.waits ++
      [{ id := r.1, node := n, sag, ctx, cone := waitCone ws, num := waitNum ws, target := waitTarget ws
         ignoreErr := bit (word ws 0) 9, timed := field (word ws 2) 0 32 != 0 }] } }
  else if k == 0x48 then
    { s with fe := { s.fe with runs := s.fe.runs.map (fun r =>
      if r.node == n then { r with started := true } else r) } }
  else if isNmKind k then nmEnqueue s sag ctx (.node n) ws
  else if isCodecKind k then
    let r := takeId s
    { r.2 with codecOps := r.2.codecOps ++ [{ id := r.1, sag, ctx, node := n, words := ws }] }
  else nodeDone s n

/-- The first entry of a ring that has passed its checks and may start. -/
def startable (r : Ring) : Option Node := r.entries.find? (fun e => e.st == .ready && mayStart r e)

/-- Starts that entry. -/
def tryStart (s : State) (n : Nat) : State :=
  match startable (ringOf s n) with
  | none => s
  | some e => startNode s { ring := n, seq := e.seq, graph := none } e

/-- ENTRY_START. -/
def execEntryStart (n : RingId) (s : State) : Host.Outcome State Fault Refusal :=
  .next (if newWork s then tryStart s n.val else s)

-- Entries at fetch (R299)

/-- The next entry to check: the oldest that is not yet checked, behind none that waits at fetch. -/
def nextFetched (r : Ring) : Option Node :=
  match (r.entries.dropWhile (fun e => e.st != .fetched && e.st != .held)) with
  | e :: _ => if e.st == .fetched then some e else none
  | [] => none

/-- The weight key that a SEALED_LOAD takes at its fetch. -/
def keyOf (s : State) (sag : Nat) (ws : List W64) : Option (List Byte) :=
  if kindOf ws == 0x41 && copyMode ws == 2 then tblFind (sagOf s sag).weightKeys (copyKey ws) else none

/-- A checked entry takes its holds and is ready; if its turn has come it starts. -/
def entryPass (s : State) (n : NodeRef) (ws : List W64) (objs : List Nat) (l : Option LaunchInfo) : State :=
  let s := modNode s n (fun x => { x with st := .ready, objs, launch := l, key := keyOf s (nodeSag s n).val ws })
  if newWork s then tryStart s n.ring else s

/-- The check of an entry of a graph node's KIND. -/
def checkEntry (s : State) (n : Nat) (e : Node) (h : HostAns) (env : MemEnv) : State :=
  let ref : NodeRef := { ring := n, seq := e.seq, graph := none }
  let ws := stripOrd e.words
  match checkNode s ref ws h env with
  | none => s
  | some (t, .pass objs l) => entryPass t ref ws objs l
  | some (t, .reject code status) => nodeFail t ref 6 code status 0
  | some (t, .readFail a) => nodeFail t ref 6 0 0 (BitVec.ofNat 64 a)

/-- A command of a ring entry: it acts on the ring's next entry to check, when that is of the KIND it names. -/
def entryCmd (n : Nat) (is : List W64 → Bool) (body : State → Node → State) (s : State) : State :=
  match nextFetched (ringOf s n) with
  | none => s
  | some e => if is (stripOrd e.words) then body s e else s

def noHost : HostAns := ⟨[], false⟩

def kindIs (k : Nat) (ws : List W64) : Bool := kindOf ws == k

/-- An entry of a KIND that reads no memory at its check. -/
def simpleEntry (n : RingId) (is : List W64 → Bool) (s : State) : State :=
  entryCmd n.val is (fun s e => checkEntry s n.val e noHost noErr) s

/-- KINDs that Table 11-7 reserves. -/
def isReservedKind (k : Nat) : Bool := !(isNodeKind k) && !(k == 0x48 || k == 0x49 || k == 0x4A || k == 0x4B)

/-- NOP: a NOP entry; an entry of a reserved KIND, which no other command names, is rejected here. -/
def execNopEntry (n : RingId) (s : State) : Host.Outcome State Fault Refusal :=
  .next (simpleEntry n (fun ws => kindOf ws == 0 || isReservedKind (kindOf ws)) s)

/-- MATVEC. -/
def execMatvec (n : RingId) (s : State) : Host.Outcome State Fault Refusal := .next (simpleEntry n (kindIs 1) s)

/-- GATHER. -/
def execGather (n : RingId) (s : State) : Host.Outcome State Fault Refusal := .next (simpleEntry n (kindIs 2) s)

/-- SCATTER. -/
def execScatter (n : RingId) (s : State) : Host.Outcome State Fault Refusal := .next (simpleEntry n (kindIs 3) s)

/-- REDUCE. -/
def execReduce (n : RingId) (s : State) : Host.Outcome State Fault Refusal := .next (simpleEntry n (kindIs 4) s)

/-- CLEAN. -/
def execClean (n : RingId) (s : State) : Host.Outcome State Fault Refusal := .next (simpleEntry n (kindIs 5) s)

/-- ENCODE. -/
def execEncode (n : RingId) (s : State) : Host.Outcome State Fault Refusal := .next (simpleEntry n (kindIs 0x21) s)

/-- DECODE. -/
def execDecode (n : RingId) (s : State) : Host.Outcome State Fault Refusal := .next (simpleEntry n (kindIs 0x22) s)

/-- EXPORT. -/
def execExportOp (n : RingId) (s : State) : Host.Outcome State Fault Refusal := .next (simpleEntry n (kindIs 0x23) s)

/-- IMPORT. -/
def execImportOp (n : RingId) (s : State) : Host.Outcome State Fault Refusal := .next (simpleEntry n (kindIs 0x24) s)

/-- HISTOGRAM. -/
def execHistogram (n : RingId) (s : State) : Host.Outcome State Fault Refusal := .next (simpleEntry n (kindIs 0x25) s)

/-- INSTALL. -/
def execInstall (n : RingId) (s : State) : Host.Outcome State Fault Refusal := .next (simpleEntry n (kindIs 0x26) s)

/-- LAUNCH. -/
def execLaunch (n : RingId) (h : HostAns) (env : MemEnv) (s : State) : Host.Outcome State Fault Refusal :=
  .next (entryCmd n.val (kindIs 0x40) (fun s e => meets env s (checkEntry s n.val e h env)) s)

/-- COPY: MODE COPY, and the reserved MODE, which is rejected. -/
def execCopy (n : RingId) (s : State) : Host.Outcome State Fault Refusal :=
  .next (simpleEntry n (fun ws => kindOf ws == 0x41 && (copyMode ws == 0 || copyMode ws == 3)) s)

/-- FILL. -/
def execFill (n : RingId) (s : State) : Host.Outcome State Fault Refusal :=
  .next (simpleEntry n (fun ws => kindOf ws == 0x41 && copyMode ws == 1) s)

/-- SEALED_LOAD. -/
def execSealedLoad (n : RingId) (s : State) : Host.Outcome State Fault Refusal :=
  .next (simpleEntry n (fun ws => kindOf ws == 0x41 && copyMode ws == 2) s)

/-- LINK. -/
def execLink (n : RingId) (s : State) : Host.Outcome State Fault Refusal := .next (simpleEntry n (kindIs 0x42) s)

/-- SIGNAL. -/
def execSignal (n : RingId) (s : State) : Host.Outcome State Fault Refusal := .next (simpleEntry n (kindIs 0x43) s)

/-- WAIT. -/
def execWait (n : RingId) (s : State) : Host.Outcome State Fault Refusal := .next (simpleEntry n (kindIs 0x44) s)

-- Waits (R301)

def waitOf (s : State) (id : Nat) : Option WaitJob := s.fe.waits.find? (fun w => w.id == id)

def dropWait (s : State) (id : Nat) : State := { s with fe := { s.fe with waits := s.fe.waits.filter (fun w => w.id != id) } }

/-- A wait fails, with the counter's or the fence's number. -/
def waitFail (s : State) (w : WaitJob) : State := nodeFail (dropWait s w.id) w.node 7 0 0 (BitVec.ofNat 64 w.num)

/-- The condition of a wait holds. -/
def waitMet (s : State) (w : WaitJob) : Bool :=
  if w.cone then coneReached (coneOf s w.num).value (w.target.setWidth 48) else reached (fenceOf s w.num).value w.target

/-- WAIT_EVALUATION: a wait whose counter is no longer its saggar's fails (R359), and so does a wait of a fence with ERROR
or ABANDONED, unless it ignores them; a wait that is satisfied completes. -/
def execWaitEvaluation (id : Nat) (s : State) : Host.Outcome State Fault Refusal :=
  .next (match waitOf s id with
    | none => s
    | some w =>
      let f := fenceOf s w.num
      let c := coneOf s w.num
      if w.cone && (!c.assigned || c.partition != w.sag) then waitFail s w
      else if !w.cone && !w.ignoreErr && (f.error || f.abandoned) then waitFail s w
      else if waitMet s w then nodeDone (dropWait s id) w.node
      else s)

/-- WAIT_TIMEOUT. -/
def execWaitTimeout (id : Nat) (s : State) : Host.Outcome State Fault Refusal :=
  .next (match waitOf s id with
    | none => s
    | some w => if w.timed && !(waitMet s w) then waitFail s w else s)

-- A launch ends (R280, R42, R305)

/-- A launch has no store on its way. -/
def storesGone (s : State) (id : Nat) : Bool :=
  let owns (o : IoOwner) : Bool := match o with
    | .store _ _ ms => ms.any (fun m => m.1 == id)
    | _ => false
  s.cores.all (fun k => k.2.subs.all (fun u => u.buffer.all (fun e => e.marks.all (fun m => m.launch != id)))) &&
  s.dl.waiting.all (fun q => !(owns q.owner)) && s.dl.tags.all (fun t => !(owns t.2.owner))

/-- A near-memory operation that a block of the launch issued. -/
def opOfLaunch (id : Nat) (o : NmOp) : Bool := match o.issuer with
  | .block _ _ i _ _ _ _ => i.id == id
  | .node _ => false

/-- LAUNCH_COMPLETE: every write of the launch is made, those of the near-memory operations that its blocks issued too (R281). -/
def execLaunchComplete (id : Nat) (s : State) : Host.Outcome State Fault Refusal :=
  .next (match launchOf s id with
    | none => s
    | some l =>
      if (l.aborted || l.retired == l.blocks) && storesGone s id && !(s.nmOps.any (opOfLaunch id)) then
        let t := dropLaunch s id
        if l.faulted then nodeFailQuiet t l.node 0
        else if l.aborted then nodeAbort t l.node
        else nodeDone t l.node
      else s)

-- Destruction of a queue (R331 to R335)

/-- Waits of a ring are skipped. -/
def skipWaits (s : State) (n : Nat) : State :=
  (s.fe.waits.filter (fun w => w.node.ring == n)).foldl (fun t w => nodeAbort (dropWait t w.id) w.node) s

/-- Running graph launches of a ring skip what has not started. -/
def skipRuns (s : State) (n : Nat) : State :=
  (s.fe.runs.filter (fun r => r.node.ring == n && r.started)).foldl (fun t r =>
    let sk := skipRunNodes t r.id
    if sk.2 then fenceAbandon sk.1 r.fence else sk.1) s

/-- QUEUE_DESTRUCTION. -/
def execQueueDestruction (n : RingId) (s : State) : Host.Outcome State Fault Refusal :=
  let r := ringOf s n.val
  .next (
    if r.st == .active || r.st == .faulted then
      let s := modRing s n.val (fun r => { r with st := .destroying, graceUs := s.fe.grace.toNat, graceOver := false })
      let sk := skipEntries (cancelFetch s n.val) n.val true
      let s := if sk.2 then fenceAbandon sk.1 r.qfence.toNat else sk.1
      skipRuns (skipWaits s n.val) n.val
    else s)

/-- Nodes of a ring on link engines are aborted: their packets not yet sent are dropped, their trackers freed (R355). -/
def dropLinks (s : State) (hit : LinkJob → Bool) : State :=
  { s with xl := { s.xl with engines := s.xl.engines.map (fun e =>
      let gone := e.jobs.filter hit
      { e with
        jobs := e.jobs.filter (fun j => !(hit j))
        trackers := e.trackers.filter (fun t => !(gone.any (fun j => j.id == t.2.job))) }) } }

-- A copy node's place (R298)

def jobSrc (s : State) (j : CopyJob) : Obj := objOf s (field (word j.words 0) 16 16)
def jobDstObj (s : State) (j : CopyJob) : Obj := objOf s (field (word j.words 0) 32 16)
def jobSrcAddr (s : State) (j : CopyJob) : Nat := (jobSrc s j).base.toNat + copySrcOfs j.words
def jobDstAddr (s : State) (j : CopyJob) : Nat := (jobDstObj s j).base.toNat + copyDstOfs j.words

/-- Bytes of a FILL from an offset on. -/
def patternBytes (p : W64) (ofs len : Nat) : List Byte :=
  (List.range len).map (fun i => BitVec.ofNat 8 (p.toNat / 256 ^ ((ofs + i) % 8)))

/-- Bytes in which each aligned 8 B is wholly old or wholly new, by a draw (R289, R334). -/
def mixWords (f a : Nat) (old new : List Byte) : List Byte :=
  (old.zip new).zipIdx.map (fun p => if (Config.freeByte f ((a + p.2) / 8)).getLsbD 0 then p.1.2 else p.1.1)

/-- What an aborted copy or fill would write from offset `wrote` on: a fill's pattern, the source's bytes in device memory, and
open bytes where they were to come from the host or cannot be read now. -/
def abortedData (s : State) (j : CopyJob) (f : Nat) : List Byte :=
  let len := copyLen j.words - j.wrote
  let open_ := (List.range len).map (Config.freeByte f)
  if copyMode j.words == 1 then patternBytes (word j.words 4) j.wrote len
  else if (jobSrc s j).host then open_
  else match readCoh s j.sag.val (jobSrcAddr s j + j.wrote) len noErr with
    | some (_, .ok bs) => bs
    | _ => open_

/-- An aborted copy node (Table 12-16): of the writes not yet made each is made or not, whole at 8 B, and a SEALED_LOAD leaves its
destination unspecified. Device memory that cannot be written now keeps its bytes. -/
def scrambleCopy (s : State) (j : CopyJob) : State :=
  if (jobDstObj s j).host then s
  else
    let r := takeFree s
    let g := takeFree r.2
    let a := jobDstAddr s j
    let put (a : Nat) (bs : List Byte) : State := match writeMem g.2 j.sag.val a bs noErr with
      | some (t, _) => t
      | none => s
    if copyMode j.words == 2 then put a ((List.range (copyLen j.words)).map (Config.freeByte r.1))
    else match readCoh s j.sag.val (a + j.wrote) (copyLen j.words - j.wrote) noErr with
      | some (_, .ok old) => put (a + j.wrote) (mixWords r.1 (a + j.wrote) old (abortedData s j g.1))
      | _ => s

/-- The transfers that a copy engine has with the host are forgotten: no unsent one leaves, and no answer brings anything. -/
def dropTransfers (s : State) (j : CopyJob) : State :=
  let mine (o : IoOwner) : Bool := match o with
    | .copy e i _ => e == j.engine && i == j.id
    | _ => false
  dropRequests s mine

/-- Every engine class stops the work of a ring (Table 12-16). -/
def abortRing (s : State) (n : Nat) : State :=
  let s := ((s.fe.launches.filter (fun l => l.node.ring == n)).map (fun l => l.info.id)).foldl
    (fun t id => abortLaunch t id) s
  let cs := s.fe.copies.filter (fun j => j.node.ring == n)
  let s := cs.foldl (fun t j => nodeAbort (dropTransfers (scrambleCopy t j) j) j.node) { s with fe := { s.fe with copies := s.fe.copies.filter (fun j => j.node.ring != n) } }
  let ops := s.nmOps.filter (fun o => match o.issuer with
    | .node r => r.ring == n
    | .block _ _ _ _ _ _ _ => false)
  let s := ops.foldl (fun t o => match o.issuer with
    | .node r => nodeAbort (dropNmOp t o) r
    | .block _ _ _ _ _ _ _ => t) s
  let ks := s.codecOps.filter (fun o => o.node.ring == n)
  let s := ks.foldl (fun t o => nodeAbort t o.node)
    { s with codecOps := s.codecOps.map (fun o => if o.node.ring == n then { o with stop := some (6, 0, 0) } else o) }
  let ls := s.xl.engines.flatMap (fun e => e.jobs.filter (fun j => j.ring == n))
  ls.foldl (fun t j => nodeAbort t { ring := j.ring, seq := j.seq, graph := j.graph }) (dropLinks s (fun j => j.ring == n))

/-- The ring is idle: nothing of it is started. -/
def ringIdle (s : State) (n : Nat) : Bool :=
  (ringOf s n).entries.all (fun e => isTerminated e.st) &&
  s.fe.runs.all (fun r => r.node.ring != n || r.nodes.all (fun x => isTerminated x.st)) &&
  s.fe.launches.all (fun l => l.node.ring != n) && s.codecOps.all (fun o => o.node.ring != n)

/-- GRACE_EXPIRY. -/
def execGraceExpiry (n : RingId) (s : State) : Host.Outcome State Fault Refusal :=
  let r := ringOf s n.val
  .next (
    if r.st == .destroying && !r.graceOver && !(ringIdle s n.val) then
      settleAll (modRing (abortRing s n.val) n.val (fun r => { r with graceOver := true }))
    else s)

/-- A live version of a slot is pinned. -/
def versionPinned (s : State) (slot num : Nat) : Bool := s.fe.runs.any (fun r => r.slot == slot && r.version == num)

/-- The store of a slot takes bytes that the manual does not specify (R313); of host memory the model holds none. A store
with a line that cannot be written now keeps its bytes. -/
def scramble (s : State) (g : GraphSlot) : State :=
  let o := objOf s g.storeObj
  if o.host || g.storeLen = 0 then s
  else
    let r := takeFree s
    match writeMem r.2 g.sag.val (o.base.toNat + g.storeOfs) ((List.range g.storeLen).map (Config.freeByte r.1)) noErr with
    | some (t, _) => t
    | none => s

/-- Versions that are neither current nor pinned die; a RELEASING slot that nothing pins becomes FREE, and its store's
bytes are unspecified from then on (R313, R316). -/
def sweepSlot (s : State) (slot : Nat) : State :=
  let g := graphOf s slot
  let cur := g.versions.getLast?
  let live := g.versions.filter (fun v => versionPinned s slot v.num || cur.any (fun c => c.num == v.num && g.st == .bound))
  if g.st == .releasing && live.isEmpty then setGraph (scramble s g) slot {}
  else if g.st == .free then s
  else setGraph s slot { g with versions := live }

/-- Drops graph launches, unpins their versions, and lets the entries that wait at fetch be checked again. -/
def releaseRuns (s : State) (hit : GraphRun → Bool) : State :=
  let gone := s.fe.runs.filter hit
  let s := { s with fe := { s.fe with runs := s.fe.runs.filter (fun r => !(hit r)) } }
  let s := gone.foldl (fun t r => sweepSlot t r.slot) s
  if gone.isEmpty then s
  else
    { s with fe := { s.fe with rings := s.fe.rings.map (fun p =>
      (p.1, { p.2 with entries := p.2.entries.map (fun e => if e.st == .held then { e with st := .fetched } else e) })) } }

/-- The ring is DISABLED with nothing held. -/
def disableRing (s : State) (n : Nat) : State :=
  modRing (releaseRuns s (fun r => r.node.ring == n)) n (fun r =>
    { r with st := .disabled, entries := [], fetches := [], cores := [], engine := none, coresIn := [], engineIn := false
             graceOver := false })

/-- DESTRUCTION_COMPLETE: DB_RETIRED and the queue fence take the accepted tail. -/
def execDestructionComplete (n : RingId) (s : State) : Host.Outcome State Fault Refusal :=
  let r := ringOf s n.val
  .next (
    if r.st == .destroying && ringIdle s n.val then
      let s := modRing s n.val (fun r => { r with retired := r.tail })
      disableRing (fenceSignal s r.qfence.toNat r.tail) n.val
    else s)

end Sys2Proof.Machine
end

