-- ==== Sys2Proof/Machine/Graphs.lean ====
section
/-!
DEFINITION. Graphs (R311 to R317): BIND, UNBIND, PATCH and GRAPH entries, the fetch of a graph's nodes, and the end of a
graph launch.
-/
namespace Sys2Proof.Machine

open Sys2Proof

-- Descriptors (Table 11-15)

def slotNum (ws : List W64) : Nat := field (word ws 0) 16 12

def graphWord0 (ws : List W64) : Bool := field (word ws 0) 8 8 == 0 && field (word ws 0) 28 36 == 0

def graphFields (ws : List W64) : Bool := graphWord0 ws && field (word ws 1) 16 48 == 0 && zeroFrom ws 3

def unbindFields (ws : List W64) : Bool := graphWord0 ws && zeroFrom ws 1

def patchFields (ws : List W64) : Bool :=
  graphWord0 ws && field (word ws 1) 16 48 == 0 && field (word ws 2) 16 48 == 0 && field (word ws 3) 48 16 == 0 &&
  field (word ws 3) 0 6 == 0 && zeroFrom ws 4

def bindFields (ws : List W64) : Bool :=
  graphWord0 ws && field (word ws 1) 16 48 == 0 && field (word ws 2) 48 16 == 0 && field (word ws 2) 0 6 == 0 &&
  field (word ws 3) 16 48 == 0 && field (word ws 4) 48 16 == 0 && field (word ws 4) 0 6 == 0 && zeroFrom ws 5

/-- The slot is bound by the saggar (R313). -/
def slotBound (s : State) (sag : SagId) (k : Nat) : Bool := (graphOf s k).st == .bound && (graphOf s k).sag == sag

/-- Slots of a saggar outside FREE. -/
def slotsUsed (s : State) (sag : SagId) : Nat := (s.fe.graphs.filter (fun g => g.2.st != .free && g.2.sag == sag)).length

-- Images (R311)

/-- Nodes left that still have a predecessor among the nodes left. -/
def stillBlocked (edges : List (Nat × Nat)) (rem : List Nat) : List Nat :=
  rem.filter (fun v => edges.any (fun e => e.2 == v && rem.contains e.1))

/-- No cycle: taking away what has no predecessor leaves nothing. -/
def acyclic (edges : List (Nat × Nat)) : Nat → List Nat → Bool
  | 0, rem => rem.isEmpty
  | fuel + 1, rem => rem.isEmpty || acyclic edges fuel (stillBlocked edges rem)

def edgesOk (n : Nat) (edges : List (Nat × Nat)) : Bool :=
  edges.all (fun e => e.1 < n && e.2 < n && e.1 != e.2) && acyclic edges n (List.range n)

/-- The header of a graph image. -/
def imageHeaderOk (h : List Byte) : Bool :=
  rd32 h 0 == 0x48464752 && 1 ≤ rd32 h 4 && rd32 h 4 ≤ 65536 && rd32 h 8 ≤ 262144 && rd32 h 12 % 64 == 0 && rd32 h 16 % 4 == 0 &&
  ((h.drop 20).take 40).all (· == 0) && rd32 h 60 == crc32c (h.take 60)

/-- Bytes of the graph store of an image. -/
def storeSize (nodes edges : Nat) : Nat := nodes * 288 + edges * 4 + 4096

def edgesFrom (bs : List Byte) (n : Nat) : List (Nat × Nat) :=
  (List.range n).map (fun i => (rd16 bs (4 * i), rd16 bs (4 * i + 2)))

-- Outcomes of the checks of graph entries

/-- A graph entry that fails its check. -/
def graphReject (s : State) (n : Nat) (e : Node) (code : Nat) : State :=
  nodeFail s { ring := n, seq := e.seq, graph := none } 6 code 0 0

def graphReadFail (s : State) (n : Nat) (e : Node) (addr : Nat) : State :=
  nodeFail s { ring := n, seq := e.seq, graph := none } 6 0 0 (BitVec.ofNat 64 addr)

/-- A graph entry that waits at fetch. A GRAPH has passed the check of its fence, and holds its page (R330). -/
def holdEntry (s : State) (n : Nat) (e : Node) : State :=
  modRingEntry s n e.seq (fun x => { x with st := .held, passed := kindOf x.words == 0x48 })

def graphPass (s : State) (n : Nat) (e : Node) (objs : List Nat) : State :=
  entryPass s { ring := n, seq := e.seq, graph := none } (stripOrd e.words) objs none

-- GRAPH

/-- A GRAPH entry pins the current version. -/
def pinGraph (s : State) (n : Nat) (e : Node) (ws : List W64) (v : GraphVersion) : State :=
  let r := takeId s
  let run : GraphRun :=
    { id := r.1, node := { ring := n, seq := e.seq, graph := none }, slot := slotNum ws, version := v.num
      nodes := v.nodes.map (fun w => ({ words := w, st := .waiting } : Node)), fence := field (word ws 1) 0 16, value := word ws 2 }
  graphPass { r.2 with fe := { r.2.fe with runs := r.2.fe.runs ++ [run] } } n e []

/-- GRAPH (R314). -/
def execGraph (n : RingId) (s : State) : Host.Outcome State Fault Refusal :=
  .next (entryCmd n.val (kindIs 0x48) (fun s e =>
    let ws := stripOrd e.words
    let r := ringOf s n.val
    if !(graphFields ws) then graphReject s n.val e 1
    else if !e.passed && !(fenceUsable s r.context (field (word ws 1) 0 16)) then graphReject s n.val e 6
    else if !(slotBound s r.partition (slotNum ws)) then graphReject s n.val e 4
    else if 4 ≤ (s.fe.runs.filter (fun x => x.slot == slotNum ws)).length then holdEntry s n.val e
    else
      match (graphOf s (slotNum ws)).versions.getLast? with
      | some v => pinGraph s n.val e ws v
      | none => s) s)

-- UNBIND

/-- UNBIND (R313). -/
def execUnbind (n : RingId) (s : State) : Host.Outcome State Fault Refusal :=
  .next (entryCmd n.val (kindIs 0x4B) (fun s e =>
    let ws := stripOrd e.words
    let k := slotNum ws
    if !(unbindFields ws) then graphReject s n.val e 1
    else if !(slotBound s (ringOf s n.val).partition k) then graphReject s n.val e 4
    else graphPass (sweepSlot (setGraph s k { graphOf s k with st := .releasing }) k) n.val e []) s)

-- PATCH

/-- The version that a patch makes or changes: none when a fifth would be live. -/
def patched (s : State) (k node : Nat) (ws : List W64) : Option (List GraphVersion) :=
  let vs := (graphOf s k).versions
  match vs.getLast? with
  | none => none
  | some v =>
    let nodes := listSet v.nodes node ws
    if !(versionPinned s k v.num) then some (vs.dropLast ++ [{ v with nodes := nodes }])
    else if 4 ≤ vs.length then none
    else some (vs ++ [{ num := v.num + 1, nodes }])

/-- PATCH (R317). -/
def execPatch (n : RingId) (h : HostAns) (env : MemEnv) (s : State) : Host.Outcome State Fault Refusal :=
  .next (entryCmd n.val (kindIs 0x49) (fun s e =>
    let ws := stripOrd e.words
    let r := ringOf s n.val
    let o := field (word ws 2) 0 16
    let ofs := field (word ws 3) 0 48
    let k := slotNum ws
    let node := field (word ws 1) 0 16
    if !(patchFields ws) then graphReject s n.val e 1
    else if !(objNameable s r.context o false) then graphReject s n.val e 2
    else if !(slotBound s r.partition k) then graphReject s n.val e 4
    else if (objOf s o).len.toNat < ofs + 64 then graphReject s n.val e 1
    else
      meets env s (match readObj s r.partition.val o ofs 64 h env with
      | none => s
      | some (t, _, .error a) => graphReadFail t n.val e a
      | some (t, _, .ok bs) =>
        let new := wordsOf 8 bs
        let count := match (graphOf t k).versions.getLast? with
          | some v => v.nodes.length
          | none => 0
        if !(nodeFieldsOk t r.partition.val new) || count ≤ node then graphReject t n.val e 1
        else
          match patched t k node new with
          | none => holdEntry t n.val e
          | some vs => graphPass (setGraph t k { graphOf t k with versions := vs }) n.val e [o])) s)

-- BIND

/-- BIND's image once it has been read: nodes and edges, or none where R311 or R299 is broken. -/
def imageOk (s : State) (sag : Nat) (nodes : List (List W64)) (edges : List (Nat × Nat)) : Bool :=
  nodes.all (nodeFieldsOk s sag) && edgesOk nodes.length edges

/-- The slot takes the image. -/
def bindSlot (s : State) (n k storeObj storeOfs : Nat) (nodes : List (List W64)) (edges : List (Nat × Nat)) : State :=
  let r := ringOf s n
  let g : GraphSlot :=
    { st := .bound, sag := r.partition, ctx := r.context, storeObj, storeOfs, storeLen := storeSize nodes.length edges.length
      edges := edges.eraseDups, versions := [{ num := 0, nodes }] }
  setGraph (scramble s g) k g

/-- Stage 6 of a BIND: the reads and the checks of the image. -/
def checkBind (s : State) (n : Nat) (e : Node) (ws : List W64) (h : HostAns) (env : MemEnv) : State :=
  let sag := (ringOf s n).partition.val
  let io := field (word ws 1) 0 16
  let iofs := field (word ws 2) 0 48
  let so := field (word ws 3) 0 16
  let sofs := field (word ws 4) 0 48
  let ilen := (objOf s io).len.toNat
  if ilen < iofs + 64 then graphReject s n e 1
  else
    match readObj s sag io iofs 64 h env with
    | none => s
    | some (t, _, .error a) => graphReadFail t n e a
    | some (t, h1, .ok hdr) =>
      let nn := rd32 hdr 4
      let ne := rd32 hdr 8
      let no := iofs + rd32 hdr 12
      let eo := iofs + rd32 hdr 16
      if !(imageHeaderOk hdr) || ilen < no + 64 * nn || ilen < eo + 4 * ne ||
          (objOf t so).len.toNat < sofs + storeSize nn ne then graphReject t n e 1
      else
        let e1 := objEnv t io iofs 64 env
        match readObj t sag io no (64 * nn) h1 e1 with
        | none => s
        | some (t, _, .error a) => graphReadFail t n e a
        | some (t, h2, .ok nb) =>
          match readObj t sag io eo (4 * ne) h2 (objEnv t io no (64 * nn) e1) with
          | none => s
          | some (t, _, .error a) => graphReadFail t n e a
          | some (t, _, .ok eb) =>
            let nodes := (pieces 64 nn nb).map (wordsOf 8)
            let edges := edgesFrom eb ne
            if imageOk t sag nodes edges then graphPass (bindSlot t n (slotNum ws) so sofs nodes edges) n e [io, so]
            else graphReject t n e 1

/-- BIND (R312, R363). -/
def execBind (n : RingId) (h : HostAns) (env : MemEnv) (s : State) : Host.Outcome State Fault Refusal :=
  .next (entryCmd n.val (kindIs 0x4A) (fun s e =>
    let ws := stripOrd e.words
    let r := ringOf s n.val
    if !(bindFields ws) then graphReject s n.val e 1
    else if !(objNameable s r.context (field (word ws 1) 0 16) false) || !(objNameable s r.context (field (word ws 3) 0 16) true) then
      graphReject s n.val e 2
    else if (graphOf s (slotNum ws)).st != .free || (sagOf s r.partition.val).qGraphs.toNat ≤ slotsUsed s r.partition then
      graphReject s n.val e 4
    else meets env s (checkBind s n.val e ws h env)) s)

-- Nodes of a running graph launch (R314)

/-- Every predecessor of a node has completed. -/
def predsDone (s : State) (r : GraphRun) (i : Nat) : Bool :=
  (graphOf s r.slot).edges.all (fun e => e.2 != i || (r.nodes[e.1]?).any (fun x => x.st == .completed))

/-- The place of a node in its graph store: its 288 B lie in the order of the nodes, the model's choice (log 80). -/
def storeNode (g : GraphSlot) (node : Nat) : Nat := g.storeOfs + 288 * node

/-- The check of a node that its store has given. -/
def checkStored (s : State) (ref : NodeRef) (x : Node) (h : HostAns) (env : MemEnv) : State :=
  match checkNode s ref x.words h env with
  | none => s
  | some (t, .pass objs l) =>
    let y := { x with st := .ready, objs, launch := l, key := keyOf t (nodeSag t ref).val x.words }
    startNode (modNode t ref (fun _ => y)) ref y
  | some (t, .reject code status) => nodeFail t ref 6 code status 0
  | some (t, .readFail a) => nodeFail t ref 6 0 0 (BitVec.ofNat 64 a)

/-- GRAPH_NODE_FETCH: a node whose last predecessor has completed is read from its store, checked and started. -/
def execGraphNodeFetch (id node : Nat) (h : HostAns) (env : MemEnv) (s : State) : Host.Outcome State Fault Refusal :=
  .next (match runOf s id with
    | none => s
    | some r =>
      match r.nodes[node]? with
      | none => s
      | some x =>
        let st := (ringOf s r.node.ring).st
        if !(newWork s) || !r.started || r.failed || x.st != .waiting || !(predsDone s r node) || !(st == .active || st == .faulted) then s
        else
          let ref : NodeRef := { r.node with graph := some (id, node) }
          let g := graphOf s r.slot
          match readObj s g.sag.val g.storeObj (storeNode g node) 64 h env with
          | none => s
          | some (t, _, .error a) => meets env s (nodeFail t ref 6 0 0 (BitVec.ofNat 64 a))
          | some (t, h1, .ok _) => meets env s (checkStored t ref x h1 (objEnv t g.storeObj (storeNode g node) 64 env)))

/-- GRAPH_LAUNCH_COMPLETE (R314, R315): every node has terminated. -/
def execGraphLaunchComplete (id : Nat) (s : State) : Host.Outcome State Fault Refusal :=
  .next (match runOf s id with
    | none => s
    | some r =>
      let open_ := (nodeOf s r.node).any (fun x => x.st == .started)
      if !r.started || !open_ || !(r.nodes.all (fun x => isTerminated x.st)) then s
      else if r.failed then nodeFailQuiet s r.node 0
      else if r.nodes.all (fun x => x.st == .completed) then nodeDone (fenceSignal s r.fence r.value) r.node
      else nodeAbort s r.node)

/-- GRAPH_PIN_RELEASE (R316): a graph launch whose entry has retired no longer pins its version. -/
def execGraphPinRelease (id : Nat) (s : State) : Host.Outcome State Fault Refusal :=
  .next (match runOf s id with
    | none => s
    | some r => if (nodeOf s r.node).isNone then releaseRuns s (fun x => x.id == id) else s)

end Sys2Proof.Machine
end

