-- ==== Sys2Proof/Machine/Objects.lean ====
section
/-!
DEFINITION. Command ports, and the OBJ block (spec/12): contexts, memory objects, fence pages, the fault record and fence
signals of the host.
-/
namespace Sys2Proof.Machine

open Sys2Proof

-- A command port (R320, R365, R381, R432, R474)

/-- A register's bytes that are not enabled are 0 in a write that starts a command (R474). -/
def enabledBytes (be : BitVec 8) (w : W64) : W64 :=
  BitVec.ofNat 64 (leNat ((leBytes 8 w.toNat).zipIdx.map (fun p => if be.getLsbD p.2 then p.1 else 0)))

/-- A register after a write of some of its bytes. -/
def mergeBytes (old : W64) (be : BitVec 8) (w : W64) : W64 :=
  BitVec.ofNat 64 (leNat (((leBytes 8 old.toNat).zip (leBytes 8 w.toNat)).zipIdx.map
    (fun p => if be.getLsbD p.2 then p.1.2 else p.1.1)))

/-- A command word with the OP of its row. -/
def withOp (op : Nat) (w : W64) : W64 := (w &&& 0xFFFFFFFFFFFFFF00#64) ||| BitVec.ofNat 64 op

/-- What a command answers: the state, its STATUS and its RESULT. -/
structure Answer where
  s : State
  status : Nat
  result : Nat := 0

/-- A write refused because a command is running. -/
def portRefuse (p : Port) : Port := { p with refused := true, refusedCount := sat p.refusedCount 1 }

/-- A command is being checked. -/
def portCheck (p : Port) (ws : List W64) : Port := { p with busy := true, todo := ws }

/-- A command has taken effect: a failed one has RESULT 0. -/
def portDone (p : Port) (busy : Bool) (a : Answer) : Port :=
  { p with busy, todo := [], status := BitVec.ofNat 8 a.status, result := if a.status = 0 then BitVec.ofNat 32 a.result else 0 }

-- Draining (R319, R325, R330)

/-- A CLOSING slot becomes FREE with the last of its objects and fence pages. -/
def settleCtx (s : State) (slot : Nat) : State :=
  let c := ctxOf s slot
  let mine (tag : BitVec 16) : Bool := tag.toNat % 4096 == slot
  if c.st == .closing && !(s.obj.objs.any (fun o => o.2.st != .free && mine o.2.tag)) &&
      !(s.obj.pages.any (fun p => p.2.st != .free && mine p.2.owner)) then
    setCtx s slot { c with st := .free }
  else s

/-- A DRAINING object that nothing holds: FREE, or SCRUBBING. -/
def settleObj (s : State) (o : Nat) : State :=
  let x := objOf s o
  if x.st == .draining && holdCount s o = 0 then
    if x.scrub && !x.host then setObj s o { x with st := .scrubbing, launches := [] }
    else settleCtx (setObj s o {}) (x.tag.toNat % 4096)
  else s

/-- A DRAINING page that nothing holds becomes FREE. -/
def settlePage (s : State) (pg : Nat) : State :=
  let p := pageOf s pg
  if p.st == .draining && !(pageHeld s pg) then settleCtx (setPage s pg {}) (p.owner.toNat % 4096) else s

/-- Launches of a context that were admitted and have not terminated (R324). -/
def ctxLaunches (s : State) (tag : BitVec 16) : List Nat :=
  (s.fe.launches.filter (fun l => l.info.ctx == tag.toNat)).map (fun l => l.info.id)

/-- A LIVE object is freed. -/
def freeObj (s : State) (o : Nat) (scrub : Bool) : State :=
  let x := objOf s o
  settleObj (setObj s o { x with st := .draining, scrub, launches := ctxLaunches s x.tag }) o

/-- A LIVE page is freed. -/
def freePage (s : State) (pg : Nat) : State := settlePage (setPage s pg { pageOf s pg with st := .draining }) pg

-- The commands of Table 12-2 (statuses of Table 12-6)

/-- The lowest index below `n` that a table does not list. -/
def lowestFree {α : Type} (t : Tbl α) (n : Nat) : Option Nat := firstFrom (fun i => (tblFind t i).isNone) n 0

def lowestCtx (s : State) : Option Nat := firstFrom (fun i => (ctxOf s i).st == .free) 4096 0

def badOp (s : State) : Answer := { s, status := 1 }
def noSlot (s : State) : Answer := { s, status := 2 }
def badTag (s : State) : Answer := { s, status := 3 }
def bounds (s : State) : Answer := { s, status := 4 }
def badState (s : State) : Answer := { s, status := 5 }
def busyNow (s : State) : Answer := { s, status := 6 }
def isSealedErr (s : State) : Answer := { s, status := 7 }
def okay (s : State) (result : Nat) : Answer := { s, status := 0, result }

/-- Contexts, objects and fence pages that a saggar holds (R363). -/
def ctxCount (s : State) (k : SagId) : Nat := (s.obj.ctxs.filter (fun c => c.2.st != .free && c.2.sag == k)).length
def objCount (s : State) (k : SagId) : Nat := (s.obj.objs.filter (fun o => o.2.st != .free && o.2.sag == k)).length
def pageCount (s : State) (k : SagId) : Nat :=
  (s.obj.pages.filter (fun p => p.2.st != .free && (ctxOf s (p.2.owner.toNat % 4096)).sag == k)).length

def ctxOpenOp (s : State) (a0 : W64) : Answer :=
  let k : SagId := BitVec.toFin (a0.setWidth 4)
  let g := sagOf s k.val
  if !(exists_ g) then badTag s
  else if g.qContexts.toNat ≤ ctxCount s k then noSlot s
  else match lowestCtx s with
    | none => noSlot s
    | some slot =>
      let gen := (ctxOf s slot).gen + 1
      okay (setCtx s slot { st := .open, gen, sag := k, fault := {} }) (gen.toNat * 4096 + slot)

/-- CTX_CLOSE is refused with BUSY. -/
def ctxBusy (s : State) (tag : BitVec 16) : Bool :=
  s.fe.rings.any (fun r => r.2.st != .disabled && r.2.context == tag) ||
  s.obj.objs.any (fun o => o.2.st == .live && o.2.tag == tag && isGraphStore s o.1)

def ctxCloseOp (s : State) (tag : BitVec 16) (a0 : W64) : Answer :=
  let slot := tag.toNat % 4096
  if !(tagCurrent s tag) then badTag s
  else if ctxBusy s tag then busyNow s
  else
    let s := setCtx s slot { ctxOf s slot with st := .closing }
    let s := (s.obj.objs.filter (fun o => o.2.st == .live && o.2.tag == tag)).foldl (fun t o => freeObj t o.1 (bit a0 0)) s
    let s := (s.obj.pages.filter (fun p => p.2.st == .live && p.2.owner == tag)).foldl (fun t p => freePage t p.1) s
    let s := { s with obj := { s.obj with
      pages := s.obj.pages.map (fun p => (p.1, { p.2 with grants := p.2.grants.filter (· != tag) })) } }
    okay (settleCtx s slot) 0

def ctxCode : CtxSt → Nat
  | .free => 0
  | .open => 1
  | .closing => 2

def ctxQueryOp (s : State) (tag : BitVec 16) : Answer :=
  let slot := tag.toNat % 4096
  let c := ctxOf s slot
  okay s (slot + 4096 * c.gen.toNat + 65536 * ctxCode c.st)

/-- BOUNDS of OBJ_CREATE. -/
def objExtentOk (s : State) (tag : BitVec 16) (host : Bool) (base len ap : Nat) : Bool :=
  if len = 0 then false
  else if host then
    base % 4096 == 0 && len % 4096 == 0 && ap * 4096 + len ≤ 2 ^ 47 &&
    !(s.obj.objs.any (fun o => o.2.st != .free && o.2.tag == tag && o.2.host &&
      decide (ap * 4096 < o.2.aperture.toNat * 4096 + o.2.len.toNat) && decide (o.2.aperture.toNat * 4096 < ap * 4096 + len)))
  else base % 128 == 0 && base + len ≤ carveSize s (ctxOf s (tag.toNat % 4096)).sag.val

def objCreateOp (s : State) (tag : BitVec 16) (a0 a1 a2 : W64) : Answer :=
  let host := bit a2 0
  let hmap := bit a2 2
  let ap := field a2 12 35
  let k := (ctxOf s (tag.toNat % 4096)).sag
  if !(tagCurrent s tag) then badTag s
  else if (host && hmap) || (!host && ap != 0) then badOp s
  else if !(objExtentOk s tag host a0.toNat a1.toNat ap) then bounds s
  else if hmap && (sagOf s k.val).st == .sealed then isSealedErr s
  else if (sagOf s k.val).qObjects.toNat ≤ objCount s k then noSlot s
  else match lowestFree s.obj.objs 65536 with
    | none => noSlot s
    | some o => okay (setObj s o
        { st := .live, tag, sag := k, host, ro := bit a2 1, hostMap := hmap, base := a0.setWidth 48, len := a1.setWidth 48
          aperture := BitVec.ofNat 35 ap }) o

def objFreeOp (s : State) (tag : BitVec 16) (a0 : W64) : Answer :=
  let o := field a0 0 16
  let x := objOf s o
  if !(tagCurrent s tag) then badTag s
  else if x.st != .live || x.tag != tag then badState s
  else if isGraphStore s o then busyNow s
  else okay (freeObj s o (bit a0 16)) 0

def objCode : ObjSt → Nat
  | .free => 0
  | .live => 1
  | .draining => 2
  | .scrubbing => 3

def objQueryOp (s : State) (tag : BitVec 16) (a0 : W64) : Answer :=
  let o := field a0 0 16
  let x := objOf s o
  if !(tagCurrent s tag) then badTag s
  else if x.st == .free || x.tag != tag then badState s
  else okay s (objCode x.st + 16 * min (holdCount s o) 0xFFFFF)

def fenceAllocOp (s : State) (tag : BitVec 16) (a0 : W64) : Answer :=
  let k := (ctxOf s (tag.toNat % 4096)).sag
  if !(tagCurrent s tag) then badTag s
  else if (sagOf s k.val).qPages.toNat ≤ pageCount s k then noSlot s
  else match lowestFree s.obj.pages 512 with
    | none => noSlot s
    | some p =>
      let s := { s with obj := { s.obj with fences := s.obj.fences.filter (fun f => f.1 / 128 != p) } }
      okay (setPage s p { st := .live, owner := tag, remote := bit a0 0 }) p

/-- The page is LIVE and the context owns it. -/
def ownsPage (s : State) (tag : BitVec 16) (p : Nat) : Bool := (pageOf s p).st == .live && (pageOf s p).owner == tag

def fenceFreeOp (s : State) (tag : BitVec 16) (a0 : W64) : Answer :=
  if !(tagCurrent s tag) then badTag s
  else if !(ownsPage s tag (field a0 0 9)) then badState s
  else okay (freePage s (field a0 0 9)) 0

/-- The grantee is current and of the owner's saggar. -/
def granteeOk (s : State) (tag g : BitVec 16) : Bool :=
  tagCurrent s g && (ctxOf s (g.toNat % 4096)).sag == (ctxOf s (tag.toNat % 4096)).sag

def fenceGrantOp (s : State) (tag : BitVec 16) (a0 a1 : W64) : Answer :=
  let p := pageOf s (field a0 0 9)
  let g : BitVec 16 := a1.setWidth 16
  if !(tagCurrent s tag) then badTag s
  else if !(ownsPage s tag (field a0 0 9)) || p.grants.contains g then badState s
  else if !(granteeOk s tag g) then badTag s
  else if 4 ≤ p.grants.length then noSlot s
  else okay (setPage s (field a0 0 9) { p with grants := p.grants ++ [g] }) 0

def fenceRevokeOp (s : State) (tag : BitVec 16) (a0 a1 : W64) : Answer :=
  let p := pageOf s (field a0 0 9)
  let g : BitVec 16 := a1.setWidth 16
  if !(tagCurrent s tag) then badTag s
  else if !(ownsPage s tag (field a0 0 9)) then badState s
  else if !(granteeOk s tag g) then badTag s
  else if !(p.grants.contains g) then badState s
  else okay (setPage s (field a0 0 9) { p with grants := p.grants.filter (· != g) }) 0

/-- The operand bits that Table 12-2 names for an OP: of TAG, ARG0, ARG1 and ARG2. -/
def objOperands : Nat → Option (Nat × W64 × W64 × W64)
  | 0x01 => some (0, 0xF#64, 0#64, 0#64)
  | 0x02 => some (0xFFFF, 1#64, 0#64, 0#64)
  | 0x03 => some (0xFFFF, 0#64, 0#64, 0#64)
  | 0x10 => some (0xFFFF, ones 0 48, ones 0 48, ones 12 35 ||| 7#64)
  | 0x11 => some (0xFFFF, ones 0 17, 0#64, 0#64)
  | 0x12 => some (0xFFFF, ones 0 16, 0#64, 0#64)
  | 0x20 => some (0xFFFF, 1#64, 0#64, 0#64)
  | 0x21 => some (0xFFFF, ones 0 9, 0#64, 0#64)
  | 0x22 => some (0xFFFF, ones 0 9, ones 0 16, 0#64)
  | 0x23 => some (0xFFFF, ones 0 9, ones 0 16, 0#64)
  | _ => none

/-- A command of the object port: the word of OBJ_CMD and the three operands. -/
def objCommand (s : State) (ws : List W64) : Answer :=
  let w := word ws 0
  let a0 := word ws 1
  let a1 := word ws 2
  let a2 := word ws 3
  let tag : BitVec 16 := BitVec.ofNat 16 (field w 16 16)
  if !(accepting s) then badState s
  else match objOperands (field w 0 8) with
    | none => badOp s
    | some m =>
      if field w 32 32 != 0 || field w 8 8 != 0 || (m.1 == 0 && tag != 0) || !(onlyBits a0 m.2.1) || !(onlyBits a1 m.2.2.1) ||
          !(onlyBits a2 m.2.2.2) then badOp s
      else match field w 0 8 with
        | 0x01 => ctxOpenOp s a0
        | 0x02 => ctxCloseOp s tag a0
        | 0x03 => ctxQueryOp s tag
        | 0x10 => objCreateOp s tag a0 a1 a2
        | 0x11 => objFreeOp s tag a0
        | 0x12 => objQueryOp s tag a0
        | 0x20 => fenceAllocOp s tag a0
        | 0x21 => fenceFreeOp s tag a0
        | 0x22 => fenceGrantOp s tag a0 a1
        | _ => fenceRevokeOp s tag a0 a1

def setObjPort (s : State) (p : Port) : State := { s with obj := { s.obj with port := p } }

/-- A write to OBJ_CMD. -/
def objPort (s : State) (w : W64) (pace : Pace) : State :=
  let ws := [w, s.obj.arg0, s.obj.arg1, s.obj.arg2]
  if s.obj.port.busy then setObjPort s (portRefuse s.obj.port)
  else if pace == .checking then setObjPort s (portCheck s.obj.port ws)
  else
    let a := objCommand s ws
    setObjPort a.s (portDone s.obj.port (pace == .running) a)

/-- The object port comes to rest: a command being checked takes effect, and BUSY falls. -/
def objPortRest (s : State) : State :=
  if !s.obj.port.busy then s
  else match s.obj.port.todo with
    | [] => setObjPort s { s.obj.port with busy := false }
    | ws =>
      let a := objCommand s ws
      setObjPort a.s (portDone s.obj.port false a)

/-- CTX_OPEN. -/
def execCtxOpen (w : W64) (pace : Pace) (s : State) : Host.Outcome State Fault Refusal := .next (objPort s (withOp 0x01 w) pace)

/-- CTX_CLOSE. -/
def execCtxClose (w : W64) (pace : Pace) (s : State) : Host.Outcome State Fault Refusal := .next (objPort s (withOp 0x02 w) pace)

/-- CTX_QUERY. -/
def execCtxQuery (w : W64) (pace : Pace) (s : State) : Host.Outcome State Fault Refusal := .next (objPort s (withOp 0x03 w) pace)

/-- OBJ_CREATE. -/
def execObjCreate (w : W64) (pace : Pace) (s : State) : Host.Outcome State Fault Refusal := .next (objPort s (withOp 0x10 w) pace)

/-- OBJ_FREE. -/
def execObjFree (w : W64) (pace : Pace) (s : State) : Host.Outcome State Fault Refusal := .next (objPort s (withOp 0x11 w) pace)

/-- OBJ_QUERY. -/
def execObjQuery (w : W64) (pace : Pace) (s : State) : Host.Outcome State Fault Refusal := .next (objPort s (withOp 0x12 w) pace)

/-- FENCE_ALLOC. -/
def execFenceAlloc (w : W64) (pace : Pace) (s : State) : Host.Outcome State Fault Refusal := .next (objPort s (withOp 0x20 w) pace)

/-- FENCE_FREE. -/
def execFenceFree (w : W64) (pace : Pace) (s : State) : Host.Outcome State Fault Refusal := .next (objPort s (withOp 0x21 w) pace)

/-- FENCE_GRANT. -/
def execFenceGrant (w : W64) (pace : Pace) (s : State) : Host.Outcome State Fault Refusal := .next (objPort s (withOp 0x22 w) pace)

/-- FENCE_REVOKE. -/
def execFenceRevoke (w : W64) (pace : Pace) (s : State) : Host.Outcome State Fault Refusal := .next (objPort s (withOp 0x23 w) pace)

/-- OBJECT_DRAINED (R325). -/
def execObjectDrained (o : FenceId) (s : State) : Host.Outcome State Fault Refusal := .next (settleObj s o.val)

-- Scrubbing (R325)

/-- Every copy of the lines that `hit` names is dropped as it stands: home and far copies, filter entries, and reservations. -/
def dropLines (s : State) (hit : Nat → Bool) : State :=
  let s := { s with
    dies := s.dies.map (fun d => { d with
      near := d.near.filter (fun x => !(hit x.2.line.toNat)), far := d.far.filter (fun x => !(hit x.2.line.toNat))
      rsvArray := d.rsvArray.filter (fun e => !(hit (2 * e.pair)) && !(hit (2 * e.pair + 1))) })
    filter := s.filter.filter (fun e => !(hit e.2.line.toNat)) }
  (List.range 4).foldl (fun t d => clearRsvIn t d none (fun r =>
    hit r.line.toNat || (r.far && (hit (2 * pairOf r.line.toNat) || hit (2 * pairOf r.line.toNat + 1))))) s

/-- The channels that `len` bytes of a carve-out from `a` on touch (R136). -/
def touched (own : List Nat) (a len : Nat) : List Nat :=
  (List.range (min own.length ((a + len - 1) / 2048 - a / 2048 + 1))).map (fun i => own.getD ((a / 2048 + i) % own.length) 0)

/-- A line lies in the `len` bytes of a carve-out from `a` on. -/
def inRange (own : List Nat) (a len l : Nat) : Bool := match unmapKey own (lineKey l) with
  | some x => a ≤ x && x < a + len
  | none => false

/-- The lines of a range of which the host holds sectors. -/
def hostLines (s : State) (sag a len : Nat) : List Nat :=
  (s.hostFilter.map (fun e => e.line.toNat)).filter (inRange (ownedChannels (sagOf s sag)) a len)

/-- The homes of lines are to take their sectors from the host, before the lines are written (R263). -/
def recallLines (s : State) (ls : List Nat) : State := ls.foldl (fun t l =>
  let h := homeOf t l
  if h.txn.isNone && h.queue.isEmpty then setHome t l { h with queue := [.backInv] } else t) s

/-- Zero over `len` bytes of a saggar's carve-out from a 128 B boundary on: whole lines lose every copy, and the rest of the
last line is written through its home. None: a channel withholds its banks (R151, R156), a line is in a transaction, or the last
line cannot be written now. -/
def zeroRange (s : State) (sag a len : Nat) : Option State :=
  let own := ownedChannels (sagOf s sag)
  let stop := a + len / 128 * 128
  let hit := inRange own a (len / 128 * 128)
  if s.homes.any (fun h => hit h.1 && (h.2.txn.isSome || !(h.2.queue.isEmpty))) || s.fabric.any (fun m => hit (msgLine m)) ||
      (touched own a len).any (fun p => !(chanServes s p)) then none
  else
    let s := dropLines s hit
    let s := { s with
      dram := s.dram.filter (fun c => match unmapKey own c.1 with
        | some x => !(a ≤ x && x < stop)
        | none => true)
      symErrs := s.symErrs.filter (fun e => !(hit e.1)) }
    let s := perf s sag perfWRITE (len / 128)
    if len % 128 = 0 then some s
    else (writeMem s sag stop (List.replicate (len % 128) 0) noErr).map (fun r => r.1)

/-- OBJECT_SCRUB_COMPLETE: the last zero is written and the object becomes FREE; sectors that the host still holds are taken from
it first. -/
def execObjectScrubComplete (o : FenceId) (s : State) : Host.Outcome State Fault Refusal :=
  let x := objOf s o.val
  let held := hostLines s x.sag.val x.base.toNat x.len.toNat
  .next (
    if x.st != .scrubbing then s
    else if !(held.isEmpty) then recallLines s held
    else match zeroRange s x.sag.val x.base.toNat x.len.toNat with
      | none => s
      | some t => settleCtx (setObj t o.val {}) (x.tag.toNat % 4096))

/-- FENCE_PAGE_DRAINED (R330). -/
def execFencePageDrained (pg : Fin 512) (s : State) : Host.Outcome State Fault Refusal := .next (settlePage s pg.val)

/-- FAULT_RECORD_CLEAR: a write of OBJ_CTX_FAULT_0 of the selected slot; 1 in VALID clears the record (R321). -/
def execFaultRecordClear (be : BitVec 8) (w : W64) (s : State) : Host.Outcome State Fault Refusal :=
  let slot := s.obj.ctxSel.toNat
  .next (if be.getLsbD 7 && bit w 63 then setCtx s slot { ctxOf s slot with fault := {} } else s)

/-- FNC_SIGNAL: an aligned 8 B write signals a fence of a LIVE page (R326, R327). -/
def execFncSignal (f : FenceId) (be : BitVec 8) (w : W64) (s : State) : Host.Outcome State Fault Refusal :=
  .next (if be == 0xFF && pageIsLive s f.val then fenceSignal s f.val w else s)

end Sys2Proof.Machine
end

