-- ==== Sys2Proof/Machine/Launches.lean ====
section
/-!
DEFINITION. Launches on the cores: the hand-off of blocks to the cluster sequencers, their admission and their retirement, the
change of a core's split, and the reservations of real-time rings (R28 to R39, R308 to R310, R372).
-/
namespace Sys2Proof.Machine

open Sys2Proof

-- Room on a core (R17, R32, R33, R36)

/-- What is free on a core: group slots and register units of 1 KiB of each sub-core, block slots, local store. -/
structure Room where
  slots : List Nat
  units : List Nat
  blocks : Nat
  ls : Nat
deriving DecidableEq, Repr

/-- Register units of a group. -/
def groupUnits (i : LaunchInfo) : Nat := (128 * i.regs + 1023) / 1024

def sumNat (l : List Nat) : Nat := l.foldl (· + ·) 0

/-- Room left by the resident blocks. -/
def roomOf (k : Core) : Room :=
  { slots := k.subs.map (fun u => 16 - u.slots.length)
    units := k.subs.map (fun u => 128 - sumNat (u.slots.map (fun g => groupUnits (blockOf k g.2.blk.val).info)))
    blocks := 16 - k.blocks.length
    ls := k.split * 262144 - sumNat (k.blocks.map (fun b => b.2.info.lsBytes)) }

/-- The sub-core with the most free group slots, the lowest-numbered on ties (R32). -/
def firstSub (r : Room) : Nat :=
  (List.range 4).foldl (fun m i => if r.slots.getD m 0 < r.slots.getD i 0 then i else m) 0

/-- Groups of a block that go to sub-core `j` when group 0 goes to sub-core `b`. -/
def subShare (g b j : Nat) : Nat := ((List.range g).filter (fun i => (b + i) % 4 == j)).length

/-- A block placed in a room: the sub-core of its first group and the room left. -/
def placeIn (i : LaunchInfo) (r : Room) : Option (Nat × Room) :=
  let g := blockGroups i
  let b := firstSub r
  if r.blocks = 0 || r.ls < i.lsBytes then none
  else if (List.range 4).any (fun j => r.slots.getD j 0 < subShare g b j ||
      r.units.getD j 0 < subShare g b j * groupUnits i) then none
  else
    some (b, { slots := (List.range 4).map (fun j => r.slots.getD j 0 - subShare g b j)
               units := (List.range 4).map (fun j => r.units.getD j 0 - subShare g b j * groupUnits i)
               blocks := r.blocks - 1, ls := r.ls - i.lsBytes })

/-- A core that a launch may take, with its split and room. -/
structure CoreRoom where
  core : Nat
  split : Nat
  room : Room
deriving DecidableEq, Repr

/-- The room that is left when a block of a launch also goes to core `c`. -/
def useRoom (rs : List CoreRoom) (c : Nat) (i : LaunchInfo) : List CoreRoom :=
  rs.map (fun r => if r.core == c then (match placeIn i r.room with
    | some x => { r with room := x.2 }
    | none => r) else r)

/-- ACTIVE cores of a saggar with the room that the resident blocks and the places chosen for co-resident launches leave. -/
def sagRooms (s : State) (sag : Nat) : List CoreRoom :=
  let rs : List CoreRoom := (activeCores s sag).map (fun c => { core := c, split := (coreOf s c).split, room := roomOf (coreOf s c) })
  let rs := s.fe.launches.foldl (fun rs l => l.places.foldl (fun rs c => useRoom rs c.val l.info) rs) rs
  s.fe.handed.foldl (fun rs h => match h.core, launchOf s h.launch with
    | some c, some l => useRoom rs c.val l.info
    | _, _ => rs) rs

/-- A launch may take a core: its split, the reservations (R310, R372) and the claim of another launch (R35). -/
def coreAllows (s : State) (i : LaunchInfo) (claimed : Option (Nat × Nat)) (r : CoreRoom) : Bool :=
  r.split == i.split && (i.rt || !((reservedCores s i.sag.val).contains r.core)) &&
  !(claimed.any (fun x => x.1 == r.core && x.2 != i.id))

/-- A core can take a block now. -/
def coreTakes (s : State) (i : LaunchInfo) (claimed : Option (Nat × Nat)) (r : CoreRoom) : Bool :=
  coreAllows s i claimed r && (placeIn i r.room).isSome

/-- The room that the blocks with the sequencers leave as well: each goes to the lowest-numbered fitting core. -/
def withHanded (s : State) (sag : Nat) (rs : List CoreRoom) : List CoreRoom :=
  s.fe.handed.foldl (fun rs h => match h.core, launchOf s h.launch with
    | none, some l =>
      if l.info.sag.val == sag then
        match rs.find? (fun r => r.core / 16 == h.cluster.val && coreTakes s l.info none r) with
        | some r => useRoom rs r.core l.info
        | none => rs
      else rs
    | _, _ => rs) rs

-- Who waits for a core of its split (R35)

/-- Launches of a saggar in dispatch, real-time ones first, each queue in order. -/
def queuedLaunches (s : State) (sag : Nat) : List Launch :=
  ((s.fe.rtQueue ++ s.fe.bulkQueue).filterMap (launchOf s)).filter (fun l => l.info.sag.val == sag)

/-- Blocks of a launch that a room can take. -/
def fitCount (i : LaunchInfo) : Nat → Room → Nat
  | 0, _ => 0
  | fuel + 1, r => match placeIn i r with
    | some x => 1 + fitCount i fuel x.2
    | none => 0

/-- A launch finds no core of its split: no place for one block, or, co-resident, not enough places. -/
def lacksCore (s : State) (rs : List CoreRoom) (l : Launch) : Bool :=
  let mine := rs.filter (coreAllows s l.info none)
  if l.info.coRes && !l.chosen then sumNat (mine.map (fun r => fitCount l.info 16 r.room)) < l.blocks
  else mine.all (fun r => (placeIn l.info r.room).isNone)

/-- The idle core that the first such launch claims: core and launch. -/
def claimOf (s : State) (sag : Nat) : Option (Nat × Nat) :=
  if !(dieForm (sagOf s sag)) then none
  else
    let rs := withHanded s sag (sagRooms s sag)
    match (queuedLaunches s sag).find? (lacksCore s rs) with
    | none => none
    | some l =>
      (rs.find? (fun r => r.split != l.info.split && r.room.blocks == 16 &&
        (l.info.rt || !((reservedCores s sag).contains r.core)))).map (fun r => (r.core, l.info.id))

-- BLOCK_DISPATCH (R308, R309, R37, R39)

/-- The cluster with the most free block slots among cores able to take a block, the lowest-numbered on ties. -/
def pickCluster (able : List CoreRoom) : Option Nat :=
  let count (g : Nat) : Nat := sumNat ((able.filter (fun r => r.core / 16 == g)).map (fun r => r.room.blocks))
  match able with
  | [] => none
  | _ => some ((List.range 16).foldl (fun m g => if count m < count g then g else m) 0)

/-- The block of a launch that goes next. -/
def nextBlock (l : Launch) : Option Nat :=
  match l.returned with
  | b :: _ => some b
  | [] => if l.next < l.blocks then some l.next else none

/-- The place chosen for the block of a co-resident launch that goes next (R37); a returned block has lost its own. -/
def nextPlace (l : Launch) : Option CoreId := if l.returned.isEmpty then l.places.head? else none

def takeBlock (l : Launch) : Launch :=
  match l.returned with
  | _ :: t => { l with returned := t }
  | [] => { l with next := l.next + 1, places := l.places.tail }

/-- A launch whose last block is with a sequencer leaves its queue. -/
def leaveQueue (s : State) (id : Nat) : State :=
  match launchOf s id with
  | some l => if (nextBlock l).isNone then dropLaunchQueue s id else s
  | none => s

/-- Hands a block of a launch to a cluster, with its core where that is chosen. -/
def handBlock (s : State) (l : Launch) (lin cluster : Nat) (core : Option CoreId) : State :=
  let g : ClusterId := BitVec.toFin (BitVec.ofNat 4 cluster)
  let s := modLaunch s l.info.id takeBlock
  leaveQueue { s with fe := { s.fe with handed := s.fe.handed ++ [{ launch := l.info.id, lin, cluster := g, core }] } } l.info.id

/-- Places for all blocks of a co-resident launch, in block order, each under R309. -/
def choosePlaces (s : State) (i : LaunchInfo) (claimed : Option (Nat × Nat)) : Nat → List CoreRoom → Option (List Nat)
  | 0, _ => some []
  | n + 1, rs =>
    let able := rs.filter (coreTakes s i claimed)
    match pickCluster able with
    | none => none
    | some g => match able.find? (fun r => r.core / 16 == g) with
      | none => none
      | some r => (choosePlaces s i claimed n (useRoom rs r.core i)).map (fun t => r.core :: t)

/-- The cores that a launch may take, with the room that the handed blocks leave. `behind` is the head of the bulk queue that
the launch stands behind: it takes a core only when no block of the head fits there (R308). -/
def handRooms (s : State) (l : Launch) (claimed : Option (Nat × Nat)) (behind : Option Launch) : List CoreRoom :=
  (withHanded s l.info.sag.val (sagRooms s l.info.sag.val)).filter (fun r => !(behind.any (fun h => coreTakes s h.info claimed r)))

/-- Places for the blocks of a co-resident launch. At the head of dispatch it takes them before the blocks with the sequencers,
which are admitted only after it (R39). -/
def placesFor (s : State) (l : Launch) (claimed : Option (Nat × Nat)) (behind : Option Launch) : Option (List Nat) :=
  match choosePlaces s l.info claimed l.blocks (handRooms s l claimed behind) with
  | some cs => some cs
  | none => if behind.isSome then none else choosePlaces s l.info claimed l.blocks (sagRooms s l.info.sag.val)

/-- Hands the next block of a launch on: to the cluster of its place, or to the one that R309 gives. -/
def handNext (s : State) (l : Launch) (claimed : Option (Nat × Nat)) (behind : Option Launch) : Option State :=
  match nextBlock l with
  | none => none
  | some lin => match nextPlace l with
    | some c => some (handBlock s l lin (c.val / 16) (some c))
    | none => (pickCluster ((handRooms s l claimed behind).filter (coreTakes s l.info claimed))).map (fun g => handBlock s l lin g none)

/-- Tries to hand on one block of a launch; a co-resident launch first has a place chosen for every block (R37). -/
def tryHand (s : State) (l : Launch) (behind : Option Launch) : Option State :=
  let claimed := claimOf s l.info.sag.val
  if l.info.coRes && !l.chosen then
    match placesFor s l claimed behind with
    | none => none
    | some cs =>
      let l := { l with chosen := true, places := cs.map toCore }
      handNext (modLaunch s l.info.id (fun _ => l)) l claimed behind
  else handNext s l claimed behind

/-- The first launch of a list that can be handed on. -/
def handFirst (s : State) (behind : Option Launch) : List Launch → Option State
  | [] => none
  | l :: ls => match tryHand s l behind with
    | some t => some t
    | none => handFirst s behind ls

/-- A co-resident launch waits at the head of a dispatch queue of its saggar (R39). -/
def coResWaits (s : State) (sag : Nat) : Bool :=
  [s.fe.rtQueue, s.fe.bulkQueue].any (fun q => (headOf s q sag).any (fun l => l.info.coRes && !l.chosen))

/-- One turn of a saggar. -/
def sagTurn (s : State) (sag : Nat) : Option State :=
  let s := failHeads s sag
  let rt := (s.fe.rtQueue.filterMap (launchOf s)).filter (fun l => l.info.sag.val == sag)
  match handFirst s none rt with
  | some t => some t
  | none =>
    match (s.fe.bulkQueue.filterMap (launchOf s)).filter (fun l => l.info.sag.val == sag) with
    | [] => none
    | l :: ls => match tryHand s l none with
      | some t => some t
      | none => if l.info.coRes && !l.chosen then none else handFirst s (some l) ls

/-- Up to `n` turns, round robin over the saggars from one on; says which saggar was served first. -/
def sagTurns (s : State) (first : Option Nat) (from_ : Nat) : Nat → State × Option Nat
  | 0 => (s, first)
  | n + 1 =>
    let order := (List.range 16).map (fun i => (from_ + i) % 16)
    match order.findSome? (fun k => (sagTurn s k).map (fun t => (t, k))) with
    | none => (s, first)
    | some (t, k) => sagTurns t (some (first.getD k)) (k + 1) n

/-- BLOCK_DISPATCH: the hand-offs of one C-cycle, at most 4. -/
def execBlockDispatch (s : State) : Host.Outcome State Fault Refusal :=
  .next (
    if !(newWork s) then s
    else
      let s := (List.range 16).foldl failHeads s
      let r := sagTurns s none (s.fe.lastSag.val + 1) 4
      match r.2 with
      | some k => { r.1 with fe := { r.1.fe with lastSag := BitVec.toFin (BitVec.ofNat 4 k) } }
      | none => r.1)

-- BLOCK_ADMISSION (R30, R32, R206, R276)

/-- A group of a block at its start. -/
def newGroup (i : LaunchInfo) (b : SlotId) (idx now : Nat) : Grp :=
  let n := i.bx * i.bY * i.bz
  { blk := b, idx
    lanes := (List.range 32).map (fun l => { exited := n ≤ idx * 32 + l, pc := i.entryPc, ordPt := now })
    u := i.args.zipIdx.foldl (fun t a => tblSet 0 t a.2 a.1) [] }

/-- A group takes the lowest free slot of its sub-core, and an active slot while one is free, else the tail of the ready
queue (R20). -/
def addGroup (u : Sub) (g : Grp) : Sub × SlotId :=
  let slot : SlotId := BitVec.toFin (BitVec.ofNat 4 (((List.range 16).find? (fun i => (tblFind u.slots i).isNone)).getD 0))
  let u := setGrp u slot.val g
  if u.active.length < 4 then ({ u with active := u.active ++ [slot] }, slot) else ({ u with ready := u.ready ++ [slot] }, slot)

/-- The groups of a block from index `idx` on. -/
def addGroups (k : Core) (i : LaunchInfo) (b : SlotId) (first now : Nat) : Nat → Nat → List (SubId × SlotId) → Core × List (SubId × SlotId)
  | 0, _, acc => (k, acc)
  | n + 1, idx, acc =>
    let j : SubId := BitVec.toFin (BitVec.ofNat 2 ((first + idx) % 4))
    let r := addGroup (subOf k j.val) (newGroup i b idx now)
    addGroups (setSub k j.val r.1) i b first now n (idx + 1) (acc ++ [(j, r.2)])

/-- No block of the launch has entered a core. -/
def noneAdmitted (s : State) (l : Launch) : Bool :=
  l.retired == 0 && s.cores.all (fun k => (blocksOfLaunch k.2 l.info.id).isEmpty)

/-- A block enters a core. The first block of a launch is its admission, at which the cache entries of its code object go (R239,
Table 11-11). -/
def admitBlock (s : State) (l : Launch) (lin core first : Nat) : State :=
  let s := tickNow (if noneAdmitted s l then invalidateCode s l.info else s)
  let k := coreOf s core
  let b : SlotId := BitVec.toFin (BitVec.ofNat 4 (((List.range 16).find? (fun i => (tblFind k.blocks i).isNone)).getD 0))
  let r := addGroups k l.info b first s.now (blockGroups l.info) 0 []
  setCore s core (setBlock r.1 b.val { info := l.info, lin, groups := r.2 })

/-- The place of a handed block: its chosen core, or the lowest-numbered core of the cluster that fits. -/
def handedPlace (s : State) (l : Launch) (h : Handed) : Option (Nat × Nat) :=
  let rooms : List CoreRoom := match h.core with
    | some c => [{ core := c.val, split := (coreOf s c.val).split, room := roomOf (coreOf s c.val) }].filter
        (fun (r : CoreRoom) => (activeCores s l.info.sag.val).contains r.core)
    | none => (sagRooms s l.info.sag.val).filter (fun r => r.core / 16 == h.cluster.val)
  (rooms.find? (coreTakes s l.info none)).bind (fun (r : CoreRoom) => (placeIn l.info r.room).map (fun x => (r.core, x.1)))

/-- A block that no core of its cluster can take goes back to the front end: its launch is again in dispatch. -/
def returnBlock (s : State) (l : Launch) (lin : Nat) : State :=
  let id := l.info.id
  let s := modLaunch s id (fun l => { l with returned := lin :: l.returned })
  let put (q : List Nat) : List Nat := if q.contains id then q else id :: q
  { s with fe := { s.fe with
    rtQueue := if l.info.rt then put s.fe.rtQueue else s.fe.rtQueue
    bulkQueue := if l.info.rt then s.fe.bulkQueue else put s.fe.bulkQueue } }

/-- A handed block may be admitted: a co-resident launch that waits at the head of dispatch holds back the bulk launches of its
saggar (R39; R308: never the real-time queue), but no block that a place is chosen for (R37). -/
def mayAdmit (s : State) (h : Handed) : Bool := match launchOf s h.launch with
  | some l => l.info.rt || h.core.isSome || !(coResWaits s l.info.sag.val)
  | none => false

/-- BLOCK_ADMISSION: the sequencer of a cluster admits the first of its blocks that may be. -/
def execBlockAdmission (g : ClusterId) (s : State) : Host.Outcome State Fault Refusal :=
  .next (
    if !(newWork s) then s
    else
      match s.fe.handed.find? (fun h => h.cluster == g && mayAdmit s h) with
      | none => s
      | some h => match launchOf s h.launch with
        | none => s
        | some l =>
          let t := { s with fe := { s.fe with handed := s.fe.handed.filter (· != h) } }
          match handedPlace s l h with
          | none => returnBlock t l h.lin
          | some p => admitBlock t l h.lin p.1 p.2)

-- BLOCK_RETIRE (R31, R129)

/-- The writes of a stop are done. -/
def stopsDone (k : Core) (blk : SlotId) : Bool :=
  (List.range 4).all (fun e => (List.finRange 4).all (fun q => !(streamOf (engineOf k e) (ctxNo blk q)).stopping))

/-- A host store of a block waits for its IO_DONE. -/
def blockStoresOpen (s : State) (core id lin : Nat) : Bool :=
  let mine (o : IoOwner) : Bool := match o with
    | .store c _ ms => c.val == core && ms.any (fun m => m.1 == id && m.2.1 == lin)
    | _ => false
  s.dl.waiting.any (fun q => mine q.owner) || s.dl.tags.any (fun t => mine t.2.owner)

/-- A block may retire. -/
def blockDone (s : State) (c : Nat) (b : SlotId) (x : Block) : Bool :=
  let k := coreOf s c
  x.groups.all (fun p =>
    (grpOf (subOf k p.1.val) p.2.val).lanes.all (fun l => l.exited) &&
    !((subOf k p.1.val).buffer.any (fun e => e.writers.any (fun w => w.1 == x.info.id && w.2.1 == p.2)))) &&
  (postedSlots k b).isEmpty && stopsDone k b && !(blockStoresOpen s c x.info.id x.lin)

/-- BLOCK_RETIRE. -/
def execBlockRetire (c : CoreId) (b : SlotId) (s : State) : Host.Outcome State Fault Refusal :=
  .next (match tblFind (coreOf s c.val).blocks b.val with
    | none => s
    | some x =>
      if blockDone s c.val b x then
        modLaunch (settle (modCore s c.val (fun k => removeBlock k b.val)) c.val) x.info.id (fun l => { l with retired := l.retired + 1 })
      else s)

-- CORE_SPLIT_CHANGE (R35, R104)

/-- A core takes a split: the L1 lines that no longer lie in their set are gone. -/
def setSplit (k : Core) (n : Nat) : Core :=
  let sets := 256 * (12 - n)
  { k with split := n, l1 := k.l1.filter (fun x => x.2.addr % sets == x.1 / 8) }

/-- CORE_SPLIT_CHANGE. -/
def execCoreSplitChange (c : CoreId) (split : Fin 12) (s : State) : Host.Outcome State Fault Refusal :=
  .next (match (coreOf s c.val).partition with
    | none => s
    | some k => match claimOf s k.val with
      | none => s
      | some x =>
        if x.1 == c.val && (launchOf s x.2).any (fun l => l.info.split == split.val) then modCore s c.val (fun k => setSplit k split.val)
        else s)

-- RT_RESERVATION_EFFECT (R310)

/-- The ring that has a core reserved, and the one that has an engine reserved, without effect so far. -/
def ringOfCore (s : State) (c : CoreId) : Option Nat :=
  (s.fe.rings.find? (fun r => r.2.st != .disabled && r.2.cores.contains c && !(r.2.coresIn.contains c))).map (fun r => r.1)

def ringOfEngine (s : State) (e : CopyEngId) : Option Nat :=
  (s.fe.rings.find? (fun r => r.2.st != .disabled && r.2.engine == some e && !r.2.engineIn)).map (fun r => r.1)

/-- RT_RESERVATION_EFFECT. -/
def execRtReservationEffect (r : RtRes) (s : State) : Host.Outcome State Fault Refusal :=
  .next (match r with
    | .core c => match ringOfCore s c with
      | none => s
      | some n =>
        if (coreOf s c.val).blocks.all (fun b => b.2.info.rt) then
          failHeads (modRing s n (fun r => { r with coresIn := r.coresIn ++ [c] })) (ringOf s n).partition.val
        else s
    | .copy e => match ringOfEngine s e with
      | none => s
      | some n =>
        if s.fe.copies.all (fun j => j.engine != e || (ringOf s j.node.ring).rt) then modRing s n (fun r => { r with engineIn := true })
        else s)

end Sys2Proof.Machine
end

