-- ==== Sys2Proof/Machine/Codec.lean ====
section
/-!
DEFINITION. The codec operations of the front end: ENCODE, DECODE, EXPORT, IMPORT, HISTOGRAM and INSTALL as they move their
blocks, their result records, and how they end (R191, R193, R195 to R201, R203, R482).
-/
namespace Sys2Proof.Machine

open Sys2Proof

def codecOpOf (s : State) (id : Nat) : Option CodecOp := s.codecOps.find? (fun o => o.id == id)

def modCodec (s : State) (o : CodecOp) : State := { s with codecOps := s.codecOps.map (fun x => if x.id == o.id then o else x) }

-- Order (R191)

/-- A codec operation uses a codebook slot. -/
def usesSlot (o : CodecOp) (k : Nat) : Bool := match codecKind o.words with
  | 0x21 => cdBook o.words == k
  | 0x22 => true
  | 0x23 => true
  | 0x24 => true
  | _ => false

/-- A MATVEC with CODEC of the saggar was admitted before number `id` and still runs. -/
def matvecBefore (s : State) (sag id : Nat) : Bool :=
  s.nmOps.any (fun m => m.sag.val == sag && kindOf m.words == 1 && nmCodec m.words &&
    m.shares.any (fun h => h.phase == .running && h.adm < id))

/-- The home rows of an operation, as base and length (Table 07-5). -/
def homeRange (s : State) (o : CodecOp) : Option (Nat × Nat) :=
  let len := cdCount o.words * (ownedChannels (sagOf s o.sag.val)).length * 4096
  match codecKind o.words with
  | 0x21 => some (cdSbase o.words, len)
  | 0x22 => some (cdSbase o.words, len)
  | 0x23 => some (cdSbase o.words, len)
  | 0x24 => some (cdDbase o.words, len)
  | _ => none

/-- The other bytes that an operation reads or writes: its stream, units, counts or table, and its record. -/
def plainRanges (o : CodecOp) : List (Nat × Nat) :=
  let ws := o.words
  (cdRbase ws, 24) :: (match codecKind ws with
    | 0x23 => [(cdDbase ws, cdDlen ws)]
    | 0x24 => [(cdSbase ws, cdDlen ws)]
    | 0x25 => [(cdSbase ws, cdCount ws * 4096), (cdDbase ws, 1024)]
    | 0x26 => [(cdSbase ws, 128)]
    | _ => [])

def rangesMeet (a b : Nat × Nat) : Bool := a.1 < b.1 + b.2 && b.1 < a.1 + a.2

/-- Two operations of one saggar may access one address. The headers of homes lie behind the homes (R186). -/
def codecsMeet (s : State) (a b : CodecOp) : Bool :=
  let top := headerStart s a.sag.val
  let hdrs : Nat × Nat := (top, carveSize s a.sag.val - top)
  let homes (o : CodecOp) : List (Nat × Nat) := (homeRange s o).toList
  let cross (x y : CodecOp) : Bool := (plainRanges x).any (fun p => (homes y).any (fun h => rangesMeet p h || rangesMeet p hdrs))
  (plainRanges a).any (fun p => (plainRanges b).any (rangesMeet p)) || (homes a).any (fun p => (homes b).any (rangesMeet p)) ||
  cross a b || cross b a

/-- The operation waits for an INSTALL before it, or, an INSTALL itself, for the users of its slot, and for every earlier operation
with which it may share an address: a codec keeps its accesses to one address in issue order (R286). -/
def codecWaits (s : State) (o : CodecOp) : Bool :=
  installBefore s o.sag.val o.id ||
  s.codecOps.any (fun x => x.sag == o.sag && x.id < o.id && codecsMeet s x o) ||
  (codecKind o.words == 0x26 &&
    (matvecBefore s o.sag.val o.id ||
      s.codecOps.any (fun x => x.sag == o.sag && x.id < o.id && usesSlot x (cdBook o.words))))

-- Absent codecs (R203)

/-- Stacks that hold bytes of a range. -/
def stacksOf (s : State) (sag a len : Nat) : List Nat :=
  let own := ownedChannels (sagOf s sag)
  let n := own.length
  if len = 0 || n = 0 then []
  else
    let b := a / 2048
    (List.range (min n ((a + len - 1) / 2048 - b + 1))).map (fun i => own.getD ((b + i) % n) 0 / 16)

/-- Stacks that hold homes or data of an operation. -/
def codecStacks (s : State) (o : CodecOp) : List Nat :=
  let sag := o.sag.val
  let ws := o.words
  match codecKind ws with
  | 0x25 => stacksOf s sag (cdSbase ws) (cdCount ws * 4096) ++ stacksOf s sag (cdDbase ws) 1024
  | 0x26 => stacksOf s sag (cdSbase ws) 128
  | _ => (ownedChannels (sagOf s sag)).map (fun p => p / 16)

def codecAbsent (s : State) (o : CodecOp) : Bool := (codecStacks s o).any (fun st => !((stackOf s st).codec))

-- Homes (R186, R482)

/-- Payload bytes with zero to the end of the last burst. -/
def burstPad (pay : List Byte) : List Byte := pay ++ List.replicate ((128 - pay.length % 128) % 128) 0

/-- The plain bytes of a home, from the banks. -/
def readPlain (s : State) (sag h i : Nat) (env : MemEnv) : Option (State × Except (MemErr × Nat) (List Byte)) :=
  let n := (ownedChannels (sagOf s sag)).length
  match readBank s sag (homeBlock n h i 0) 2048 env with
  | none => none
  | some (t, .error e) => some (t, .error e)
  | some (t, .ok a) =>
    match readBank t sag (homeBlock n h i 1) 2048 (skipEnv env 16) with
    | none => none
    | some (u, .error e) => some (u, .error e)
    | some (u, .ok b) => some (u, .ok (a ++ b))

/-- Bytes written to a home from its first byte on. -/
def writeHomeBytes (s : State) (sag h i : Nat) (bs : List Byte) (env : MemEnv) : Option (State × Except (MemErr × Nat) Unit) :=
  let n := (ownedChannels (sagOf s sag)).length
  match writeMem s sag (homeBlock n h i 0) (bs.take 2048) env with
  | none => none
  | some (t, .error e) => some (t, .error e)
  | some (t, .ok _) => writeMem t sag (homeBlock n h i 1) (bs.drop 2048) (skipEnv env 16)

/-- A stored block put into a home: its header, then its payload up to a burst's end. -/
def putHome (s : State) (sag h i : Nat) (b : List Byte × List Byte) (env : MemEnv) : Option (State × Except (MemErr × Nat) Unit) :=
  match writeMem s sag (homeHeader s sag h i) b.1 env with
  | none => none
  | some (t, .error e) => some (t, .error e)
  | some (t, .ok _) => writeHomeBytes t sag h i (burstPad b.2) (nextEnv env)

-- One block of an operation

/-- Why an operation stops: status, reason, address. -/
abbrev CodecStop := Nat × Nat × Nat

/-- What one block brings: the operation with the block done, or why it stops. None: the memory cannot serve it now. -/
abbrev CodecStep := Option (State × Except CodecStop CodecOp)

def dataStop (e : MemErr × Nat) : CodecStop := (5, 0, e.2)

/-- The number of homes or units of an operation. -/
def codecTotal (s : State) (o : CodecOp) : Nat :=
  if codecKind o.words == 0x26 then 0
  else if codecKind o.words == 0x25 then cdCount o.words
  else cdCount o.words * (ownedChannels (sagOf s o.sag.val)).length

/-- Home row and channel rank of the next block: they rise with the block's number. -/
def nextHome (s : State) (o : CodecOp) : Nat × Nat :=
  let n := (ownedChannels (sagOf s o.sag.val)).length
  let base := if codecKind o.words == 0x24 then cdDbase o.words else cdSbase o.words
  (base / (n * 4096) + o.done / n, o.done % n)

/-- A malformed block: recorded, and the operation stops. -/
def malformedStop (s : State) (sag h i reason addr : Nat) : CodecStep :=
  some (pmMalformed s sag ((ownedChannels (sagOf s sag)).getD i 0) h reason, .error (3, reason, addr))

def blockDoneStep (r : Option (State × Except (MemErr × Nat) Unit)) (o : CodecOp) : CodecStep :=
  r.map (fun x => match x with
    | (t, .error e) => (t, .error (dataStop e))
    | (t, .ok _) => (t, .ok { o with done := o.done + 1 }))

def encodeBlock (s : State) (o : CodecOp) (env : MemEnv) : CodecStep :=
  let x := nextHome s o
  match readPlain s o.sag.val x.1 x.2 env with
  | none => none
  | some (t, .error e) => some (t, .error (dataStop e))
  | some (t, .ok plain) =>
    let b := pmEncode plain (cdEtype o.words) (cdBook o.words) (tblGet [] (sagOf t o.sag.val).books (cdBook o.words))
    blockDoneStep (putHome t o.sag.val x.1 x.2 b (skipEnv env 32)) o

def decodeBlock (s : State) (o : CodecOp) (env : MemEnv) : CodecStep :=
  let x := nextHome s o
  let sag := o.sag.val
  match readHome s sag x.1 x.2 env with
  | none => none
  | some (t, .error e) => some (t, .error (dataStop e))
  | some (t, .ok b) =>
    match pmDecode b.1 b.2 (sagOf t sag).books none with
    | .error r => malformedStop t sag x.1 x.2 r (homeHeader t sag x.1 x.2)
    | .ok plain => blockDoneStep (writeHomeBytes t sag x.1 x.2 plain (skipEnv env 33)) o

/-- The bytes of a block in a packed stream (R201). -/
def packBlock (hdr pay : List Byte) : List Byte :=
  let n := hdrLen hdr
  hdr ++ pay.take n ++ List.replicate ((16 - n % 16) % 16) 0

def exportBlock (s : State) (o : CodecOp) (env : MemEnv) : CodecStep :=
  let x := nextHome s o
  let sag := o.sag.val
  match readHome s sag x.1 x.2 env with
  | none => none
  | some (t, .error e) => some (t, .error (dataStop e))
  | some (t, .ok b) =>
    match pmDecode b.1 b.2 (sagOf t sag).books none with
    | .error r => malformedStop t sag x.1 x.2 r (homeHeader t sag x.1 x.2)
    | .ok _ =>
      let bs := packBlock b.1 b.2
      if cdDlen o.words < o.bytes + bs.length then some (t, .error (4, 0, 0))
      else blockDoneStep (writeMem t sag (cdDbase o.words + o.bytes) bs (skipEnv env 33)) { o with bytes := o.bytes + bs.length }

/-- A failed write leaves the byte count where it was: the block is not in the stream. -/
def importBlock (s : State) (o : CodecOp) (env : MemEnv) : CodecStep :=
  let x := nextHome s o
  let sag := o.sag.val
  let a := cdSbase o.words + o.bytes
  if cdDlen o.words < o.bytes + 16 then some (s, .error (4, 0, 0))
  else
    match readBank s sag a 16 env with
    | none => none
    | some (t, .error e) => some (t, .error (dataStop e))
    | some (t, .ok hdr) =>
      match headerReason hdr (sagOf t sag).books none with
      | some r => malformedStop t sag x.1 x.2 r a
      | none =>
        if cdDlen o.words < o.bytes + packedLen (hdrLen hdr) then some (t, .error (4, 0, 0))
        else
          match readBank t sag (a + 16) (hdrLen hdr) (nextEnv env) with
          | none => none
          | some (u, .error e) => some (u, .error (dataStop e))
          | some (u, .ok pay) =>
            match pmDecode hdr pay (sagOf u sag).books none with
            | .error r => malformedStop u sag x.1 x.2 r a
            | .ok _ => blockDoneStep (putHome u sag x.1 x.2 (hdr, pay) (skipEnv env 34)) { o with bytes := o.bytes + packedLen (hdrLen hdr) }

def histogramUnit (s : State) (o : CodecOp) (env : MemEnv) : CodecStep :=
  match readBank s o.sag.val (cdSbase o.words + 4096 * o.done) 4096 env with
  | none => none
  | some (t, .error e) => some (t, .error (dataStop e))
  | some (t, .ok bs) =>
    match splitOf (cdEtype o.words) with
    | none => some (t, .ok { o with done := o.done + 1 })
    | some p => some (t, .ok { o with done := o.done + 1, counts := countSyms p bs o.counts })

def codecBlock (s : State) (o : CodecOp) (env : MemEnv) : CodecStep :=
  match codecKind o.words with
  | 0x21 => encodeBlock s o env
  | 0x22 => decodeBlock s o env
  | 0x23 => exportBlock s o env
  | 0x24 => importBlock s o env
  | _ => histogramUnit s o env

-- Running

/-- The last act of an operation whose blocks are done: the counts of a HISTOGRAM, the table of an INSTALL. -/
def codecLast (s : State) (o : CodecOp) (env : MemEnv) : Option (State × CodecStop) :=
  let sag := o.sag.val
  if codecKind o.words == 0x25 && cdCount o.words != 0 then
    (writeMem s sag (cdDbase o.words) (o.counts.flatMap (leBytes 4)) env).map (fun x => match x with
      | (t, .error e) => (t, dataStop e)
      | (t, .ok _) => (t, (0, 0, 0)))
  else if codecKind o.words == 0x26 then
    (readBank s sag (cdSbase o.words) 128 env).map (fun x => match x with
      | (t, .error e) => (t, dataStop e)
      | (t, .ok tab) =>
        if bookValid tab then (modSag t sag (fun g => { g with books := tblPut g.books (cdBook o.words) tab }), (0, 0, 0))
        else (t, (2, 0, 0)))
  else some (s, (0, 0, 0))

/-- The most lines that one block, or the last act, of an operation accesses: of EXPORT and IMPORT, a header, a payload at any 16 B
boundary, and a home. -/
def blockLines : Nat := 67

/-- Up to `n` more blocks: the operation as it stands then. -/
def codecRun (s : State) (o : CodecOp) (env : MemEnv) : Nat → State
  | 0 =>
    if codecTotal s o ≤ o.done then
      match codecLast s o env with
      | none => modCodec s o
      | some x => modCodec x.1 { o with stop := some x.2 }
    else modCodec s o
  | n + 1 =>
    if codecTotal s o ≤ o.done then
      match codecLast s o env with
      | none => modCodec s o
      | some x => modCodec x.1 { o with stop := some x.2 }
    else
      match codecBlock s o env with
      | none => modCodec s o
      | some (t, .error e) => modCodec t { o with stop := some e }
      | some (t, .ok p) => codecRun t p (skipEnv env blockLines) n

/-- The checks before any byte moves: why the operation ends at once (R196, R203, Table 07-7). -/
def codecRefuse (s : State) (o : CodecOp) : Option CodecStop :=
  if codecKind o.words != 0x26 && cdCount o.words = 0 then some (0, 0, 0)
  else if o.done = 0 && codecAbsent s o then some (1, 0, 0)
  else if codecKind o.words == 0x21 && o.done = 0 && (tblFind (sagOf s o.sag.val).books (cdBook o.words)).isNone then some (2, 0, 0)
  else none

-- The end (R197, R201)

def isStream (o : CodecOp) : Bool := codecKind o.words == 0x23 || codecKind o.words == 0x24

/-- The result record. -/
def codecRecord (o : CodecOp) (x : CodecStop) : List Byte :=
  let blocks := if codecKind o.words == 0x26 then 0 else o.done
  leBytes 8 (x.1 + 256 * x.2.1 + 2 ^ 32 * (blocks % 2 ^ 32)) ++ leBytes 8 (word o.words 7).toNat ++
    (if isStream o then leBytes 8 o.bytes else [])

/-- The stream bytes that an EXPORT which stops leaves unspecified; with ABSENT no byte has moved (Table 07-7). -/
def exportTail (s : State) (o : CodecOp) (x : CodecStop) (env : MemEnv) : Option State :=
  if codecKind o.words == 0x23 && x.1 != 0 && x.1 != 1 && o.bytes < cdDlen o.words then
    let f := takeFree s
    (writeMem f.2 o.sag.val (cdDbase o.words + o.bytes) ((List.range (cdDlen o.words - o.bytes)).map (Config.freeByte f.1)) env).map
      (fun r => r.1)
  else some s

/-- The record is written, and the node ends: it fails with any status but OK; that of an abort has ended already. A record
that cannot be written now keeps the operation waiting. -/
def codecFinish (s : State) (o : CodecOp) (x : CodecStop) (env : MemEnv) : State :=
  match exportTail s o x env with
  | none => s
  | some s1 =>
    match writeMem s1 o.sag.val (cdRbase o.words) (codecRecord o x) (envAfter env (cdDbase o.words + o.bytes) (cdDlen o.words - o.bytes)) with
    | none => s
    | some (t, r) =>
      let t := { t with codecOps := t.codecOps.filter (fun y => y.id != o.id) }
      let status : Nat × Nat := match r with
        | .error e => if x.1 = 0 then (5, e.2) else (x.1, x.2.2)
        | .ok _ => (x.1, x.2.2)
      if x.1 = 6 then t
      else if status.1 = 0 then nodeDone t o.node
      else nodeFail t o.node 3 x.2.1 status.1 (BitVec.ofNat 64 status.2)

/-- An operation that has stopped writes its record. -/
def codecSettle (env : MemEnv) (s : State) (id : Nat) : State :=
  match codecOpOf s id with
  | none => s
  | some o => match o.stop with
    | some x => codecFinish s o x env
    | none => s

/-- CODEC_OP_COMPLETE: the operation does up to `homes` more homes or units; with its last one, or a failure, it ends. -/
def execCodecOpComplete (op : Nat) (homes : Nat) (env : MemEnv) (s : State) : Host.Outcome State Fault Refusal :=
  .next (match codecOpOf s op with
    | none => s
    | some o =>
      if !(running s) then s
      else match o.stop with
        | some _ => meets env s (codecSettle env s op)
        | none =>
          if codecWaits s o then s
          else
            let t := match codecRefuse s o with
              | some x => modCodec s { o with stop := some x }
              | none => codecRun s o env homes
            meets env s (codecSettle (skipEnv env (blockLines * (homes + 1))) t op))

end Sys2Proof.Machine
end

