-- ==== Sys2Proof/Machine/Coherence.lean ====
section
/-!
DEFINITION. The coherence messages of Table 09-3 and the home transactions they make (R244, R249 to R264): requests taken
by a home, snoops and their answers, grants, the bridges that carry the messages, and the errors of the fabric.
-/
namespace Sys2Proof.Machine

open Sys2Proof

-- Requests (R250)

def srcNo : ReqSrc → Nat
  | .die d => d.val
  | .hub => 4
  | .edge e => 5 + e.val

/-- The source of a request: a die, H, or an edge die. -/
def reqSource : HomeReq → Nat
  | .readShared d _ _ => d.val
  | .readUnique d _ _ => d.val
  | .upgrade d => d.val
  | .readNa src => srcNo src
  | .writeNa src _ _ => srcNo src
  | .atomFar d _ => d.val
  | .ldxFar d _ _ => d.val
  | .stxFar d _ _ _ => d.val
  | .clean d _ => d.val
  | _ => 4

/-- Entries of a source at a home node. -/
def homeLimit (src : Nat) : Nat := if src == 4 then 64 else 32

/-- Requests that a line holds at its home. -/
def lineReqs (h : HomeLine) : List HomeReq := (h.txn.map (fun t => t.req)).toList ++ h.queue

/-- Entries of a source in use at the home node of a line. -/
def homeUsed (s : State) (l src : Nat) : Nat :=
  (s.homes.flatMap (fun p =>
    if lineDie p.1 == lineDie l && lineSlice p.1 == lineSlice l then (lineReqs p.2).filter (fun r => reqSource r == src) else [])).length

/-- What a request makes its home send: SNP_SHARED, SNP_INVALIDATE or SNP_CLEAN. -/
inductive SnoopKind where
  | keep
  | drop
  | clean
deriving DecidableEq, Repr

def snoopKind : HomeReq → SnoopKind
  | .readShared _ _ _ => .keep
  | .hostShared _ _ => .keep
  | .readNa _ => .clean
  | .hostRdNa _ _ _ => .clean
  | .clean _ _ => .clean
  | _ => .drop

/-- A request of the host. -/
def isHostReq : HomeReq → Bool
  | .hostShared _ _ => true
  | .hostUnique _ _ => true
  | .hostUpgrade _ _ => true
  | .hostRdNa _ _ _ => true
  | .hostWrNa _ _ _ => true
  | .backInv => true
  | _ => false

/-- The fill of a request: its class and hint, CORE for a far operation (R258) and for what a back-invalidation writes to the home
copy (R262, the model's choice of mask); the accesses that never allocate have none (R247). -/
def reqFill (s : State) (l : Nat) : HomeReq → Fill
  | .readShared _ cls hint => fillOf s l cls hint.toNat
  | .readUnique _ cls hint => fillOf s l cls hint.toNat
  | .atomFar _ _ => fillOf s l .core 0
  | .ldxFar _ _ _ => fillOf s l .core 0
  | .stxFar _ _ _ _ => fillOf s l .core 0
  | .backInv => fillOf s l .core 0
  | _ => noFill

-- The host filter (R262)

def sectorOf (e : HostEntry) (i : Fin 2) : SectorSt := if i == 0 then e.s0 else e.s1

/-- A sector's state as the filter has it. -/
def hostSector (s : State) (l : Nat) (i : Fin 2) : SectorSt := match hostEntry s l with
  | some e => sectorOf e i
  | none => .inv

/-- Rewrites a sector: an entry with neither sector leaves the filter. -/
def setHostSector (s : State) (l : Nat) (i : Fin 2) (x : SectorSt) : State :=
  let put (e : HostEntry) : HostEntry := if i == 0 then { e with s0 := x } else { e with s1 := x }
  match hostEntry s l with
  | some _ =>
    let es := s.hostFilter.map (fun e => if e.line.toNat == l then put e else e)
    { s with hostFilter := es.filter (fun e => e.s0 != .inv || e.s1 != .inv) }
  | none =>
    if x == .inv then s else { s with hostFilter := s.hostFilter ++ [put { line := BitVec.ofNat 33 l }] }

/-- The request allocates a host-filter entry. -/
def takesHostEntry : HomeReq → Bool
  | .hostShared _ _ => true
  | .hostUnique _ _ => true
  | .hostUpgrade _ _ => true
  | _ => false

/-- Entries of the line's set that open requests of the host have still to allocate. -/
def hostPending (s : State) (l : Nat) : Nat :=
  (s.homes.filter (fun p => p.1 != l && hostSet p.1 == hostSet l && (hostEntry s p.1).isNone &&
    p.2.txn.any (fun t => takesHostEntry t.req))).length

/-- A new line of the host finds its set full. -/
def hostFull (s : State) (l : Nat) : Bool :=
  (hostEntry s l).isNone &&
  16 ≤ (s.hostFilter.filter (fun e => hostSet e.line.toNat == hostSet l)).length + hostPending s l

/-- The entry that a new line takes out of its set: the one allocated earliest. -/
def hostVictim (s : State) (l : Nat) : Option HostEntry := s.hostFilter.find? (fun e => hostSet e.line.toNat == hostSet l)

-- Bridges (R244)

def msgClass : FabMsg → Nat
  | .snpShared _ _ => 1
  | .snpInvalidate _ _ => 1
  | .snpClean _ _ => 1
  | .rsvKill _ _ => 1
  | _ => 2

def targetEnd : SnoopTarget → ReqSrc
  | .die d => .die d
  | .host _ => .hub

/-- The end of a message that is not the home of its line. -/
def msgPeer : FabMsg → ReqSrc
  | .snpShared d _ => .die d
  | .snpInvalidate d _ => .die d
  | .snpClean d _ => .die d
  | .rsvKill d _ => .die d
  | .dataS src _ _ _ => src
  | .dataE d _ _ _ => .die d
  | .dataM d _ _ _ => .die d
  | .grant src _ _ _ => src
  | .error src _ => src
  | .snpData t _ _ _ => targetEnd t
  | .snpAck t _ _ => targetEnd t
  | .notPresent t _ => targetEnd t
  | .writeBack d _ _ => .die d
  | .result d _ _ => .die d

/-- The home die of a message. -/
def msgHome : FabMsg → Nat
  | .rsvKill _ l => lineDie l.toNat
  | m => lineDie (msgLine m)

/-- The ring bridge of two compute dies (Table 19-5). -/
def ringBridge (a b : Nat) : Option Nat :=
  let is (x y : Nat) : Bool := (a == x && b == y) || (a == y && b == x)
  if is 0 1 then some 4 else if is 1 3 then some 5 else if is 3 2 then some 6 else if is 2 0 then some 7 else none

/-- The bridges between an end and a compute die: the ring bridge of neighbours, an edge die's own, else through H. -/
def bridgePath (a : ReqSrc) (d : Nat) : List Nat := match a with
  | .hub => [d]
  | .die x => if x.val == d then [] else match ringBridge x.val d with
    | some b => [b]
    | none => [x.val, d]
  | .edge e => if d / 2 == e.val then [10 + d] else [8 + e.val, d]

def msgPath (m : FabMsg) : List Nat := bridgePath (msgPeer m) (msgHome m)

/-- A message has a credit of its class on every bridge of its way, before which stand the messages `before`. -/
def credited (before : List FabMsg) (m : FabMsg) : Bool := (msgPath m).all (fun b =>
  let n := (before.filter (fun x => msgClass x == msgClass m && (msgPath x).contains b)).length
  n == 0 || n ≤ Config.bridgeCredits)

-- Snoops

/-- STX_FAR whose die still has its bit in the pair's entry (R260). -/
def stxHolds (s : State) (l : Nat) (d : DieId) : Bool :=
  (dieOf s (lineDie l)).rsvArray.any (fun e => e.pair == pairOf l && e.mask.getLsbD d.val)

/-- The agents that a request's home snoops: the dies and the host sectors that the filters name. A read that hits the home copy
asks no die (R252) but every host sector of the line's entry (R262); a back-invalidation asks for both sectors; an STX_FAR that
has lost its reservation does nothing. -/
def snoopTargets (s : State) (l : Nat) (r : HomeReq) : List SnoopTarget :=
  let lost : Bool := match r with
    | .stxFar d _ _ _ => !(stxHolds s l d)
    | _ => false
  let dies := if snoopKind r != .drop && (homeCopy s l).isSome then []
    else (List.finRange 4).filter (fun d => (filtOf s d.val l).isSome && r != .upgrade d)
  let sectors := ([0, 1] : List (Fin 2)).filter (fun i => hostSector s l i != .inv)
  if lost then []
  else match r with
    | .backInv => [.host 0, .host 1]
    | _ => dies.map .die ++ (if isHostReq r then [] else sectors.map .host)

/-- Sends a snoop. -/
def sendSnoop (l : Nat) (k : SnoopKind) (s : State) (t : SnoopTarget) : State :=
  let line : LineId := BitVec.ofNat 33 l
  match t with
  | .die d =>
    { s with fabric := s.fabric ++ [match k with
      | .keep => .snpShared d line
      | .drop => .snpInvalidate d line
      | .clean => .snpClean d line] }
  | .host i =>
    let a := dersetOf s l i
    sendHost s (match k with
      | .keep => .snpShared line i a
      | .drop => .snpInv line i a
      | .clean => .snpClean line i a)

def send (s : State) (m : FabMsg) : State := { s with fabric := s.fabric ++ [m] }

-- What a request does at its home once its snoops are answered

/-- The bytes of a line for a read: a hit keeps its age under NO_ALLOC and else goes back to age 0; a miss allocates under the fill
(R245, R246), unless what a snoop returned has entered already. -/
def homeServe (s : State) (l : Nat) (f : Fill) (keepAge hit : Bool) (env : MemEnv) : State × Except MemErr (List Byte) :=
  match homeData s l none env with
  | (t, .error e) => (t, .error e)
  | (t, .ok data) =>
    (match homeCopy t l with
      | some _ => if hit && !keepAge then modHome t l (fun x => { x with age := 0 }) else t
      | none => allocHome t l .hc data f.mask f.age, .ok data)

/-- Gives a line unique to a die (R248, R255): the home copy goes, and the hold time begins. -/
def grantUnique (s : State) (l : Nat) (d : DieId) (f : Fill) (x : Txn) (env : MemEnv) : State :=
  let line : LineId := BitVec.ofNat 33 l
  if lineDie l == d.val then
    match homeServe s l f false x.hit env with
    | (t, .error _) => send t (.error (.die d) line)
    | (t, .ok data) => send t (.dataE d line data x.snooped)
  else match homeData s l none env with
    | (t, .error _) => send t (.error (.die d) line)
    | (t, .ok data) =>
      let dirty : Bool := match homeCopy t l with
        | some y => y.st == .hd
        | none => false
      let t := setFilt (dropHome (clearNear t (lineDie l) l none) l) d.val l true
      send (setHome t l { homeOf t l with hold := some (.die d) })
        (if dirty then .dataM d line data x.snooped else .dataE d line data x.snooped)

/-- Owner of a line, for what is counted per saggar. -/
def lineSag (s : State) (l : Nat) : Option SagId := (chanOf s (lineChan l)).partition

/-- A far operation is counted (R256, R395). -/
def farDone (s : State) (l : Nat) (d : DieId) : State :=
  let s := if lineDie l == d.val then s else predFar s d.val l
  match lineSag s l with
  | some k => countFar s l k.val
  | none => modDie s (lineDie l) (fun x => { x with farAtomics := sat x.farAtomics 1 })

/-- Bytes that a WRITE_NA carries. -/
def maskedBytes (mask : BitVec 128) (data : List Byte) : Tbl Byte :=
  (List.range 128).filterMap (fun i => if mask.getLsbD i then some (i, data.getD i 0) else none)

def sectorBytes (data : List Byte) (i : Fin 2) : List Byte := (data.drop (64 * i.val)).take 64

/-- A host read or write ends with an error (Table 16-6). -/
def hostError (s : State) (tag : BitVec 11) : State := sendHost s (.refusal tag 2)

/-- The host takes a sector unique: the home copy goes, a dirty one to DRAM, and the hold time begins (R255, R262). -/
def hostTake (s : State) (l : Nat) (i : Fin 2) : State :=
  let s := setHostSector (homeToDram (clearNear s (lineDie l) l none) l) l i .unique
  setHome s l { homeOf s l with hold := some .host }

/-- A sector unique for the host, with its data. -/
def hostUniqueDone (s : State) (l : Nat) (tag : BitVec 11) (i : Fin 2) (env : MemEnv) : State :=
  match homeData s l none env with
  | (t, .error _) => hostError t tag
  | (t, .ok data) =>
    let dirty : Bool := match homeCopy t l with
      | some x => x.st == .hd
      | none => false
    sendHost (hostTake t l i) (if dirty then .dataM tag (sectorBytes data i) else .dataE tag (sectorBytes data i))

/-- The effect and the answer of a request. A requester that cannot be given its data receives the error (R143, R264). -/
def performReq (s : State) (l : Nat) (x : Txn) (env : MemEnv) : State :=
  let line : LineId := BitVec.ofNat 33 l
  let f := reqFill s l x.req
  match x.req with
  | .readShared d _ hint => match homeServe s l f (hint == 2) x.hit env with
    | (t, .error _) => send t (.error (.die d) line)
    | (t, .ok data) =>
      let far : Bool := lineDie l != d.val && hint != 2
      send (if far then setFilt t d.val l false else t) (.dataS (.die d) line data far)
  | .readUnique d _ _ => grantUnique s l d f x env
  | .upgrade d =>
    if (filtOf s d.val l).isSome then
      if isBadHome s l then send s (.error (.die d) line)
      else
        let t := setFilt (homeToDram (clearNear s (lineDie l) l none) l) d.val l true
        send (setHome t l { homeOf t l with hold := some (.die d) }) (.grant (.die d) line true x.snooped)
    else grantUnique s l d f x env
  | .readNa src => match homeData s l none env with
    | (t, .error _) => send t (.error src line)
    | (t, .ok data) => send t (.dataS src line data false)
  | .writeNa src mask data =>
    let u := maskedBytes mask data
    let g := writeNoAllocBody s l (wholeLine u) (fun old => mergeLine old u) none none env
    send g.s (match g.res with
      | .ok _ => .grant src line false x.snooped
      | .error _ => .error src line)
  | .atomFar d a => match homeServe s l f false x.hit env with
    | (t, .error _) => send t (.error (.die d) line)
    | (t, .ok data) =>
      let run := atomRun a.op a.wide a.operands (wordAt data a.ofs.val (opBytes a.wide))
      let t := storeOwned t (lineDie l) l (putWord data a.ofs.val (opBytes a.wide) run.2) none f
      send (farDone t l d) (.result d line (run.1.map (BitVec.ofNat 64)))
  | .ldxFar d ofs wide => match homeServe s l f false x.hit env with
    | (t, .error _) => send t (.error (.die d) line)
    | (t, .ok data) =>
      send (farDone (reserveFar t d.val l) l d) (.result d line [BitVec.ofNat 64 (wordAt data ofs.val (opBytes wide))])
  | .stxFar d ofs wide v =>
    if !(stxHolds s l d) then send s (.grant (.die d) line false x.snooped)
    else match homeServe s l f false x.hit env with
      | (t, .error _) => send t (.error (.die d) line)
      | (t, .ok data) =>
        let t := clearFarRsv (killPair t l (some d.val)) d.val (pairOf l) none
        let t := storeOwned t (lineDie l) l (putWord data ofs.val (opBytes wide) v.toNat) none f
        send t (.grant (.die d) line false x.snooped)
  | .hostShared tag i => match homeData s l none env with
    | (t, .error _) => hostError t tag
    | (t, .ok data) => sendHost (setHostSector t l i .shared) (.dataS tag (sectorBytes data i))
  | .hostUnique tag i => hostUniqueDone s l tag i env
  | .hostUpgrade tag i =>
    if hostSector s l i == .shared then
      if isBadHome s l then hostError s tag else sendHost (hostTake s l i) (.grant tag)
    else hostUniqueDone s l tag i env
  | .hostRdNa tag ofs len => match homeData s l none env with
    | (t, .error _) => hostError t tag
    | (t, .ok data) => sendHost t (.ioData tag 0 ((data.drop ofs).take len))
  | .hostWrNa tag ofs data =>
    let u := updatesAt ofs data
    let g := writeNoAllocBody s l (wholeLine u) (fun old => mergeLine old u) none none env
    match g.res with
    | .ok _ => sendHost g.s (.done tag)
    | .error _ => hostError g.s tag
  | .backInv => { s with hostFilter := s.hostFilter.filter (fun e => e.line != line) }
  | .clean _ op =>
    let t := match homeCopy s l with
      | some y => if y.st == .hd then modHome (dramWrite s l y.data) l (fun z => { z with st := .hc }) else s
      | none => s
    modNmOp t op (fun o => { o with cleaned := o.cleaned + 1 })

/-- The request needs DRAM. -/
def reqNeedsDram (s : State) (l : Nat) (r : HomeReq) : Bool := match r with
  | .writeNa _ _ _ => true
  | .hostWrNa _ _ _ => true
  | .clean _ _ => true
  | .upgrade d => (filtOf s d.val l).isNone && (homeCopy s l).isNone
  | .stxFar d _ _ _ => stxHolds s l d && (homeCopy s l).isNone
  | .hostUpgrade _ i => hostSector s l i != .shared && (homeCopy s l).isNone
  | .backInv => false
  | _ => (homeCopy s l).isNone

/-- A transaction whose snoops are answered is performed and closes; while its channel takes no access it waits. -/
def closeTxn (s : State) (l : Nat) (x : Txn) (env : MemEnv) : State :=
  if reqNeedsDram s l x.req && !(chanServes s (lineChan l)) then s
  else performReq (setHome s l { homeOf s l with txn := none }) l x env

-- Taking and starting requests (R249, R255)

/-- The request would take the line from the holder that the hold time protects. -/
def holdWaits (s : State) (l : Nat) (r : HomeReq) : Bool := match (homeOf s l).hold with
  | none => false
  | some (.die d) => snoopKind r == .drop && reqSource r != d.val && (filtOf s d.val l).isSome
  | some .host => snoopKind r == .drop && (!(isHostReq r) || r == .backInv) && (hostEntry s l).isSome

/-- The transaction of a request, with the snoops it sends. -/
def startTxn (s : State) (l : Nat) (r : HomeReq) (rest : List HomeReq) : State :=
  let ts := snoopTargets s l r
  let x : Txn := { req := r, waiting := ts, snooped := ts.any (fun t => match t with
    | .die d => reqSource r != d.val
    | .host _ => true), hit := (homeCopy s l).isSome }
  ts.foldl (fun t y => sendSnoop l (snoopKind r) t y) (setHome s l { homeOf s l with queue := rest, txn := some x })

/-- A host-filter entry is freed by SNP_INVALIDATE for both its sectors (R262). -/
def backInvalidate (s : State) (e : HostEntry) : State :=
  let s := startTxn s e.line.toNat .backInv []
  { s with hostFilter := s.hostFilter.filter (fun x => x.line != e.line), backinv := sat s.backinv 1 }

/-- Opens the transaction of a request; one that snoops nobody is performed at once. -/
def openTxn (s : State) (l : Nat) (r : HomeReq) (rest : List HomeReq) (env : MemEnv) : State :=
  let t := startTxn s l r rest
  match (homeOf t l).txn with
  | some x => if x.waiting.isEmpty then closeTxn t l x env else t
  | none => t

/-- What the home's lookups for a request meet in its slice and in the filters (R254, R264). -/
def openErrors (s : State) (l : Nat) (r : HomeReq) (env : MemEnv) : State :=
  let s := l2Errors s (lineDie l) l env
  if snoopKind r == .drop then filterErrors s l env else readFilters s l env

/-- The oldest request of a line starts when no transaction is open (R249); one whose snoops are answered and that waited
for DRAM is performed. A host request for a new line of a full set waits while the entry to be freed is busy. -/
def tryOpen (s : State) (l : Nat) (env : MemEnv) : State :=
  let h := homeOf s l
  if !(running s) then s
  else match h.txn with
  | some t => if t.waiting.isEmpty then closeTxn s l t env else s
  | none => match h.queue with
    | [] => l2Errors s (lineDie l) l env
    | r :: rest =>
      if holdWaits s l r then s
      else
        let s := openErrors s l r env
        if takesHostEntry r && hostFull s l then
          match hostVictim s l with
          | some e =>
            if lineIdle s e.line.toNat && !(holdWaits s e.line.toNat .backInv) then openTxn (backInvalidate s e) l r rest env else s
          | none => s
        else openTxn s l r rest env

/-- A home accepts a request of a source that has an entry free. -/
def acceptReq (s : State) (l : Nat) (r : HomeReq) (env : MemEnv) : State :=
  if !(running s) || homeLimit (reqSource r) ≤ homeUsed s l (reqSource r) then s
  else
    let h := homeOf s l
    tryOpen (setHome s l { h with queue := h.queue ++ [r] }) l env

/-- The state of a die's copy of a line. -/
def farState (s : State) (d : DieId) (l : Nat) : Option FarSt := (farCopy s d.val l).map (fun x => x.st)

/-- What a die's lookup of its own far copy meets. -/
def farErrors (s : State) (d : DieId) (l : Nat) (env : MemEnv) : State :=
  if (farCopy s d.val l).isSome then l2Errors s d.val l env else s

/-- Write-back credits of a die in use at the home slice of a line (R250). -/
def writeBacks (s : State) (d : DieId) (l : Nat) : Nat :=
  (s.fabric.filter (fun m => match m with
    | .writeBack d' l' _ => d' == d && lineDie l'.toNat == lineDie l && lineSlice l'.toNat == lineSlice l
    | _ => false)).length

/-- A die evicts an FM line to its home, for one of its 16 credits there (R250, R253). -/
def sendWriteBack (s : State) (d : DieId) (l : Nat) : State := match farCopy s d.val l with
  | some x =>
    if x.st == .fm && writeBacks s d l < 16 then send (clearNear (dropFar s d.val l) d.val l none) (.writeBack d x.line x.data) else s
  | none => s

/-- A die asks for a line it does not hold. The slot of a far line is emptied first (R253): a clean line is dropped without a
message when the request is sent; an FM line is written back before, and the request waits for it. -/
def dieRequest (s : State) (d : DieId) (l : Nat) (r : HomeReq) (env : MemEnv) : State :=
  if !(running s) || homeLimit d.val ≤ homeUsed s l d.val || (farState s d l).isSome then s
  else if lineDie l == d.val || (fillsFar r).isNone then acceptReq s l r env
  else if slotOpen s d.val l then s
  else match tblFind (dieOf s d.val).far (lineSlot l) with
    | none => acceptReq s l r env
    | some x =>
      let v := x.line.toNat
      if x.st == .fm then sendWriteBack s d v else acceptReq (clearNear (dropFar s d.val v) d.val v none) l r env

/-- READ_SHARED. -/
def execReadShared (d : DieId) (l : LineId) (cls : ReqClass) (hint : BitVec 2) (env : MemEnv) (s : State) :
    Host.Outcome State Fault Refusal :=
  .next (meets env s (dieRequest s d l.toNat (.readShared d cls hint) env))

/-- READ_UNIQUE. -/
def execReadUnique (d : DieId) (l : LineId) (cls : ReqClass) (hint : BitVec 2) (env : MemEnv) (s : State) :
    Host.Outcome State Fault Refusal :=
  .next (meets env s (dieRequest s d l.toNat (.readUnique d cls hint) env))

/-- UPGRADE: sent by a die that holds FS. -/
def execUpgrade (d : DieId) (l : LineId) (env : MemEnv) (s : State) : Host.Outcome State Fault Refusal :=
  .next (meets env s (
    if farState s d l.toNat == some .fs && !(slotOpen s d.val l.toNat) then acceptReq s l.toNat (.upgrade d) env else s))

/-- READ_NA. -/
def execReadNa (src : ReqSrc) (l : LineId) (env : MemEnv) (s : State) : Host.Outcome State Fault Refusal :=
  .next (meets env s (acceptReq s l.toNat (.readNa src) env))

/-- WRITE_NA. -/
def execWriteNa (src : ReqSrc) (l : LineId) (mask : BitVec 128) (data : List Byte) (env : MemEnv) (s : State) :
    Host.Outcome State Fault Refusal :=
  .next (meets env s (acceptReq s l.toNat (.writeNa src mask data) env))

/-- A word lies aligned in its line. -/
def wordOk (ofs : Fin 128) (wide : Bool) : Bool := ofs.val % opBytes wide == 0

/-- ATOM_FAR. -/
def execAtomFar (d : DieId) (l : LineId) (a : FarAtom) (env : MemEnv) (s : State) : Host.Outcome State Fault Refusal :=
  .next (meets env s (
    if wordOk a.ofs a.wide && !(a.op == .fadd && a.wide) then acceptReq s l.toNat (.atomFar d a) env else s))

/-- LDX_FAR. -/
def execLdxFar (d : DieId) (l : LineId) (ofs : Fin 128) (wide : Bool) (env : MemEnv) (s : State) : Host.Outcome State Fault Refusal :=
  .next (meets env s (if wordOk ofs wide then acceptReq s l.toNat (.ldxFar d ofs wide) env else s))

/-- STX_FAR. -/
def execStxFar (d : DieId) (l : LineId) (ofs : Fin 128) (wide : Bool) (v : W64) (env : MemEnv) (s : State) :
    Host.Outcome State Fault Refusal :=
  .next (meets env s (if wordOk ofs wide then acceptReq s l.toNat (.stxFar d ofs wide v) env else s))

/-- The home takes the next accepted request of a line; where none waits, its slice looks the line up as for a replacement. -/
def execHomeTransactionStart (l : LineId) (env : MemEnv) (s : State) : Host.Outcome State Fault Refusal :=
  .next (meets env s (tryOpen s l.toNat env))

-- CLEAN (R176)

/-- One line of a CLEAN, and whether it is clean: a dirty copy is written to DRAM and stays, clean. For a line with a sector UNIQUE
at the host the home sends SNP_CLEAN, in a transaction that counts the line; a line that is busy waits. -/
def cleanAtHome (s : State) (l op : Nat) (env : MemEnv) : State × Bool :=
  if running s && lineIdle s l && chanServes s (lineChan l) then
    let s := readFilters (l2Errors s (lineDie l) l env) l env
    if hostUnique s l then (acceptReq s l (.clean (BitVec.toFin (BitVec.ofNat 2 (lineDie l))) op) noErr, false)
    else
      let s := snoopClean s l
      match homeCopy s l with
      | some x => (if x.st == .hd then modHome (dramWrite s l x.data) l (fun y => { y with st := .hc }) else s, true)
      | none => (s, true)
  else (s, false)

/-- The next lines of a CLEAN from partition-relative address `a` on, with how many were cleaned. -/
def cleanLines (s : State) (sag a op : Nat) (env : MemEnv) : Nat → State × Nat
  | 0 => (s, 0)
  | n + 1 => match (mapLine s sag a).map (fun l => cleanAtHome s l op env) with
    | none => (s, 0)
    | some (t, false) => (t, 0)
    | some (t, true) =>
      let r := cleanLines t sag (a + 128) op (nextEnv env) n
      (r.1, r.2 + 1)

/-- HOME_CLEAN: the homes clean the next lines of an operation. -/
def execHomeClean (op : Nat) (lines : Nat) (env : MemEnv) (s : State) : Host.Outcome State Fault Refusal :=
  .next (meets env s (match nmOpOf s op with
    | none => s
    | some o =>
      let left := nmStride o.words / 128 - o.cleaned
      if kindOf o.words != nmCLEAN || !(nmBarrierOk s o) || !(nmStoresDrained s o) || !(o.shares.all (fun h => h.phase == .done)) then s
      else
        let r := cleanLines s o.sag.val (nmBase o.words + 128 * o.cleaned) op env (min lines left)
        modNmOp r.1 op (fun x => { x with cleaned := x.cleaned + r.2 })))

-- Messages on their way

/-- The first message that a test names, and the rest. -/
def takeMsg (p : FabMsg → Bool) : List FabMsg → Option (FabMsg × List FabMsg)
  | [] => none
  | m :: ms => if p m then some (m, ms) else (takeMsg p ms).map (fun r => (r.1, m :: r.2))

/-- A message about a line arrives, once its bridges have a credit for it; one that nobody has sent is a protocol error (R264). -/
def withMsg (s : State) (l : LineId) (p : FabMsg → Bool) (body : State → FabMsg → State) : State :=
  if !(running s) then s
  else match takeMsg p s.fabric with
  | none => domainStop s causeProtocol (lineKey l.toNat) false
  | some r => if credited (s.fabric.takeWhile (fun m => !(p m))) r.1 then body { s with fabric := r.2 } r.1 else s

/-- An answer of the home arrives at its requester, or the error that takes its place. -/
def reply (s : State) (src : ReqSrc) (l : LineId) (p : FabMsg → Bool) (body : State → FabMsg → State) : State :=
  withMsg s l (fun m => p m || m == .error src l) (fun t m => if m == .error src l then t else body t m)

/-- A grant of the line is still on its way to the die: snoops sent after it wait for it. -/
def grantOnWay (s : State) (d : DieId) (l : LineId) : Bool :=
  s.fabric.any (fun m => msgFills m == some d && msgLine m == l.toNat)

/-- A die answers a snoop from its own L2. -/
def dieSnoop (s : State) (d : DieId) (l : LineId) (m : FabMsg) (env : MemEnv) (body : State → FarLine → State) : State :=
  if grantOnWay s d l then s
  else meets env s (withMsg s l (· == m) (fun t _ =>
    let t := farErrors t d l.toNat env
    match farCopy t d.val l.toNat with
    | none => send t (.notPresent (.die d) l)
    | some x => body t x))

/-- SNP_SHARED. -/
def execSnpShared (d : DieId) (l : LineId) (env : MemEnv) (s : State) : Host.Outcome State Fault Refusal :=
  .next (dieSnoop s d l (.snpShared d l) env (fun t x =>
    let t := setFar t d.val l.toNat .fs x.data
    send t (if x.st == .fm then .snpData (.die d) l true x.data else .snpAck (.die d) l true)))

/-- SNP_INVALIDATE. -/
def execSnpInvalidate (d : DieId) (l : LineId) (env : MemEnv) (s : State) : Host.Outcome State Fault Refusal :=
  .next (dieSnoop s d l (.snpInvalidate d l) env (fun t x =>
    let t := clearNear (dropFar t d.val l.toNat) d.val l.toNat none
    send t (if x.st == .fm then .snpData (.die d) l false x.data else .snpAck (.die d) l false)))

/-- SNP_CLEAN. -/
def execSnpClean (d : DieId) (l : LineId) (env : MemEnv) (s : State) : Host.Outcome State Fault Refusal :=
  .next (dieSnoop s d l (.snpClean d l) env (fun t x =>
    if x.st == .fm then send (setFar t d.val l.toNat .fe x.data) (.snpData (.die d) l true x.data)
    else send t (.snpAck (.die d) l true)))

/-- RSV_KILL: it belongs to no transaction, and a die that receives one clears its far reservations of the pair (R261). -/
def execRsvKill (d : DieId) (l : LineId) (s : State) : Host.Outcome State Fault Refusal :=
  .next (
    if !(running s) then s
    else
      let rest := ((takeMsg (· == .rsvKill d l) s.fabric).map (fun r => r.2)).getD s.fabric
      clearFarRsv { s with fabric := rest } d.val (pairOf l.toNat) none)

/-- A granted line fills the far way of its requester. -/
def fillFar (s : State) (d : DieId) (l : LineId) (st : FarSt) (data : List Byte) (won : Option Bool) : State :=
  if lineDie l.toNat == d.val then s
  else
    let s := clearSlot s d.val l.toNat
    match won with
    | some w => setWon s d.val l.toNat st data w
    | none => setFar s d.val l.toNat st data

/-- DATA_S. -/
def execDataS (src : ReqSrc) (l : LineId) (s : State) : Host.Outcome State Fault Refusal :=
  .next (reply s src l (fun m => match m with
    | .dataS src' l' _ _ => src' == src && l' == l
    | _ => false) (fun t m => match m, src with
    | .dataS _ _ data true, .die d => fillFar t d l .fs data none
    | _, _ => t))

/-- DATA_E. -/
def execDataE (d : DieId) (l : LineId) (s : State) : Host.Outcome State Fault Refusal :=
  .next (reply s (.die d) l (fun m => match m with
    | .dataE d' l' _ _ => d' == d && l' == l
    | _ => false) (fun t m => match m with
    | .dataE _ _ data w => fillFar t d l .fe data (some w)
    | _ => t))

/-- DATA_M. -/
def execDataM (d : DieId) (l : LineId) (s : State) : Host.Outcome State Fault Refusal :=
  .next (reply s (.die d) l (fun m => match m with
    | .dataM d' l' _ _ => d' == d && l' == l
    | _ => false) (fun t m => match m with
    | .dataM _ _ data w => fillFar t d l .fm data (some w)
    | _ => t))

/-- GRANT: an UPGRADE makes the FS copy FE; the grant of a WRITE_NA or STX_FAR only tells its requester that it is done. -/
def execGrant (src : ReqSrc) (l : LineId) (s : State) : Host.Outcome State Fault Refusal :=
  .next (reply s src l (fun m => match m with
    | .grant src' l' _ _ => src' == src && l' == l
    | _ => false) (fun t m => match m, src with
    | .grant _ _ true w, .die d => match farCopy t d.val l.toNat with
      | some x => if x.st == .fs then setWon t d.val l.toNat .fe x.data w else t
      | none => t
    | _, _ => t))

/-- RESULT. -/
def execResult (d : DieId) (l : LineId) (s : State) : Host.Outcome State Fault Refusal :=
  .next (reply s (.die d) l (fun m => match m with
    | .result d' l' _ => d' == d && l' == l
    | _ => false) (fun t _ => t))

-- Answers at the home

/-- Modified data enters the home copy under a fill. -/
def takeData (s : State) (l : Nat) (f : Fill) (data : List Byte) : State := allocHome s l .hd data f.mask f.age

/-- Data written back by a die enters the home copy, under the CORE mask (the model's choice); the filter entry goes while it still
names the line (R252). -/
def takeWriteBack (s : State) (d : DieId) (l : Nat) (data : List Byte) : State :=
  clearFilt (takeData s l (fillOf s l .core 0) data) d.val l

/-- The first write-back of a die and line that is on its way. -/
def isWriteBack (d : DieId) (l : LineId) : FabMsg → Bool
  | .writeBack d' l' _ => d' == d && l' == l
  | _ => false

/-- It arrives at its home. -/
def arriveWriteBack (s : State) (d : DieId) (l : LineId) : State := match takeMsg (isWriteBack d l) s.fabric with
  | some (.writeBack _ _ data, rest) => takeWriteBack { s with fabric := rest } d l.toNat data
  | _ => s

/-- WRITE_BACK: a die evicts a dirty far copy, which goes on its way to the home; one on its way arrives. -/
def execWriteBack (d : DieId) (l : LineId) (env : MemEnv) (s : State) : Host.Outcome State Fault Refusal :=
  .next (
    if !(running s) then s
    else if farState s d l.toNat == some .fm then meets env s (sendWriteBack (farErrors s d l.toNat env) d l.toNat)
    else withMsg s l (isWriteBack d l) (fun t m => match m with
      | .writeBack _ _ data => takeWriteBack t d l.toNat data
      | _ => t))

/-- A host sector's modified bytes enter the line: to DRAM, or to the home copy under a fill. A line that cannot be read keeps its
error, and the bytes are discarded (R144). The host has written the line (R261). -/
def takeSector (s : State) (l : Nat) (i : Fin 2) (data : List Byte) (into : Option Fill) (env : MemEnv) : State :=
  match homeData s l none env with
  | (t, .error _) => t
  | (t, .ok old) =>
    let new := mergeLine old (updatesAt (64 * i.val) (data.take 64))
    match into with
    | none => dramWrite (writeKills t l none) l new
    | some f => takeData (writeKills t l none) l f new

/-- A snoop of a target is answered; with the last answer the request is performed. -/
def answered (s : State) (l : Nat) (t : SnoopTarget) (env : MemEnv) : State :=
  let h := homeOf s l
  match h.txn with
  | none => s
  | some x =>
    let x := { x with waiting := x.waiting.filter (fun y => y != t) }
    let s := setHome s l { h with txn := some x }
    if x.waiting.isEmpty then closeTxn s l x env else s

/-- The filter after an answer of a holder that had the line. -/
def filterAnswer (s : State) (l : Nat) (t : SnoopTarget) (k : SnoopKind) : State := match t, k with
  | .die d, .keep => setFilt s d.val l false
  | .die d, .drop => clearFilt s d.val l
  | .host i, .keep => setHostSector s l i .shared
  | .host i, .drop => setHostSector s l i .inv
  | _, .clean => s

/-- Modified data with the answer: SNP_CLEAN's goes to DRAM, other data enters under the fill of the request that is served. -/
def answerData (s : State) (l : Nat) (t : SnoopTarget) (r : HomeReq) (data : List Byte) (env : MemEnv) : State := match t with
  | .die _ => if snoopKind r == .clean then dramWrite s l data else takeData s l (reqFill s l r) data
  | .host i => takeSector s l i data (if snoopKind r == .clean then none else some (reqFill s l r)) env

/-- The request of the open transaction. -/
def openReq (s : State) (l : Nat) : HomeReq := match (homeOf s l).txn with
  | some x => x.req
  | none => .backInv

def sameFrom (f : SnoopFrom) (t : SnoopTarget) : Bool := match f, t with
  | .die d, .die d' => d == d'
  | .host, .host _ => true
  | _, _ => false

/-- SNP_DATA. -/
def execSnpData (from_ : SnoopFrom) (l : LineId) (env : MemEnv) (s : State) : Host.Outcome State Fault Refusal :=
  .next (meets env s (withMsg s l (fun m => match m with
    | .snpData t l' _ _ => sameFrom from_ t && l' == l
    | _ => false) (fun s m => match m with
    | .snpData t _ _ data =>
      let r := openReq s l.toNat
      answered (filterAnswer (answerData s l.toNat t r data env) l.toNat t (snoopKind r)) l.toNat t env
    | _ => s)))

/-- SNP_ACK. -/
def execSnpAck (from_ : SnoopFrom) (l : LineId) (env : MemEnv) (s : State) : Host.Outcome State Fault Refusal :=
  .next (meets env s (withMsg s l (fun m => match m with
    | .snpAck t l' _ => sameFrom from_ t && l' == l
    | _ => false) (fun s m => match m with
    | .snpAck t _ _ => answered (filterAnswer s l.toNat t (snoopKind (openReq s l.toNat))) l.toNat t env
    | _ => s)))

/-- NOT_PRESENT: the home goes on as if the agent held no copy; a write-back of that die has arrived before (R253). -/
def execNotPresent (from_ : SnoopFrom) (l : LineId) (env : MemEnv) (s : State) : Host.Outcome State Fault Refusal :=
  .next (meets env s (withMsg s l (fun m => match m with
    | .notPresent t l' => sameFrom from_ t && l' == l
    | _ => false) (fun s m => match m with
    | .notPresent t _ =>
      let s := match t with
        | .die d => arriveWriteBack s d l
        | .host _ => s
      let s := filterAnswer s l.toNat t .drop
      answered (modDie s (lineDie l.toNat) (fun k => { k with stale := sat k.stale 1 })) l.toNat t env
    | _ => s)))

-- Hold time, bridges, timeouts

/-- HOLD_TIME_EXPIRY. -/
def execHoldTimeExpiry (l : LineId) (s : State) : Host.Outcome State Fault Refusal :=
  .next (setHome s l.toNat { homeOf s l.toNat with hold := none })

def modBridge (s : State) (b : Nat) (f : Bridge → Bridge) : State := { s with bridges := listModify f s.bridges b }

/-- BRIDGE_FLIT: a flit that fails its check, or follows one, is replayed, and stays pending until it comes again. -/
def execBridgeFlit (b : BridgeId) (f : Flit) (s : State) : Host.Outcome State Fault Refusal :=
  .next (modBridge s b.val (fun x =>
    if f.crcOk && f.seq == x.rxSeq then { x with rxSeq := x.rxSeq + 1, resend := false }
    else { x with replays := x.replays + 1, resend := true }))

/-- A message class holds a flit that is pending on the bridge: a message of the class on its way over it, or a flit that failed
its check, whose class its receiver cannot tell. -/
def bridgePending (s : State) (b : BridgeId) (cls : Fin 3) : Bool :=
  ((s.bridges.getD b.val {}).resend) || s.fabric.any (fun m => msgClass m == cls.val && (msgPath m).contains b.val)

/-- BRIDGE_CLASS_SILENT: a bridge that has delivered nothing in a class with a flit pending is declared dead. -/
def execBridgeClassSilent (b : BridgeId) (cls : Fin 3) (s : State) : Host.Outcome State Fault Refusal :=
  .next (
    if running s && bridgePending s b cls then
      domainStop { s with ras := { s.ras with deadBridges := if s.ras.deadBridges.contains b then s.ras.deadBridges else s.ras.deadBridges ++ [b] } }
        causeBridge 0 false
    else s)

/-- SNOOP_TIMEOUT: a compute die has left a snoop of the line unanswered. -/
def execSnoopTimeout (l : LineId) (s : State) : Host.Outcome State Fault Refusal :=
  .next (match (homeOf s l.toNat).txn with
    | some x =>
      if x.waiting.any (fun t => match t with
        | .die _ => true
        | .host _ => false) then domainStop s causeSnoop (lineKey l.toNat) false else s
    | none => s)

end Sys2Proof.Machine
end

