-- ==== Sys2Proof/Machine/Copy.lean ====
section
/-!
DEFINITION. The copy engines (R298, R483, R334): COPY, FILL and SEALED_LOAD in transfers of up to 4 KiB (R5, R407), with the
measurement log of a saggar (R382, R383) and the framing of sealed images (R392, R393).
-/
namespace Sys2Proof.Machine

open Sys2Proof

-- The measurement log (R382, R383)

/-- A measurement entry (Table 15-7). -/
def logEntryOf (j : CopyJob) (digest : List Byte) : List Byte :=
  let sealedLoad := copyMode j.words == 2
  [BitVec.ofNat 8 (copyClass j.words), if sealedLoad then 1 else 0] ++ leBytes 2 (field (word j.words 0) 32 16) ++
    leBytes 4 (copyLen j.words) ++ leBytes 6 (copyDstOfs j.words) ++ [BitVec.ofNat 8 (if sealedLoad then copyKey j.words else 0), 0] ++
    digest

/-- An entry enters the log; a full log folds it into the overflow digest. -/
def measure (s : State) (sag : Nat) (e : List Byte) : State :=
  modSag s sag (fun g =>
    if 1024 ≤ g.log.length then { g with overflow := g.overflow + 1, overflowDigest := sha384 (g.overflowDigest ++ e) }
    else { g with log := g.log ++ [e] })

-- A node's transfers (R298, R5, R407)

/-- The bytes that a node reads from its source: those of the sealed image, those of the copy, none of a fill. -/
def srcLen (j : CopyJob) : Nat := if copyMode j.words == 2 then imageLen (copyLen j.words) else if copyMode j.words == 1 then 0 else copyLen j.words

/-- Bytes of the chunk of a sealed image that a source offset lies in, behind the header: where it starts and how long it is with
its tag. -/
def chunkAt (j : CopyJob) (ofs : Nat) : Nat × Nat :=
  let c := (ofs - 64) / 65552
  (64 + 65552 * c, min 65536 (copyLen j.words - 65536 * c) + 16)

/-- Bytes to the next 4 KiB boundary of an address: a transfer lies within one. -/
def toBoundary (a : Nat) : Nat := 4096 - a % 4096

/-- The transfer that reads from a source offset on: up to 4 KiB, of a sealed image within its header or one chunk. -/
def readPiece (s : State) (j : CopyJob) (ofs : Nat) : Nat :=
  let room := min (srcLen j - ofs) (toBoundary (jobSrcAddr s j + ofs))
  if copyMode j.words != 2 then room
  else if ofs < 64 then min room (64 - ofs)
  else min room ((chunkAt j ofs).1 + (chunkAt j ofs).2 - ofs)

/-- Transfers in flight: each holds a tracker of the engine. -/
def inFlight (j : CopyJob) : Nat := j.reads.length + j.got.length + j.writes.length

/-- A request of a copy engine to the host, for whole 16 B units. -/
def copyReq (j : CopyJob) (ofs a len : Nat) (data : Option (List Byte)) : IoReq :=
  { owner := .copy j.engine j.id ofs, who := 5 + j.engine.val, write := data.isSome, addr := BitVec.ofNat 52 (a / 16 * 16)
    len := unitsLen a len, data := (data.map (units16 a)).getD [] }

def sendReq (s : State) (q : IoReq) : State := { s with dl := { s.dl with waiting := s.dl.waiting ++ [q] } }

/-- A node with the state that it stands in. -/
abbrev CopySt := State × CopyJob

/-- Asks the host for source bytes while trackers are free. -/
def askSource : Nat → CopySt → CopySt
  | 0, x => x
  | n + 1, (s, j) =>
    if j.asked < srcLen j && inFlight j < 1024 then
      let len := readPiece s j j.asked
      askSource n (sendReq s (copyReq j j.asked (jobSrcAddr s j + j.asked) len none),
        { j with reads := j.reads ++ [j.asked], asked := j.asked + len })
    else (s, j)

/-- One act of a node: it goes on, it waits, or it fails with a status and an address. -/
inductive CopyAct where
  | went (x : CopySt) (env : MemEnv)
  | waits
  | fails (x : CopySt) (status addr : Nat)

/-- Writes the next bytes that are ready: up to 4 KiB. -/
def copyPut (x : CopySt) (env : MemEnv) : CopyAct :=
  let (s, j) := x
  let a := jobDstAddr s j + j.wrote
  let bs := j.out.take (toBoundary a)
  let data : List Byte := match j.free with
    | some f => (List.range bs.length).map (fun i => Config.freeByte f (j.wrote + i))
    | none => bs
  let done : CopyJob := { j with
    out := j.out.drop bs.length, wrote := j.wrote + bs.length, plain := if copyMeasured j.words then j.plain ++ data else [] }
  if (jobDstObj s j).host then
    if inFlight j < 1024 then
      .went (sendReq s (copyReq j j.wrote a bs.length (some data)), { done with writes := j.writes ++ [j.wrote] }) env
    else .waits
  else match writeMem s j.sag.val a data env with
    | none => .waits
    | some (t, .error e) => .fails (t, j) (errStatus e.1) e.2
    | some (t, .ok _) => .went (t, done) (envAfter env a bs.length)

/-- The header of a sealed image is well formed. -/
def sealedHeaderOk (hd : List Byte) (len : Nat) : Bool :=
  rd32 hd 0 == 0x57535848 && rd16 hd 4 == 1 && rd16 hd 6 == 0 && rd32 hd 8 == len && rd32 hd 12 == 0 &&
  ((hd.drop 24).take 36).all (· == 0) && rd32 hd 60 == crc32c (hd.take 60)

/-- Source bytes that have come are used: of a copy they are ready to be written; of a sealed image the header is checked, and a
chunk once it is whole, whose plaintext is ready when its tag verifies (R392, R393). -/
def copyUse (x : CopySt) (bs : List Byte) (env : MemEnv) : CopyAct :=
  let (s, j) := x
  let at_ := j.used
  let j := { j with used := j.used + bs.length }
  if copyMode j.words != 2 then .went (s, { j with out := bs }) env
  else if at_ < 64 then
    let hd := j.head ++ bs
    if hd.length < 64 then .went (s, { j with head := hd }) env
    else if sealedHeaderOk hd (copyLen j.words) then .went (s, { j with head := hd }) env
    else .fails (s, j) 10 (copySrcOfs j.words)
  else
    let c := chunkAt j at_
    let bs := j.chunk ++ bs
    if bs.length < c.2 then .went (s, { j with chunk := bs }) env
    else match gcmOpen (j.key.getD []) ((j.head.drop 16).take 8 ++ leBytes 4 ((at_ - 64) / 65552)) j.head (bs.take (c.2 - 16)) (bs.drop (c.2 - 16)) with
      | none => .fails (s, j) 10 (copySrcOfs j.words + c.1)
      | some plain => .went (s, { j with chunk := [], out := plain }) env

/-- The next source bytes of a node: a pattern's, the host's, or device memory's. -/
def copyGet (x : CopySt) (env : MemEnv) : CopyAct :=
  let (s, j) := x
  if copyMode j.words == 1 then .went (s, { j with out := patternBytes (word j.words 4) j.wrote (min 4096 (copyLen j.words - j.wrote)) }) env
  else if (jobSrc s j).host then
    match tblFind j.got j.used with
    | none => .waits
    | some bs => copyUse (s, { j with got := tblDel j.got j.used }) bs env
  else
    let a := jobSrcAddr s j + j.used
    let len := readPiece s j j.used
    match readCoh s j.sag.val a len env with
    | none => .waits
    | some (t, .error e) => .fails (t, j) (errStatus e.1) e.2
    | some (t, .ok bs) => copyUse (t, j) bs (envAfter env a len)

/-- All bytes are written or on their way. -/
def copyAll (j : CopyJob) : Bool := j.out.isEmpty && copyLen j.words ≤ j.wrote

/-- Up to `n` acts. -/
def copyRun (env : MemEnv) : Nat → CopySt → CopySt
  | 0, x => x
  | n + 1, (s, j) =>
    if copyAll j || j.fail.isSome then (s, j)
    else match (if j.out.isEmpty then copyGet (s, j) env else copyPut (s, j) env) with
      | .went x e => copyRun e n x
      | .waits => (s, j)
      | .fails (t, k) st a => (t, { k with fail := some (st, a) })

/-- Acts that a node needs at most: its reads, its chunks and its writes, each of up to 4 KiB. -/
def copyActs (j : CopyJob) : Nat := 4 * ((srcLen j + copyLen j.words) / 4096) + 16

/-- Source and destination overlap without coinciding (R298). -/
def copyOverlaps (s : State) (j : CopyJob) : Bool :=
  copyMode j.words == 0 && (jobSrc s j).host == (jobDstObj s j).host && jobSrcAddr s j != jobDstAddr s j &&
  decide (jobSrcAddr s j < jobDstAddr s j + copyLen j.words) && decide (jobDstAddr s j < jobSrcAddr s j + copyLen j.words)

/-- A node as its engine takes it up: what an overlapping copy leaves is drawn. -/
def copyBegin (s : State) (j : CopyJob) : CopySt :=
  if j.free.isNone && copyOverlaps s j then
    let f := takeFree s
    (f.2, { j with free := some f.1 })
  else (s, j)

/-- The node's transfers as far as they go now. -/
def copyStep (s : State) (j : CopyJob) (env : MemEnv) : CopySt :=
  let x := copyBegin s j
  let ask (y : CopySt) : CopySt := if (jobSrc y.1 y.2).host && y.2.fail.isNone then askSource 1024 y else y
  ask (copyRun env (copyActs j) (ask x))

def setCopy (s : State) (j : CopyJob) : State :=
  { s with fe := { s.fe with copies := s.fe.copies.map (fun x => if x.id == j.id then j else x) } }

-- The host's answers (R408, R409)

/-- The node that a transfer of a copy engine serves. -/
def copyOf (s : State) (id : Nat) : Option CopyJob := s.fe.copies.find? (fun j => j.id == id)

/-- An answered read: the bytes of the transfer out of those of the whole units. -/
def copyArrive (s : State) (id ofs : Nat) (bs : List Byte) : State := match copyOf s id with
  | some j =>
    if j.reads.contains ofs then
      setCopy s { j with
        reads := j.reads.filter (· != ofs)
        got := tblPut j.got ofs ((bs.drop ((jobSrcAddr s j + ofs) % 16)).take (readPiece s j ofs)) }
    else s
  | none => s

/-- An answered write. -/
def copyWrote (s : State) (id ofs : Nat) : State := match copyOf s id with
  | some j => setCopy s { j with writes := j.writes.filter (· != ofs) }
  | none => s

/-- A failed access to host memory: the node fails with status DATA and the host address (R409). -/
def copyHostFail (s : State) (id ofs : Nat) (write : Bool) : State := match copyOf s id with
  | some j =>
    setCopy s { j with
      reads := if write then j.reads else j.reads.filter (· != ofs)
      writes := if write then j.writes.filter (· != ofs) else j.writes
      fail := if j.fail.isSome then j.fail else some (9, (if write then jobDstAddr s j else jobSrcAddr s j) + ofs) }
  | none => s

-- The end of a node

/-- The node leaves its engine. -/
def dropCopy (s : State) (j : CopyJob) : State :=
  dropTransfers { s with fe := { s.fe with copies := s.fe.copies.filter (fun x => x.id != j.id) } } j

/-- A node whose writes are all answered ends: it fails, or it completes, measured where it says so. -/
def copyEnd (s : State) (j : CopyJob) : State :=
  if !(j.writes.isEmpty) then setCopy s j
  else match j.fail with
    | some x => nodeFail (dropCopy s j) j.node 4 0 x.1 (BitVec.ofNat 64 x.2)
    | none =>
      if copyAll j then
        let t := perf (dropCopy s j) j.sag.val perfCOPY (copyLen j.words / 64)
        nodeDone (if copyMeasured j.words then measure t j.sag.val (logEntryOf j (sha384 j.plain)) else t) j.node
      else setCopy s j

/-- COPY_COMPLETE: the node at the head of an engine goes on with its transfers, at most 1,024 in flight (R5, R298); with the last
one it ends. -/
def execCopyComplete (e : CopyEngId) (env : MemEnv) (s : State) : Host.Outcome State Fault Refusal :=
  .next (match s.fe.copies.find? (fun j => j.engine == e) with
    | none => s
    | some j =>
      if !(running s) then s
      else
        let x := copyStep s j env
        meets env s (copyEnd x.1 x.2))

end Sys2Proof.Machine
end

