-- ==== Sys2Proof/Machine/Recover.lean ====
section
/-!
DEFINITION. The stop of a slice (R358, R359), the fall of a link, the recovery of single faults with its queue and its
escalation (R415 to R418, R420, R422).
-/
namespace Sys2Proof.Machine

open Sys2Proof

-- Slices that stop (R359)

/-- The entry or graph node of a link job. -/
def jobNode (j : LinkJob) : NodeRef := { ring := j.ring, seq := j.seq, graph := j.graph }

/-- The destination address of the next packet of a job; a remote SIGNAL has none. -/
def jobAddr (j : LinkJob) : Nat := if j.signal then 0 else linkAddr j.words + j.cut

/-- A link node fails with a reason of Table 13-6 (R354). -/
def linkFail (s : State) (j : LinkJob) (reason addr : Nat) : State := nodeFail s (jobNode j) 5 0 reason (BitVec.ofNat 64 addr)

/-- Link jobs of a saggar, by engine. -/
def linkJobsOf (s : State) (k : Nat) : List LinkJob :=
  s.xl.engines.flatMap (fun e => e.jobs.filter (fun j => j.sag.val == k))

/-- Counters that threads wait on. -/
def waitedCones (s : State) : List Nat :=
  (s.cores.flatMap (fun pk => (heldOps pk.2).filterMap (fun x => match x.2.2.op with
    | .cone m _ => some m
    | _ => none))).eraseDups

/-- The link work of a stopped saggar: its LINK nodes fail with STOPPED, and so do its waits on counters. -/
def sliceWork (s : State) (k : Nat) : State :=
  let jobs := linkJobsOf s k
  let s := jobs.foldl (fun t j => linkFail t j 0x0B (jobAddr j)) (dropLinks s (fun j => j.sag.val == k))
  let s := (s.fe.waits.filter (fun w => w.cone && w.sag.val == k)).foldl waitFail s
  (waitedCones s).foldl coneFaults s

/-- A saggar's slice stops. -/
def sliceStopped (s : State) (k : Nat) (origin : Coord) (cause : BitVec 2) : State := sliceWork (sliceMark s k origin cause) k

/-- The module stops a slice it belongs to. -/
def stopSlice (s : State) (k : Nat) (cause : BitVec 2) : State :=
  if (sliceOf s k).valid then sliceWork (raiseSliceStop s k cause) k else s

/-- Every counter of PT_CONE_k becomes ASSIGNED to k with VALUE 0 (R359, Table 14-11). -/
def assignCones (s : State) (k : Nat) : State :=
  let g := sagOf s k
  (List.range g.coneCount.toNat).foldl (fun t i =>
    setCone t (g.coneFirst.toNat + i) { assigned := true, partition := BitVec.toFin (BitVec.ofNat 4 k), value := 0 }) s

/-- STOPPED clears, and a later SLICE_STOP of the slice counts as new. -/
def clearStopped (s : State) (k : Nat) : State :=
  let r := sliceOf s k
  let s := setSlice s k { r with stopped := false }
  { s with xl := { s.xl with seen := s.xl.seen.filter (fun x => x.1 != r.sliceId) } }

-- Links that fall

/-- A port leaves service, DOWN or RETIRED, and what it still held is lost: the slices it joined stop (R358). -/
def portFall (s : State) (n : Nat) (st : PortSt) : State :=
  let ks := (List.range 16).filter (fun k => (sliceOf s k).valid && portInSlice s (sliceOf s k) n)
  let s := modPort s n (fun p =>
    let p := initLink p
    if st == .down then { p with st, downEvent := true, downCount := sat p.downCount 1 } else { p with st })
  let s := logEvent s 0x0F 3 noPart (unitPort n) 0 0
  ks.foldl (fun t k => stopSlice t k 1) s

/-- The Derset link enters DOWN, and the domain stops (R401). -/
def linkFall (s : State) : State :=
  domainStop { s with dl := { s.dl with st := .down, stopped := false } } causeHost 0 true

-- The repair table (R422, R427)

/-- Appends an entry; none when the table is full. -/
def addRepair (s : State) (w : BitVec 32) : Option State :=
  if 327680 ≤ s.ras.repair.length then none
  else some { s with ras := { s.ras with repair := s.ras.repair ++ [w] } }

/-- Appends a retirement, or logs that no entry is left: it then holds only until power-off. -/
def noteRepair (s : State) (unit : Nat) (w : BitVec 32) : State := match addRepair s w with
  | some t => t
  | none => logEvent s 0x09 7 noPart unit 0 0

def repairRow (p bank row : Nat) : BitVec 32 := BitVec.ofNat 32 (1 * 2 ^ 29 + p * 2 ^ 21 + bank * 2 ^ 15 + row)
def repairCore (c : Nat) : BitVec 32 := BitVec.ofNat 32 (2 * 2 ^ 29 + c)
def repairChannel (p : Nat) : BitVec 32 := BitVec.ofNat 32 (3 * 2 ^ 29 + p)
def repairPort (n : Nat) : BitVec 32 := BitVec.ofNat 32 (4 * 2 ^ 29 + n)

def modCraze (s : State) (f : Crazing → Crazing) : State := { s with ras := { s.ras with craze := f s.ras.craze } }

/-- A core becomes RETIRED: the maps change, but for a SPARE, whose bit is 0 already (R478), and the record and the repair table take
it (R9, R422). -/
def coreRetired (s : State) (c : Nat) : State :=
  let t := modCore s c (fun k => { k with st := .retired })
  let s := if (coreOf s c).st == .spare then t else harvestChanged t
  let s := modCraze s (fun z =>
    { z with coresRetired := sat z.coresRetired 1
             coreMap := listModify (fun m => m ||| BitVec.ofNat 64 (2 ^ (c % 64))) z.coreMap (c / 64) })
  noteRepair s (unitCore c) (repairCore c)

-- Recoveries (Table 17-2)

/-- The unit that a recovery interrupts. -/
def recUnit : Recovery → Nat
  | .xlLane n _ _ => unitPort n.val
  | .dlLane _ _ _ => unitDerset
  | .dqLane ch _ => unitChannel ch.val
  | .caLane ch _ => unitChannel ch.val
  | .row ch _ _ => unitChannel ch.val
  | .failover c => unitScc c

/-- The firing-log code of a recovery. -/
def recCode : Recovery → Nat
  | .xlLane _ _ _ => 0x01
  | .dlLane _ _ _ => 0x02
  | .dqLane _ _ => 0x03
  | .caLane _ _ => 0x03
  | .row _ _ _ => 0x04
  | .failover _ => 0x05

/-- The same fault: the same lane or row of the same unit (R418). -/
def sameFault : Recovery → Recovery → Bool
  | .xlLane n l _, .xlLane n' l' _ => n == n' && l == l'
  | .dlLane r l _, .dlLane r' l' _ => r == r' && l == l'
  | .dqLane c l, .dqLane c' l' => c == c' && l == l'
  | .caLane c l, .caLane c' l' => c == c' && l == l'
  | .row c b r, .row c' b' r' => c == c' && b == b' && r == r'
  | .failover c, .failover c' => c == c'
  | _, _ => false

/-- The recovery answers a loss of lock. -/
def isLoss : Recovery → Bool
  | .xlLane _ _ b => b
  | .dlLane _ _ b => b
  | _ => false

/-- A fault escalates to a domain stop (R418). Table 09-5 has no row for it, so the cause in the log is a free value. -/
def escalate (s : State) (code : Nat) : State :=
  let s := logEvent s 0x12 4 noPart unitDevice 0 code
  let r := takeFree s
  domainStop r.2 ((Config.freeWord r.1 0).toNat % 256) 0 false

/-- A spare lane's byte of MS_CH_REPAIR: mapped, with the index of the lane it replaces. -/
def spareByte (i : Nat) : BitVec 8 := BitVec.ofNat 8 (128 + i)

/-- Lane group and index of a DQ lane (R149). -/
def dqGroup (lane : Nat) : Nat := if lane < 128 then lane / 32 else (lane - 128) / 4
def dqIndex (lane : Nat) : Nat := if lane < 128 then lane % 32 else 32 + (lane - 128) % 4

def dqMapped (c : Channel) (g : Nat) : Bool := (c.dqSpare.getD g 0).getLsbD 7

def mapDq (c : Channel) (lane : Nat) : Channel :=
  { c with dqSpare := listSet c.dqSpare (dqGroup lane) (spareByte (dqIndex lane)) }

def caMapped (c : Channel) (lane : Nat) : Bool := if lane < 9 then c.caSpare0.getLsbD 7 else c.caSpare1.getLsbD 7

def mapCa (c : Channel) (lane : Nat) : Channel :=
  if lane < 9 then { c with caSpare0 := spareByte lane } else { c with caSpare1 := spareByte (lane - 9) }

/-- The recovery interrupts its unit; the spare of a retrained lane's group is mapped (R151, step 2). -/
def startRecovery (s : State) (r : Recovery) : State :=
  let s := { s with ras := { s.ras with running := some r } }
  let hold (ch : ChanId) (f : Channel → Channel) : State :=
    modChan s ch.val (fun c => if c.st == .owned || c.st == .free then { f c with st := .retrain } else c)
  match r with
  | .xlLane n _ _ => modPort s n.val (fun p => if p.st == .up then { p with st := .swap } else p)
  | .dlLane _ _ _ => if s.dl.st == .up then { s with dl := { s.dl with st := .swap } } else s
  | .dqLane ch i => hold ch (fun c => mapDq c i)
  | .caLane ch i => hold ch (fun c => mapCa c i)
  | .row ch _ _ => hold ch (fun c => c)
  | .failover _ => s

/-- A link that has lost lock sends no message flits while its recovery is queued (R416). -/
def stopLink (s : State) (r : Recovery) : State :=
  if isLoss r then
    match r with
    | .xlLane n _ _ => modPort s n.val (fun p => { p with stopped := true })
    | .dlLane _ _ _ => { s with dl := { s.dl with stopped := true } }
    | _ => s
  else s

/-- A recovery starts, or joins the queue. -/
def addRecovery (s : State) (r : Recovery) : State :=
  match s.ras.running with
  | none => startRecovery s r
  | some _ => stopLink { s with ras := { s.ras with queue := s.ras.queue ++ [r] } } r

/-- A fault of Table 17-2 is detected: it is recovered, or it escalates (R415, R416, R418). A second fault of a port in
a swap also puts the port in DOWN (R341). -/
def detect (s : State) (r : Recovery) : State :=
  match (recoveries s).find? (fun x => recUnit x == recUnit r) with
  | some x =>
    if sameFault x r then stopLink s r
    else
      let s := escalate s (recCode x)
      match r with
      | .xlLane n _ _ => if (portOf s n.val).st == .swap then portFall s n.val .down else s
      | _ => s
  | none => match s.ras.running with
    | some x => if 8 ≤ s.ras.queue.length then escalate s (recCode x) else addRecovery s r
    | none => addRecovery s r

/-- The state of a channel after a recovery: its saggar's, or FREE. -/
def endRetrain (c : Channel) : Channel :=
  if c.st == .retrain then { c with st := if c.partition.isSome then .owned else .free } else c

/-- Remaps of a bank. -/
def bankRemaps (c : Channel) (bank : Nat) : Nat := (c.remaps.filter (fun x => x.1 == bank)).length

/-- Step 3 of a retrain reads the first 64 KiB of the channel and writes nothing (R151): a burst without an error changes nothing. -/
def verifyReads (s : State) (ch : ChanId) : State :=
  (errLines s (fun l => lineChan l == ch.val && lineOfs l < 65536)).foldl (fun t l => (burstRead t l none noErr).1) s

/-- One of those bursts shows an error on a lane. -/
def laneShows (s : State) (ch : ChanId) (lane : Nat) : Bool :=
  (errLines s (fun l => lineChan l == ch.val && lineOfs l < 65536)).any (fun l => (burstErrs s l).any (fun e => e.lane.val == lane))

/-- The copy of a row to its spare, correcting on the way (R152, R423). -/
def copyRow (s : State) (ch : ChanId) (bank row : Nat) : State :=
  (errLines s (fun l => lineChan l == ch.val && ofsBank (lineOfs l) == bank && ofsRow (lineOfs l) == row)).foldl
    (fun t l => let r := burstRead t l none noErr; rewriteBurst r.1 l r.2) s

/-- What a recovery reads and copies in its channel before it ends. -/
def recoveryReads (s : State) : Recovery → State
  | .dqLane ch _ => verifyReads s ch
  | .caLane ch _ => verifyReads s ch
  | .row ch b w => copyRow s ch b w
  | _ => s

/-- A retrain whose verification shows an error on the retrained lane has failed. -/
def recoverySound (s : State) : Recovery → Bool
  | .dqLane ch i => !(laneShows s ch i)
  | _ => true

/-- The recovery waits: its channel's stack is in STOP and gives no bank access (R156). -/
def recoveryWaits (s : State) (r : Recovery) : Bool :=
  let stop (ch : ChanId) : Bool := (stackOf s (ch.val / 16)).throttle == .stop
  match r with
  | .dqLane ch _ => stop ch
  | .caLane ch _ => stop ch
  | .row ch _ _ => stop ch
  | _ => false

/-- A recovery has succeeded: the spare serves, and the event is logged. -/
def recovered (s : State) (r : Recovery) : State :=
  let note (t : State) (d0 d1 : Nat) : State := logEvent t (recCode r) 1 noPart (recUnit r) d0 d1
  let lane (ch : ChanId) (i : Nat) : State :=
    if (chanOf s ch.val).st == .retrain then
      note (modChan s ch.val (fun c =>
        { endRetrain c with retrained := true, retrainCount := sat c.retrainCount 1 })) i 0
    else s
  match r with
  | .xlLane n i _ =>
    if (portOf s n.val).st == .swap then
      note (resumePort (modPort s n.val (fun p =>
        { p with st := .up, stopped := false, sparesUsed := p.sparesUsed + 1, swapCount := sat p.swapCount 1 })) n.val) i 0
    else s
  | .dlLane rx i _ =>
    if s.dl.st == .swap then
      note (dlResume { s with dl := { s.dl with
        st := .up, stopped := false, swapped := true, swapCount := sat s.dl.swapCount 1
        sparesRx := if rx then s.dl.sparesRx + 1 else s.dl.sparesRx
        sparesTx := if rx then s.dl.sparesTx else s.dl.sparesTx + 1 } }) i 0
    else s
  | .dqLane ch i => lane ch i
  | .caLane ch i => lane ch i
  | .row ch b w =>
    if (chanOf s ch.val).st == .retrain then
      match addRepair s (repairRow ch.val b w) with
      | none => logEvent (modChan s ch.val endRetrain) 0x09 7 noPart (recUnit r) 0 0
      | some s =>
        let s := modChan s ch.val (fun c =>
          { endRetrain c with remaps := c.remaps ++ [(b, w)], remapped := c.remapped + 1
                              candidates := c.candidates.filter (· != (b, w)) })
        let s := modCraze s (fun z => { z with rowsRemapped := sat z.rowsRemapped 1 })
        logEvent s 0x04 1 noPart (recUnit r) (b * 65536 + w) 0
    else s
  | .failover c =>
    let role := ((s.ras.sccs.getD c {}).role).getD 0
    let sccs := s.ras.sccs.zipIdx.map (fun p =>
      if p.2 == c then { p.1 with role := none }
      else if !p.1.failed && p.1.role.isNone then { p.1 with role := some role }
      else p.1)
    let s := { s with ras := { s.ras with sccs } }
    note (modCraze s (fun z => { z with failovers := sat z.failovers 1 })) 0 role

/-- A recovery has failed (R418): a port or the link in its swap leaves service. -/
def failRecovery (s : State) (r : Recovery) : State :=
  let s := escalate s (recCode r)
  match r with
  | .xlLane n _ _ => if (portOf s n.val).st == .swap then portFall s n.val .down else s
  | .dlLane _ _ _ => if s.dl.st == .swap then linkFall s else s
  | _ => s

/-- RECOVERY_START: the recovery that runs ends, with or without success, and the next queued one starts (R416). -/
def execRecoveryStart (ok : Bool) (s : State) : Host.Outcome State Fault Refusal :=
  .next (match s.ras.running with
    | none => s
    | some r =>
      if recoveryWaits s r then s else
      let ok := ok && recoverySound s r
      let s := { s with ras := { s.ras with running := none } }
      let s := recoveryReads (match r with
        | .failover _ => releaseLog s
        | _ => s) r
      let s := if ok then
          (let t := recovered s r
           { t with ras := { t.ras with recoveryCount := sat t.ras.recoveryCount 1 } })
        else failRecovery s r
      match s.ras.queue with
      | [] => s
      | q :: qs => startRecovery { s with ras := { s.ras with queue := qs } } q)

/-- SCC_FAILOVER: a service control core has failed (R420). The failure of the core that runs the recovery queue during a
recovery, and one without a standby, escalate. -/
def execSccFailover (c : Fin 4) (s : State) : Host.Outcome State Fault Refusal :=
  let k := s.ras.sccs.getD c.val {}
  .next (
    if k.failed then s
    else
      let s1 := { s with ras := { s.ras with sccs := listModify (fun x => { x with failed := true }) s.ras.sccs c.val } }
      match k.role with
      | none => { s1 with ras := { s1.ras with standby := false } }
      | some role =>
        if !s.ras.standby then escalate s1 0x05
        else
          let s1 := { s1 with ras := { s1.ras with standby := false } }
          match s.ras.running with
          | some x => if role == 1 then escalate s1 (recCode x) else detect s1 (.failover c.val)
          | none => detect s1 (.failover c.val))

/-- A failover runs or waits. -/
def failingOver (s : State) : Bool := (recoveries s).any (fun r => match r with
  | .failover _ => true
  | _ => false)

end Sys2Proof.Machine
end

