-- ==== Sys2Proof/Machine/Stacks.lean ====
section
/-!
DEFINITION. The memory stacks' own events (spec/05): in-service retrain, row remap, patrol, refresh, sensors and throttle,
key slots, channel configuration, and the traffic generator.
-/
namespace Sys2Proof.Machine

open Sys2Proof

-- Retrain and remap (R151, R152, R423)

/-- Retrains a lane whose group has a spare; without one the event is logged (R151). -/
def retrain (s : State) (ch : ChanId) (free : Bool) (r : Recovery) : State :=
  if free || (recoveries s).contains r then detect s r else logEvent s 0x09 7 noPart (unitChannel ch.val) 0 0

/-- Errors go on for 24 powered hours on a lane whose group has no spare: retirement is advised (R424). -/
def bareLane (s : State) (ch : ChanId) (lane : Nat) : State :=
  let now := s.ras.craze.poweredS.toNat
  match (chanOf s ch.val).bareLanes.find? (fun x => x.1 == lane) with
  | none => modChan s ch.val (fun c => { c with bareLanes := c.bareLanes ++ [(lane, now)] })
  | some x =>
    if x.2 + 86400 ≤ now then
      logEvent (modChan s ch.val (fun c => { c with bareLanes := c.bareLanes.filter (fun y => y.1 != lane) }))
        0x15 7 noPart (unitChannel ch.val) 0 0
    else s

/-- Corrections on a lane have reached RETRAIN_THRESH within 1 s, or CA parity errors their four (R151). -/
def retrainDue (c : Channel) (now : Nat) : RetrainCause → Bool
  | .dq lane => c.retrainThresh != 0 && c.retrainThresh.toNat ≤ laneCount c now lane.val
  | .ca _ => 4 ≤ (c.parityErrs.filter (· == now)).length

/-- The count that has brought a retrain about starts anew. -/
def countAnew (c : Channel) : RetrainCause → Channel
  | .dq lane => { c with laneErrs := c.laneErrs.filter (fun e => e.1 != lane.val) }
  | .ca _ => { c with parityErrs := [] }

/-- IN_SERVICE_RETRAIN: the channel's counts call for a retrain. -/
def execInServiceRetrain (ch : ChanId) (cause : RetrainCause) (s : State) : Host.Outcome State Fault Refusal :=
  let c := chanOf s ch.val
  .next (
    if !(c.st == .owned || c.st == .retrain) || !(retrainDue c s.ras.craze.poweredS.toNat cause) then s
    else
      let s := modChan s ch.val (fun c => countAnew c cause)
      match cause with
      | .dq lane =>
        let free := !(dqMapped c (dqGroup lane.val))
        retrain (if free then s else bareLane s ch lane.val) ch free (.dqLane ch lane.val)
      | .ca lane => retrain s ch (!(caMapped c lane.val)) (.caLane ch lane.val))

/-- The spare rows of a bank and the channel's remap entries leave room (R152). -/
def rowSpare (c : Channel) (bank : Nat) : Bool := bankRemaps c bank < 16 && c.remapped < 1024

/-- ROW_REMAP: service firmware takes up a candidate row (R423). -/
def execRowRemap (ch : ChanId) (bank : Fin 64) (row : Fin 32768) (s : State) : Host.Outcome State Fault Refusal :=
  let c := chanOf s ch.val
  let r : Recovery := .row ch bank.val row.val
  .next (
    if !(c.candidates.contains (bank.val, row.val)) || !(c.st == .owned || c.st == .free || c.st == .retrain) then s
    else if (recoveries s).contains r then s
    else if rowSpare c bank.val then
      if s.ras.repair.length < 327680 then detect s r else logEvent s 0x09 7 noPart (unitChannel ch.val) 0 0
    else logEvent (logEvent s 0x09 7 noPart (unitChannel ch.val) 0 0) 0x15 7 noPart (unitChannel ch.val) 0 0)

-- Patrol and refresh (R145, R154)

/-- PATROL_SCRUB: patrol reads a burst and writes back what it corrects; an uncorrectable burst stays and is charged to no
context. -/
def execPatrolScrub (l : LineId) (env : MemEnv) (s : State) : Host.Outcome State Fault Refusal :=
  let p := lineChan l.toNat
  .next (
    if (chanOf s p).patrol && chanServes s p then
      let r := burstRead s l.toNat none env
      rewriteBurst r.1 l.toNat r.2
    else s)

/-- REFRESH: a command of 8 rows of a bank, in every throttle state and in RETRAIN. -/
def execRefresh (ch : ChanId) (bank : Fin 64) (s : State) : Host.Outcome State Fault Refusal :=
  let c := chanOf s ch.val
  .next (
    if c.st == .free || c.st == .owned || c.st == .retrain then
      setChan s ch.val { c with refreshed := tblSet 0 c.refreshed bank.val ((tblGet 0 c.refreshed bank.val + 1) % 4096) }
    else s)

-- Zeroing a channel (R142, R148)

/-- Every data byte of a channel written with zero, and no burst in error. -/
def zeroChannel (s : State) (p : Nat) : State :=
  modChan { s with dram := memZero s.dram (p * 2 ^ 32) ((p + 1) * 2 ^ 32), symErrs := s.symErrs.filter (fun e => lineChan e.1 != p) } p
    (fun c => { c with zeroDue := false, addrPattern := false })

/-- A stack that is not in STOP zeroes the channels of which it was held back. -/
def zeroDue (s : State) (st : Nat) : State :=
  ((List.range 16).map (fun c => 16 * st + c)).foldl (fun t p => if (chanOf t p).zeroDue then zeroChannel t p else t) s

-- Sensors and throttle (R155, R156)

/-- A reading in sixteenths of a degree. -/
def tempOf (r : BitVec 16) : Int := r.toInt

/-- A reading is implausible: out of range, or more than 10 °C from the sensor's previous sample. -/
def implausible (lo hi step : Int) (prev : Option (BitVec 16)) (r : BitVec 16) : Bool :=
  tempOf r < lo * 16 || hi * 16 < tempOf r ||
  (match prev with
    | some q => step * 16 < (tempOf r - tempOf q).natAbs
    | none => false)

/-- The greatest of a list of readings. -/
def hottest : List (BitVec 16) → Option (BitVec 16)
  | [] => none
  | r :: rs => some (rs.foldl (fun m x => if tempOf m < tempOf x then x else m) r)

/-- Table 05-4. -/
def nextThrottle (cur : Throttle) (t : Int) : Throttle :=
  if 105 * 16 ≤ t then .stop
  else match cur with
  | .stop => if t ≤ 100 * 16 then .half else .stop
  | .half => if t < 98 * 16 then .actCap else .half
  | .actCap => if 100 * 16 ≤ t then .half else if t < 90 * 16 then .none else .actCap
  | .none => if 100 * 16 ≤ t then .half else if 92 * 16 ≤ t then .actCap else .none

def throttleRank : Throttle → Nat
  | .none => 0
  | .actCap => 1
  | .half => 2
  | .stop => 3

def throttleMax (a b : Throttle) : Throttle := if throttleRank a < throttleRank b then b else a

/-- Layer sensors of a fault mask. -/
def layerFaults (m : BitVec 17) : Nat := ((List.range 16).filter (fun i => m.getLsbD i)).length

/-- The least throttle that implausible layer sensors hold. -/
def faultHold (n : Nat) : Throttle := if 16 ≤ n then .stop else if 3 ≤ n then .half else .none

/-- STACK_SENSOR_SAMPLE: a stack samples its 16 layers and its base die. -/
def execStackSensorSample (st : StackId) (readings : List (BitVec 16)) (s : State) : Host.Outcome State Fault Refusal :=
  let k := stackOf s st.val
  let bad (i : Nat) : Bool := implausible (-40) 150 10 k.readings[i]? (readings.getD i 0)
  .next (
    if readings.length != 17 then s
    else
      let mask : BitVec 17 := BitVec.ofNat 17 (((List.range 17).filter bad).foldl (fun m i => m + 2 ^ i) 0)
      let temp := (hottest (((List.range 16).filter (fun i => !(bad i))).map (fun i => readings.getD i 0))).getD k.temp
      let n := layerFaults mask
      let hold := faultHold n
      let cur := if n < 16 then nextThrottle k.throttle (tempOf temp) else k.throttle
      let th := throttleMax cur hold
      let stop := th == .stop && k.throttle != .stop
      let s := modStack s st.val (fun k => { k with
        readings, sensorFault := mask, temp, throttle := th, overtemp := k.overtemp || stop
        stopCount := if stop then sat k.stopCount 1 else k.stopCount })
      let s := if throttleRank (faultHold (layerFaults k.sensorFault)) < throttleRank hold then
          logEvent s 0x0C 7 noPart unitDevice 0 0 else s
      let s := if th == .stop then s else zeroDue s st.val
      if stop then logEvent s 0x0D 7 noPart (unitStack st.val) 0 0 else s)

-- Key slots (R147)

/-- OLD_KEY_SLOT_ERASE. -/
def execOldKeySlotErase (ch : ChanId) (s : State) : Host.Outcome State Fault Refusal :=
  .next (modChan s ch.val (fun c => { c with oldTag := none }))

-- Configuration (R142, Table 05-11)

def chCfgWord (c : Channel) : W64 :=
  BitVec.ofNat 64 (c.retrainThresh.toNat * 256 + boolNat c.patrol * 4 + boolNat c.strong)

/-- MS_CH_CFG written: a change of ECC_MODE acts only on a FREE channel, which it zeroes, in STOP once that ends. -/
def execMsChCfgWrite (ch : ChanId) (be : BitVec 8) (w : W64) (s : State) : Host.Outcome State Fault Refusal :=
  let c := chanOf s ch.val
  let v := mergeBytes (chCfgWord c) be w
  let mode := field v 0 2
  let s1 := modChan s ch.val (fun c => { c with retrainThresh := BitVec.ofNat 8 (field v 8 8), patrol := bit v 2 })
  .next (
    if c.st == .free && mode < 2 && (mode == 1) != c.strong then
      let s2 := modChan s1 ch.val (fun c => { c with strong := mode == 1, zeroDue := true })
      if (stackOf s2 (ch.val / 16)).throttle == .stop then s2 else zeroChannel s2 ch.val
    else s1)

-- The traffic generator (R159 to R161)

def testWindow (s : State) (p : Nat) : Bool := s.pt.windows.any (fun x => x.val == p)

/-- The request of a start is accepted. -/
def tgAccepts (s : State) (p : Nat) : Bool :=
  let c := chanOf s p
  (c.st == .free || testWindow s p) &&
  (!(testWindow s p) || c.tg.pattern == 4 || c.tg.pattern == 5) &&
  c.tg.first.toNat ≤ c.tg.last.toNat && (c.tg.last.toNat + 1) * 2048 ≤ chanCap c && c.tg.pattern.toNat < 6 && !c.tg.busy

/-- TG_START. -/
def execTgStart (ch : ChanId) (s : State) : Host.Outcome State Fault Refusal :=
  .next (
    if tgAccepts s ch.val then
      modChan s ch.val (fun c => { c with tg := { c.tg with
        busy := true, runPattern := c.tg.pattern, runFirst := c.tg.first, runLast := c.tg.last
        runSeed := if c.tg.seed == 0 then 1 else c.tg.seed, runPasses := c.tg.passes } })
    else modChan s ch.val (fun c => { c with tg := { c.tg with rejected := true, rejectCount := sat c.tg.rejectCount 1 } }))

/-- What training wrote into the banks stands there as other data from now on. -/
def settlePattern (s : State) (p : Nat) : State :=
  if (chanOf s p).addrPattern then
    modChan { s with dram := memWrite s.dram (p * 2 ^ 32) ((List.range (2 ^ 20)).map addrByte) } p (fun c => { c with addrPattern := false })
  else s

/-- First offset and bytes of the run in progress. -/
def tgRange (g : TrafficGen) : Nat × Nat := (g.runFirst.toNat * 2048, (g.runLast.toNat + 1) * 2048 - g.runFirst.toNat * 2048)

/-- A line of a channel lies in the run's range. -/
def tgCovers (g : TrafficGen) (p l : Nat) : Bool :=
  lineChan l == p && (tgRange g).1 ≤ lineOfs l && lineOfs l < (tgRange g).1 + (tgRange g).2

/-- The bytes that a writing run leaves in its range: of ADDR each 8 B word holds its channel offset; of the others, and of a
run cut short, the manual does not give them byte by byte. A burst that the run has written holds no error any more (R143); which
ones a run cut short has written is open. -/
def tgWrites (s : State) (p : Nat) (whole : Bool) : State :=
  let g := (chanOf s p).tg
  let x := tgRange g
  if 4 ≤ g.runPattern.toNat then s
  else
    let r := takeFree (settlePattern s p)
    let byte (i : Nat) : Byte := if whole && g.runPattern == 0 then addrByte (x.1 + i) else Config.freeByte r.1 i
    let kept (l : Nat) : Bool := !(tgCovers g p l) || (!whole && (Config.freeByte r.1 l).getLsbD 0)
    { r.2 with
      dram := memWrite r.2.dram (p * 2 ^ 32 + x.1) ((List.range x.2).map byte)
      symErrs := r.2.symErrs.filter (fun e => kept e.1) }

/-- What a run leaves in the generator's registers as it ends. -/
def tgReport (c : Channel) (r : TgResult) (done : Bool) : TrafficGen :=
  let g := { c.tg with busy := false, done := c.tg.done || done, doneCount := if done then sat c.tg.doneCount 1 else c.tg.doneCount }
  if g.runPattern.toNat < 4 && 0 < r.mismatches then
    { g with mismatch := true, mismatchCount := sat g.mismatchCount r.mismatches, firstOffset := r.firstOffset, firstLane := r.firstLane }
  else if g.runPattern == 5 then { g with blocks := r.blocks, elapsed := r.elapsed }
  else g

/-- Reads of READ_ECC in which the check bits show something: counted as R141 and R143 give. -/
def tgReads (s : State) (p : Nat) (ls : List (Nat × LineEnv)) : State :=
  ls.foldl (fun t x => (burstRead t (mkLine p (x.1 * 128)) none { noErr with line := x.2 }).1) s

/-- The reads of READ_ECC: the bursts in which something arose, and, of a whole run, every other burst with an error, once a pass. -/
def eccReads (s : State) (p : Nat) (r : TgResult) (whole : Bool) : List (Nat × LineEnv) :=
  let g := (chanOf s p).tg
  let seen := r.bursts.map (fun x => (x.1.toNat, x.2))
  let rest (l : Nat) : List (Nat × LineEnv) :=
    let b := lineOfs l / 128
    List.replicate (g.runPasses.toNat - (seen.filter (fun x => x.1 == b)).length) (b, cleanLine)
  if whole then seen ++ (errLines s (tgCovers g p)).flatMap rest else seen

/-- A run ends, whole or cut short, with what it has found. -/
def tgEnd (s : State) (p : Nat) (r : TgResult) (whole : Bool) : State :=
  let reads := if (chanOf s p).tg.runPattern == 4 then eccReads s p r whole else []
  tgReads (modChan (tgWrites s p whole) p (fun c => { c with tg := tgReport c r whole })) p reads

/-- What a run has found that is aborted without a word of its result: open, within its range. -/
def openResult (s : State) (p : Nat) : State × TgResult :=
  let g := (chanOf s p).tg
  let x := tgRange g
  let f := takeFree s
  let n (i bound : Nat) : Nat := (Config.freeWord f.1 i).toNat % (bound + 1)
  let b (l : Nat) : BitVec 25 := BitVec.ofNat 25 (lineOfs l / 128)
  (f.2, { mismatches := n 0 (x.2 / 128), firstOffset := BitVec.ofNat 32 (x.1 + n 1 (x.2 / 128 - 1) * 128), firstLane := BitVec.ofNat 8 (n 2 143)
          bursts := ((errLines s (tgCovers g p)).filter (fun l => (Config.freeByte f.1 l).getLsbD 0)).map (fun l => (b l, cleanLine))
          blocks := BitVec.ofNat 24 (n 3 (x.2 / 2048)), elapsed := BitVec.ofNat 32 (n 4 (2 ^ 32 - 1)) })

/-- A running generator is aborted by a claim of its channel or the end of its window; its result and its status stay readable
(R160, R370). -/
def tgStop (s : State) (p : Nat) : State :=
  if (chanOf s p).tg.busy then (let r := openResult s p; tgEnd r.1 p r.2 false) else s

/-- TG_ABORT: the run stops with what it has found. -/
def execTgAbort (ch : ChanId) (r : TgResult) (s : State) : Host.Outcome State Fault Refusal :=
  .next (if (chanOf s ch.val).tg.busy then tgEnd s ch.val r false else s)

/-- The generator may go on: its channel is FREE or under test, and its stack gives bank accesses (R133, R156, R370). -/
def tgRuns (s : State) (p : Nat) : Bool :=
  ((chanOf s p).st == .free || testWindow s p) && (stackOf s (p / 16)).throttle != .stop

/-- TG_RUN_COMPLETE: a run has made its passes. -/
def execTgRunComplete (ch : ChanId) (r : TgResult) (s : State) : Host.Outcome State Fault Refusal :=
  let g := (chanOf s ch.val).tg
  .next (if g.busy && g.runPasses != 0 && tgRuns s ch.val then tgEnd s ch.val r true else s)

end Sys2Proof.Machine
end

