-- ==== Sys2Proof/Machine/Xator.lean ====
section
/-!
DEFINITION. The Xator ports, slices, cone counters, link engines and packets (spec/13), and the accumulate path's updates
(R173, R356).
-/
namespace Sys2Proof.Machine

open Sys2Proof

-- Flits (R338, R339, R417)

/-- A recovery of the unit runs or is queued. -/
def inRecovery (s : State) (unit : Nat) : Bool := (recoveries s).any (fun r => recUnit r == unit)

/-- How often a flit has now been replayed in succession. -/
def replayRun (last : Option (BitVec 12 × Nat)) (seq : BitVec 12) : Nat := match last with
  | some x => if x.1 == seq then x.2 + 1 else 1
  | none => 1

/-- The other side asks for a replay from a flit, which is sent again with those behind it; the sixteenth in succession of one flit
puts the port in DOWN. -/
def portReplay (s : State) (n : Nat) (seq : BitVec 12) : State :=
  let k := replayRun (portOf s n).replayed seq
  let s := crazeError (modPort s n (fun p => { p with replayCount := sat p.replayCount 1, replayed := some (seq, k) })) 5 1
  if 16 ≤ k && !(inRecovery s (unitPort n)) then portFall s n .down else replayFrom s n seq

/-- Asks for a replay from the flit that is next; a request takes no place in the sequence of flits. -/
def askReplay (p : XlPort) : XlPort :=
  { p with tx := p.tx ++ [{ seq := p.txSeq, acked := p.rxSeq - 1, credits := [], body := .replay p.rxSeq }] }

/-- What a flit acknowledges. -/
def takeAck (p : XlPort) (acked : BitVec 12) : XlPort :=
  { p with acked, replayed := if acked != p.acked then none else p.replayed }

/-- The credits that a flit returns. -/
def takeCredits (p : XlPort) (cs : List (Nat × Nat)) : XlPort :=
  { p with used := cs.foldl (fun u c => listModify (fun x => x - c.2) u c.1) p.used }

/-- The body of a flit in sequence: whole packets, or a message of CTL, enter the input buffer. -/
def takeBody (p : XlPort) : XlBody → XlPort
  | .units bs =>
    let r := takePackets 64 (p.rxBytes ++ bs)
    { p with rxBytes := r.2, input := p.input ++ r.1.map .packet }
  | .sliceStop id origin cause => { p with input := p.input ++ [.sliceStop id origin cause] }
  | .replay _ => p

/-- XL_FLIT_RECEIVE: a good flit in sequence is taken, with what it acknowledges and the credits it returns; at a wrong one a replay
is requested; later ones are discarded. -/
def execXlFlitReceive (n : PortId) (bs : List Byte) (s : State) : Host.Outcome State Fault Refusal :=
  let p := portOf s n.val
  .next (
    if !(portServes p || p.st == .test) then s
    else match parseFlit bs with
    | none => modPort s n.val askReplay
    | some f => match f.body with
      | .replay seq => portReplay (modPort s n.val (fun p => takeAck p f.acked)) n.val seq
      | b =>
        if f.seq != p.rxSeq then s
        else
          pumpPort (modPort s n.val (fun p =>
            takeBody (takeCredits (takeAck { p with rxSeq := p.rxSeq + 1 } f.acked) f.credits) b)) n.val)

/-- XL_LANE_SWAP: a receive lane has lost lock or reached SWAP_THRESH (R341). -/
def execXlLaneSwap (n : PortId) (lane : Fin 34) (cause : SwapCause) (s : State) : Host.Outcome State Fault Refusal :=
  let p := portOf s n.val
  let r : Recovery := .xlLane n lane.val (cause == .lossOfLock)
  .next (
    if !(portServes p) || (cause == .threshold && p.swapThresh == 0) then s
    else if 2 ≤ p.sparesUsed && !(inRecovery s (unitPort n.val)) then portFall s n.val .down
    else detect s r)

-- Training and the cabling check (R342, R343)

/-- The slot of a coordinate. -/
def slotOf (c : Coord) : Nat := coordX c % 4 + 4 * coordY c + 16 * coordZ c

/-- The module at the other end of a port's wire: Y and Z wrap inside the rack, X with XWRAP. -/
def wireNeighbour (s : State) (n : Nat) : Option Coord :=
  neighbour s { wx := s.xl.xwrap, wy := true, wz := true } n s.xl.coord

/-- The identity that this module sends through a port (R343). -/
def ownIdentity (s : State) (n : Nat) : PeerId :=
  { vendor := 0x4E47, part := 0x0940, rack := s.xl.rackSerial, slot := BitVec.ofNat 6 (slotOf s.xl.coord), port := BitVec.ofNat 3 n
    coord := s.xl.coord }

/-- The transmitter of a port out of service is looped to its own receiver (R344): what it receives is what it sends. -/
def loopsBack (p : XlPort) : Bool := p.loopback && !(portServes p)

/-- The identity is this module's. -/
def isSelf (s : State) (i : PeerId) : Bool :=
  i.vendor == 0x4E47 && i.part == 0x0940 && i.rack == s.xl.rackSerial && i.slot.toNat == slotOf s.xl.coord && i.coord == s.xl.coord

/-- The identity is the one that a plan names. -/
def isPlanned (p : PlanReg) (i : PeerId) : Bool := i.rack == p.rack && i.slot == p.slot && i.port == p.port

/-- The first row of Table 13-2 that applies. -/
def cablingResult (s : State) (n : Nat) (peer : Option PeerId) : Nat :=
  let plan := (portOf s n).plan
  match peer with
  | none => 1
  | some i =>
    if plan.mode == 1 && isSelf s i then 2
    else if plan.mode == 2 && isSelf s i && i.port.toNat == n then 3
    else if plan.mode == 1 && isPlanned plan i && i.vendor == 0x4E47 && i.part == 0x0940 && some i.coord == wireNeighbour s n then 3
    else if (List.range 6).any (fun m => m != n && isPlanned (portOf s m).plan i) then 4
    else 5

/-- A training step has failed. -/
def trainFail (s : State) (n step : Nat) : State :=
  logEvent (modPort s n (fun p => { p with st := .trainFail, failStep := BitVec.ofNat 3 step })) 0x11 7 noPart (unitPort n) 0 step

/-- Step 6: the result, and with it the port's state; a link in service starts with every credit. -/
def checkCabling (s : State) (n : Nat) (peer : Option PeerId) : State :=
  let res := cablingResult s n peer
  let s := modPort s n (fun p => { p with result := BitVec.ofNat 3 res })
  if res == 3 then modPort s n (fun p => { initLink p with st := if p.plan.mode == 2 then .test else .up })
  else logEvent (modPort s n (fun p => { p with st := .checkFail })) 0x0E 7 noPart (unitPort n) 0 res

/-- A port trains, step by step; with a step that hangs it stays in TRAINING until that step's timeout. Step 3 maps failing lanes
to spares, and step 5 sends the module's identity and shows the one received. -/
def trainPort (s : State) (n : Nat) (t : PortTrain) : State :=
  let peer := if loopsBack (portOf s n) then some (ownIdentity s n) else t.peer
  let past (k : Nat) : Bool := match t.timeoutStep with
    | none => true
    | some h => k ≤ h.val
  let s := modPort s n (fun p => { p with st := .training, failStep := 0, result := 0 })
  if !(past 3) then s
  else if 2 < t.badLanes then trainFail s n 3
  else
    let s := modPort s n (fun p => { p with sparesUsed := t.badLanes })
    if !(past 4) then s
    else
      let s := modPort s n (fun p => { p with sentId := some (ownIdentity s n) })
      if !(past 5) then s
      else
        let s := modPort s n (fun p => { p with peer := match peer with
          | some i => { mode := 0, port := i.port, slot := i.slot, rack := i.rack }
          | none => {} })
        if !(past 6) then s else checkCabling s n peer

/-- The port may train (R342, R464). -/
def mayTrain (s : State) (n : Nat) : Bool :=
  let p := portOf s n
  ready s && (p.plan.mode == 1 || p.plan.mode == 2) && !(portServes p) && p.st != .retired

/-- XL_PORT_TRAIN: a 1 written to TRAIN. -/
def execXlPortTrain (n : PortId) (t : PortTrain) (s : State) : Host.Outcome State Fault Refusal :=
  .next (if mayTrain s n.val then trainPort s n.val t else s)

/-- XL_TRAIN_STEP_TIMEOUT. -/
def execXlTrainStepTimeout (n : PortId) (step : Fin 6) (s : State) : Host.Outcome State Fault Refusal :=
  .next (if (portOf s n.val).st == .training then trainFail s n.val (step.val + 1) else s)

/-- XL_PORT_RETIRE (R344, R9, R422). -/
def execXlPortRetire (n : PortId) (s : State) : Host.Outcome State Fault Refusal :=
  .next (
    if (portOf s n.val).st == .retired then s
    else
      let s := harvestChanged (portFall s n.val .retired)
      let s := modCraze s (fun z => { z with portsRetired := z.portsRetired ||| BitVec.ofNat 8 (2 ^ n.val) })
      noteRepair s (unitPort n.val) (repairPort n.val))

-- XL_PLAN and XL_TOPO

def planWord (p : PlanReg) : W64 :=
  BitVec.ofNat 64 (p.mode.toNat * 2 ^ 62 + p.port.toNat * 2 ^ 48 + p.slot.toNat * 2 ^ 32 + p.rack.toNat)

/-- The plan that a written word gives: a field out of its range is left unchanged (R474). -/
def planOf (old : PlanReg) (w : W64) : PlanReg :=
  { mode := if field w 62 2 == 3 then old.mode else BitVec.ofNat 2 (field w 62 2)
    port := if 6 ≤ field w 48 3 then old.port else BitVec.ofNat 3 (field w 48 3)
    slot := BitVec.ofNat 6 (field w 32 6), rack := BitVec.ofNat 32 (field w 0 32) }

/-- XL_PLAN written: a change starts training again (R343), of a port that has trained and may train. -/
def execXlPlanWrite (n : PortId) (be : BitVec 8) (w : W64) (t : PortTrain) (s : State) : Host.Outcome State Fault Refusal :=
  let p := portOf s n.val
  let plan := planOf p.plan (mergeBytes (planWord p.plan) be w)
  let s1 := modPort s n.val (fun p => { p with plan })
  .next (if plan != p.plan && p.st != .unused && mayTrain s1 n.val then trainPort s1 n.val t else s1)

def topoWord (x : Xator) : W64 :=
  BitVec.ofNat 64 (x.rackSerial.toNat * 2 ^ 32 + boolNat x.xwrap * 2 ^ 24 + x.racksM1.toNat * 2 ^ 20 + x.coord.toNat)

/-- A coordinate of a torus of `racks` racks. -/
def inTorus (racks : Nat) (c : Coord) : Bool := coordX c < 4 * racks && coordY c < 4 && coordZ c < 4

/-- XL_TOPO written (R345). -/
def execXlTopoWrite (be : BitVec 8) (w : W64) (s : State) : Host.Outcome State Fault Refusal :=
  let v := mergeBytes (topoWord s.xl) be w
  let c : Coord := BitVec.ofNat 18 (field v 0 18)
  let busy := s.xl.ports.any (fun p => portServes p || p.st == .training)
  .next (
    if busy || !(inTorus (field v 20 4 + 1) c) then s
    else
      { s with xl := { s.xl with
        rackSerial := BitVec.ofNat 32 (field v 32 32), xwrap := bit v 24, racksM1 := BitVec.ofNat 4 (field v 20 4), coord := c } })

-- XL_SLICE_k (R346, R359)

def sliceWord (r : SliceReg) : W64 :=
  BitVec.ofNat 64 (r.sliceId.toNat * 2 ^ 48 + boolNat r.valid * 2 ^ 39 + boolNat r.wz * 2 ^ 38 + boolNat r.wy * 2 ^ 37 +
    boolNat r.wx * 2 ^ 36 + r.ezM1.toNat * 2 ^ 30 + r.eyM1.toNat * 2 ^ 24 + r.exM1.toNat * 2 ^ 18 + r.origin.toNat)

/-- The slice that a word gives, with the status fields of `old`. -/
def sliceFrom (old : SliceReg) (w : W64) : SliceReg :=
  { old with
    sliceId := BitVec.ofNat 16 (field w 48 16), valid := bit w 39, wz := bit w 38, wy := bit w 37, wx := bit w 36
    ezM1 := BitVec.ofNat 6 (field w 30 6), eyM1 := BitVec.ofNat 6 (field w 24 6), exM1 := BitVec.ofNat 6 (field w 18 6)
    origin := BitVec.ofNat 18 (field w 0 18) }

/-- One axis of a slice lies in the torus, and wraps only where it spans an axis that wraps. -/
def axisOk (len o e : Nat) (wrap wraps : Bool) : Bool := o + e ≤ len && (!wrap || (e == len && wraps))

/-- The conditions of R346 on a VALID slice. -/
def sliceOk (s : State) (r : SliceReg) : Bool :=
  axisOk (axisLen s 0) (coordX r.origin) (r.exM1.toNat + 1) r.wx s.xl.xwrap &&
  axisOk (axisLen s 1) (coordY r.origin) (r.eyM1.toNat + 1) r.wy true &&
  axisOk (axisLen s 2) (coordZ r.origin) (r.ezM1.toNat + 1) r.wz true && inSlice r s.xl.coord

/-- XL_SLICE_k written. A different SLICE_ID clears STOPPED, and the saggar's counters start again; the link key
follows it (R390). -/
def execXlSliceWrite (k : SagId) (be : BitVec 8) (w : W64) (s : State) : Host.Outcome State Fault Refusal :=
  let old := sliceOf s k.val
  let new := sliceFrom old (mergeBytes (sliceWord old) be w)
  .next (
    if isSealed s k.val then s
    else if new.valid && !(sliceOk s new) then
      setSlice s k.val { old with cfgReject := true, rejectCount := sat old.rejectCount 1 }
    else if old.stopped && new.sliceId != old.sliceId then
      let t := deriveLink (setSlice (clearStopped s k.val) k.val { new with stopped := false }) k.val
      if exists_ (sagOf s k.val) then assignCones t k.val else t
    else deriveLink (setSlice s k.val new) k.val)

/-- XL_SLICE_STATUS_k.STOP written with 1 (R358). -/
def execXlSliceStatusStop (k : SagId) (s : State) : Host.Outcome State Fault Refusal := .next (stopSlice s k.val 2)

-- Cone counters (R357)

def coneWord (c : Cone) : W64 :=
  BitVec.ofNat 64 (boolNat c.assigned * 2 ^ 52 + c.partition.val * 2 ^ 48 + c.value.toNat)

/-- XL_CONE_n written: while the counter's saggar is SEALED nothing changes (R385, R476). -/
def execXlConeWrite (n : ConeId) (be : BitVec 8) (w : W64) (s : State) : Host.Outcome State Fault Refusal :=
  let c := coneOf s n.val
  let v := mergeBytes (coneWord c) be w
  .next (
    if c.assigned && isSealed s c.partition.val then s
    else
      setCone s n.val
        { assigned := bit v 52, partition := BitVec.toFin (BitVec.ofNat 4 (field v 48 4)), value := BitVec.ofNat 48 (field v 0 48) })

-- Virtual channels (R348): REQ_A 0, REQ_B 1, RSP_A 2, RSP_B 3, CTL 4

/-- The first channel of a packet's class. -/
def vcBase (ptype : Nat) : Nat := if ptype == 4 || ptype == 5 then 2 else 0

/-- The link through a port crosses its axis's dateline. -/
def crossesDateline (s : State) (n : Nat) : Bool :=
  let c := s.xl.coord
  let x := if n / 2 == 0 then coordX c else if n / 2 == 1 then coordY c else coordZ c
  if n % 2 == 0 then x + 1 == axisLen s (n / 2) else x == 0

/-- The channel of a packet that leaves by port `out`; `inB` says that it came along the same axis on a B channel. -/
def vcOut (s : State) (ptype out : Nat) (inB : Bool) : BitVec 3 :=
  BitVec.ofNat 3 (vcBase ptype + boolNat (inB || crossesDateline s out))

-- Sending packets

/-- The saggar numbers a packet (R351). -/
def takeSeq (s : State) (k : Nat) : W64 × State := ((sagOf s k).sent, modSag s k (fun g => { g with sent := g.sent + 1 }))

/-- A packet of saggar `k` with nothing in it, from this module. -/
def blankPacket (s : State) (k : SagId) (ptype : Nat) (dst : Coord) (seq : W64) : Packet :=
  { ptype := BitVec.ofNat 8 ptype, partition := k, epoch := (sagOf s k.val).epoch, dst, src := s.xl.coord, lenM1 := 0, ctr := 0
    accEtype := 0, vc := 0, reason := 0, tracker := 0, dstAddr := 0, seq, payload := [], tag := [], resBad := false }

/-- The nonce of a packet: SRC in 32 bits, then SEQ, each little-endian as the header holds them (log 81). -/
def pkNonce (pk : Packet) : List Byte := leBytes 4 pk.src.toNat ++ leBytes 8 pk.seq.toNat

/-- Seals a packet under the link key of its saggar: the additional data is the header with VC taken as 0 (R351). -/
def sealPacket (s : State) (pk : Packet) : Packet :=
  let r := gcmSeal ((sagOf s pk.partition.val).linkKey.getD []) (pkNonce pk) (headerBytes pk 0) pk.payload
  { pk with payload := r.1, tag := r.2 }

/-- The plaintext of a packet whose tag verifies under the link key of its saggar. -/
def openPacket (s : State) (pk : Packet) : Option (List Byte) :=
  (sagOf s pk.partition.val).linkKey.bind (fun k => gcmOpen k (pkNonce pk) (headerBytes pk 0) pk.payload pk.tag)

/-- A packet of this module goes to a port's output, sealed. -/
def sendPacket (s : State) (n : Nat) (pk : Packet) : State := putPacket s n (sealPacket s pk) none

/-- Answers a request with ACK or NACK (R352, R356). -/
def answer (s : State) (pk : Packet) (reason : Nat) : State :=
  let r := takeSeq s pk.partition.val
  let s := r.2
  match routePort s (sliceOf s pk.partition.val) pk.src with
  | none => s
  | some n =>
    let t := if reason == 0 then 4 else 5
    sendPacket s n { blankPacket s pk.partition t pk.src r.1 with
      reason := BitVec.ofNat 8 reason, tracker := pk.tracker, vc := vcOut s t n false }

-- Checking packets (R352, Table 13-6)

/-- Bytes that a packet's payload covers at its destination. -/
def pkBytes (pk : Packet) : Nat :=
  let n := pk.lenM1.toNat + 1
  if pk.ptype == 2 then n / 4 * (bitsOfType pk.accEtype.toNat / 8) else n

/-- Crosses a 2 KiB block. -/
def crossesBlock (a n : Nat) : Bool := 2048 < a % 2048 + n

/-- FORMAT: what the header shows. -/
def headerBad (pk : Packet) : Bool :=
  pk.ptype == 0 || 5 < pk.ptype.toNat || pk.resBad || (pk.ptype != 5 && pk.reason != 0) ||
  (match pk.ptype.toNat with
    | 1 => crossesBlock pk.dstAddr.toNat (pkBytes pk)
    | 2 => accTypeOk pk.accEtype.toNat && crossesBlock pk.dstAddr.toNat (pkBytes pk)
    | 3 => pk.lenM1 != 15
    | _ => pk.lenM1 != 0)

/-- FORMAT: what the payload's length shows. -/
def payloadBad (pk : Packet) : Bool := pk.payload.length != payloadLen pk.ptype.toNat pk.lenM1.toNat

/-- FORMAT: bytes 2 to 7 of a SIGNAL are zero, which only the plaintext shows. -/
def signalBad (pk : Packet) (plain : List Byte) : Bool := pk.ptype == 3 && ((plain.drop 2).take 6).any (· != 0)

/-- SRC or DST lies outside a VALID slice. -/
def offSlice (r : SliceReg) (pk : Packet) : Bool := r.valid && !(inSlice r pk.src && inSlice r pk.dst)

def isRequest (pk : Packet) : Bool := pk.ptype == 1 || pk.ptype == 2

/-- The fence of a SIGNAL takes remote signals of the saggar (R329). -/
def fenceTakesRemote (s : State) (k : SagId) (f : Nat) : Bool :=
  let p := pageOf s (f / 128)
  p.st == .live && p.remote && (ctxOf s (p.owner.toNat % 4096)).sag == k

/-- The fence that the plaintext of a SIGNAL names. -/
def pkFence (plain : List Byte) : Nat := leNat (plain.take 2)

/-- BOUNDS. -/
def pkBounds (s : State) (pk : Packet) : Bool :=
  let et := pk.accEtype.toNat
  (pk.ptype == 2 && !(accTypeOk et && (pk.lenM1.toNat + 1) % 4 == 0 && pk.dstAddr.toNat % (bitsOfType et / 8) == 0)) ||
  carveSize s pk.partition.val < pk.dstAddr.toNat + pkBytes pk

/-- The first reason for which a packet for this module is discarded, or 0. Inbound packets of a stopped slice take STOPPED
from then on (R359), before the counters it has unassigned are looked at. A packet that does not open is AUTH; what only the
plaintext shows of the format is looked at next. -/
def pkReason (s : State) (pk : Packet) : Nat :=
  let plain := openPacket s pk
  let k := pk.partition
  let g := sagOf s k.val
  let r := sliceOf s k.val
  let c := coneOf s pk.ctr.val
  if headerBad pk || payloadBad pk then 1
  else if offSlice r pk then 2
  else if !r.valid then 3
  else if pk.epoch != g.epoch then 4
  else if plain.isNone then 5
  else if signalBad pk (plain.getD []) then 1
  else if r.stopped then 0x0B
  else if isRequest pk && !(c.assigned && c.partition == k) then 6
  else if isRequest pk && pkBounds s pk then 7
  else if pk.ptype == 3 && !(fenceTakesRemote s k (pkFence (plain.getD []))) then 8
  else 0

/-- Counts a discarded packet (Table 13-16); of a SEALED saggar only the counts show (R395). -/
def countDiscard (s : State) (pk : Packet) (reason : Nat) : State :=
  let x := s.xl
  let x := { x with
    discard := true, discardCount := sat x.discardCount 1
    epochCount := if reason == 4 then sat x.epochCount 1 else x.epochCount
    authCount := if reason == 5 then sat x.authCount 1 else x.authCount }
  { s with xl := if isSealed s pk.partition.val then x
      else { x with lastPartition := BitVec.ofNat 4 pk.partition.val, lastReason := BitVec.ofNat 4 reason, lastSource := pk.src } }

/-- Discards a packet: a request is answered with a NACK. -/
def discardPacket (s : State) (pk : Packet) (reason : Nat) : State :=
  let s := countDiscard s pk reason
  if isRequest pk then answer s pk reason else s

-- Requests for this module (R356)

/-- A request is committed: its counter takes its bytes, and the ACK goes. -/
def commitPacket (s : State) (pk : Packet) : State :=
  let c := coneOf s pk.ctr.val
  let s := setCone s pk.ctr.val { c with value := c.value + BitVec.ofNat 48 (pk.lenM1.toNat + 1) }
  answer (perf s pk.partition.val perfLINKRX 1) pk 0

/-- Words of a payload. -/
def payloadWords (bs : List Byte) : Nat → List W32
  | 0 => []
  | n + 1 => BitVec.ofNat 32 (leNat (bs.take 4)) :: payloadWords (bs.drop 4) n

/-- Puts the updates of an opened WRITE_ACC on the accumulate path, line by line; the last one commits the packet. -/
def accPacket (s : State) (n : PortId) (pk : Packet) : State :=
  let w := bitsOfType pk.accEtype.toNat / 8
  let es := (payloadWords pk.payload ((pk.lenM1.toNat + 1) / 4)).zipIdx.map (fun (x : W32 × Nat) => (pk.dstAddr.toNat + x.2 * w, x.1))
  let lines := (es.map (fun e => e.1 / 128)).eraseDups
  let r := takeId s
  lines.foldl (fun t l =>
    let last := if some l == lines.getLast? then some (n, pk) else none
    accPush t pk.partition pk.accEtype.toNat (.packet r.1 last) (es.filter (fun e => e.1 / 128 == l))) r.2

/-- The packet is the next of its channel in the input buffer of a port in service. -/
def atPort (s : State) (n : PortId) (pk : Packet) : Bool := portServes (portOf s n.val) && inInput (portOf s n.val) (.packet pk)

/-- It is for this module. -/
def arrives (s : State) (n : PortId) (pk : Packet) : Bool := atPort s n pk && pk.dst == s.xl.coord

/-- A packet for this module leaves the input buffer: discarded for the first reason that applies, or passed on, opened. -/
def receive (s : State) (n : PortId) (pk : Packet) (is : Nat → Bool) (body : State → Packet → State) : State :=
  if arrives s n pk && is pk.ptype.toNat then
    let t := takeInput s n.val (.packet pk)
    let r := pkReason s pk
    if r == 0 then body t { pk with payload := (openPacket s pk).getD [] } else discardPacket t pk r
  else s

/-- What the first of the lines of a write that cannot be merged leaves, where nothing is written (R352). -/
def failedWrite (s : State) (sag : Nat) (env : MemEnv) : List (Nat × Nat × Nat) → List Byte → Option State
  | [], _ => none
  | p :: ps, bs =>
    match (mapLine s sag (p.1 * 128)).bind (fun l => writeNoAlloc s l (updatesAt p.2.1 (bs.take p.2.2)) none (some sag) env) with
    | some ⟨t, .error _, _⟩ => some t
    | _ => failedWrite s sag (nextEnv env) ps (bs.drop p.2.2)

/-- WRITE, and a packet of a reserved TYPE, which is discarded with FORMAT. A write whose lines its home or its channel withholds
stays in the input buffer; one that meets an error writes nothing. -/
def execWrite (n : PortId) (pk : Packet) (env : MemEnv) (s : State) : Host.Outcome State Fault Refusal :=
  .next (meets env s (receive s n pk (fun t => t == 1 || t == 0 || 5 < t) (fun t pk =>
    let k := pk.partition.val
    let a := pk.dstAddr.toNat
    match writeMem t k a pk.payload env with
    | none => s
    | some (t, .ok _) => commitPacket t pk
    | some (u, .error _) => discardPacket ((failedWrite t k env (linePieces a pk.payload.length) pk.payload).getD u) pk 9)))

/-- WRITE_ACC: its updates go to the accumulate path, whose own command reads and writes memory. -/
def execWriteAcc (n : PortId) (pk : Packet) (env : MemEnv) (s : State) : Host.Outcome State Fault Refusal :=
  let _ := env
  .next (receive s n pk (· == 2) (fun s pk => accPacket s n pk))

/-- SIGNAL packet (R329, R327). -/
def execRemoteSignalPacket (n : PortId) (pk : Packet) (s : State) : Host.Outcome State Fault Refusal :=
  .next (receive s n pk (· == 3) (fun s pk =>
    fenceSignal s (pkFence pk.payload) (BitVec.ofNat 64 (leNat ((pk.payload.drop 8).take 8)))))

-- Answers (R354, R355)

def modLinkEngine (s : State) (e : Nat) (f : LinkEngine → LinkEngine) : State :=
  { s with xl := { s.xl with engines := listModify f s.xl.engines e } }

def linkEngineOf (s : State) (e : Nat) : LinkEngine := s.xl.engines.getD e {}

def dropJob (s : State) (e id : Nat) : State := modLinkEngine s e (fun g => { g with jobs := g.jobs.filter (fun j => j.id != id) })

/-- A tracker's packet is answered, with 0 for OK or a reason: the first failure fails the node, and the last OK completes
it. A tracker that serves no job any more is only freed. -/
def trackerAnswer (s : State) (e t reason : Nat) : State :=
  let g := linkEngineOf s e
  match tblFind g.trackers t with
  | none => s
  | some k =>
    let s := modLinkEngine s e (fun g => { g with trackers := tblDel g.trackers t })
    match g.jobs.find? (fun j => j.id == k.job) with
    | none => s
    | some j =>
      if reason != 0 then linkFail (dropJob s e j.id) j reason k.addr.toNat
      else if j.open_ ≤ 1 && linkLen j.words ≤ j.cut then nodeDone (dropJob s e j.id) (jobNode j)
      else modLinkEngine s e (fun g => { g with jobs := g.jobs.map (fun x => if x.id == j.id then { x with open_ := x.open_ - 1 } else x) })

def pkEngine (pk : Packet) : Nat := bitsOf pk.tracker.toNat 9 4
def pkTracker (pk : Packet) : Nat := bitsOf pk.tracker.toNat 0 9

/-- ACK. -/
def execAck (n : PortId) (pk : Packet) (s : State) : Host.Outcome State Fault Refusal :=
  .next (receive s n pk (· == 4) (fun s pk => trackerAnswer s (pkEngine pk) (pkTracker pk) 0))

/-- NACK. -/
def execNack (n : PortId) (pk : Packet) (s : State) : Host.Outcome State Fault Refusal :=
  .next (receive s n pk (· == 5) (fun s pk => trackerAnswer s (pkEngine pk) (pkTracker pk) (max 1 pk.reason.toNat)))

/-- LINK_PACKET_TIMEOUT: 10 ms without an answer. -/
def execLinkPacketTimeout (e : LinkEngId) (t : Fin 512) (s : State) : Host.Outcome State Fault Refusal :=
  .next (trackerAnswer s e.val t.val 0x0A)

-- Through-traffic (R347, R348, R352)

/-- The packet came along the axis of port `out` on a B channel. -/
def cameOnB (n out : Nat) (pk : Packet) : Bool := n / 2 == out / 2 && pk.vc.toNat % 2 == 1

/-- The edge die of a port (R436). -/
def portDie (n : Nat) : Nat := n / 3

/-- During a domain stop, traffic between the edge dies crosses a bridge of theirs to H that has been declared dead (R419). -/
def routerCut (s : State) (n out : Nat) : Bool :=
  !(running s) && portDie n != portDie out && s.ras.deadBridges.any (fun b => b.val == 8 || b.val == 9)

/-- THROUGH_PACKET: a packet for another module is checked for FORMAT, ROUTE and PARTITION and goes to the output of its next port;
its place in the input buffer becomes free when that port sends it. -/
def execThroughPacket (n : PortId) (pk : Packet) (s : State) : Host.Outcome State Fault Refusal :=
  let r := sliceOf s pk.partition.val
  let t := takeInput s n.val (.packet pk)
  .next (
    if !(atPort s n pk) || pk.dst == s.xl.coord then s
    else if headerBad pk || payloadBad pk then discardPacket t pk 1
    else match routePort s r pk.dst with
    | none => s
    | some out =>
      if offSlice r pk || !(portServes (portOf s out)) then discardPacket t pk 2
      else if !r.valid then discardPacket t pk 3
      else if routerCut s n.val out then s
      else
        putPacket (modPort s n.val (fun p => { p with input := p.input.erase (.packet pk) })) out
          { pk with vc := vcOut s pk.ptype.toNat out (cameOnB n.val out pk) } (some (n, msgVc (.packet pk))))

/-- SLICE_STOP (R358): forwarded once, and the saggar stops. -/
def execSliceStop (n : PortId) (sliceId : BitVec 16) (origin : Coord) (cause : BitVec 2) (s : State) :
    Host.Outcome State Fault Refusal :=
  let m : XlMsg := .sliceStop sliceId origin cause
  .next (
    if !(portServes (portOf s n.val)) || !(inInput (portOf s n.val) m) then s
    else
      let s := takeInput s n.val m
      if s.xl.seen.contains (sliceId, origin) then s
      else
        ((List.range 16).filter (fun k => (sliceOf s k).valid && (sliceOf s k).sliceId == sliceId)).foldl
          (fun t k => sliceStopped (sendSliceStop t (sliceOf t k) origin cause (some n.val)) k origin cause) s)

-- Link engines (R353, R354, R373)

/-- Payload bytes of a job's next packet: up to a 2 KiB boundary of its destination, and at most 2,048. -/
def nextPayload (j : LinkJob) : Nat :=
  let ws := j.words
  let left := linkLen ws - j.cut
  if linkOp ws == 0 then min left (2048 - (linkAddr ws + j.cut) % 2048)
  else
    let w := bitsOfType (linkEtype ws) / 8
    let at_ := linkAddr ws + j.cut / 4 * w
    min (min left 2048) ((2048 - at_ % 2048) / w * 4)

/-- The destination address of a job's next packet. -/
def nextDst (j : LinkJob) : Nat :=
  if linkOp j.words == 0 then linkAddr j.words + j.cut
  else linkAddr j.words + j.cut / 4 * (bitsOfType (linkEtype j.words) / 8)

/-- A job has packets left to cut. -/
def jobWaits (j : LinkJob) : Bool := j.signal || j.cut < linkLen j.words

/-- Trackers of a saggar in use. -/
def trackersOf (g : LinkEngine) (k : Nat) : Nat := (g.trackers.filter (fun t => t.2.sag.val == k)).length

/-- A saggar may take a tracker: one of its 16 reserved ones, or a shared one. -/
def mayTrack (g : LinkEngine) (k : Nat) : Bool :=
  let others := (List.range 16).filter (fun j => j != k && g.jobs.any (fun x => x.sag.val == j && jobWaits x))
  let reserved := (others.map (fun j => 16 - trackersOf g j)).foldl (fun a b => a + b) 0
  g.trackers.length < 512 && (trackersOf g k < 16 || g.trackers.length + reserved < 512)

/-- The next job of a saggar whose packet can leave now. -/
def readyJob (s : State) (g : LinkEngine) (k : Nat) : Option LinkJob :=
  match g.jobs.find? (fun j => j.sag.val == k && jobWaits j) with
  | none => none
  | some j =>
    let go := match routePort s (sliceOf s k) (jobDst j.words) with
      | some n => (portOf s n).st == .up && !(portOf s n).stopped
      | none => true
    if go && (j.signal || mayTrack g k) then some j else none

/-- The lowest free tracker. -/
def freeTracker (g : LinkEngine) : Nat := (firstFrom (fun t => (tblFind g.trackers t).isNone) 512 0).getD 0

/-- A remote SIGNAL leaves: it completes when its port has taken it (R300). -/
def sendSignal (s : State) (e : Nat) (j : LinkJob) : State :=
  let r := sliceOf s j.sag.val
  let dst := jobDst j.words
  let s := dropJob s e j.id
  match routePort s r dst with
  | none => linkFail s j 2 0
  | some n =>
    if !r.valid then linkFail s j 3 0
    else if !(inSlice r dst) then linkFail s j 2 0
    else
      let q := takeSeq s j.sag.val
      let s := perf q.2 j.sag.val perfLINKTX 1
      let bs := leBytes 2 (field (word j.words 2) 32 16) ++ List.replicate 6 0 ++ leBytes 8 (word j.words 1).toNat
      nodeDone (sendPacket s n { blankPacket s j.sag 3 dst q.1 with lenM1 := 15, payload := bs, vc := vcOut s 3 n false }) (jobNode j)

/-- The next packet of a LINK node. -/
def sendLink (s : State) (e : Nat) (j : LinkJob) (h : HostAns) (env : MemEnv) : State :=
  let ws := j.words
  let k := j.sag.val
  let n := nextPayload j
  match readObj s k (field (word ws 0) 16 16) (field (word ws 1) 0 48 + j.cut) n h env with
  | none => s
  | some (t, _, .error _) => linkFail (dropJob t e j.id) j 9 (nextDst j)
  | some (t, _, .ok bs) => match routePort t (sliceOf t k) (jobDst ws) with
    | none => linkFail (dropJob t e j.id) j 2 (nextDst j)
    | some out =>
      let q := takeSeq t k
      let t := perf q.2 k perfLINKTX 1
      let tr := freeTracker (linkEngineOf t e)
      let a := nextDst j
      let ptype := if linkOp ws == 0 then 1 else 2
      let pk := { blankPacket t j.sag ptype (jobDst ws) q.1 with
        lenM1 := BitVec.ofNat 11 (n - 1), ctr := BitVec.toFin (BitVec.ofNat 12 (field (word ws 0) 32 12))
        accEtype := BitVec.ofNat 5 (linkEtype ws), tracker := BitVec.ofNat 13 (e * 512 + tr), dstAddr := BitVec.ofNat 48 a
        payload := bs, vc := vcOut t ptype out false }
      modLinkEngine (sendPacket t out pk) e (fun g =>
        { g with
          trackers := tblPut g.trackers tr { job := j.id, sag := j.sag, addr := BitVec.ofNat 48 a }
          jobs := g.jobs.map (fun x => if x.id == j.id then { x with cut := x.cut + n, open_ := x.open_ + 1 } else x) })

/-- LINK_PACKET_SEND: an engine sends one packet, round robin over the saggars with packets; the work of a saggar whose
slice has stopped fails. -/
def execLinkPacketSend (e : LinkEngId) (h : HostAns) (env : MemEnv) (s : State) : Host.Outcome State Fault Refusal :=
  let g := linkEngineOf s e.val
  let order := (List.range 16).map (fun i => (g.last.val + 1 + i) % 16)
  .next (match g.jobs.find? (fun j => (sliceOf s j.sag.val).stopped) with
    | some j => sliceWork s j.sag.val
    | none => meets env s (match order.findSome? (readyJob s g) with
      | none => s
      | some j =>
        let s := modLinkEngine s e.val (fun g => { g with last := j.sag })
        if j.signal then sendSignal s e.val j else sendLink s e.val j h env))

-- The accumulate path (R173, R356)

/-- One update: the elements of one line are added in one step, through the home of the line. -/
def accOne (s : State) (u : AccUpdate) (env : MemEnv) : Option Got :=
  match mapLine s u.sag.val u.addr, etypeOf u.etype with
  | some l, some et => writeNoAllocWith s l false (accLine et (u.addr % 128) u.vals) none (some u.sag.val) env
  | _, _ => some { s, res := .ok [] }

/-- Updates in order, until one meets an error. None: one must wait. -/
def accRun (s : State) (env : MemEnv) : List AccUpdate → Option (State × Option (AccUpdate × MemErr))
  | [] => some (s, none)
  | u :: us => match accOne s u env with
    | none => none
    | some g => match g.res with
      | .error e => some (g.s, some (u, e))
      | .ok _ => accRun g.s (nextEnv env) us

/-- The updates that go in one step: one of an operation, or all of a packet, which changes memory whole or not at all (R352). -/
def accTake (s : State) (st : StackId) : List AccUpdate := match (stackOf s st.val).accQueue with
  | [] => []
  | u :: us => match u.src with
    | .op _ _ => [u]
    | .packet id _ => (u :: us).filter (fun v => match v.src with
      | .packet i _ => i == id
      | .op _ _ => false)

/-- What the first of a packet's updates that cannot be made leaves, where none is made. -/
def failedAcc (s : State) (env : MemEnv) : List AccUpdate → Option State
  | [] => none
  | u :: us => match accOne s u env with
    | some ⟨t, .error _, _⟩ => some t
    | _ => failedAcc s (nextEnv env) us

/-- The packet that a list of updates commits. -/
def accPacketOf (us : List AccUpdate) : Option Packet := us.findSome? (fun u => match u.src with
  | .packet _ l => l.map (fun x => x.2)
  | .op _ _ => none)

/-- An update of an operation has been made, or has stopped it. -/
def settleAcc (s : State) (u : AccUpdate) : State := match u.src with
  | .op id k => settleShare s id k
  | .packet _ _ => s

/-- An update cannot be made: its operation stops, or its packet is discarded with DATA, with no update made. -/
def accFail (s t : State) (env : MemEnv) (us : List AccUpdate) (u : AccUpdate) (e : MemErr) : State := match u.src with
  | .op id _ => match nmOpOf t id with
    | some o => settleAcc (nmStop t o (errStatus e) u.addr) u
    | none => t
  | .packet _ _ =>
    let t := (failedAcc s env us).getD t
    match accPacketOf us with
    | some pk => discardPacket t pk 9
    | none => t

/-- Updates of a stack's accumulate path are made; those of a packet commit it. Lines that cannot be taken now make them wait. -/
def accMake (s : State) (st : StackId) (us : List AccUpdate) (env : MemEnv) : State :=
  let t := modStack s st.val (fun k => { k with accQueue := us.foldl (fun q u => q.erase u) k.accQueue })
  match accRun t env us with
  | none => s
  | some (u, some (x, e)) => accFail t u env us x e
  | some (u, none) => match accPacketOf us with
    | some pk => commitPacket u pk
    | none => us.foldl settleAcc u

/-- ACCUMULATE_UPDATE: the oldest updates of a stack's accumulate path. -/
def execAccumulateUpdate (st : StackId) (env : MemEnv) (s : State) : Host.Outcome State Fault Refusal :=
  .next (meets env s (accMake s st (accTake s st) env))

end Sys2Proof.Machine
end

