-- ==== Sys2Proof/Machine/Partition.lean ====
section
/-!
DEFINITION. Partition commands (spec/14) and what they do to a saggar: creation, partition reset, release, sealing with its key
epoch, tenant removal (spec/15), test windows.
-/
namespace Sys2Proof.Machine

open Sys2Proof

-- Keys (Table 15-1, R376)

/-- A key of the random generator: its number. -/
def newKey (s : State) : Nat × State :=
  (s.sec.nextKey, { s with sec := { s.sec with nextKey := s.sec.nextKey + 1, drbg := s.sec.drbg + 1 } })

/-- Keys that leave a saggar at an epoch change or a removal. -/
def dropSecrets (g : Saggar) : Saggar := { g with slice := none, ephemeral := none, weightKeys := [] }

def clearLog (g : Saggar) : Saggar := { g with log := [], overflow := 0, overflowDigest := List.replicate 48 0 }

-- Stopping a saggar's work (R336, Table 14-11 step 1)

/-- Codec operations of a ring that has stopped write their records, where that is possible now, and are gone. -/
def dropCodecs (s : State) (n : Nat) : State :=
  let ids := (s.codecOps.filter (fun o => o.node.ring == n)).map (fun o => o.id)
  let s := ids.foldl (codecSettle noErr) s
  { s with codecOps := s.codecOps.filter (fun o => o.node.ring != n) }

/-- A ring becomes DISABLED with no grace period. -/
def stopRing (s : State) (n : Nat) : State :=
  let s := (skipEntries (cancelFetch s n) n true).1
  disableRing (dropCodecs (abortRing (skipRuns (skipWaits s n) n) n) n) n

/-- The test windows of channels close, and their generators stop (R370). -/
def closeWindows (s : State) (own : List Nat) : State :=
  let s := (own.filter (testWindow s)).foldl tgStop s
  { s with pt := { s.pt with windows := s.pt.windows.filter (fun x => !(own.contains x.val)) } }

/-- Every ring of a saggar is DISABLED. -/
def stopRings (s : State) (k : Nat) : State := ((ringsOf s k).map (fun r => r.1)).foldl stopRing s

-- Its cores (Table 14-11 steps 2 and 4)

def coresOfSag (s : State) (k : Nat) : List Nat :=
  (s.cores.filter (fun c => c.2.partition.any (fun x => x.val == k))).map (fun c => c.1)

/-- A core without blocks: store buffers and L1 empty, accumulators clear, streams IDLE, lease free. -/
def haltCore (k : Core) : Core :=
  { k with
    subs := List.replicate 4 {}, blocks := [], slabs := k.slabs.map (fun x => { x with acc := [], queue := [] })
    lease := none, leaseQueue := [], engines := k.engines.map (fun e => { e with streams := [], spans := [] }), l1 := [], misses := [] }

/-- Such a core with its counts clear. -/
def clearCore (k : Core) : Core :=
  { haltCore k with
    grantCount := 0, engines := (haltCore k).engines.map (fun e => { e with excess := 0 })
    faultCount := 0, corrected := 0, l1Refetch := 0, replay := 0 }

/-- Requests of cores that are gone. -/
def dropIo (s : State) (cs : List Nat) : State := dropRequests s (fun o => (ownerCore o).any (fun c => cs.contains c))

/-- Instruction caches of clusters whose cores hold no block any more. -/
def dropCode (s : State) (cs : List Nat) : State := { s with icaches := s.icaches.filter (fun x => !(cs.any (fun c => c / 16 == x.1))) }

def clearCores (s : State) (cs : List Nat) : State := cs.foldl (fun t c => modCore t c clearCore) (dropCode (dropIo s cs) cs)

/-- RETIRING cores become RETIRED, and for each a spare of its cluster whose latest self-test passed becomes ACTIVE (R47,
Table 17-7). -/
def swapCore (s : State) (c : Nat) : State :=
  let k := coreOf s c
  if k.st != .retiring then s
  else
    let part := corePart k
    let s := coreRetired s c
    match (clusterCores (c / 16)).find? (fun x => (coreOf s x).st == .spare && (coreOf s x).selfTest) with
    | none => logEvent s 0x08 7 part (unitCore c) (2 ^ 64 - 1) 0
    | some x =>
      let s := modCore s x (fun y => { y with st := .active, split := k.split, partition := k.partition })
      let s := modCraze (harvestChanged s) (fun z => { z with sparesUsed := sat z.sparesUsed 1 })
      logEvent s 0x08 7 part (unitCore c) x 0

def swapCores (s : State) (cs : List Nat) : State := cs.foldl swapCore s

/-- The cores' random sources are seeded (R98, R376). -/
def seedCores (s : State) (cs : List Nat) : State := { s with sec := { s.sec with drbg := s.sec.drbg + cs.length } }

-- The L2 walk (R265, R264)

/-- A message that carries the newest data of a line. -/
def dirtyMsg : FabMsg → Option (Nat × List Byte)
  | .writeBack _ l d => some (l.toNat, d)
  | .dataM _ l d _ => some (l.toNat, d)
  | .snpData (.die _) l _ d => some (l.toNat, d)
  | _ => none

/-- The walk over the lines of channels: with write-back every dirty line goes to DRAM; every copy and every entry goes, and a
BAD line is logged. Requests and messages of those lines are gone too. -/
def walkL2 (s : State) (own : List Nat) (writeBack : Bool) : State :=
  let hit (l : Nat) : Bool := own.contains (lineChan l)
  let near := (s.dies.flatMap (fun d => d.near.map (fun x => x.2))).filter (fun x => hit x.line.toNat)
  let far := (s.dies.flatMap (fun d => d.far.map (fun x => x.2))).filter (fun x => hit x.line.toNat)
  let dirty : List (Nat × List Byte) :=
    (near.filter (fun x => x.st == .hd)).map (fun x => (x.line.toNat, x.data)) ++
    (far.filter (fun x => x.st == .fm)).map (fun x => (x.line.toNat, x.data)) ++
    (s.fabric.filterMap dirtyMsg).filter (fun x => hit x.1)
  let s := if writeBack then dirty.foldl (fun t x => dramWrite t x.1 x.2) s else s
  let s := (near.filter (fun x => x.st == .bad)).foldl (fun t x =>
    logEvent t 0x0B 0 noPart (unitSlice (lineDie x.line.toNat) (lineSlice x.line.toNat)) (lineKey x.line.toNat) 0) s
  { s with
    dies := s.dies.map (fun d => { d with
      near := d.near.filter (fun x => !(hit x.2.line.toNat)), far := d.far.filter (fun x => !(hit x.2.line.toNat))
      lastFar := d.lastFar.filter (fun x => !(hit x.1))
      rsvArray := d.rsvArray.filter (fun e => !(hit (2 * e.pair))) })
    filter := s.filter.filter (fun e => !(hit e.2.line.toNat))
    hostFilter := s.hostFilter.filter (fun e => !(hit e.line.toNat))
    homes := s.homes.filter (fun h => !(hit h.1))
    fabric := s.fabric.filter (fun m => !(hit (msgLine m))) }

/-- The predictors of the dies on which a saggar owns cores or channels are 0 (R256). -/
def clearPredictors (s : State) (k : Nat) : State :=
  let g := sagOf s k
  let mine (d : Nat) : Bool := (ownedChannels g).any (fun p => p / 64 == d) || bitsOf g.clusters.toNat (4 * d) 4 != 0
  (List.range 4).foldl (fun t d => if mine d then modDie t d (fun x => { x with predictor := [] }) else t) s

-- Names (R336)

/-- Contexts, objects, fence pages and graph slots of a saggar become FREE; a context keeps its generation. -/
def freeNames (s : State) (k : Nat) : State :=
  let slots := (s.obj.ctxs.filter (fun c => c.2.st != .free && c.2.sag.val == k)).map (fun c => c.1)
  let mine (tag : BitVec 16) : Bool := slots.contains (tag.toNat % 4096)
  { s with
    obj := { s.obj with
      ctxs := s.obj.ctxs.map (fun c => if slots.contains c.1 then (c.1, { c.2 with st := .free }) else c)
      objs := s.obj.objs.filter (fun o => o.2.sag.val != k)
      pages := (s.obj.pages.filter (fun p => !(mine p.2.owner))).map (fun p =>
        (p.1, { p.2 with grants := p.2.grants.filter (fun t => !(mine t)) })) }
    fe := { s.fe with graphs := s.fe.graphs.filter (fun g => g.2.sag.val != k) } }

/-- The stores of a saggar's graph slots take unspecified bytes as the slots become FREE (R313). -/
def scrambleStores (s : State) (k : Nat) : State :=
  (s.fe.graphs.filter (fun g => g.2.st != .free && g.2.sag.val == k)).foldl (fun t g => scramble t g.2) s

def emptyBooks (s : State) (k : Nat) : State := modSag s k (fun g => { g with books := [] })

/-- Element updates of a saggar that still wait are gone. -/
def dropAcc (s : State) (k : Nat) : State :=
  { s with memStacks := s.memStacks.map (fun st => { st with accQueue := st.accQueue.filter (fun u => u.sag.val != k) }) }

-- Partition reset (R368, Table 14-11)

/-- Step 1: rings DISABLED, engine work stopped, test windows closed. -/
def resetStart (s : State) (k : Nat) : State := closeWindows (stopRings s k) (ownedChannels (sagOf s k))

/-- Launches of a saggar are gone, with their blocks. -/
def dropLaunches (s : State) (k : Nat) : State :=
  let gone := (s.fe.launches.filter (fun l => l.info.sag.val == k)).map (fun l => l.info.id)
  { s with fe := { s.fe with
    launches := s.fe.launches.filter (fun l => l.info.sag.val != k)
    rtQueue := s.fe.rtQueue.filter (fun i => !(gone.contains i)), bulkQueue := s.fe.bulkQueue.filter (fun i => !(gone.contains i))
    handed := s.fe.handed.filter (fun h => !(gone.contains h.launch)) } }

/-- Steps 2 to 4. -/
def resetRest (s : State) (k : Nat) (writeBack : Bool) : State :=
  let cs := coresOfSag s k
  let own := ownedChannels (sagOf s k)
  let s := dropLaunches (clearCores s cs) k
  let s := if writeBack then scrambleStores s k else dropAcc s k
  let s := clearPredictors (walkL2 s own writeBack) k
  let s := freeNames (emptyBooks s k) k
  let s := clearStopped (assignCones s k) k
  seedCores (swapCores s cs) cs

-- The key epoch (R394)

/-- The channels of a saggar take its new key pair: the current tag switches, and the old slot waits for its erasure (R147). -/
def switchTags (s : State) (k : Nat) (own : List Nat) : State :=
  let tag : KeyTag := ⟨BitVec.toFin (BitVec.ofNat 4 k), (sagOf s k).epoch⟩
  own.foldl (fun t p => modChan t p (fun c => { c with oldTag := c.tag, tag := some tag })) s

/-- The updates of a saggar's packets that a stack still holds, one packet after the other. -/
def finishStack (k : Nat) (st : StackId) : Nat → State → State
  | 0, s => s
  | n + 1, s =>
    let q := (stackOf s st.val).accQueue
    match q.findSome? (fun u => match u.src with
        | .packet id _ => if u.sag.val == k then some id else none
        | .op _ _ => none) with
    | none => s
    | some id => finishStack k st n (accMake s st (q.filter (fun u => match u.src with
        | .packet i _ => i == id
        | .op _ _ => false)) noErr)

/-- Packets of a saggar that have been checked complete under the epoch of their check (R352). -/
def finishAcc (s : State) (k : Nat) : State :=
  (List.finRange 16).foldl (fun t st => finishStack k st (stackOf t st.val).accQueue.length t) s

/-- An increment of the key epoch. -/
def epochStep (s : State) (k : Nat) : State :=
  let own := ownedChannels (sagOf s k)
  let s := finishAcc (walkL2 s own false) k
  let m := newKey s
  let l := newKey m.2
  let s := modSag l.2 k (fun g =>
    { clearLog (dropSecrets g) with epoch := g.epoch + 1, memKey := some m.1, linkKey := some (Config.keyBytes l.1), books := [], reports := [], sent := 0 })
  dropAcc (dropLinks (switchTags s k own) (fun j => j.sag.val == k)) k

/-- Every channel of a carve-out scrubbed under the current key (R148). -/
def scrubCarve (s : State) (own : List Nat) : State := own.foldl zeroChannel s

-- Creation (R366, R367, Tables 14-6 and 14-8)

def clustersOf (g : Saggar) : List Nat := (List.range 16).filter (fun i => g.clusters.getLsbD i)
def copiesOf (g : Saggar) : List Nat := (List.range 16).filter (fun i => g.copy.getLsbD i)

/-- R362. -/
def formOk (g : Saggar) : Bool :=
  let cl := clustersOf g
  let dies := (List.range 4).filter (fun d => cl.any (fun c => c / 4 == d))
  if cl.length ≤ 3 then dies.length == 1 else cl.length == 4 * dies.length

def geometryOk (g : Saggar) : Bool :=
  formOk g && !((ownedChannels g).isEmpty) && g.linkWeight != 0 && g.lsSplit.toNat ≤ 11 &&
  g.coneFirst.toNat + g.coneCount.toNat ≤ 4096 && g.qGraphs.toNat ≤ 4096 && g.qPages.toNat ≤ 512 && g.qObjects.toNat ≤ 65536 &&
  g.qContexts.toNat ≤ 4096 && g.qRings.toNat ≤ 1024

/-- Two cone ranges meet. -/
def conesMeet (a b : Saggar) : Bool :=
  0 < a.coneCount.toNat && 0 < b.coneCount.toNat && a.coneFirst.toNat < b.coneFirst.toNat + b.coneCount.toNat &&
  b.coneFirst.toNat < a.coneFirst.toNat + a.coneCount.toNat

/-- Two saggars' request registers name one resource. -/
def claims (a b : Saggar) : Bool :=
  (a.clusters &&& b.clusters) != 0 || (a.copy &&& b.copy) != 0 || ((a.chans.zip b.chans).any (fun p => (p.1 &&& p.2) != 0)) ||
  conesMeet a b

def claimedByOther (s : State) (k : Nat) : Bool :=
  s.sags.any (fun p => p.1 != k && p.2.st != .none && claims (sagOf s k) p.2)

/-- A cluster has an ACTIVE core; a TEST core counts as ACTIVE (R425). -/
def clusterAlive (s : State) (c : Nat) : Bool :=
  (clusterCores c).any (fun x => (coreOf s x).st == .active || (coreOf s x).st == .test)

def present (s : State) (g : Saggar) : Bool :=
  (clustersOf g).all (clusterAlive s) && (ownedChannels g).all (fun p => (chanOf s p).st == .free) &&
  (copiesOf g).all (fun e => !(s.fuses.copyOff.any (fun x => x.val == e)))

def oneEcc (s : State) (g : Saggar) : Bool :=
  let own := ownedChannels g
  own.all (fun p => (chanOf s p).strong) || own.all (fun p => !(chanOf s p).strong)

/-- Cores under test return to service. -/
def stopTests (s : State) (cs : List Nat) : State :=
  cs.foldl (fun t c => if (coreOf t c).st == .test then modCore t c (fun k => { k with st := .active }) else t) s

/-- An accepted CREATE claims (Table 14-8, step 1). -/
def createStart (s : State) (k : Nat) : State :=
  let g := sagOf s k
  let s := modSag s k (fun g => { g with st := .creating, wasSealed := false, sealing := false, destroyWaits := false })
  let s := (ownedChannels g).foldl tgStop s
  stopTests s ((clustersOf g).flatMap clusterCores)

/-- Steps 2 to 5. -/
def createRest (s : State) (k : Nat) : State :=
  let g := sagOf s k
  let own := ownedChannels g
  let id : SagId := BitVec.toFin (BitVec.ofNat 4 k)
  let m := newKey s
  let l := newKey m.2
  let s := modSag l.2 k (fun g =>
    { clearLog (dropSecrets g) with epoch := 0, memKey := some m.1, linkKey := some (Config.keyBytes l.1), books := [], reports := [], sent := 0 })
  let s := { s with dies := s.dies.map (fun d => { d with masks := tblSet {} d.masks k g.ways }) }
  let s := assignCones (own.foldl tgStop s) k
  let s := ((clustersOf g).flatMap clusterCores).foldl (fun t c => modCore t c (fun x =>
    { (if dieForm g then x else setSplit x g.lsSplit.toNat) with partition := some id })) s
  let s := own.foldl (fun t p => modChan t p (fun c =>
    { c with st := if c.st == .free then .owned else c.st, partition := some id, tag := some ⟨id, 0⟩, oldTag := none })) s
  modSag (scrubCarve s own) k (fun g => { g with st := .open })

-- Release (R369, Table 15-16)

/-- The resources of Table 14-1 return, the keys are erased, and STATE becomes NONE. -/
def returnAll (s : State) (k : Nat) : State :=
  let own := ownedChannels (sagOf s k)
  let s := own.foldl (fun t p => modChan t p (fun c =>
    { c with st := if c.st == .owned then .free else c.st, partition := none, tag := none, oldTag := none })) s
  let s := (coresOfSag s k).foldl (fun t c => modCore t c (fun x => { x with partition := none })) s
  let s := unassignCones s k
  let s := { s with dies := s.dies.map (fun d => { d with masks := tblSet {} d.masks k {} }) }
  modSag s k (fun g => { dropSecrets g with
    st := .none, memKey := none, linkKey := none, reports := [], wasSealed := false, sealing := false, destroyWaits := false })

/-- The removal record of a SEALED saggar (R397); `scrubbed` says whether its channels were. -/
def removalOf (s : State) (k : Nat) (epoch : BitVec 4) (scrubbed : Bool) : Removal :=
  let g := sagOf s k
  { oldEpoch := g.epoch, epoch, channels := if scrubbed then g.chans else [0, 0, 0, 0]
    entries := BitVec.ofNat 32 g.log.length, overflow := g.overflow
    digest := sha384 (g.log.flatten ++ g.overflowDigest), serial := s.sec.removals + 1, log := g.log }

/-- The record is kept. -/
def keepRemoval (s : State) (k : Nat) (r : Removal) : State :=
  modSag { s with sec := { s.sec with removals := s.sec.removals + 1 } } k (fun g => { g with removal := some r })

/-- SEALED_LOADs of a saggar stop (Table 15-16, step 2). -/
def stopLoads (s : State) (k : Nat) : State :=
  let hit (j : CopyJob) : Bool := j.sag.val == k && copyMode j.words == 2
  (s.fe.copies.filter hit).foldl (fun t j => nodeAbort (dropTransfers (scrambleCopy t j) j) j.node)
    { s with fe := { s.fe with copies := s.fe.copies.filter (fun j => !(hit j)) } }

/-- QUEUE_DESTRUCTION of a ring (R333, step 1). -/
def destroyRing (s : State) (n : Nat) : State :=
  let r := ringOf s n
  if r.st == .active || r.st == .faulted then
    let s := modRing s n (fun r => { r with st := .destroying, graceUs := s.fe.grace.toNat, graceOver := false })
    let sk := skipEntries (cancelFetch s n) n true
    skipRuns (skipWaits (if sk.2 then fenceAbandon sk.1 r.qfence.toNat else sk.1) n) n
  else s

/-- DESTROY of an OPEN saggar stops its work; of a SEALED one it starts the removal. -/
def destroyStart (s : State) (k : Nat) : State :=
  let sealed_ := (sagOf s k).st == .sealed
  let s := modSag s k (fun g => { g with st := .removing, wasSealed := sealed_, destroyWaits := false })
  if sealed_ then
    let s := ((ringsOf s k).map (fun r => r.1)).foldl destroyRing s
    closeWindows (stopLoads (stopSlice s k 2) k) (ownedChannels (sagOf s k))
  else resetStart s k

/-- The rest of a release. -/
def destroyRest (s : State) (k : Nat) : State :=
  let own := ownedChannels (sagOf s k)
  if (sagOf s k).wasSealed then
    let s := stopRings s k
    let r := removalOf s k ((sagOf s k).epoch + 1) true
    let s := scrubCarve (resetRest (epochStep s k) k false) own
    returnAll (keepRemoval s k r) k
  else returnAll (scrubCarve (resetRest s k false) own) k

-- Sealing (R386)

def sealOk (s : State) (k : Nat) : Bool :=
  (sagOf s k).st == .open && (ringsOf s k).isEmpty &&
  !(s.obj.objs.any (fun o => o.2.sag.val == k && o.2.hostMap && (o.2.st == .live || o.2.st == .draining)))

def sealStart (s : State) (k : Nat) : State := modSag s k (fun g => { clearLog g with st := .sealed, sealing := true })

def sealRest (s : State) (k : Nat) : State :=
  let s := scrubCarve (epochStep s k) (ownedChannels (sagOf s k))
  let e := newKey s
  modSag e.2 k (fun g => { g with ephemeral := some e.1, sealing := false })

-- The port (R365)

/-- The long steps of a saggar's command wait: a channel of it withholds its banks (R151, R156), or a line of it has a transaction
or a message on its way, which ends first. -/
def sagWaits (s : State) (k : Nat) : Bool :=
  let own := ownedChannels (sagOf s k)
  own.any (fun p => (chanOf s p).st == .retrain || (stackOf s (p / 16)).throttle == .stop) ||
  s.homes.any (fun h => own.contains (lineChan h.1) && (h.2.txn.isSome || !(h.2.queue.isEmpty))) ||
  s.fabric.any (fun m => own.contains (lineChan (msgLine m)))

/-- The long steps of a saggar's command end. -/
def settleSag (s : State) (k : Nat) : State :=
  if sagWaits s k then s
  else
  let s := if (sagOf s k).sealing then sealRest s k else s
  match (sagOf s k).st with
  | .creating => createRest s k
  | .resetting =>
    let s := resetRest s k true
    let s := modSag s k (fun g => { g with st := if g.wasSealed then .sealed else .open, wasSealed := false })
    if (sagOf s k).destroyWaits then destroyRest (destroyStart s k) k else s
  | .removing => destroyRest s k
  | _ => s

def resetCmd (s : State) (k : Nat) : State :=
  resetStart (modSag s k (fun g => { g with st := .resetting, wasSealed := g.st == .sealed })) k

def ptBad (s : State) : Answer := { s, status := 1 }
def ptState (s : State) : Answer := { s, status := 2 }

def createOp (s : State) (k : Nat) : Answer :=
  let g := sagOf s k
  if g.reserved.any (fun w => w.2 != 0#64) then ptBad s
  else if g.st != .none then ptState s
  else if !(geometryOk g) then { s, status := 3 }
  else if claimedByOther s k then { s, status := 4 }
  else if !(present s g) then { s, status := 5 }
  else if !(oneEcc s g) then { s, status := 6 }
  else okay (createStart s k) 0

/-- The saggar owns the channel. -/
def ownsChannel (s : State) (k p : Nat) : Bool := exists_ (sagOf s k) && (ownedChannels (sagOf s k)).contains p

def testOpenOp (s : State) (k p : Nat) : Answer :=
  if ownsChannel s k p then
    okay (if testWindow s p then s
      else { s with pt := { s.pt with windows := s.pt.windows ++ [BitVec.toFin (BitVec.ofNat 8 p)] } }) 0
  else ptState s

def ptSag (w : W64) : Nat := field w 8 4

/-- A command of PT_CMD: its checks and its first step. -/
def ptCommand (s : State) (w : W64) : Answer :=
  let k := ptSag w
  let p := field w 16 8
  let g := sagOf s k
  let op := field w 0 8
  if !(accepting s) then ptState s
  else if field w 24 40 != 0 || field w 12 4 != 0 || (p != 0 && op != 5 && op != 6) then ptBad s
  else match op with
  | 1 => createOp s k
  | 2 => if sealOk s k then okay (sealStart s k) 0 else ptState s
  | 3 => if exists_ g then okay (resetCmd s k) 0 else ptState s
  | 4 =>
    if g.st == .resetting then okay (modSag s k (fun g => { g with destroyWaits := true })) 0
    else if exists_ g then okay (destroyStart s k) 0
    else ptState s
  | 5 => testOpenOp s k p
  | 6 => if ownsChannel s k p then okay (closeWindows s [p]) 0 else ptState s
  | _ => ptBad s

def setPtPort (s : State) (p : Port) : State := { s with pt := { s.pt with port := p } }

/-- A command takes effect; `ended` says that its long steps have ended too. -/
def ptRun (s : State) (w : W64) (ended : Bool) : State :=
  let a := ptCommand s w
  let s := setPtPort a.s (portDone s.pt.port false a)
  if ended && a.status = 0 then settleSag s (ptSag w) else s

/-- A write to PT_CMD: while the core that holds the partition commands fails over, it is held (R420). -/
def ptPort (s : State) (w : W64) (pace : Pace) : State :=
  if s.pt.port.busy then setPtPort s (portRefuse s.pt.port)
  else if pace == .checking || roleFails s 0 then setPtPort s (portCheck s.pt.port [w])
  else ptRun s w (pace == .ended)

/-- The port and the saggars come to rest. -/
def ptRest (s : State) : State :=
  if roleFails s 0 then s
  else
    let s := if s.pt.port.busy then ptRun s (word s.pt.port.todo 0) true else s
    if running s then (s.sags.map (fun g => g.1)).foldl settleSag s else s

/-- CREATE. -/
def execCreate (w : W64) (pace : Pace) (s : State) : Host.Outcome State Fault Refusal := .next (ptPort s (withOp 1 w) pace)

/-- SEAL. -/
def execSealCmd (w : W64) (pace : Pace) (s : State) : Host.Outcome State Fault Refusal := .next (ptPort s (withOp 2 w) pace)

/-- RESET. -/
def execReset (w : W64) (pace : Pace) (s : State) : Host.Outcome State Fault Refusal := .next (ptPort s (withOp 3 w) pace)

/-- DESTROY. -/
def execDestroy (w : W64) (pace : Pace) (s : State) : Host.Outcome State Fault Refusal := .next (ptPort s (withOp 4 w) pace)

/-- DESTROY_AFTER_RESET: the reset of a saggar with a DESTROY waiting ends, and the DESTROY runs (R365). -/
def execDestroyAfterReset (k : SagId) (pace : Pace) (s : State) : Host.Outcome State Fault Refusal :=
  let g := sagOf s k.val
  .next (
    if g.st == .resetting && g.destroyWaits && running s && !(sagWaits s k.val) then
      let s := resetRest s k.val true
      let s := modSag s k.val (fun g => { g with st := if g.wasSealed then .sealed else .open, wasSealed := false })
      let s := destroyStart s k.val
      if pace == .ended then destroyRest s k.val else s
    else s)

/-- TEST_OPEN. -/
def execTestOpen (w : W64) (pace : Pace) (s : State) : Host.Outcome State Fault Refusal := .next (ptPort s (withOp 5 w) pace)

/-- TEST_CLOSE. -/
def execTestClose (w : W64) (pace : Pace) (s : State) : Host.Outcome State Fault Refusal := .next (ptPort s (withOp 6 w) pace)

end Sys2Proof.Machine
end

