-- ==== Sys2Proof/Machine/Derset.lean ====
section
/-!
DEFINITION. The Derset link (spec/16): flits received, lane swaps, the host's coherent messages, requests to host memory with their
tags and answers, timeouts, and interrupts.
-/
namespace Sys2Proof.Machine

open Sys2Proof

-- Flits and lanes (R399, R401)

def dlServes (s : State) : Bool := s.dl.st == .up || s.dl.st == .swap

/-- A replay from a flit on: it counts but within a swap, and the sixteenth in succession of one flit puts the link in DOWN, unless
a recovery of the link runs or waits (R417). -/
def dlReplay (s : State) (seq : BitVec 12) : State :=
  if s.dl.st == .swap then s
  else
    let k := replayRun s.dl.replayed seq
    let s := crazeError { s with dl := { s.dl with replayCount := sat s.dl.replayCount 1, replayed := some (seq, k) } } 5 1
    if 16 ≤ k && !(inRecovery s unitDerset) then linkFall s else dlReplayFrom s seq

/-- Asks for a replay from the flit that is next; a request takes no place in the sequence of flits. -/
def dlAskReplay (d : Derset) : Derset :=
  { d with flits := d.flits ++ [{ seq := d.txSeq, acked := d.rxSeq - 1, credits := [], body := .replay d.rxSeq }] }

/-- What a flit acknowledges. -/
def dlTakeAck (d : Derset) (acked : BitVec 12) : Derset := { d with acked, replayed := if acked != d.acked then none else d.replayed }

/-- The credits that a flit returns. -/
def dlTakeCredits (d : Derset) (cs : List (Nat × Nat)) : Derset :=
  { d with used := cs.foldl (fun u c => listModify (fun x => x - c.2) u c.1) d.used }

/-- A message enters the receive space of its class; one with a reserved OP, or for which the device has granted no space, is a
protocol error. -/
def dlArrive (s : State) (x : DlIn) : State := match hostClass x.op.toNat with
  | some c =>
    if spaceUsed s.dl c + inUnits x ≤ deviceGrant.getD c 0 then { s with dl := { s.dl with input := s.dl.input ++ [x] } }
    else domainStop s causeProtocol 0 false
  | none => domainStop s causeProtocol 0 false

/-- The body of a flit in sequence: its whole messages arrive. -/
def dlTakeBody (s : State) : XlBody → State
  | .units bs =>
    let r := takeDl 64 (s.dl.rxBytes ++ bs)
    r.1.foldl dlArrive { s with dl := { s.dl with rxBytes := r.2 } }
  | _ => s

/-- DL_FLIT_RECEIVE: a good flit in sequence is taken, with what it acknowledges and the credits it returns; at a wrong one a replay
is requested; later ones are discarded. -/
def execDlFlitReceive (bs : List Byte) (s : State) : Host.Outcome State Fault Refusal :=
  .next (
    if !(dlServes s) then s
    else match dlParseFlit bs with
    | none => { s with dl := dlAskReplay s.dl }
    | some f => match f.body with
      | .replay seq => dlReplay { s with dl := dlTakeAck s.dl f.acked } seq
      | b =>
        if f.seq != s.dl.rxSeq then s
        else pumpDl (dlTakeBody { s with dl := dlTakeCredits (dlTakeAck { s.dl with rxSeq := s.dl.rxSeq + 1 } f.acked) f.credits } b))

/-- DL_ACK_TIMEOUT: the link replays from its oldest unacknowledged flit; in a swap the timer stands still. -/
def execDlAckTimeout (s : State) : Host.Outcome State Fault Refusal :=
  .next (if s.dl.st == .up && dlUnacked s.dl != 0 then dlReplay s (s.dl.acked + 1) else s)

/-- DL_LANE_SWAP: a receive lane has lost lock or reached SWAP_THRESH, or the host asks for the swap of a transmit lane. -/
def execDlLaneSwap (rx : Bool) (lane : Fin 34) (cause : SwapCause) (s : State) : Host.Outcome State Fault Refusal :=
  let used := if rx then s.dl.sparesRx else s.dl.sparesTx
  .next (
    if !(dlServes s) || (rx && cause == .threshold && s.dl.swapThresh == 0) then s
    else if 2 ≤ used && !(inRecovery s unitDerset) then linkFall s
    else detect s (.dlLane rx lane.val (cause == .lossOfLock)))

-- Coherent messages of the host (R406, R385)

/-- The host reaches the address: its saggar is OPEN, and it lies in a LIVE DEVICE object with HOST_MAP of a context of it. -/
def hostMapped (s : State) (k a : Nat) : Bool :=
  (sagOf s k).st == .open && s.obj.objs.any (fun o =>
    o.2.st == .live && !o.2.host && o.2.hostMap && o.2.sag.val == k && o.2.base.toNat ≤ a && a < o.2.base.toNat + o.2.len.toNat)

/-- A request is refused; in the carve-out of a SEALED saggar it also counts in HOST_DENY_COUNT. -/
def hostRefuse (s : State) (k a : Nat) (tag : BitVec 11) : State :=
  let deny := isSealed s k && a < carveSize s k
  sendHost { s with
    dl := { s.dl with refused := true, refusedCount := sat s.dl.refusedCount 1 }
    sec := { s.sec with hostDeny := if deny then sat s.sec.hostDeny 1 else s.sec.hostDeny } } (.refusal tag 1)

/-- The message of a class that a command names stands first in its receive space. -/
def isMsg (op : Nat) (m : HostMsg) (x : DlIn) : Bool :=
  x.op.toNat == op && x.tag == m.tag && x.addr == m.addr && x.malformed == m.malformed

/-- A coherent request of the host leaves its receive space: a protocol error stops the domain (R403); an illegal address is
UNSUPPORTED; one that is not allowed is refused; the rest go to the home of their line, with the sector, while the home takes them. -/
def hostCoherent (s : State) (op : Nat) (m : HostMsg) (data : List Byte) (takes : State → Nat → Bool)
    (body : State → Nat → Fin 2 → State) : State :=
  match dlTake s 0 (fun x => isMsg op m x && x.data == data) with
  | none => s
  | some (t, _) =>
    let k := dersetSag m.addr
    let a := dersetAddr m.addr
    if m.malformed then domainStop t causeProtocol 0 false
    else if 16 ≤ k || a % 64 != 0 then sendHost t (.refusal m.tag 3)
    else if !(hostMapped s k a) then hostRefuse t k a m.tag
    else match dersetSector s m.addr with
    | none => hostRefuse t k a m.tag
    | some x => if takes s x.1 then body t x.1 x.2 else s

/-- The home of a line has one of the entries of H free (R250). -/
def homeTakes (s : State) (l : Nat) : Bool := running s && homeUsed s l 4 < homeLimit 4

/-- C_RD_SHARED. -/
def execCRdShared (m : HostMsg) (env : MemEnv) (s : State) : Host.Outcome State Fault Refusal :=
  .next (meets env s (hostCoherent s 1 m [] homeTakes (fun s l i => acceptReq s l (.hostShared m.tag i) env)))

/-- C_RD_UNIQUE. -/
def execCRdUnique (m : HostMsg) (env : MemEnv) (s : State) : Host.Outcome State Fault Refusal :=
  .next (meets env s (hostCoherent s 2 m [] homeTakes (fun s l i => acceptReq s l (.hostUnique m.tag i) env)))

/-- C_UPGRADE. -/
def execCUpgrade (m : HostMsg) (env : MemEnv) (s : State) : Host.Outcome State Fault Refusal :=
  .next (meets env s (hostCoherent s 3 m [] homeTakes (fun s l i => acceptReq s l (.hostUpgrade m.tag i) env)))

/-- C_WR_BACK: a sector that the host holds unique returns modified, to DRAM; of any other nothing is written. -/
def execCWrBack (m : HostMsg) (data : List Byte) (env : MemEnv) (s : State) : Host.Outcome State Fault Refusal :=
  .next (meets env s (hostCoherent s 4 m data (fun s l => running s && chanServes s (lineChan l)) (fun s l i =>
    if hostSector s l i == .unique then sendHost (setHostSector (takeSector s l i data none env) l i .inv) (.done m.tag)
    else sendHost s (.done m.tag))))

/-- C_RD_NA. -/
def execCRdNa (m : HostMsg) (env : MemEnv) (s : State) : Host.Outcome State Fault Refusal :=
  .next (meets env s (hostCoherent s 5 m [] homeTakes (fun s l i => acceptReq s l (.hostRdNa m.tag (64 * i.val) 64) env)))

/-- C_WR_NA. -/
def execCWrNa (m : HostMsg) (data : List Byte) (env : MemEnv) (s : State) : Host.Outcome State Fault Refusal :=
  .next (meets env s (hostCoherent s 6 m data homeTakes (fun s l i => acceptReq s l (.hostWrNa m.tag (64 * i.val) (data.take 64)) env)))

-- The host's answers to snoops

/-- A snoop of a host sector that has been sent waits for its answer, and none is on its way. -/
def hostSnooped (s : State) (l : LineId) (i : Fin 2) : Bool :=
  let t : SnoopTarget := .host i
  (match (homeOf s l.toNat).txn with
    | some x => x.waiting.contains t
    | none => false) &&
  !(s.dl.out.any (fun m => match m with
    | .snpShared l' i' _ => l' == l && i' == i
    | .snpInv l' i' _ => l' == l && i' == i
    | .snpClean l' i' _ => l' == l && i' == i
    | _ => false)) &&
  !(s.fabric.any (fun m => match m with
    | .snpData t' l' _ _ => t' == t && l' == l
    | .snpAck t' l' _ => t' == t && l' == l
    | .notPresent t' l' => t' == t && l' == l
    | _ => false))

/-- An answer of the host leaves its receive space for the home of the sector that it names: without a snoop it is a protocol error
(R264). -/
def hostAnswer (s : State) (op : Nat) (data : List Byte) (l : LineId) (i : Fin 2) (m : FabMsg) : State :=
  let names (a : BitVec 52) : Bool := dersetSector s a == some (l.toNat, i)
  match dlTake s 2 (fun x => x.op.toNat == op && x.data == data && (names x.addr || x.malformed || (dersetSector s x.addr).isNone)) with
  | none => s
  | some (t, x) => if names x.addr && !x.malformed && hostSnooped t l i then send t m else domainStop t causeProtocol (lineKey l.toNat) false

/-- C_SNP_DATA. -/
def execCSnpData (l : LineId) (sector : Fin 2) (data : List Byte) (s : State) : Host.Outcome State Fault Refusal :=
  .next (hostAnswer s 0x24 data l sector (.snpData (.host sector) l false data))

/-- C_SNP_ACK. -/
def execCSnpAck (l : LineId) (sector : Fin 2) (s : State) : Host.Outcome State Fault Refusal :=
  .next (hostAnswer s 0x25 [] l sector (.snpAck (.host sector) l false))

/-- C_NOT_PRESENT. -/
def execCNotPresent (l : LineId) (sector : Fin 2) (s : State) : Host.Outcome State Fault Refusal :=
  .next (hostAnswer s 0x26 [] l sector (.notPresent (.host sector) l))

-- Requests to host memory (R407, R408)

/-- Tags reserved for a requester. -/
def tagReserve (who : Nat) : Nat := if who = 0 then 128 else if who ≤ 4 then 64 else 0

def tagsHeld (s : State) (who : Nat) : Nat := (s.dl.tags.filter (fun t => ownerWho t.2.owner == who)).length

/-- A requester has a free tag: one of its own, or a shared one of the 1,664; a copy engine holds 512 at most. -/
def tagFree (s : State) (who : Nat) : Bool :=
  let overs := sumOf ((List.range 21).map (fun w => tagsHeld s w - tagReserve w))
  (tagsHeld s who < tagReserve who || overs < 1664) && (who ≤ 4 || tagsHeld s who < 512) && (freeTag s).isSome

/-- The first waiting request of a requester. -/
def waitingOf (s : State) (who : Nat) : Option IoReq := s.dl.waiting.find? (fun q => q.who == who)

/-- The requester that is granted next: round-robin, one without a free tag is skipped. -/
def nextWho (s : State) : Option Nat :=
  ((List.range 21).map (fun i => (s.dl.lastWho + 1 + i) % 21)).find? (fun w => (waitingOf s w).isSome && tagFree s w)

/-- A granted store leaves its buffer (R271). -/
def grantedStore (s : State) (o : IoOwner) : State := match o with
  | .store c b _ =>
    match (subOf (coreOf s c.val) b.val).buffer with
    | e :: _ => if e.draining then afterDrain (popBuffer s c.val b.val) c.val else s
    | [] => s
  | _ => s

/-- IO_REQUEST_GRANT: the next request is sent under the lowest free tag. -/
def execIoRequestGrant (s : State) : Host.Outcome State Fault Refusal :=
  .next (
    if s.dl.st != .up || s.dl.stopped then s
    else match nextWho s with
    | none => s
    | some w => match waitingOf s w, freeTag s with
      | some q, some t =>
        let tag : BitVec 11 := BitVec.ofNat 11 t
        let s := { s with dl := { s.dl with
          waiting := s.dl.waiting.erase q, lastWho := w
          tags := tblPut s.dl.tags t { owner := q.owner, write := q.write, order := s.dl.sent, addr := q.addr } } }
        grantedStore (sendDl s (if q.write then .ioWr tag q.addr q.data else .ioRd tag q.addr q.len)) q.owner
      | _, _ => s)

-- Answers (R408, R409)

/-- The group that a load's request serves. -/
def loadSel (s : State) (c : CoreId) (b : SubId) (g : SlotId) (launch : Nat) (ub us : Nat) : Bool :=
  ub == b.val && us == g.val &&
  (blockOf (coreOf s c.val) (grpOf (subOf (coreOf s c.val) ub) us).blk.val).info.id == launch

/-- Data for the unit that asked. -/
def giveData (s : State) (t : IoTag) (data : List Byte) : State := match t.owner with
  | .fetch n first count => fetchAnswer s n first count (.data data)
  | .load c b g launch x =>
    pumpLoads (modCore s c.val (fun k => deliver k (loadSel s c b g launch) (hostBase + 64 * x) data)) c.val
  | .span c e id => spanAnswer s c.val e.val id false data
  | .store _ _ _ => s
  | .copy _ job ofs => copyArrive s job ofs data
  | .gone _ => s

/-- A write has been performed. -/
def giveDone (s : State) (t : IoTag) : State := match t.owner with
  | .span c e id => spanAnswer s c.val e.val id false []
  | .copy _ job ofs => copyWrote s job ofs
  | _ => s

/-- The error of a failed request, charged to the unit that issued it. -/
def giveError (s : State) (t : IoTag) : State := match t.owner with
  | .fetch n first count => fetchAnswer s n first count (.failed t.addr.toNat)
  | .load c b g launch x => failLoads s c.val (loadSel s c b g launch) (hostBase + 64 * x) 64
  | .span c e id => spanAnswer s c.val e.val id true []
  | .store c _ ms => settle (failMarks s c.val (ms.map (fun m => { launch := m.1, blk := m.2.1, thread := m.2.2.1, pc := m.2.2.2 })) t.addr.toNat) c.val
  | .copy _ job ofs => copyHostFail s job ofs t.write
  | .gone _ => s

def dropTag (s : State) (tag : Nat) : State := { s with dl := { s.dl with tags := tblDel s.dl.tags tag } }

/-- A response of the host: a late one is counted, one that names no outstanding request of its kind is a protocol error. -/
def hostResponse (s : State) (tag : BitVec 11) (write : Bool) (body : State → IoTag → State) : State :=
  if s.dl.stale.contains tag then { s with dl := { s.dl with timeoutCount := sat s.dl.timeoutCount 1 } }
  else match tblFind s.dl.tags tag.toNat with
  | none => domainStop s causeProtocol 0 false
  | some t => if t.write == write then body (dropTag s tag.toNat) t else domainStop s causeProtocol 0 false

/-- A response leaves its receive space; one with a reserved field that is not 0 is a protocol error. -/
def takeResponse (s : State) (op : Nat) (tag : BitVec 11) (status : BitVec 4) (data : List Byte) (body : State → State) : State :=
  match dlTake s 4 (fun x => x.op.toNat == op && x.tag == tag && x.status == status && x.data == data) with
  | none => s
  | some (t, x) => if x.malformed then domainStop t causeProtocol 0 false else body t

/-- IO_DATA. -/
def execIoData (tag : BitVec 11) (status : BitVec 4) (data : List Byte) (s : State) : Host.Outcome State Fault Refusal :=
  .next (takeResponse s 0x50 tag status data (fun s =>
    hostResponse s tag false (fun s t => if status == 0 then giveData s t data else giveError s t)))

/-- IO_DONE. -/
def execIoDone (tag : BitVec 11) (status : BitVec 4) (s : State) : Host.Outcome State Fault Refusal :=
  .next (takeResponse s 0x51 tag status [] (fun s =>
    hostResponse s tag true (fun s t => if status == 0 then giveDone s t else giveError s t)))

/-- The request of a tag still waits for its credits. -/
def unsent (s : State) (tag : BitVec 11) : Bool := s.dl.out.any (fun m => match m with
  | .ioRd t _ _ => t == tag
  | .ioWr t _ _ => t == tag
  | _ => false)

/-- DL_REQUEST_TIMEOUT: a request that was sent has timed out; of a tag that did, its 64 ms are over. -/
def execDlRequestTimeout (tag : BitVec 11) (s : State) : Host.Outcome State Fault Refusal :=
  .next (
    if inRecovery s unitDerset || unsent s tag then s
    else if s.dl.stale.contains tag then { s with dl := { s.dl with stale := s.dl.stale.filter (· != tag) } }
    else match tblFind s.dl.tags tag.toNat with
    | none => s
    | some t =>
      let s := dropTag s tag.toNat
      giveError { s with dl := { s.dl with
        stale := s.dl.stale ++ [tag], timeout := true, timeoutCount := sat s.dl.timeoutCount 1 } } t)

/-- HOST_SNOOP_TIMEOUT: the host has left a snoop of the line unanswered. -/
def execHostSnoopTimeout (l : LineId) (s : State) : Host.Outcome State Fault Refusal :=
  .next (if !(inRecovery s unitDerset) && (hostSnooped s l 0 || hostSnooped s l 1) then domainStop s causeHost (lineKey l.toNat) false else s)

/-- The first message of a class that waits has no credit. -/
def classStarves (s : State) (cls : Nat) : Bool := match s.dl.out.find? (fun m => dlClass m == cls) with
  | some m => !(dlCredit s.dl m)
  | none => false

/-- CREDIT_STARVATION: a message class holds a message and has had no credit for 20 ms. -/
def execCreditStarvation (cls : Fin 6) (s : State) : Host.Outcome State Fault Refusal :=
  .next (if inRecovery s unitDerset || !(classStarves s cls.val) then s else domainStop s causeHost 0 false)

-- Interrupts (R412)

/-- An IO_WR issued before a point in the order of sending has not ended. -/
def writesBefore (s : State) (n : Nat) : Bool := s.dl.tags.any (fun t => t.2.write && t.2.order < n)

/-- INT: the INT of the earliest cause is sent once the IO_WRs issued before it have ended. -/
def execInt (v : Fin 18) (s : State) : Host.Outcome State Fault Refusal :=
  .next (match s.dl.ints with
    | x :: rest =>
      if x.1 == v && s.dl.st == .up && !s.dl.stopped && !(writesBefore s x.2) then
        sendHost { s with dl := { s.dl with ints := rest, sentCount := sat s.dl.sentCount 1 } } (.int v)
      else s
    | [] => s)

/-- DL_INT_ACK written. -/
def execDlIntAck (be : BitVec 8) (w : W64) (s : State) : Host.Outcome State Fault Refusal :=
  let v := field w 0 5
  .next (
    if be.getLsbD 0 && v < 18 then { s with dl := { s.dl with pending := s.dl.pending &&& ~~~(BitVec.ofNat 18 (2 ^ v)) } }
    else s)

/-- DL_INT_MASK written: each vector unmasked with its pending bit set sends one INT. -/
def execDlIntMaskWrite (be : BitVec 8) (w : W64) (s : State) : Host.Outcome State Fault Refusal :=
  let m : BitVec 18 := BitVec.ofNat 18 (field (mergeBytes (BitVec.ofNat 64 s.dl.mask.toNat) be w) 0 18)
  let go := (List.finRange 18).filter (fun v => s.dl.mask.getLsbD v.val && !(m.getLsbD v.val) && s.dl.pending.getLsbD v.val)
  .next { s with dl := { s.dl with mask := m, ints := s.dl.ints ++ go.map (fun v => (v, s.dl.sent)) } }

end Sys2Proof.Machine
end

