-- ==== Sys2Proof/Machine/Record.lean ====
section
/-!
DEFINITION. The firing log's window and the crazing record (R426 to R431): powered seconds, thermal cycles, summaries, wear, and
the calendar.
-/
namespace Sys2Proof.Machine

open Sys2Proof

-- The firing log's window (R426)

/-- FIRING_LOG_READ: a read of the window marks the entry it falls in as read. -/
def execFiringLogRead (ofs : BitVec 17) (s : State) : Host.Outcome State Fault Refusal :=
  .next { s with ras := { s.ras with
    log := s.ras.log.map (fun e => if e.seq.toNat % 4096 == ofs.toNat / 32 then { e with read := true } else e) } }

-- Powered seconds (R429)

/-- The bin of a reading in sixteenths of a degree. -/
def tempBin (t : Int) : Nat := if t < 45 * 16 then 0 else if 105 * 16 ≤ t then 13 else ((t - 40 * 16) / 80).toNat

/-- The thermal-cycle count on one reading. -/
def cycleStep (z : Crazing) (t : Int) : Crazing :=
  match z.lo with
  | none => { z with lo := some t, hi := t, rising := true }
  | some lo =>
    if z.rising then
      let hi := if z.hi < t then t else z.hi
      if t ≤ hi - 640 then
        { z with hi, rising := false, lo := some t, thermalCycles := if 640 ≤ hi - lo then sat z.thermalCycles 1 else z.thermalCycles }
      else { z with hi }
    else
      let lo := if t < lo then t else lo
      if lo + 640 ≤ t then { z with rising := true, hi := t, lo := some lo } else { z with lo := some lo }

/-- What one powered second adds to the record: the hottest plausible compute-die junction, the stacks' temperatures, and the
input energy. -/
def secondStep (z : Crazing) (junction : Option (BitVec 16)) (memStacks : List (BitVec 16)) (watts : Nat) : Crazing :=
  let z := { z with poweredS := z.poweredS + 1, energyWs := z.energyWs + watts }
  let z := { z with stackBins := (z.stackBins.zip memStacks).map (fun p => listModify (· + 1) p.1 (tempBin p.2.toInt)) }
  match junction with
  | none => z
  | some t => cycleStep { z with dieBins := listModify (· + 1) z.dieBins (tempBin t.toInt) } t.toInt

/-- POWERED_SECOND. -/
def execPoweredSecond (junction : Option (BitVec 16)) (watts : Nat) (s : State) : Host.Outcome State Fault Refusal :=
  .next (modCraze s (fun z => secondStep z junction (s.memStacks.map (fun k => k.temp)) watts))

-- Wear (R431)

/-- Twice to the fourth root, and its cube, in units of 2^-64. -/
def root4 : Nat := 21936999301089678046
def root4cubed : Nat := 31023601929370129896

/-- 32 × 2^((T_b - 85) / 10) of a bin in units of 2^-64. -/
def binWeight (b : Nat) : Nat := if b % 2 = 0 then root4cubed * 2 ^ (b / 2) else root4 * 2 ^ ((b + 1) / 2)

/-- WEAR_T of seconds in bins, in units of 2^-32, rounded down. -/
def wearOf (bins : List Nat) : Nat :=
  let total : Nat := (bins.zipIdx.map (fun p => p.1 * binWeight p.2)).foldl (· + ·) 0
  total / (2 ^ 37 * 216000000)

def wearT (z : Crazing) : Nat := (z.stackBins.map wearOf).foldl max (wearOf z.dieBins)
def wearC (z : Crazing) : Nat := z.thermalCycles.toNat * 2 ^ 32 / 20000

/-- The summary from which the trend is taken. -/
def trendBase (held : List Summary) (now : Nat) : Option Summary :=
  match held.find? (fun x => x.counters.poweredS.toNat + 864000 ≤ now) with
  | some x => some x
  | none => held.getLast?

/-- REMAINING_HOURS from W and the trend. -/
def remainHours (held : List Summary) (now w : Nat) : Nat :=
  if 2 ^ 32 ≤ w then 0
  else match trendBase held now with
    | none => 0xFFFFFFFF
    | some x =>
      if w ≤ x.wear then 0xFFFFFFFF
      else min 0xFFFFFFFF ((2 ^ 32 - w) * (now - x.counters.poweredS.toNat) / (3600 * (w - x.wear)))

/-- REMAINING_DAYS from REMAINING_HOURS and the calendar stamps. -/
def remainDays (z : Crazing) (hours : Nat) : Nat :=
  match z.stampFirst, z.stampLast with
  | some a, some b =>
    let cal := b.1.toNat - a.1.toNat
    let pow := b.2.toNat - a.2.toNat
    if cal < 604800 || pow = 0 then 0xFFFF
    else
      let days := hours * cal / (24 * pow)
      if 0xFFFE < days then 0xFFFF else days
  | _, _ => 0xFFFF

/-- The wear figures brought up to date. -/
def wearUpdate (held : List Summary) (z : Crazing) : Crazing :=
  let w := max (wearT z) (wearC z)
  let hours := remainHours held z.poweredS.toNat w
  { z with wearT := BitVec.ofNat 64 (wearT z), wearC := BitVec.ofNat 64 (wearC z)
           remainingHours := BitVec.ofNat 32 hours, remainingDays := BitVec.ofNat 16 (remainDays z hours) }

-- Summaries (R428, Table 17-9)

def stampBytes (x : Option (W64 × W64)) : List Byte := match x with
  | some p => leBytes 8 p.1.toNat ++ leBytes 8 p.2.toNat
  | none => List.replicate 16 0

/-- The bytes of a summary but for its CRC. -/
def summaryBody (s : State) (z : Crazing) : List Byte :=
  let img := s.sec.slots.getD s.sec.bootSlot.val {}
  let mapped (b : BitVec 8) : Nat := boolNat (b.getLsbD 7)
  let dq := sumOf (s.chans.map (fun c => sumOf (c.2.dqSpare.map mapped)))
  let ca := sumOf (s.chans.map (fun c => mapped c.2.caSpare0 + mapped c.2.caSpare1))
  let xl := sumOf (s.xl.ports.map (fun p => p.sparesUsed))
  let body := leBytes 4 0x43525A48 ++ leBytes 2 1 ++ leBytes 2 0 ++ leBytes 8 z.seq.toNat ++ leBytes 8 z.poweredS.toNat ++
    leBytes 8 (z.energyWs / 3600) ++ leBytes 4 z.thermalCycles.toNat ++ leBytes 4 z.powerOns.toNat ++
    z.dieBins.flatMap (leBytes 8) ++ z.stackBins.flatMap (fun b => b.flatMap (fun n => leBytes 4 (n / 60))) ++
    leBytes 2 z.coresRetired.toNat ++ leBytes 2 z.sparesUsed.toNat ++ leBytes 4 z.rowsRemapped.toNat ++ leBytes 2 dq ++ leBytes 2 ca ++
    leBytes 1 xl ++ leBytes 1 (s.dl.sparesTx + s.dl.sparesRx) ++ leBytes 1 z.failovers.toNat ++ leBytes 1 z.portsRetired.toNat ++
    z.channelsRetired.flatMap (fun w => leBytes 8 w.toNat) ++ z.coreMap.flatMap (fun w => leBytes 8 w.toNat) ++
    z.errors.flatMap (leBytes 8) ++ leBytes 4 img.svn.toNat ++ leBytes 4 z.fwChanges.toNat ++ leBytes 8 img.build.toNat ++
    stampBytes z.stampFirst ++ stampBytes z.stampLast ++ leBytes 8 z.wearT.toNat ++ leBytes 8 z.wearC.toNat ++
    leBytes 4 z.remainingHours.toNat ++ leBytes 2 z.remainingDays.toNat
  body ++ List.replicate (4092 - body.length) 0

/-- The sector of a summary's slot: 16 slots of 4 KiB. -/
def summarySector (x : Summary) : Nat := x.counters.seq.toNat % 256 / 16

/-- A summary is written to its slot; the first slot of a sector erases the sector. LIFE_WARN is logged once. -/
def writeSummary (s : State) : State :=
  let z := wearUpdate s.ras.summaries { s.ras.craze with seq := s.ras.craze.seq + 1 }
  let w := max (wearT z) (wearC z)
  let warn := 9 * 2 ^ 32 ≤ 10 * w && !z.lifeWarned
  let z := { z with lifeWarned := z.lifeWarned || warn }
  let body := summaryBody s z
  let x : Summary := { wear := w, counters := z, bytes := body ++ leBytes 4 (crc32c body) }
  let slot := z.seq.toNat % 256
  let held := s.ras.summaries.filter (fun y =>
    if slot % 16 = 0 then summarySector y != slot / 16 else y.counters.seq.toNat % 256 != slot)
  let s := { s with ras := { s.ras with craze := z, summaries := x :: held } }
  if warn then logEvent s 0x18 7 noPart unitDevice 0 0 else s

/-- SUMMARY_WRITE: the summary of every 3,600 powered seconds. -/
def execSummaryWrite (s : State) : Host.Outcome State Fault Refusal := .next (writeSummary s)

/-- A firmware image has been committed or booted: it is logged, and a summary is written (Table 17-7, R428). -/
def fwUpdate (s : State) (build svn : Nat) : State := writeSummary (logEvent s 0x16 7 noPart unitDevice build svn)

-- The calendar (R430)

/-- RAS_CAL's reading. -/
def calWord (s : State) : W64 := lastStamp s.ras.craze

/-- RAS_CAL written. -/
def execRasCalWrite (be : BitVec 8) (w : W64) (s : State) : Host.Outcome State Fault Refusal :=
  let v := mergeBytes (calWord s) be w
  .next (
    if be == 0 then s
    else if v.toNat < 1704067200 || 4102444800 < v.toNat then
      { s with ras := { s.ras with calReject := true, calRejectCount := sat s.ras.calRejectCount 1 } }
    else
      let back : Bool := v.toNat < (calWord s).toNat
      let s := modCraze s (fun z =>
        let p : W64 × W64 := (v, z.poweredS)
        { z with stampLast := some p, stampFirst := if z.stampFirst.isSome then z.stampFirst else some p })
      if back then logEvent s 0x17 7 noPart unitDevice 0 0 else s)

end Sys2Proof.Machine
end

