-- ==== Sys2Proof/Machine/Ras.lean ====
section
/-!
DEFINITION. Service commands (spec/17): domain reset, core and channel retirement, online test, row remaps, self-test; and the
orderly quiesce (spec/19).
-/
namespace Sys2Proof.Machine

open Sys2Proof

-- Domain reset (R419, Table 17-3)

/-- A ring DISABLED with nothing of it left. -/
def haltRing (r : Ring) : Ring :=
  { r with st := .disabled, entries := [], fetches := [], cores := [], engine := none, coresIn := [], engineIn := false, graceOver := false }

/-- Step 2: cores, engines, sequencers and front end hold nothing; answers to the requests that are out bring nothing. -/
def haltAll (s : State) : State :=
  let s := dropRequests s (fun _ => true)
  { s with
    icaches := []
    cores := s.cores.map (fun c => (c.1, haltCore c.2))
    nmOps := [], codecOps := []
    memStacks := s.memStacks.map (fun k => { k with accQueue := [], staging := none })
    fe := { s.fe with
      rings := s.fe.rings.map (fun r => (r.1, haltRing r.2)), launches := [], rtQueue := [], bulkQueue := [], handed := [], copies := []
      waits := [], runs := [] }
    xl := { s.xl with engines := s.xl.engines.map (fun e => { e with jobs := [], trackers := [] }) } }

/-- Step 4: the L2, the filters, the reservation arrays and the predictors are empty. -/
def emptyL2 (s : State) : State :=
  { s with
    dies := s.dies.map (fun d => { d with near := [], far := [], predictor := [], rsvArray := [], lastFar := [] })
    homes := [], fabric := [], filter := [], hostFilter := [] }

/-- A saggar that is SEALED, or was when its reset or removal began. -/
def everSealed (g : Saggar) : Bool := g.st == .sealed || ((g.st == .resetting || g.st == .removing) && g.wasSealed)

/-- A saggar is removed: of a SEALED one a record is made, with no channel scrubbed and no epoch begun. -/
def removeSag (s : State) (k : Nat) : State :=
  let g := sagOf s k
  if g.st == .none then s
  else
    let own := ownedChannels g
    let s := if everSealed g then keepRemoval s k (removalOf s k g.epoch false) else s
    emptyBooks (returnAll (closeWindows (own.foldl tgStop s) own) k) k

/-- Step 5: every saggar is removed, with its names, its slice and its counters. -/
def removeAll (s : State) : State :=
  let s := (List.range 16).foldl removeSag s
  { s with
    obj := { s.obj with
      ctxs := s.obj.ctxs.map (fun c => (c.1, { c.2 with st := .free })), objs := [], pages := [] }
    fe := { s.fe with graphs := [] }
    xl := { s.xl with
      slices := s.xl.slices.map (fun p =>
        (p.1, { stopCount := p.2.stopCount, rejectCount := p.2.rejectCount, cause := p.2.cause, stopOrigin := p.2.stopOrigin
                cfgReject := p.2.cfgReject }))
      cones := s.xl.cones.map (fun c => (c.1, { c.2 with assigned := false })), seen := [] } }

/-- Steps 2 to 7. -/
def domainResetRest (s : State) : State :=
  let s := haltAll s
  let s := { s with
    bridges := s.bridges.zipIdx.map (fun p => if s.ras.deadBridges.any (fun b => b.val == p.2) then {} else p.1)
    ras := { s.ras with deadBridges := [] } }
  let s := removeAll (emptyL2 s)
  let s := swapCores s (List.range 256)
  let s := { s with ras := { s.ras with serviceOrdering := false, domain := .running, stopByLink := false } }
  logEvent s 0x14 7 noPart unitDevice 0 0

-- RAS_CMD (R432, Table 17-15)

def rasBounds (s : State) : Answer := { s, status := 3 }
def rasFull (s : State) : Answer := { s, status := 4 }

def domainResetOp (s : State) : Answer :=
  if s.ras.domain == .stopped && !s.ras.stopByLink then
    okay { s with ras := { s.ras with domain := .resetting, serviceOrdering := true } } 0
  else ptState s

def markCoreOp (s : State) (c : Nat) : Answer :=
  if (coreOf s c).st != .active then ptState s
  else
    let s := retireCore s c 3
    okay (match (coreOf s c).partition with
      | some k => failHeads s k.val
      | none => s) 0

def retireChannelOp (s : State) (p : Nat) : Answer :=
  if (chanOf s p).st != .free then ptState s
  else
    let s := harvestChanged (modChan (tgStop s p) p (fun c => { c with st := .retired }))
    let s := modCraze s (fun z =>
      { z with channelsRetired := listModify (fun m => m ||| BitVec.ofNat 64 (2 ^ (p % 64))) z.channelsRetired (p / 64) })
    okay (noteRepair s (unitChannel p) (repairChannel p)) 0

/-- A saggar owns a cluster. -/
def clusterOwned (s : State) (g : Nat) : Bool := s.sags.any (fun p => p.2.st != .none && p.2.clusters.getLsbD g)

def testClusterOp (s : State) (g : Nat) : Answer :=
  if clusterOwned s g then ptState s
  else okay ((clusterCores g).foldl (fun t c =>
    if (coreOf t c).st == .active then modCore t c (fun k => { k with st := .test }) else t) s) 0

def endTestOp (s : State) (g : Nat) : Answer :=
  if (clusterCores g).any (fun c => (coreOf s c).st == .test) then okay (stopTests s (clusterCores g)) 0 else ptState s

/-- REMAP_ROW joins the recovery queue (R416); without a spare row or a repair entry it is logged and refused. -/
def remapRowOp (s : State) (p bank row : Nat) : Answer :=
  let c := chanOf s p
  let noSpare (t : State) : State := logEvent t 0x09 7 noPart (unitChannel p) 0 0
  if c.st != .owned && c.st != .free then ptState s
  else if c.strong && 30720 ≤ row then rasBounds s
  else if 8 ≤ s.ras.queue.length then rasFull s
  else if 327680 ≤ s.ras.repair.length then rasFull (noSpare s)
  else if !(rowSpare c bank) then rasFull (logEvent (noSpare s) 0x15 7 noPart (unitChannel p) 0 0)
  else okay (addRecovery s (.row (BitVec.toFin (BitVec.ofNat 8 p)) bank row)) 0

/-- The bits of the word that an OP names. -/
def rasNamed : Nat → Option W64
  | 1 => some 0
  | 2 => some (ones 16 8)
  | 3 => some (ones 16 8)
  | 4 => some (ones 16 4)
  | 5 => some (ones 16 4)
  | 6 => some (ones 16 14 ||| ones 32 15)
  | _ => none

def rasCommand (s : State) (w : W64) : Answer :=
  let op := field w 0 8
  if !(ready s) then ptState s
  else match rasNamed op with
  | none => ptBad s
  | some m =>
    if !(onlyBits w (m ||| 0xFF#64)) then ptBad s
    else match op with
    | 1 => domainResetOp s
    | 2 => markCoreOp s (field w 16 8)
    | 3 => retireChannelOp s (field w 16 8)
    | 4 => testClusterOp s (field w 16 4)
    | 5 => endTestOp s (field w 16 4)
    | _ => remapRowOp s (field w 16 8) (field w 24 6) (field w 32 15)

def setRasPort (s : State) (p : Port) : State := { s with ras := { s.ras with port := p } }

/-- The long steps of DOMAIN_RESET end. -/
def settleDomain (s : State) : State := if s.ras.domain == .resetting then domainResetRest s else s

def rasRun (s : State) (w : W64) (ended : Bool) : State :=
  let a := rasCommand s w
  let s := setRasPort a.s (portDone s.ras.port false a)
  if ended then settleDomain s else s

/-- A write to RAS_CMD; while a command is being checked it is discarded, and during a failover it waits (R432). -/
def rasPort (s : State) (w : W64) (pace : Pace) : State :=
  if s.ras.port.busy then s
  else if pace == .checking || failingOver s then setRasPort s (portCheck s.ras.port [w])
  else rasRun s w (pace == .ended)

/-- The port and a domain reset come to rest. -/
def rasRest (s : State) : State :=
  if failingOver s then s else settleDomain (if s.ras.port.busy then rasRun s (word s.ras.port.todo 0) true else s)

/-- DOMAIN_RESET. -/
def execDomainReset (w : W64) (pace : Pace) (s : State) : Host.Outcome State Fault Refusal := .next (rasPort s (withOp 1 w) pace)

/-- MARK_CORE. -/
def execMarkCore (w : W64) (pace : Pace) (s : State) : Host.Outcome State Fault Refusal := .next (rasPort s (withOp 2 w) pace)

/-- RETIRE_CHANNEL. -/
def execRetireChannel (w : W64) (pace : Pace) (s : State) : Host.Outcome State Fault Refusal := .next (rasPort s (withOp 3 w) pace)

/-- TEST_CLUSTER. -/
def execTestCluster (w : W64) (pace : Pace) (s : State) : Host.Outcome State Fault Refusal := .next (rasPort s (withOp 4 w) pace)

/-- END_TEST. -/
def execEndTest (w : W64) (pace : Pace) (s : State) : Host.Outcome State Fault Refusal := .next (rasPort s (withOp 5 w) pace)

/-- REMAP_ROW. -/
def execRemapRow (w : W64) (pace : Pace) (s : State) : Host.Outcome State Fault Refusal := .next (rasPort s (withOp 6 w) pace)

/-- SELF_TEST_PASS: a pass of the self-test of a SPARE or a TEST core ends (R421, R425). -/
def execSelfTestPass (c : CoreId) (ok : Bool) (s : State) : Host.Outcome State Fault Refusal :=
  let k := coreOf s c.val
  .next (
    if k.st != .spare && k.st != .test then s
    else if ok then modCore s c.val (fun k => { k with selfTest := true })
    else
      let s := modCore s c.val (fun k => { k with selfTest := false })
      coreRetired (logEvent s 0x06 1 (corePart k) (unitCore c.val) 0 0) c.val)

-- Orderly quiesce (R468 to R470, Table 19-6)

/-- A ring is destroyed with a grace period of 0 (R333). -/
def destroyNow (s : State) (n : Nat) : State :=
  let s := dropCodecs (abortRing (destroyRing s n) n) n
  let r := ringOf s n
  disableRing (fenceSignal (modRing s n (fun r => { r with retired := r.tail })) r.qfence.toNat r.tail) n

/-- Rings whose work has not ended. -/
def busyRings (s : State) : List Nat :=
  (s.fe.rings.filter (fun r => r.2.st != .disabled && !(ringIdle s r.1))).map (fun r => r.1)

/-- Step 2 at its timeout. -/
def drainTimeout (s : State) : State :=
  match busyRings s with
  | [] => s
  | ns => ns.foldl destroyNow { s with ras := { s.ras with quiesceAborted := true } }

/-- The store buffer of a sub-core drains as far as it can now: `n` entries. -/
def drainAll (p : Place) : Nat → State → State
  | 0, s => s
  | n + 1, s => drainAll p n (drainBuffer p noErr s)

/-- Step 3: every store buffer drains. -/
def drainCores (s : State) : State :=
  (List.finRange 256).foldl (fun t c => (List.finRange 4).foldl (fun u b =>
    drainAll { core := c, sub := b } (subOf (coreOf u c.val) b.val).buffer.length u) t) s

/-- The end of step 3: every store buffer is empty, every engine has performed its writes, and no request, message or write of the
host is under way (R289, R290). -/
def allQuiet (s : State) : Bool :=
  s.cores.all (fun c => c.2.subs.all (fun b => b.buffer.isEmpty)) && s.memStacks.all (fun k => k.accQueue.isEmpty) &&
  s.nmOps.isEmpty && s.codecOps.isEmpty && s.fe.copies.isEmpty && s.fabric.isEmpty && s.dl.waiting.isEmpty &&
  !(s.dl.tags.any (fun t => t.2.write)) && s.homes.all (fun h => h.2.txn.isNone && h.2.queue.isEmpty)

/-- Steps 5 and 6. -/
def quiesceEnd (s : State) (q : Nat) : State :=
  let s := writeSummary s
  { s with pwr := { s.pwr with readyOff := true }, ras := { s.ras with qstate := BitVec.ofNat 4 q } }

/-- Step 2 from its timeout on, and the steps after it: what step 3 still waits for ends by commands of its own, with QSTATE in
DRAINING. -/
def quiesceRest (s : State) : State :=
  if s.ras.qstate == 1 then
    let s := drainTimeout s
    if running s then
      let s := drainCores s
      if allQuiet s then
        let s := { s with ras := { s.ras with qstate := 2 } }
        quiesceEnd (walkL2 s (List.range 256) true) (if s.ras.quiesceAborted then 4 else 3)
      else s
    else quiesceEnd s 5
  else if s.ras.qstate == 2 then quiesceEnd s 3
  else s

def quiesceWord (s : State) : W64 := BitVec.ofNat 64 (2 * s.ras.timeoutMs.toNat)

/-- A START is taken. -/
def quiesceOk (s : State) : Bool :=
  s.ras.qstate == 0 && ((s.ras.phase == 8 && s.ras.domain != .resetting) || (s.ras.fail != 0 && s.dl.st == .up))

/-- ORDERLY_QUIESCE: RAS_QUIESCE written. A word whose TIMEOUT_MS is out of its range is ignored whole (R471). After a failed
start-up only the summary is written. -/
def execOrderlyQuiesce (be : BitVec 8) (w : W64) (pace : Pace) (s : State) : Host.Outcome State Fault Refusal :=
  let v := mergeBytes (quiesceWord s) be w
  let t := field v 1 16
  .next (
    if t = 0 || 10000 < t then s
    else
      let s := { s with ras := { s.ras with timeoutMs := BitVec.ofNat 16 t } }
      if bit v 0 && quiesceOk s then
        let s := { s with ras := { s.ras with qstate := if s.ras.fail == 0 then 1 else 2, quiesceAborted := false } }
        if pace == .ended then quiesceRest s else s
      else s)

/-- QUIESCE_DRAIN_TIMEOUT: rings that are not idle are destroyed (Table 19-6, step 2). -/
def execQuiesceDrainTimeout (s : State) : Host.Outcome State Fault Refusal :=
  .next (if s.ras.qstate == 1 then drainTimeout s else s)

end Sys2Proof.Machine
end

