-- ==== Sys2Proof/Machine/Power.lean ====
section
/-!
DEFINITION. Power, clocks and sensors (spec/18): input states, the main rails, the module reset, REFCLK and holdover, the power
loop, and the sensors.
-/
namespace Sys2Proof.Machine

open Sys2Proof

def modPwr (s : State) (f : Power → Power) : State := { s with pwr := f s.pwr }

-- The module reset (R444, R445, Table 18-8)

/-- The cores as built: absent ones, and the spare of each cluster. -/
def builtState (f : Fuses) (c : Nat) : CoreSt :=
  if f.coresAbsent.any (fun x => x.val == c) then .absent
  else if ((f.spareOf.getD (c / 16) 15).val == c % 16) then .spare
  else .active

def builtCores (f : Fuses) : Tbl Core :=
  (List.range 256).filterMap (fun c => if builtState f c == .active then none else some (c, { st := builtState f c }))

/-- The cores after a module reset: as built, but a RETIRED one stays RETIRED until power-off (R422). -/
def resetCores (s : State) : Tbl Core :=
  (List.range 256).filterMap (fun c =>
    let st := if (coreOf s c).st == .retired then CoreSt.retired else builtState s.fuses c
    if st == .active then none else some (c, { st }))

/-- What a module reset leaves of a channel: its harvest, RETIRED (R422), and the counts that only power-on clears (R162, R184). -/
def resetChan (c : Channel) : Channel :=
  { st := if c.st == .retired then .retired else .untrained, corrected := c.corrected, retrainCount := c.retrainCount, keyRefusedCount := c.keyRefusedCount
    uncorrectedCount := c.uncorrectedCount, engine := c.engine, abortCount := c.abortCount, dataErrCount := c.dataErrCount
    tg := { doneCount := c.tg.doneCount, mismatchCount := c.tg.mismatchCount, rejectCount := c.tg.rejectCount } }

def resetStack (k : Stack) : Stack :=
  { stopCount := k.stopCount, rejectCount := k.rejectCount, codec := k.codec, malformedCount := k.malformedCount }

def resetDie (d : Die) : Die :=
  { corrected := d.corrected, stale := d.stale, badCount := d.badCount, farAtomics := d.farAtomics }

/-- Of a port stay RETIRED (R344), its counts and what it has sent. -/
def resetXlPort (p : XlPort) : XlPort :=
  { st := if p.st == .retired then .retired else .unused, replayCount := p.replayCount, swapCount := p.swapCount, downCount := p.downCount, tx := p.tx }

def resetXator (x : Xator) : Xator :=
  { ports := x.ports.map resetXlPort, discardCount := x.discardCount, epochCount := x.epochCount, authCount := x.authCount
    slices := x.slices.filterMap (fun p =>
      let r : SliceReg := { stopCount := p.2.stopCount, rejectCount := p.2.rejectCount }
      if r = {} then none else some (p.1, r)) }

def resetLink (d : Derset) : Derset :=
  { replayCount := d.replayCount, refusedCount := d.refusedCount, timeoutCount := d.timeoutCount, swapCount := d.swapCount
    sentCount := d.sentCount, tx := d.tx, flits := d.flits }

def resetRings (t : Tbl Ring) : Tbl Ring :=
  t.filterMap (fun p => if p.2.enableRejectCount = 0 then none else some (p.1, { enableRejectCount := p.2.enableRejectCount }))

/-- The record that start-up takes as current: the newest summary (R428). -/
def currentRecord (r : Ras) : Crazing := match r.summaries with
  | x :: _ => { x.counters with remainingHours := 0xFFFFFFFF, remainingDays := 0xFFFF, rising := true, lo := none, hi := 0 }
  | [] => {}

/-- Of service firmware stay the flash, the firing log with its numbers, and the counts that power-on clears. -/
def resetRas (r : Ras) : Ras :=
  { stopCount := r.stopCount, recoveryCount := r.recoveryCount, calRejectCount := r.calRejectCount, log := r.log
    nextSeq := r.nextSeq, lostCount := r.lostCount, powerCounted := r.powerCounted, lastImage := r.lastImage
    craze := currentRecord r, summaries := r.summaries, repair := r.repair, history := r.history }

/-- Of the security processor stay the flash slots, the fuses, the lock on the seed, and the model's numbering of keys. -/
def resetSec (x : Security) : Security :=
  { slots := x.slots, fusedSvn := x.fusedSvn, romVersion := x.romVersion, nextKey := x.nextKey, seedLocked := x.seedLocked }

/-- The main domain's part of the power controller starts again; the standby domain, PWR_STATUS and the board limit stay. -/
def resetPwr (p : Power) : Power :=
  { p with
    profile := 0, profileNow := 0, caps := {}, below := 0, jthrottle := false, holdover := false
    inputW := 0, inputDv := 0, hotC := 0, hotH := 0, hotE := 0
    junctions := [], junctionC := 0, junctionH := 0, junctionE := 0, hotSensors := [] }

/-- Everything of the main domain starts again. -/
def mainReset (s : State) : State :=
  { State.reset with
    pending := s.pending, free := s.free, now := s.now, fuses := s.fuses
    cores := resetCores s
    chans := (s.chans.map (fun p => (p.1, resetChan p.2))).filter (fun p => p.2 != {})
    memStacks := s.memStacks.map resetStack
    dies := s.dies.map resetDie
    backinv := s.backinv
    xl := resetXator s.xl
    dl := resetLink s.dl
    fe := { rings := resetRings s.fe.rings }
    ras := resetRas s.ras
    sec := resetSec s.sec
    pwr := resetPwr s.pwr }

-- The rails (R440)

/-- The main rails are off. -/
def railsOff (s : State) : State :=
  modPwr (mainReset s) (fun p => { p with mainRails := false, pwrgd := false })

/-- The main rails switch off by the module's own decision and stay off until PWR_EN goes low. -/
def shutDown (s : State) (cause : BitVec 4) : State :=
  modPwr (railsOff s) (fun p => { p with
    resetCause := cause, railsHeld := true, input := if p.input == .off then .off else .standby })

-- Input states (R439, R441, Table 18-4)

/-- Everything is off; the counts are cleared, and the cause is kept for PWR_STATUS when the rails were on. -/
def powerOff (s : State) (cause : BitVec 4) (ov : Bool) : State :=
  let s1 := mainReset s
  { s1 with
    cores := builtCores s.fuses
    chans := (s1.chans.map (fun p => (p.1, { engine := p.2.engine : Channel }))).filter (fun p => p.2 != {})
    memStacks := s1.memStacks.map (fun k => { codec := k.codec : Stack })
    dies := List.replicate 4 {}, backinv := 0
    xl := { ports := s1.xl.ports.map (fun p => { tx := p.tx : XlPort }) }
    dl := { tx := s1.dl.tx, flits := s1.dl.flits }
    fe := {}
    ras := { craze := s1.ras.craze, summaries := s1.ras.summaries, repair := s1.ras.repair, history := s1.ras.history
             lastImage := s1.ras.lastImage }
    sec := { slots := s1.sec.slots, fusedSvn := s1.sec.fusedSvn, romVersion := s1.sec.romVersion, nextKey := s1.sec.nextKey }
    pwr := { input := .off, ovShutdown := ov, pwrEn := s.pwr.pwrEn, resetCause := if s.pwr.mainRails then cause else 0
             jtag := s.pwr.jtag, jtagReg := s.pwr.jtagReg, boundary := s.pwr.boundary } }

/-- STANDBY_ENTRY: the standby domain starts; the address straps are sampled (R438). -/
def execStandbyEntry (straps : Fin 8) (s : State) : Host.Outcome State Fault Refusal :=
  .next (if s.pwr.input == .off && !s.pwr.ovShutdown then modPwr s (fun p => { p with input := .standby, straps }) else s)

/-- UVLO; it also ends the hold of an OV shutdown. -/
def execUvlo (s : State) : Host.Outcome State Fault Refusal :=
  .next (if s.pwr.input == .off then modPwr s (fun p => { p with ovShutdown := false }) else powerOff s 3 false)

/-- OV_SHUTDOWN. -/
def execOvShutdown (s : State) : Host.Outcome State Fault Refusal :=
  .next (if s.pwr.input == .off then s else powerOff s 4 true)

def enterBrownout (s : State) : State :=
  raise (modPwr s (fun p => { p with input := .brownout, brownout := true, brownoutCount := sat p.brownoutCount 1 })) vService

/-- BROWNOUT. -/
def execBrownout (s : State) : Host.Outcome State Fault Refusal :=
  .next (if s.pwr.input == .operating then enterBrownout s else s)

/-- BROWNOUT_EXIT: the module leaves BROWNOUT or OVERVOLT. -/
def execBrownoutExit (s : State) : Host.Outcome State Fault Refusal :=
  .next (if s.pwr.input == .brownout || s.pwr.input == .overvolt then modPwr s (fun p => { p with input := .operating }) else s)

/-- OVERVOLT. -/
def execOvervolt (s : State) : Host.Outcome State Fault Refusal :=
  .next (
    if s.pwr.input == .operating || s.pwr.input == .brownout then
      modPwr s (fun p => { p with input := .overvolt, overvolt := true, overvoltCount := sat p.overvoltCount 1 })
    else s)

-- PWR_EN and RESET_N (R440, R444)

/-- The rails come up, or one of them fails. -/
def railsUp (s : State) (railFail : Bool) (cause : BitVec 4) : State :=
  if railFail then modPwr (railsOff s) (fun p => { p with resetCause := 7, railFail := true, railsHeld := true })
  else modPwr (mainReset s) (fun p => { p with mainRails := true, pwrgd := true, input := .operating, resetCause := cause })

/-- PWR_EN_RISE: PWR_EN goes high, or stands high when STANDBY has been entered from OFF. -/
def execPwrEnRise (railFail : Bool) (s : State) : Host.Outcome State Fault Refusal :=
  let rise := !s.pwr.pwrEn
  let s1 := modPwr s (fun p => { p with pwrEn := true, readyOff := if rise then false else p.readyOff })
  .next (
    if s.pwr.input == .standby && !s.pwr.mainRails && !s.pwr.railsHeld then
      railsUp s1 railFail (if rise then 2 else s.pwr.resetCause)
    else s1)

/-- PWR_EN_FALL. -/
def execPwrEnFall (s : State) : Host.Outcome State Fault Refusal :=
  let clear (t : State) : State := modPwr t (fun p => { p with pwrEn := false, railFail := false, railsHeld := false, thermtrip := false })
  .next (
    if s.pwr.mainRails then modPwr (clear (railsOff s)) (fun p => { p with input := .standby })
    else clear s)

/-- RESET_N_ASSERT: a low on RESET_N of `lowNs` ns, and its end; `taken` decides from 10 µs to 12 µs. -/
def execResetNAssert (lowNs : Nat) (taken : Bool) (s : State) : Host.Outcome State Fault Refusal :=
  .next (
    if s.pwr.mainRails && (12000 ≤ lowNs || (10000 ≤ lowNs && taken)) then
      modPwr (mainReset s) (fun p => { p with resetCause := 1 })
    else s)

-- Clocks (R443, R455)

/-- The root PLL has locked. -/
def pllLocked (s : State) : Bool := s.pwr.mainRails && 2 ≤ s.ras.phase.toNat

/-- REFCLK is lost. -/
def refclkLost (s : State) : State :=
  let s := modPwr s (fun p => { p with refclkOk := false })
  if pllLocked s && !s.pwr.holdover then
    modPwr s (fun p => { p with holdover := true, refclkFault := true, refclkCount := sat p.refclkCount 1 })
  else s

/-- REFCLK is accepted. -/
def refclkBack (s : State) : State := modPwr s (fun p => { p with refclkOk := true, holdover := false })

/-- The standby domain runs. -/
def standbyRuns (s : State) : Bool := s.pwr.input != .off

/-- REFCLK_MEASURE: a 10 ms window; between 250 ppm and 350 ppm either outcome can occur. -/
def execRefclkMeasure (ppm : Int) (flag : Bool) (s : State) : Host.Outcome State Fault Refusal :=
  .next (
    if !(standbyRuns s) then s
    else if ppm.natAbs ≤ 250 then refclkBack s
    else if 350 < ppm.natAbs || flag then refclkLost s
    else refclkBack s)

/-- REFCLK_LOSS: no edge for 1 µs. -/
def execRefclkLoss (s : State) : Host.Outcome State Fault Refusal := .next (if standbyRuns s then refclkLost s else s)

/-- REFCLK_REACCEPT. -/
def execRefclkReaccept (s : State) : Host.Outcome State Fault Refusal := .next (if standbyRuns s then refclkBack s else s)

/-- HOLDOVER_EXPIRY: after 10 ms of holdover the main rails switch off. -/
def execHoldoverExpiry (s : State) : Host.Outcome State Fault Refusal := .next (if s.pwr.holdover then shutDown s 6 else s)

/-- START_UP_CLOCK_TIMEOUT: REFCLK is not accepted within 100 ms of the start of start-up. -/
def execStartUpClockTimeout (s : State) : Host.Outcome State Fault Refusal :=
  .next (if s.pwr.mainRails && s.ras.phase == 1 && !s.pwr.refclkOk then shutDown s 6 else s)

-- The power loop (R446 to R449)

/-- The ceilings of a profile (Table 18-5). -/
def profileCeiling : Nat → Caps
  | 0 => ⟨17, 4, 20, 20, 20⟩
  | 1 => ⟨6, 20, 20, 20, 20⟩
  | 2 => ⟨20, 0, 20, 20, 20⟩
  | _ => ⟨5, 5, 5, 5, 5⟩

def minCaps (a b : Caps) : Caps :=
  ⟨min a.slab b.slab, min a.nm b.nm, min a.mem b.mem, min a.link b.link, min a.issue b.issue⟩

/-- The ceilings in force: in BROWNOUT and holdover no more than those of Soak. -/
def ceilingOf (p : Power) : Caps :=
  let c := profileCeiling p.profileNow.toNat
  if p.input == .brownout || p.holdover then minCaps c (profileCeiling 3) else c

/-- The limit in force, in W. -/
def limitOf (p : Power) : Nat :=
  let board := if p.limitNow = 0 then 2400 else min 2400 (10 * p.limitNow.toNat)
  if p.profileNow = 3 then min board 600 else board

/-- The power that the loop takes: with no plausible current sensor, the limit and 400 W (R451). -/
def loopWatts (p : Power) (watts : Nat) : Nat := if p.ampsLost then limitOf p + 400 else watts

/-- A cap lies below its ceiling. -/
def limiting (p : Power) : Bool := minCaps (ceilingOf p) p.caps != ceilingOf p

/-- The stacks take the channel-engine cap of the power controller (R180). -/
def tellCaps (s : State) : State := { s with memStacks := s.memStacks.map (fun k => { k with cap := BitVec.ofNat 5 s.pwr.caps.nm }) }

/-- FAST_TRIP: the 100 µs measurement. -/
def execFastTrip (watts : Nat) (s : State) : Host.Outcome State Fault Refusal :=
  let p := s.pwr
  .next (
    if p.mainRails && limitOf p + 400 < loopWatts p watts then
      tellCaps (modPwr s (fun p => { p with caps := { p.caps with
        slab := max 1 (p.caps.slab - 4), nm := if p.caps.nm = 0 then 0 else max 1 (p.caps.nm - 4) } }))
    else s)

/-- One cap lower: the higher of SLAB and NM, SLAB on a tie; at their floors, the other three. -/
def lowerCaps (c : Caps) : Caps :=
  if 1 < c.slab || 1 < c.nm then (if c.nm ≤ c.slab then { c with slab := c.slab - 1 } else { c with nm := c.nm - 1 })
  else { c with mem := max 5 (c.mem - 1), link := max 5 (c.link - 1), issue := max 5 (c.issue - 1) }

/-- One raise: those of MEM, LINK and ISSUE that lie below their ceilings; else the one of SLAB and NM furthest below its own. -/
def raiseCaps (c ceil : Caps) : Caps :=
  if c.mem < ceil.mem || c.link < ceil.link || c.issue < ceil.issue then
    { c with
      mem := if c.mem < ceil.mem then c.mem + 1 else c.mem
      link := if c.link < ceil.link then c.link + 1 else c.link
      issue := if c.issue < ceil.issue then c.issue + 1 else c.issue }
  else if ceil.slab - c.slab = 0 && ceil.nm - c.nm = 0 then c
  else if ceil.nm - c.nm ≤ ceil.slab - c.slab then { c with slab := c.slab + 1 }
  else { c with nm := c.nm + 1 }

/-- The comparison of the 1 ms mean with the limit. -/
def compareMean (p : Power) (watts : Nat) : Power :=
  let lim := limitOf p
  let ceil := ceilingOf p
  if lim < watts then { p with below := 0, caps := lowerCaps p.caps }
  else if watts < lim - 100 then
    if 1 ≤ p.below then
      { p with below := 0, caps := raiseCaps p.caps (if p.jthrottle then { ceil with slab := p.caps.slab } else ceil) }
    else { p with below := p.below + 1 }
  else { p with below := 0 }

/-- The junction rule of R449. -/
def junctionCap (p : Power) : Power :=
  if p.jthrottle then { p with caps := { p.caps with slab := max 1 (p.caps.slab - 1) } } else p

/-- A new profile and a new board limit take effect, and caps above a ceiling fall to it. -/
def takeSettings (p : Power) : Power :=
  let new : Bool := p.profile != p.profileNow || p.limit != p.limitNow
  let p := { p with profileNow := p.profile, limitNow := p.limit, below := if new then 0 else p.below }
  { p with caps := minCaps p.caps (ceilingOf p) }

/-- POWER_LOOP_TICK: the 1 ms tick. -/
def execPowerLoopTick (watts : Nat) (s : State) : Host.Outcome State Fault Refusal :=
  .next (
    if s.pwr.mainRails then
      tellCaps (modPwr s (fun p =>
        let p := takeSettings p
        junctionCap (compareMean p (loopWatts p watts))))
    else s)

/-- PWR_CTRL's reading. -/
def pwrCtrlWord (p : Power) : W64 := BitVec.ofNat 64 (p.limit.toNat * 2 ^ 32 + p.profile.toNat)

/-- PWR_CTRL_WRITE: the limit is written by the sideband alone, and one out of range is ignored (Table 18-13). -/
def execPwrCtrlWrite (sideband : Bool) (be : BitVec 8) (w : W64) (s : State) : Host.Outcome State Fault Refusal :=
  let v := mergeBytes (pwrCtrlWord s.pwr) be w
  let lim := field v 32 10
  .next (
    if !(standbyRuns s) then s
    else
      let s := if s.pwr.mainRails then modPwr s (fun p => { p with profile := BitVec.ofNat 2 (field v 0 2) }) else s
      if !sideband then s
      else if lim = 0 || (60 ≤ lim && lim ≤ 240) then modPwr s (fun p => { p with limit := BitVec.ofNat 10 lim })
      else modPwr s (fun p => { p with limitReject := true, limitRejectCount := sat p.limitRejectCount 1 }))

-- Sensors (R451)

/-- A reading is excluded: it is counted, and it enters the firing log while that is open (Table 19-1, step 3). -/
def sensorExcluded (s : State) : State :=
  let s := modPwr s (fun p => { p with sensorFault := true, sensorCount := sat p.sensorCount 1 })
  if s.pwr.mainRails && 3 ≤ s.ras.phase.toNat then logEvent s 0x0C 7 noPart unitDevice 0 0 else s

def excludeMany : Nat → State → State
  | 0, s => s
  | n + 1, s => excludeMany n (sensorExcluded s)

/-- The readings of a pair in use: both when they agree within `gap`, else `pick` of those in range. -/
def pairInUse (lo hi gap : Int) (pick : Int → Int → Int) (a b : Int) : List Int :=
  let ok (x : Int) : Bool := lo ≤ x && x ≤ hi
  if ok a && ok b then (if (a - b).natAbs ≤ gap.natAbs then [a, b] else [pick a b])
  else if ok a then [a]
  else if ok b then [b]
  else []

/-- INPUT_SENSOR_SAMPLE: the two voltages in mV and the two currents in mA; with no plausible voltage BROWNOUT is entered. -/
def execInputSensorSample (v0 v1 i0 i1 : Int) (s : State) : Host.Outcome State Fault Refusal :=
  let vs := pairInUse 40000 80000 1500 min v0 v1
  let cs := pairInUse 0 60000 2000 max i0 i1
  .next (
    if !(standbyRuns s) then s
    else
      let s := excludeMany ((2 - vs.length) + (2 - cs.length)) s
      let s := modPwr s (fun p => { p with volts := vs, amps := cs, ampsLost := cs.isEmpty })
      if vs.isEmpty && (s.pwr.input == .operating || s.pwr.input == .overvolt) then enterBrownout s else s)

/-- The junction sensors of compute die d, of H, of E0 and of E1, by their place in a sample. -/
def dieSensors (d : Nat) : List Nat := (List.range 16).map (fun i => 16 * d + i)
def hubSensors : List Nat := [64, 65, 66, 67]
def edgeSensors (e : Nat) : List Nat := (List.range 4).map (fun i => 68 + 4 * e + i)

/-- What a die reads, in sixteenths of a degree: its hottest plausible junction, or 100 °C once `most` are excluded. -/
def dieReads (readings : List (BitVec 16)) (bad : Nat → Bool) (most : Nat) (sensors : List Nat) : Int :=
  if most ≤ (sensors.filter bad).length then 1600
  else match hottest ((sensors.filter (fun i => !(bad i))).map (fun i => readings.getD i 0)) with
    | some r => tempOf r
    | none => 1600

def maxInt (l : List Int) : Int := match l with
  | [] => 0
  | x :: xs => xs.foldl (fun m y => if m < y then y else m) x

/-- JUNCTION_SAMPLE: the 76 junction sensors; a junction at 110 °C in two successive samples is a thermal trip. -/
def execJunctionSample (readings : List (BitVec 16)) (s : State) : Host.Outcome State Fault Refusal :=
  let p := s.pwr
  let bad (i : Nat) : Bool := implausible (-40) 150 10 p.junctions[i]? (readings.getD i 0)
  let hot := (List.range 76).filter (fun i => !(bad i) && 110 * 16 ≤ tempOf (readings.getD i 0))
  .next (
    if readings.length != 76 || !p.mainRails then s
    else
      let s := excludeMany ((List.range 76).filter bad).length s
      let c := maxInt ((List.range 4).map (fun d => dieReads readings bad 8 (dieSensors d)))
      let s := modPwr s (fun p => { p with
        junctions := readings, junctionC := c, junctionH := dieReads readings bad 4 hubSensors
        junctionE := maxInt ((List.range 2).map (fun e => dieReads readings bad 4 (edgeSensors e)))
        hotSensors := hot, jthrottle := if 100 * 16 ≤ c then true else if c < 97 * 16 then false else p.jthrottle })
      if hot.any (fun i => p.hotSensors.contains i) then modPwr (shutDown s 5) (fun p => { p with thermtrip := true }) else s)

/-- Whole degrees, two's complement. -/
def degrees (t : Int) : BitVec 8 := BitVec.ofInt 8 (t.fdiv 16)

/-- TELEMETRY_UPDATE: the 1 s means of the input power, in W, and voltage, in 0.1 V (R396). -/
def execTelemetryUpdate (watts deciVolts : Nat) (s : State) : Host.Outcome State Fault Refusal :=
  .next (
    if s.pwr.mainRails then
      modPwr s (fun p => { p with
        inputW := BitVec.ofNat 16 (watts / 10), inputDv := BitVec.ofNat 10 deciVolts, hotC := degrees p.junctionC
        hotH := degrees p.junctionH, hotE := degrees p.junctionE })
    else s)

end Sys2Proof.Machine
end

