-- ==== Sys2Proof/Machine/Security.lean ====
section
/-!
DEFINITION. The security mailbox (spec/15): the certificate chain, attestation and removal reports, key release, weight keys,
slice secrets, firmware update, the random generator, and the performance counters' update.
-/
namespace Sys2Proof.Machine

open Sys2Proof

-- SEC_BUF (R381)

def secBufSize : Nat := 131072

/-- Bytes of SEC_BUF. -/
def bufRead (s : State) (ofs n : Nat) : List Byte := (List.range n).map (fun i => tblGet 0 s.sec.buf (ofs + i))

/-- Results are placed in SEC_BUF from byte 0. -/
def bufPut (s : State) (bs : List Byte) : State :=
  let new : Tbl Byte := ((bs.take secBufSize).zipIdx.map (fun p => (p.2, p.1))).filter (fun p => p.2 != 0)
  { s with sec := { s.sec with buf := new ++ s.sec.buf.filter (fun p => bs.length ≤ p.1) } }

/-- Exactly `n` bytes: cut, or filled with zeros. -/
def fit (n : Nat) (bs : List Byte) : List Byte := (bs ++ List.replicate n 0).take n

def zeros (n : Nat) : List Byte := List.replicate n 0

def bootImage (s : State) : FlashSlot := s.sec.slots.getD s.sec.bootSlot.val {}

-- Reports (R384, Table 15-8)

def sagCode : SagSt → Nat
  | .none => 0
  | .creating => 1
  | .open => 2
  | .sealed => 3
  | .resetting => 4
  | .removing => 5

/-- PT_CONE_k. -/
def coneReg (g : Saggar) : Nat := g.coneFirst.toNat + 4096 * g.coneCount.toNat

/-- The fields of a report that differ between its two kinds. -/
structure ReportPart where
  kind : Nat
  epoch : BitVec 4
  oldEpoch : BitVec 4
  overflow : BitVec 64
  channels : List (BitVec 64)
  digest : List Byte
  serial : BitVec 64
  log : List LogEntry

def attestPart (g : Saggar) : ReportPart :=
  { kind := 1, epoch := g.epoch, oldEpoch := 0, overflow := g.overflow
    channels := if g.st == .none then [0, 0, 0, 0] else g.chans
    digest := g.overflowDigest, serial := 0, log := g.log }

def removalPart (r : Removal) : ReportPart :=
  { kind := 2, epoch := r.epoch, oldEpoch := r.oldEpoch, overflow := r.overflow, channels := r.channels
    digest := r.digest, serial := r.serial, log := r.log }

/-- The bytes of a report before its signature. -/
def reportBody (s : State) (k : Nat) (x : ReportPart) (nonce : List Byte) : List Byte :=
  let g := sagOf s k
  let i := bootImage s
  let active := ((List.range 256).filter (fun c => (coreOf s c).st == .active && (coreOf s c).partition.any (fun p => p.val == k))).length
  let strong := g.st != .none && (ownedChannels g).any (fun p => (chanOf s p).strong)
  let pub := match g.ephemeral with
    | some e => Config.publicPoint e
    | none => []
  leBytes 4 0x54415848 ++ leBytes 2 1 ++ leBytes 2 x.kind ++ leBytes 4 (512 + 64 * x.log.length + 96) ++
    leBytes 2 0x4E47 ++ leBytes 2 0x0940 ++ [0xA0, BitVec.ofNat 8 k, BitVec.ofNat 8 (sagCode g.st), BitVec.ofNat 8 x.epoch.toNat] ++
    leBytes 4 x.log.length ++ leBytes 8 x.overflow.toNat ++ fit 48 nonce ++ fit 16 s.sec.bootId ++ fit 48 s.sec.deviceId ++
    fit 48 i.spfDigest ++ fit 48 i.scfDigest ++ leBytes 4 i.svn.toNat ++ leBytes 4 s.sec.fusedSvn.toNat ++
    leBytes 4 s.sec.romVersion.toNat ++ zeros 4 ++
    fit 32 (x.channels.flatMap (fun w => leBytes 8 w.toNat)) ++ leBytes 2 g.clusters.toNat ++ leBytes 2 g.copy.toNat ++
    leBytes 4 (coneReg g) ++
    [if strong then 1 else 0, BitVec.ofNat 8 g.lsSplit.toNat, BitVec.ofNat 8 g.linkWeight.toNat, BitVec.ofNat 8 active,
     BitVec.ofNat 8 x.oldEpoch.toNat] ++ zeros 3 ++ leBytes 8 (sliceWord (sliceOf s k)).toNat ++
    [BitVec.ofNat 8 s.pwr.profileNow.toNat, BitVec.ofNat 8 s.pwr.caps.slab, BitVec.ofNat 8 s.pwr.caps.nm, 0] ++
    leBytes 2 s.pwr.limit.toNat ++ zeros 2 ++ fit 97 pub ++ zeros 31 ++ fit 48 x.digest ++ leBytes 8 x.serial.toNat ++ zeros 8 ++
    (x.log.flatMap (fit 64))

/-- A report with its signature by the alias key. -/
def reportOf (s : State) (k : Nat) (x : ReportPart) (nonce : List Byte) : State × List Byte :=
  let r := takeFree s
  let body := reportBody s k x nonce
  (r.2, body ++ fit 96 (Config.sign r.1 (sha384 body)))

def reportOp (s : State) (k : Nat) : Answer :=
  let g := sagOf s k
  if g.sealing then ptState s
  else
    let r := reportOf s k (attestPart g) (bufRead s 0 48)
    let t := modSag r.1 k (fun g => { g with reports := (g.reports ++ [sha384 r.2]).drop ((g.reports.length + 1) - 8) })
    okay (bufPut t r.2) r.2.length

def removalOp (s : State) (k : Nat) : Answer :=
  match (sagOf s k).removal with
  | none => ptState s
  | some x =>
    let r := reportOf s k (removalPart x) (bufRead s 0 48)
    okay (bufPut r.1 r.2) r.2.length

-- Key release (R389, Table 15-11)

/-- The form of a blob: MAGIC, KIND, HANDLE and the reserved bytes. The handle's range is checked apart. -/
def blobForm (b : List Byte) : Bool :=
  b.take 4 == leBytes 4 0x524B5848 && (b.getD 4 0 == 1 || (b.getD 4 0 == 2 && b.getD 5 0 == 0)) &&
  (b.drop 6).take 2 == zeros 2 && (b.drop 153).take 7 == zeros 7

/-- Checks 3 to 7: the key that a blob wraps, or the status. -/
def unwrap (g : Saggar) (b : List Byte) : Except Nat (List Byte) :=
  let digest := (b.drop 8).take 48
  if b.getD 4 0 == 1 && (64 ≤ (b.getD 5 0).toNat || (tblFind g.weightKeys (b.getD 5 0).toNat).isSome) then .error 5
  else if !(g.reports.contains digest) then .error 3
  else match Config.ecdh (g.ephemeral.getD 0) ((b.drop 56).take 97) with
    | none => .error 4
    | some x =>
      let m := hkdf384 x digest (ascii "HX940 release" ++ b.take 8) 44
      match gcmOpen (m.take 32) (m.drop 32) (b.take 160) ((b.drop 160).take 32) ((b.drop 192).take 16) with
      | none => .error 4
      | some key => .ok key

def keyReleaseOp (s : State) (k : Nat) : Answer :=
  let g := sagOf s k
  let b := bufRead s 0 208
  if g.st != .sealed || g.sealing then ptState s
  else if !(blobForm b) then ptBad s
  else match unwrap g b with
  | .error e => { s, status := e }
  | .ok key =>
    if b.getD 4 0 == 1 then okay (setSag s k { g with weightKeys := tblPut g.weightKeys (b.getD 5 0).toNat key }) 0
    else okay (deriveLink (setSag s k { g with slice := some key }) k) 0

def keyDiscardOp (s : State) (k h : Nat) : Answer :=
  let g := sagOf s k
  if (tblFind g.weightKeys h).isNone then { s, status := 5 }
  else okay (setSag s k { g with weightKeys := tblDel g.weightKeys h }) 0

def slicePlainOp (s : State) (k : Nat) : Answer :=
  let g := sagOf s k
  if g.st != .open then ptState s
  else okay (deriveLink (setSag s k { g with slice := some (bufRead s 0 32) }) k) 0

-- Firmware update (R377, R381)

/-- The slot that is not running. -/
def otherSlot (s : State) : Nat := 1 - s.sec.bootSlot.val

def modSlot (s : State) (i : Nat) (f : FlashSlot → FlashSlot) : State :=
  { s with sec := { s.sec with slots := listModify f s.sec.slots i } }

/-- The first FW_WRITE to a slot since boot erases its header. -/
def fwErase (s : State) : State :=
  let i := otherSlot s
  if s.sec.updated.getD i false then s
  else
    let s := modSlot s i (fun x => { x with erased := true, valid := false, written := tblDel x.written 0 })
    { s with sec := { s.sec with updated := listSet s.sec.updated i true } }

/-- Bytes of an image; a block that no FW_WRITE has written holds bytes the manual does not give. -/
def imageBytes (x : FlashSlot) (ofs n : Nat) : List Byte :=
  (List.range n).map (fun i => match tblFind x.written ((ofs + i) / 65536) with
    | some b => b.getD ((ofs + i) % 65536) 0
    | none => Config.freeByte 0 (ofs + i))

/-- The header's fields and the digests of the components once bytes 0 to 65,535 are written. -/
def readImage (x : FlashSlot) : FlashSlot :=
  let w (a n : Nat) : Nat := leNat (imageBytes x a n)
  { x with
    svn := BitVec.ofNat 32 (w 12 4), build := BitVec.ofNat 64 (w 16 8), valid := true, erased := false
    spfDigest := sha384 (imageBytes x (w 24 4) (w 28 4)), scfDigest := sha384 (imageBytes x (w 32 4) (w 36 4)) }

def fwWriteOp (s : State) (ofs : Nat) : Answer :=
  if ofs % 65536 != 0 then ptBad s
  else if 14 * 2 ^ 20 ≤ ofs then { s, status := 6 }
  else
    let s := fwErase s
    let b := bufRead s 0 65536
    okay (modSlot s (otherSlot s) (fun x =>
      let x := { x with written := tblPut x.written (ofs / 65536) b }
      if ofs = 0 then readImage x else x)) 0

def fwCommitOp (s : State) : Answer :=
  let i := bootImage s
  if i.svn.toNat ≤ s.sec.fusedSvn.toNat then { s, status := 6 }
  else
    let s := modCraze { s with sec := { s.sec with fusedSvn := i.svn } } (fun z => { z with fwChanges := sat z.fwChanges 1 })
    okay (fwUpdate s i.build.toNat i.svn.toNat) 0

-- The port (R381, Tables 15-3 to 15-5)

/-- The saggar's state turns a command away. -/
def inTransit (g : Saggar) : Bool := g.st == .creating || g.st == .resetting || g.st == .removing

/-- The word's fields are as Table 15-4 gives. -/
def secFields (w : W64) : Bool :=
  field w 22 10 == 0 && field w 12 4 == 0 && (field w 0 8 == 4 || field w 16 6 == 0) && (field w 0 8 == 0x10 || field w 32 32 == 0)

def secCommand (s : State) (w : W64) : Answer :=
  let k := ptSag w
  let op := field w 0 8
  if op != 1 && !(accepting s) then ptState s
  else if !(secFields w) then ptBad s
  else if 2 ≤ op && op ≤ 6 && inTransit (sagOf s k) then ptState s
  else match op with
  | 0x01 => okay (bufPut s s.sec.certs) (min s.sec.certs.length secBufSize)
  | 0x02 => reportOp s k
  | 0x03 => keyReleaseOp s k
  | 0x04 => keyDiscardOp s k (field w 16 6)
  | 0x05 => slicePlainOp s k
  | 0x06 => removalOp s k
  | 0x10 => fwWriteOp s (field w 32 32)
  | 0x11 => fwCommitOp s
  | _ => ptBad s

def setSecPort (s : State) (p : Port) : State := { s with sec := { s.sec with port := p } }

/-- An FW_WRITE that will be performed. -/
def fwAccepted (s : State) (w : W64) : Bool :=
  accepting s && secFields w && field w 0 8 == 0x10 && field w 32 32 % 65536 == 0 && field w 32 32 < 14 * 2 ^ 20

/-- A write to SEC_CMD. While an FW_WRITE runs, the header of its slot is erased and its block is not yet written. -/
def secPort (s : State) (w : W64) (pace : Pace) : State :=
  if s.sec.port.busy then setSecPort s (portRefuse s.sec.port)
  else if pace == .checking then setSecPort s (portCheck s.sec.port [w])
  else if pace == .running && fwAccepted s w then setSecPort (fwErase s) (portCheck s.sec.port [w])
  else
    let a := secCommand s w
    setSecPort a.s (portDone s.sec.port (pace == .running) a)

/-- The mailbox comes to rest. -/
def secRest (s : State) : State :=
  if !s.sec.port.busy then s
  else match s.sec.port.todo with
    | [] => setSecPort s { s.sec.port with busy := false }
    | ws =>
      let a := secCommand s (word ws 0)
      setSecPort a.s (portDone s.sec.port false a)

/-- GET_CERTS. -/
def execGetCerts (w : W64) (pace : Pace) (s : State) : Host.Outcome State Fault Refusal := .next (secPort s (withOp 0x01 w) pace)

/-- REPORT. -/
def execReport (w : W64) (pace : Pace) (s : State) : Host.Outcome State Fault Refusal := .next (secPort s (withOp 0x02 w) pace)

/-- KEY_RELEASE. -/
def execKeyRelease (w : W64) (pace : Pace) (s : State) : Host.Outcome State Fault Refusal := .next (secPort s (withOp 0x03 w) pace)

/-- KEY_DISCARD. -/
def execKeyDiscard (w : W64) (pace : Pace) (s : State) : Host.Outcome State Fault Refusal := .next (secPort s (withOp 0x04 w) pace)

/-- SLICE_PLAIN. -/
def execSlicePlain (w : W64) (pace : Pace) (s : State) : Host.Outcome State Fault Refusal := .next (secPort s (withOp 0x05 w) pace)

/-- REMOVAL_REPORT. -/
def execRemovalReport (w : W64) (pace : Pace) (s : State) : Host.Outcome State Fault Refusal := .next (secPort s (withOp 0x06 w) pace)

/-- FW_WRITE. -/
def execFwWrite (w : W64) (pace : Pace) (s : State) : Host.Outcome State Fault Refusal := .next (secPort s (withOp 0x10 w) pace)

/-- FW_COMMIT_SVN. -/
def execFwCommitSvn (w : W64) (pace : Pace) (s : State) : Host.Outcome State Fault Refusal := .next (secPort s (withOp 0x11 w) pace)

-- The random generator and the counters (R376, R395)

/-- DRBG_RESEED. -/
def execDrbgReseed (s : State) : Host.Outcome State Fault Refusal := .next { s with sec := { s.sec with drbg := 0 } }

/-- One counter at its update: the count it shows and its true count. -/
def perfStep (restart : Bool) (t : Nat) : W64 × Nat := if restart then (0, 0) else (BitVec.ofNat 64 (t / 4096 * 4096), t)

/-- A saggar's counters at their update. -/
def perfUpdate (g : Saggar) : Saggar :=
  let xs := g.perfTrue.zipIdx.map (fun p => perfStep (g.perfRestart.getLsbD p.2) p.1)
  { g with perf := xs.map (fun x => x.1), perfTrue := xs.map (fun x => x.2), perfRestart := 0 }

/-- PERF_COUNTER_UPDATE: the 10 ms update of every saggar's counters. -/
def execPerfCounterUpdate (s : State) : Host.Outcome State Fault Refusal :=
  .next { s with sags := s.sags.map (fun p => (p.1, perfUpdate p.2)) }

end Sys2Proof.Machine
end

