-- ==== Sys2Proof/Machine/Startup.lean ====
section
/-!
DEFINITION. Start-up (spec/19): the steps of Table 19-1 from the released reset to READY, and their failures.
-/
namespace Sys2Proof.Machine

open Sys2Proof

/-- A step fails: PHASE keeps its number (R466). -/
def startFails (s : State) (fail detail : Nat) : State :=
  { s with ras := { s.ras with fail := BitVec.ofNat 4 fail, failDetail := BitVec.ofNat 16 detail, starting := none } }

/-- The step in progress has ended. -/
def stepDone (s : State) : State := { s with ras := { s.ras with stepEnded := true } }

/-- Step 6 begins: the channels that are not RETIRED, and the Derset link, are in training (R133, R400). -/
def startTraining (s : State) : State :=
  let s := (List.range 256).foldl (fun t p => modChan t p (fun c => if c.st == .retired then c else { c with st := .training })) s
  { s with dl := { s.dl with st := .training } }

/-- A step begins: from the start of step 3 to step 8 service ordering mode is in force (R457); step 8 is READY, with the caps of the
power controller in force. -/
def beginStep (s : State) (n : Nat) : State :=
  let r := { s.ras with phase := BitVec.ofNat 4 n, stepEnded := false }
  let t := { s with ras := if n = 3 then { r with serviceOrdering := true }
                           else if n = 8 then { r with serviceOrdering := false, starting := none }
                           else r }
  if n = 6 then startTraining t else if n = 8 then tellCaps t else t

-- Step 2: the boot image (R456, R378, R379)

/-- Why a slot is not valid (Table 19-4), 0 when it is. -/
def slotReason (s : State) (env : StartEnv) (i : Nat) : Nat :=
  let x := s.sec.slots.getD i {}
  let f := if i = 0 then env.slotFault0 else env.slotFault1
  if (if i = 0 then env.headerBad0 else env.headerBad1) || x.erased || !x.valid then 1
  else if x.svn.toNat < s.sec.fusedSvn.toNat then 4
  else min f.toNat 5

/-- The slots that pass the header checks, in order of preference. -/
def slotOrder (s : State) (env : StartEnv) : List Nat :=
  let a := s.sec.slots.getD 0 {}
  let b := s.sec.slots.getD 1 {}
  let second := a.svn.toNat < b.svn.toNat || (a.svn == b.svn && a.build.toNat < b.build.toNat)
  (if second then [1, 0] else [0, 1]).filter (fun i => slotReason s env i != 1)

/-- The image of a slot starts: the certificate chain, the identity of the boot, and the lock on the seed. -/
def bootSlot (s : State) (i : Nat) (fallback : Bool) : State :=
  let x := s.sec.slots.getD i {}
  let r := takeFree s
  let s := r.2
  { s with
    sec := { s.sec with
      bootSlot := if i = 0 then 0 else 1
      bootId := (List.range 16).map (Config.freeByte r.1)
      deviceId := sha384 Config.deviceKey
      certs := Config.aliasCert x.spfDigest x.scfDigest x.svn.toNat s.sec.fusedSvn.toNat ++ s.fuses.certArea
      updated := [false, false], seedLocked := true }
    ras := { s.ras with fallback } }

def stepBoot (s : State) (env : StartEnv) : State :=
  let order := slotOrder s env
  match order.find? (fun i => slotReason s env i == 0) with
  | some i => stepDone (bootSlot s i (order.head? != some i))
  | none => startFails s 2 (slotReason s env 0 + 256 * slotReason s env 1)

-- Step 3: firmware (R457)

/-- POWER_ONS counts a power-on once. -/
def countPowerOn (s : State) : State :=
  if s.ras.powerCounted then s
  else modCraze { s with ras := { s.ras with powerCounted := true } } (fun z => { z with powerOns := sat z.powerOns 1 })

/-- An image other than the one that ran last is logged, and a summary is written (Table 17-7, R428). -/
def noteImage (s : State) : State :=
  let i := bootImage s
  if s.ras.lastImage = (i.svn, i.build) then s
  else fwUpdate { s with ras := { s.ras with lastImage := (i.svn, i.build) } } i.build.toNat i.svn.toNat

/-- The service control cores without a heartbeat. -/
def deadSccs (env : StartEnv) : List Nat := (List.range 4).filter (fun i => env.sccDead.getLsbD i)

/-- One core has written no heartbeat: the standby takes its role. -/
def takeOver (s : State) (c : Nat) : State :=
  let s := { s with ras := { s.ras with
    sccs := listModify (fun x => { x with failed := true }) s.ras.sccs c, standby := false } }
  if ((s.ras.sccs.getD c {}).role).isSome then recovered s (.failover c) else s

def stepFirmware (s : State) (env : StartEnv) : State :=
  let s := noteImage (countPowerOn s)
  match deadSccs env with
  | [] => stepDone s
  | [c] => stepDone (takeOver s c)
  | _ => startFails s 3 env.sccDead.toNat

-- Steps 4 and 5 (R458, R459)

def stepBridges (s : State) (env : StartEnv) : State := match env.bridgeDead with
  | some b => startFails s 4 b.val
  | none => stepDone { s with bridges := List.replicate 14 {} }

/-- One entry of the repair table is applied. -/
def applyRepair (s : State) (w : BitVec 32) : State :=
  let v := w.toNat
  match bitsOf v 29 3 with
  | 1 => modChan s (bitsOf v 21 8) (fun c =>
      { c with remaps := c.remaps ++ [(bitsOf v 15 6, bitsOf v 0 15)], remapped := c.remapped + 1 })
  | 2 => modCore s (bitsOf v 0 8) (fun k => { k with st := .retired })
  | 3 => modChan s (bitsOf v 0 8) (fun c => { c with st := .retired })
  | 4 => modPort s (bitsOf v 0 3) (fun p => { p with st := .retired })
  | _ => s

def stepRepairs (s : State) (env : StartEnv) : State :=
  if env.repairReads then stepDone ((s.ras.repair.takeWhile (fun w => w != 0xFFFFFFFF)).foldl applyRepair s)
  else startFails s 5 0

-- Step 6 (R460 to R462)

/-- A core fails its start-up self-test. -/
def coreFails (s : State) (c : Nat) : State :=
  let k := coreOf s c
  if k.st == .retired || k.st == .absent then s
  else coreRetired (if k.st == .spare then logEvent s 0x06 1 noPart (unitCore c) 0 0 else s) c

/-- The passing spare of a cluster. -/
def spareOfCluster (s : State) (g : Nat) : Option Nat := (clusterCores g).find? (fun c => (coreOf s c).st == .spare)

def activeIn (s : State) (g : Nat) : Nat := ((clusterCores g).filter (fun c => (coreOf s c).st == .active)).length

/-- Maps the failing lanes of a test to the spares of their groups; none where a group has more of them than its one spare (R149). -/
def mapLanes (group : Nat → Nat) (map : Channel → Nat → Channel) (errs : List (Nat × Nat)) (c : Channel) : Option Channel :=
  let bad := ((errs.filter (fun x => 1 ≤ x.2)).map (fun x => x.1)).eraseDups
  if (bad.map group).eraseDups.length < bad.length then none else some (bad.foldl map c)

/-- The training of a channel (Table 05-3): the spares mapped, and the step that fails, 0 when it passes. -/
def trainChannel (c : Channel) (x : ChanTrain) : Channel × Nat :=
  let hangs : Nat := (x.timeout.map (fun k => k.val + 1)).getD 7
  if hangs ≤ 2 then (c, hangs)
  else match mapLanes (fun i => i / 9) mapCa (x.caErrs.map (fun e => (e.1.val, e.2))) c with
    | none => (c, 2)
    | some c =>
      if hangs ≤ 4 then (c, hangs)
      else match mapLanes dqGroup mapDq (x.dqErrs.map (fun e => (e.1.val, e.2))) c with
        | none => (c, 4)
        | some c => (c, if hangs ≤ 6 then hangs else 0)

/-- Training of a channel in TRAINING: it enters FAILED, or it is FREE with the ADDR pattern over its first 1 MiB. -/
def trainOne (env : StartEnv) (s : State) (p : Nat) : State :=
  if (chanOf s p).st != .training then s
  else
    let x := (env.chans.find? (fun x => x.ch.val == p)).getD ⟨BitVec.toFin (BitVec.ofNat 8 p), none, [], []⟩
    let r := trainChannel (chanOf s p) x
    if r.2 = 0 then modChan s p (fun _ => { r.1 with st := .free, addrPattern := true })
    else logEvent (modChan s p (fun _ => { r.1 with st := .failed, failStep := BitVec.ofNat 3 r.2 })) 0x11 7 noPart (unitChannel p) 0 r.2

/-- Training of the channels; the bursts that step 6 writes have no errors. -/
def trainChannels (s : State) (env : StartEnv) : State :=
  let t := (List.range 256).foldl (trainOne env) s
  { t with symErrs := t.symErrs.filter (fun e => !((chanOf t (lineChan e.1)).addrPattern && lineOfs e.1 < 2 ^ 20)) }

def failedChans (s : State) : Nat := (s.chans.filter (fun c => c.2.st == .failed)).length

/-- The step of Table 16-1 at which the training of the Derset link fails, 0 when it passes (R400). -/
def dersetStep (env : StartEnv) : Nat :=
  let hangs : Nat := (env.dersetFail.map (fun k => k.val + 1)).getD 6
  if hangs ≤ 2 then hangs
  else if 2 < env.dersetBad.1 || 2 < env.dersetBad.2 then 3
  else if hangs ≤ 5 then hangs
  else if (List.range 6).all (fun c => hostMinimum.getD c 0 ≤ env.dersetGrant.getD c 0) then 0
  else 5

/-- Training of the Derset link. Lanes that fail in step 3 are mapped to spares. -/
def trainDerset (s : State) (env : StartEnv) : State :=
  let k := dersetStep env
  let s := if k = 0 || 3 < k then { s with dl := { s.dl with sparesRx := env.dersetBad.1, sparesTx := env.dersetBad.2 } } else s
  if k = 0 then { s with dl := { s.dl with st := .up, failStep := 0, grant := env.dersetGrant } }
  else logEvent { s with dl := { s.dl with st := .trainFail, failStep := BitVec.ofNat 3 k } } 0x11 7 noPart unitDerset 0 k

/-- The failure of step 6 with the lowest value: no core, no channel, the Derset link. -/
def step6Failure (s : State) : Option (Nat × Nat) :=
  if !((List.range 256).any (fun c => (coreOf s c).st == .active || (coreOf s c).st == .spare)) then some (6, 0)
  else if !(s.chans.any (fun c => c.2.st == .free)) then some (7, 0)
  else if s.dl.st == .trainFail then some (8, s.dl.failStep.toNat)
  else none

def stepTests (s : State) (env : StartEnv) : State :=
  let s := env.coreFails.foldl (fun t c => coreFails t c.val) s
  let s := trainDerset (trainChannels s env) env
  let s := { s with ras := { s.ras with failedChannels := BitVec.ofNat 9 (failedChans s) } }
  match step6Failure s with
  | some f => startFails s f.1 f.2
  | none => stepDone s

-- Steps 7 and 8 (R460, R463)

/-- The core of a cluster that has failed this start-up, other than its spare. -/
def failedHere (s : State) (env : StartEnv) (g : Nat) : Option Nat :=
  (env.coreFails.map (fun c => c.val)).find? (fun c => c / 16 == g && builtState s.fuses c == .active)

/-- A cluster with fewer than 15 ACTIVE cores promotes its spare; a core that failed in this start-up is named with the spare
that takes its place, or with none. -/
def promoteSpare (env : StartEnv) (s : State) (g : Nat) : State :=
  let short := activeIn s g < 15
  let note (t : State) (d : Nat) : State := match failedHere s env g with
    | some c => logEvent t 0x08 7 noPart (unitCore c) d 0
    | none => t
  match spareOfCluster s g with
  | some x =>
    if short then
      let s := modCore s x (fun k => { k with st := .active })
      let s := if (failedHere s env g).isSome then modCraze s (fun z => { z with sparesUsed := sat z.sparesUsed 1 }) else s
      note s x
    else s
  | none => note s (2 ^ 64 - 1)

def stepHarvest (s : State) (env : StartEnv) : State :=
  let s := (List.range 16).foldl (promoteSpare env) s
  stepDone { s with gen := { s.gen with mapped := true } }

-- The sequence (R454, R465)

/-- The step in progress runs to its end. Step 1 waits for REFCLK. -/
def endStep (s : State) (env : StartEnv) : State := match s.ras.phase.toNat with
  | 1 => if s.pwr.refclkOk then stepDone s else s
  | 2 => stepBoot s env
  | 3 => stepFirmware s env
  | 4 => stepBridges s env
  | 5 => stepRepairs s env
  | 6 => stepTests s env
  | 7 => stepHarvest s env
  | _ => s

/-- In BROWNOUT and in holdover no further step begins. -/
def mayStep (s : State) : Bool := s.pwr.input != .brownout && !s.pwr.holdover

/-- A start-up in progress: its step ends, and the next one begins. -/
def startStep (s : State) : State := match s.ras.starting with
  | some env =>
    let s := if s.ras.stepEnded then s else endStep s env
    if s.ras.stepEnded && s.ras.fail == 0 && mayStep s then beginStep s (s.ras.phase.toNat + 1) else s
  | none => s

def startSteps : Nat → State → State
  | 0, s => s
  | n + 1, s => startSteps n (startStep s)

/-- START_UP: reset is released with the main rails in regulation, and start-up begins. -/
def execStartUp (env : StartEnv) (pace : Pace) (s : State) : Host.Outcome State Fault Refusal :=
  .next (
    if !s.pwr.mainRails || s.ras.phase != 0 then s
    else
      let s := beginStep { s with ras := { s.ras with starting := some env } } 1
      match pace with
      | .checking => s
      | .running => startStep s
      | .ended => startSteps 7 s)

end Sys2Proof.Machine
end

