-- ==== Sys2Proof/Machine/Regs.lean ====
section
/-!
DEFINITION. The set-up register map (spec/20): where each register lies (Table 20-13), what it reads, and what a write does to it
by access type; CFG_RD, CFG_WR and REGISTER_WRITE.
-/
namespace Sys2Proof.Machine

open Sys2Proof

/-- A set-up register, a word of a window, or a word of a fence slot. -/
inductive Reg where
  | genId | genSerial | genCap | genLimits | genCounts | genStatus | genUnitMap
  | genCoreMap (j : Nat) | genNmMap (j : Nat) | genChanMap (j : Nat)
  | pwrCtrl | pwrCaps | pwrStatus | pwrTelem
  | ringBase (n : Nat) | ringCfg (n : Nat) | ringCtrl (n : Nat) | ringStat (n : Nat) | feGrace
  | fncValue (f : Nat) | fncSignal (f : Nat) | fncStatus (f : Nat)
  | objCmd | objArg (j : Nat) | objStatus | objCtxSel | objFault (w : Nat)
  | ptCmd | ptStatus | ptTest (j : Nat)
  | ptCfg (k : Nat) | ptChan (k j : Nat) | ptWays (k : Nat) | ptCone (k : Nat) | ptQuota (k : Nat) | ptPerfSel (k : Nat) | ptPerf (k n : Nat)
  | secCmd | secStatus | secPstate (k : Nat) | secBuf (ofs : Nat)
  | rasStatus | rasCmd | rasLogHead | rasCal | rasLife | rasStart | rasQuiesce | rasEvents | rasLog (ofs : Nat) | rasSummary (ofs : Nat)
  | dlCfg | dlStatus | dlIntPend | dlIntMask | dlIntAck | dlHfilt
  | xlPortCtrl (n : Nat) | xlPortStatus (n : Nat) | xlPlan (n : Nat) | xlPortPeer (n : Nat) | xlTopo | xlRxStatus
  | xlSlice (k : Nat) | xlSliceStatus (k : Nat) | xlCone (n : Nat)
  | msChCfg (p : Nat) | msChStatus (p : Nat) | msChRepair (p : Nat) | msTgCtrl (p : Nat) | msTgRange (p : Nat) | msTgStatus (p : Nat)
  | msTgResult (p : Nat) | msNmStatus (p : Nat) | msTherm (t : Nat) | msSrStatus (t : Nat) | msPmStatus (t : Nat)
  | cdSlabCfg (d : Nat) | cdL2Status (d : Nat) | cdL2Mask (d k : Nat) | cdCoreState (c : Nat) | cdSlabStatus (c : Nat) | cdSram (c : Nat)
  | cdAe (c e : Nat)
  | dbTail (n : Nat) | dbRetired (n : Nat) | dbQstatus (n : Nat)
deriving DecidableEq, Repr

-- Where the registers lie (Tables 20-1 and 20-13); `o` is the offset in the block

def genReg (o : Nat) : Option Reg :=
  if o = 0 then some .genId
  else if o = 0x08 then some .genSerial
  else if o = 0x10 then some .genCap
  else if o = 0x18 then some .genLimits
  else if o = 0x20 then some .genCounts
  else if o = 0x28 then some .genStatus
  else if o = 0x30 then some .genUnitMap
  else if 0x40 ≤ o && o < 0x60 then some (.genCoreMap ((o - 0x40) / 8))
  else if 0x60 ≤ o && o < 0x80 then some (.genNmMap ((o - 0x60) / 8))
  else if 0x80 ≤ o && o < 0xA0 then some (.genChanMap ((o - 0x80) / 8))
  else none

def pwrReg (o : Nat) : Option Reg :=
  if o = 0 then some .pwrCtrl
  else if o = 0x08 then some .pwrCaps
  else if o = 0x10 then some .pwrStatus
  else if o = 0x18 then some .pwrTelem
  else none

def feReg (o : Nat) : Option Reg :=
  if o < 0x8000 then
    match o % 0x20 with
    | 0 => some (.ringBase (o / 0x20))
    | 8 => some (.ringCfg (o / 0x20))
    | 16 => some (.ringCtrl (o / 0x20))
    | _ => some (.ringStat (o / 0x20))
  else if o = 0x10000 then some .feGrace
  else none

def objReg (o : Nat) : Option Reg :=
  if o < 0x200000 then
    match o % 32 with
    | 0 => some (.fncValue (o / 32))
    | 8 => some (.fncSignal (o / 32))
    | 16 => some (.fncStatus (o / 32))
    | _ => none
  else
    let q := o - 0x200000
    if q = 0 then some .objCmd
    else if q < 0x20 then some (.objArg (q / 8 - 1))
    else if q = 0x20 then some .objStatus
    else if q = 0x28 then some .objCtxSel
    else if 0x40 ≤ q && q < 0x68 then some (.objFault ((q - 0x40) / 8))
    else none

def ptReg (o : Nat) : Option Reg :=
  if o = 0 then some .ptCmd
  else if o = 8 then some .ptStatus
  else if 0x20 ≤ o && o < 0x40 then some (.ptTest ((o - 0x20) / 8))
  else if 0x1000 ≤ o && o < 0x2000 then
    let k := (o - 0x1000) / 0x100
    let q := o % 0x100
    if q = 0 then some (.ptCfg k)
    else if q < 0x28 then some (.ptChan k (q / 8 - 1))
    else if q = 0x28 then some (.ptWays k)
    else if q = 0x30 then some (.ptCone k)
    else if q = 0x38 then some (.ptQuota k)
    else if q = 0x40 then some (.ptPerfSel k)
    else if 0x80 ≤ q && q < 0xC0 then some (.ptPerf k ((q - 0x80) / 8))
    else none
  else none

def secReg (o : Nat) : Option Reg :=
  if o = 0 then some .secCmd
  else if o = 8 then some .secStatus
  else if 0x100 ≤ o && o < 0x180 then some (.secPstate ((o - 0x100) / 8))
  else if 0x10000 ≤ o && o < 0x30000 then some (.secBuf (o - 0x10000))
  else none

def rasReg (o : Nat) : Option Reg :=
  if o = 0 then some .rasStatus
  else if o = 0x08 then some .rasCmd
  else if o = 0x10 then some .rasLogHead
  else if o = 0x18 then some .rasCal
  else if o = 0x20 then some .rasLife
  else if o = 0x28 then some .rasStart
  else if o = 0x30 then some .rasQuiesce
  else if o = 0x38 then some .rasEvents
  else if 0x10000 ≤ o && o < 0x30000 then some (.rasLog (o - 0x10000))
  else if 0x40000 ≤ o && o < 0x41000 then some (.rasSummary (o - 0x40000))
  else none

def dlReg (o : Nat) : Option Reg :=
  if o = 0 then some .dlCfg
  else if o = 0x08 then some .dlStatus
  else if o = 0x10 then some .dlIntPend
  else if o = 0x18 then some .dlIntMask
  else if o = 0x20 then some .dlIntAck
  else if o = 0x28 then some .dlHfilt
  else none

def xlReg (o : Nat) : Option Reg :=
  if o < 0x60000 then
    let n := o / 0x10000
    match o % 0x10000 with
    | 0 => some (.xlPortCtrl n)
    | 8 => some (.xlPortStatus n)
    | 16 => some (.xlPlan n)
    | 24 => some (.xlPortPeer n)
    | _ => none
  else if o = 0x60000 then some .xlTopo
  else if o = 0x60008 then some .xlRxStatus
  else if 0x60100 ≤ o && o < 0x60180 then some (.xlSlice ((o - 0x60100) / 8))
  else if 0x60180 ≤ o && o < 0x60200 then some (.xlSliceStatus ((o - 0x60180) / 8))
  else if 0x70000 ≤ o && o < 0x78000 then some (.xlCone ((o - 0x70000) / 8))
  else none

/-- The block of the stacks: 16 stacks of 0x4_0000 each. -/
def msReg (o : Nat) : Option Reg :=
  let t := o / 0x40000
  let q := o % 0x40000
  if 16 ≤ t then none
  else if q < 0x10000 then
    let p := 16 * t + q / 0x1000
    match q % 0x1000 with
    | 0 => some (.msChCfg p)
    | 8 => some (.msChStatus p)
    | 16 => some (.msChRepair p)
    | 24 => some (.msTgCtrl p)
    | 32 => some (.msTgRange p)
    | 40 => some (.msTgStatus p)
    | 48 => some (.msTgResult p)
    | 56 => some (.msNmStatus p)
    | _ => none
  else if q = 0x20000 then some (.msTherm t)
  else if q = 0x20008 then some (.msSrStatus t)
  else if q = 0x20010 then some (.msPmStatus t)
  else none

/-- The block of the compute dies: 4 dies of 0x40_0000 each. -/
def cdReg (o : Nat) : Option Reg :=
  let d := o / 0x400000
  let q := o % 0x400000
  if 4 ≤ d then none
  else if q = 0 then some (.cdSlabCfg d)
  else if q = 8 then some (.cdL2Status d)
  else if 0x100 ≤ q && q < 0x180 then some (.cdL2Mask d ((q - 0x100) / 8))
  else if 0x10000 ≤ q && q < 0x50000 then
    let c := 64 * d + (q - 0x10000) / 0x1000
    let r := q % 0x1000
    if r = 0 then some (.cdCoreState c)
    else if r = 8 then some (.cdSlabStatus c)
    else if r = 16 then some (.cdSram c)
    else if 0x20 ≤ r && r < 0x40 then some (.cdAe c ((r - 0x20) / 8))
    else none
  else none

def dbReg (o : Nat) : Option Reg :=
  let n := o / 0x1000
  if 1024 ≤ n then none
  else match o % 0x1000 with
    | 0 => some (.dbTail n)
    | 8 => some (.dbRetired n)
    | 16 => some (.dbQstatus n)
    | _ => none

/-- The register at a set-up offset, a multiple of 8; none where no register lies. -/
def regAt (ofs : Nat) : Option Reg :=
  if ofs % 8 ≠ 0 then none
  else if ofs < 0x100000 then genReg ofs
  else if ofs < 0x200000 then pwrReg (ofs - 0x100000)
  else if ofs < 0x400000 then feReg (ofs - 0x200000)
  else if ofs < 0x800000 then objReg (ofs - 0x400000)
  else if ofs < 0x900000 then ptReg (ofs - 0x800000)
  else if ofs < 0xA00000 then secReg (ofs - 0x900000)
  else if ofs < 0xB00000 then rasReg (ofs - 0xA00000)
  else if ofs < 0xC00000 then dlReg (ofs - 0xB00000)
  else if ofs < 0x1000000 then xlReg (ofs - 0xC00000)
  else if ofs < 0x2000000 then msReg (ofs - 0x1000000)
  else if ofs < 0x3000000 then cdReg (ofs - 0x2000000)
  else if ofs < 0x4000000 then dbReg (ofs - 0x3000000)
  else none

-- What the registers read

/-- A word from its fields: lowest bit and value. -/
def pack (fs : List (Nat × Nat)) : W64 := BitVec.ofNat 64 (sumOf (fs.map (fun f => f.2 * 2 ^ f.1)))

/-- A word from 64 bits. -/
def packBits (f : Nat → Bool) : W64 := pack ((List.range 64).map (fun i => (i, boolNat (f i))))

/-- A field that names a saggar or none. -/
def partField (p : Option SagId) : Nat := match p with
  | some k => k.val
  | none => 0xFF

-- GEN (Tables 20-6 to 20-12): the maps read 0 until step 7 of start-up

def coreCounted (s : State) (c : Nat) : Bool :=
  let st := (coreOf s c).st
  s.gen.mapped && (st == .active || st == .retiring || st == .test)

def chanCounted (s : State) (p : Nat) : Bool :=
  let st := (chanOf s p).st
  s.gen.mapped && (st == .free || st == .owned || st == .retrain)

def engineCounted (s : State) (p : Nat) : Bool := s.gen.mapped && (chanOf s p).engine
def portCounted (s : State) (n : Nat) : Bool := s.gen.mapped && (portOf s n).st != .retired
def copyCounted (s : State) (e : Nat) : Bool := s.gen.mapped && !(s.fuses.copyOff.any (fun x => x.val == e))
def codecCounted (s : State) (t : Nat) : Bool := s.gen.mapped && (stackOf s t).codec

def countOf (n : Nat) (f : Nat → Bool) : Nat := ((List.range n).filter f).length

/-- DEGRADED (R463): a count lies below a floor of R8, or a channel is FAILED or RETIRED; 0 until the maps are final. -/
def isDegraded (s : State) : Bool :=
  s.gen.mapped && (countOf 256 (coreCounted s) < 240 || countOf 256 (engineCounted s) < 240 || countOf 16 (codecCounted s) < 14 ||
    countOf 16 (copyCounted s) < 14 || (List.range 256).any (fun p => (chanOf s p).st == .failed || (chanOf s p).st == .retired))

def genCountsWord (s : State) : W64 :=
  pack [(61, countOf 6 (portCounted s)), (56, countOf 16 (copyCounted s)), (48, countOf 16 (codecCounted s)),
    (32, countOf 256 (chanCounted s)), (16, countOf 256 (engineCounted s)), (0, countOf 256 (coreCounted s))]

def unitMapWord (s : State) : W64 :=
  packBits (fun i => if i < 16 then codecCounted s i else if i < 32 then copyCounted s (i - 16) else i < 38 && portCounted s (i - 32))

def domainCode : DomainSt → Nat
  | .running => 0
  | .stopped => 1
  | .resetting => 2

/-- INPUT_STATE; nothing reads it while the module is OFF. -/
def inputCode : InputSt → Nat
  | .operating => 0
  | .brownout => 1
  | .overvolt => 2
  | .standby => 3
  | .off => 3

def sagMask (s : State) (f : Saggar → Bool) : Nat := sumOf ((List.range 16).map (fun k => boolNat (f (sagOf s k)) * 2 ^ k))

def genStatusWord (s : State) : W64 :=
  pack [(48, sagMask s (fun g => g.st == .sealed)), (32, sagMask s exists_), (24, s.gen.count.toNat), (12, boolNat (isDegraded s)),
    (10, domainCode s.ras.domain), (8, inputCode s.pwr.input), (1, boolNat s.gen.changed), (0, boolNat (s.ras.phase == 8))]

-- PWR (Tables 18-13 to 18-16)

def capsWord (p : Power) : W64 :=
  pack [(40, boolNat (limiting p)), (32, p.caps.issue), (24, p.caps.link), (16, p.caps.mem), (8, p.caps.nm), (0, p.caps.slab)]

def pwrStatusWord (p : Power) : W64 :=
  pack [(56, p.brownoutCount.toNat), (48, p.overvoltCount.toNat), (40, p.refclkCount.toNat), (32, p.limitRejectCount.toNat),
    (24, p.sensorCount.toNat), (16, p.sbTimeoutCount.toNat), (12, p.resetCause.toNat), (11, boolNat p.jthrottle), (10, boolNat p.holdover),
    (8, inputCode p.input), (5, boolNat p.sbTimeout), (4, boolNat p.sensorFault), (3, boolNat p.limitReject), (2, boolNat p.refclkFault),
    (1, boolNat p.overvolt), (0, boolNat p.brownout)]

def telemWord (p : Power) : W64 :=
  pack [(48, p.inputW.toNat), (38, p.inputDv.toNat), (30, p.hotC.toNat), (22, p.hotH.toNat), (14, p.hotE.toNat)]

-- Rings (Tables 11-1 to 11-6, 20-4)

def ringBaseWord (r : Ring) : W64 := BitVec.ofNat 64 (r.base.toNat * 4096)

def ringCfgWord (r : Ring) : W64 :=
  pack [(56, boolNat r.rtCopy), (48, r.rtCores.toNat), (32, r.qfence.toNat), (16, r.context.toNat), (12, r.partition.val),
    (8, boolNat r.rt), (0, r.sizeLog2.toNat)]

def ringCode : RingSt → Nat
  | .disabled => 0
  | .active => 1
  | .faulted => 2
  | .destroying => 3

def qstatusWord (r : Ring) : W64 :=
  pack [(32, r.failSeq.toNat), (24, r.failCount.toNat), (16, r.rejectCount.toNat), (8, r.failCode.toNat), (6, boolNat r.enableReject),
    (5, boolNat r.dbReject), (4, boolNat r.failed), (0, ringCode r.st)]

-- Fences and the object port (Tables 12-5, 12-7, 12-12)

def pageCode : PageSt → Nat
  | .free => 0
  | .live => 1
  | .draining => 2

def fncStatusWord (s : State) (f : Nat) : W64 :=
  let x := fenceOf s f
  pack [(32, x.ooo.toNat), (24, x.abandonedCount.toNat), (16, x.errorCount.toNat), (8, pageCode (pageOf s (f / 128)).st),
    (1, boolNat x.abandoned), (0, boolNat x.error)]

def objStatusWord (p : Port) : W64 :=
  pack [(32, p.result.toNat), (24, p.refusedCount.toNat), (8, p.status.toNat), (1, boolNat p.refused), (0, boolNat p.busy)]

def faultWord (r : FaultRec) : Nat → W64
  | 0 => pack [(63, boolNat r.valid), (40, r.count.toNat), (32, r.source.toNat), (16, r.ring.toNat), (8, r.status.toNat), (0, r.code.toNat)]
  | 1 => pack [(48, r.thread.toNat), (32, r.node.toNat), (0, r.seq.toNat)]
  | 2 => pack [(32, r.bidX.toNat), (0, r.pc.toNat)]
  | 3 => pack [(16, r.bidZ.toNat), (0, r.bidY.toNat)]
  | _ => r.addr

/-- The record of a context as it reads: one made before its saggar was SEALED shows no work either (R388). -/
def shownFault (s : State) (x : Ctx) : FaultRec := if (sagOf s x.sag).st == .sealed then hideWork x.fault else x.fault

-- Partitions (Tables 14-5 to 14-10) and the mailbox (Tables 15-5, 15-6)

def ptStatusWord (p : Port) : W64 :=
  pack [(16, p.refusedCount.toNat), (8, p.status.toNat), (1, boolNat p.refused), (0, boolNat p.busy)]

def ptCfgWord (g : Saggar) : W64 :=
  pack [(48, g.clusters.toNat), (32, g.copy.toNat), (28, g.linkWeight.toNat), (24, g.lsSplit.toNat), (0, sagCode g.st)]

def maskWord (m : WayMask) : W64 := pack [(32, m.engine.toNat), (16, m.ae.toNat), (0, m.core.toNat)]

def quotaWord (g : Saggar) : W64 :=
  pack [(51, g.qGraphs.toNat), (41, g.qPages.toNat), (24, g.qObjects.toNat), (11, g.qContexts.toNat), (0, g.qRings.toNat)]

def secStatusWord (x : Security) : W64 :=
  pack [(32, x.port.result.toNat), (24, x.port.refusedCount.toNat), (16, x.hostDeny.toNat), (8, x.port.status.toNat),
    (1, boolNat x.port.refused), (0, boolNat x.port.busy)]

def pstateWord (g : Saggar) : W64 :=
  pack [(32, g.overflow.toNat % 2 ^ 32), (20, boolNat g.slice.isSome), (8, g.log.length), (4, g.epoch.toNat), (0, boolNat g.sealing)]

-- RAS (Tables 17-6, 17-10 to 17-14, 19-7, 19-8, 20-5)

def rasStatusWord (r : Ras) : W64 :=
  pack [(56, r.stopCount.toNat), (48, r.recoveryCount.toNat), (40, r.port.status.toNat), (32, boolNat r.port.busy), (28, r.queue.length),
    (27, boolNat r.running.isSome), (26, boolNat r.serviceOrdering), (24, domainCode r.domain),
    (20, sumOf (r.sccs.zipIdx.map (fun p => boolNat p.1.failed * 2 ^ p.2))), (15, boolNat r.standby), (14, boolNat r.calReject),
    (0, r.lastStop.toNat)]

/-- WEAR: W × 1,024, rounded down, at most 1,023. -/
def wearField (z : Crazing) : Nat := min 1023 (max z.wearT.toNat z.wearC.toNat / 2 ^ 22)

def lifeWord (z : Crazing) : W64 := pack [(32, z.remainingHours.toNat), (16, z.remainingDays.toNat), (0, wearField z)]

def startWord (s : State) : W64 :=
  let r := s.ras
  pack [(48, r.failDetail.toNat), (32, r.failedChannels.toNat), (28, r.qstate.toNat), (25, boolNat r.fallback), (24, s.sec.bootSlot.val),
    (12, boolNat (isDegraded s)), (8, r.fail.toNat), (0, r.phase.toNat)]

/-- Word `i` of a firing-log entry. -/
def logWord (e : LogRec) : Nat → W64
  | 0 => pack [(48, e.unit.toNat), (43, e.partition.toNat), (40, e.cls.toNat), (32, e.code.toNat), (0, e.seq.toNat)]
  | 1 => e.time
  | 2 => e.detail0
  | _ => pack [(32, e.detail1.toNat), (0, e.poweredS.toNat)]

def logWindow (s : State) (ofs : Nat) : W64 :=
  match s.ras.log.find? (fun e => e.seq.toNat % 4096 == ofs / 32) with
  | some e => logWord e (ofs % 32 / 8)
  | none => 0

/-- The newest summary; none has been written: zeros. -/
def summaryWindow (s : State) (ofs : Nat) : W64 := match s.ras.summaries with
  | x :: _ => BitVec.ofNat 64 (leNat ((x.bytes.drop ofs).take 8))
  | [] => 0

-- The Derset link (Tables 16-8 to 16-12, 09-8)

def dlCfgWord (d : Derset) : W64 := pack [(16, d.snpTimeout.toNat), (8, d.reqTimeout.toNat), (0, d.swapThresh.toNat)]

def linkCode : LinkSt → Nat
  | .untrained => 0
  | .training => 1
  | .trainFail => 2
  | .up => 3
  | .swap => 4
  | .down => 5

def dlStatusWord (d : Derset) : W64 :=
  pack [(48, d.replayCount.toNat), (40, d.refusedCount.toNat), (32, d.timeoutCount.toNat), (24, d.swapCount.toNat), (18, boolNat d.refused),
    (17, boolNat d.timeout), (16, boolNat d.swapped), (10, d.sparesTx), (8, d.sparesRx), (4, d.failStep.toNat), (0, linkCode d.st)]

-- The ports (Tables 13-9 to 13-16)

def portCtrlWord (p : XlPort) : W64 := pack [(8, p.swapThresh.toNat), (2, boolNat p.loopback)]

def portCode : PortSt → Nat
  | .unused => 0
  | .training => 1
  | .trainFail => 2
  | .checkFail => 3
  | .up => 4
  | .swap => 5
  | .test => 6
  | .down => 7
  | .retired => 8

def portStatusWord (p : XlPort) : W64 :=
  pack [(48, p.replayCount.toNat), (40, p.swapCount.toNat), (32, p.downCount.toNat), (28, p.sparesUsed), (24, boolNat p.downEvent),
    (16, p.failStep.toNat), (8, p.result.toNat), (0, portCode p.st)]

def rxStatusWord (x : Xator) : W64 :=
  pack [(56, x.discardCount.toNat), (48, x.epochCount.toNat), (40, x.authCount.toNat), (32, x.lastPartition.toNat), (24, x.lastReason.toNat),
    (6, x.lastSource.toNat), (0, boolNat x.discard)]

def sliceStatusWord (r : SliceReg) : W64 :=
  pack [(56, r.stopCount.toNat), (48, r.rejectCount.toNat), (40, r.cause.toNat), (22, r.stopOrigin.toNat), (2, boolNat r.cfgReject),
    (1, boolNat r.stopped)]

-- The stacks (Tables 05-7 to 05-14, 06-10, 06-11, 07-9)

def chanCode : ChanSt → Nat
  | .untrained => 0
  | .training => 1
  | .free => 2
  | .owned => 3
  | .retrain => 4
  | .failed => 5
  | .retired => 6

def chStatusWord (c : Channel) : W64 :=
  pack [(48, c.corrected.toNat), (40, c.retrainCount.toNat), (32, c.keyRefusedCount.toNat), (24, c.uncorrectedCount.toNat),
    (18, boolNat c.retrained), (17, boolNat c.keyRefused), (16, boolNat c.uncorrected), (8, partField c.partition), (4, c.failStep.toNat),
    (0, chanCode c.st)]

def chRepairWord (c : Channel) : W64 :=
  pack [(48, c.remapped), (40, c.caSpare1.toNat), (32, c.caSpare0.toNat), (24, (c.dqSpare.getD 3 0).toNat), (16, (c.dqSpare.getD 2 0).toNat),
    (8, (c.dqSpare.getD 1 0).toNat), (0, (c.dqSpare.getD 0 0).toNat)]

def tgCtrlWord (g : TrafficGen) : W64 := pack [(24, g.seed.toNat), (16, g.passes.toNat), (4, g.pattern.toNat)]
def tgRangeWord (g : TrafficGen) : W64 := pack [(32, g.last.toNat), (0, g.first.toNat)]

def tgStatusWord (g : TrafficGen) : W64 :=
  pack [(32, g.firstOffset.toNat), (24, g.rejectCount.toNat), (16, g.mismatchCount.toNat), (8, g.doneCount.toNat), (3, boolNat g.rejected),
    (2, boolNat g.mismatch), (1, boolNat g.done), (0, boolNat g.busy)]

def tgResultWord (g : TrafficGen) : W64 := pack [(40, g.blocks.toNat), (32, g.firstLane.toNat), (0, g.elapsed.toNat)]

/-- A saggar is SEALED (R395). -/
def anySealed (s : State) : Bool := (List.range 16).any (isSealed s)

/-- The unit belongs to a SEALED saggar. -/
def ownerSealed (s : State) (p : Option SagId) : Bool := match p with
  | some k => isSealed s k.val
  | none => false

/-- A count that reads 0 while `hidden` (R395). -/
def shown (hidden : Bool) (n : Nat) : Nat := if hidden then 0 else n

def nmStatusWord (s : State) (p : Nat) : W64 :=
  let c := chanOf s p
  pack [(56, c.abortCount.toNat), (48, c.dataErrCount.toNat), (32, boolNat c.dataErr),
    (8, shown (ownerSealed s c.partition) (partsQueued s p)), (0, boolNat (!c.engine))]

def throttleCode (t : Throttle) : Nat := throttleRank t

def thermWord (k : Stack) : W64 :=
  pack [(56, boolNat k.overtemp), (48, k.stopCount.toNat), (24, k.sensorFault.toNat), (16, throttleCode k.throttle), (0, k.temp.toNat)]

def stackEngines (s : State) (t : Nat) : Nat := countOf 16 (fun i => (chanOf s (16 * t + i)).engine)

def srStatusWord (s : State) (t : Nat) : W64 :=
  let k := stackOf s t
  let hide := anySealed s
  pack [(56, k.rejectCount.toNat), (40, k.cap.toNat), (36, shown hide (boolNat k.vset.isSome)),
    (32, shown hide (match k.vset with
      | some v => v.tag.sag.val
      | none => 0)),
    (5, shown hide (stackShares s t).length), (1, stackEngines s t - 1), (0, boolNat k.codec)]

def pmStatusWord (k : Stack) : W64 :=
  pack [(56, k.malformedCount.toNat), (40, boolNat k.malformed), (36, k.lastPartition.toNat), (32, k.lastReason.toNat),
    (8, k.lastHome.toNat), (4, k.lastChannel.toNat), (0, boolNat k.codec)]

-- The compute dies (Tables 01-6, 02-9, 02-10, 04-8, 04-9, 09-6, 09-7)

def l2StatusWord (s : State) (d : Nat) : W64 :=
  let x := dieOf s d
  let hide := anySealed s
  pack [(48, x.corrected.toNat), (32, shown hide x.stale.toNat), (24, x.badCount.toNat), (16, boolNat x.bad), (0, shown hide x.farAtomics.toNat)]

def coreCode : CoreSt → Nat
  | .absent => 0
  | .spare => 1
  | .active => 2
  | .retiring => 3
  | .retired => 4
  | .test => 5

def coreStateWord (s : State) (c : Nat) : W64 :=
  let k := coreOf s c
  let hide := ownerSealed s k.partition
  pack [(40, shown hide k.faultCount.toNat), (32, shown hide (sumOf (k.subs.map (fun u => u.slots.length)))),
    (24, shown hide k.blocks.length), (16, k.split), (8, partField k.partition), (0, coreCode k.st)]

def slabStatusWord (s : State) (c : Nat) : W64 :=
  let k := coreOf s c
  if ownerSealed s k.partition then 0
  else pack ([(40, k.grantCount.toNat), (36, boolNat k.lease.isSome), (32, (k.lease.map (fun b => b.val)).getD 0)] ++
    (List.range 4).map (fun i => (16 + 4 * i, (slabOf k i).level)) ++ (List.range 4).map (fun i => (4 * i, (slabOf k i).queue.length)))

def sramWord (s : State) (c : Nat) : W64 :=
  let k := coreOf s c
  pack [(48, k.corrected.toNat), (32, k.l1Refetch.toNat), (0, shown (ownerSealed s k.partition) k.replay.toNat)]

def aeWord (s : State) (c e : Nat) : W64 :=
  let k := coreOf s c
  let g := engineOf k e
  let n (st : StreamState) : Nat := (g.streams.filter (fun x => x.2.st == st)).length
  if ownerSealed s k.partition then 0
  else pack [(56, g.excess.toNat), (32, g.spans.length), (24, n .done), (16, n .running)]

/-- What a register reads. -/
def readReg (s : State) : Reg → W64
  | .genId => 0x000000A009404E47
  | .genSerial => s.fuses.serial
  | .genCap => 0x0000108F01101010
  | .genLimits => 0xFFFFFFFFFFFFFFF0
  | .genCounts => genCountsWord s
  | .genStatus => genStatusWord s
  | .genUnitMap => unitMapWord s
  | .genCoreMap j => packBits (fun i => coreCounted s (64 * j + i))
  | .genNmMap j => packBits (fun i => engineCounted s (64 * j + i))
  | .genChanMap j => packBits (fun i => chanCounted s (64 * j + i))
  | .pwrCtrl => pwrCtrlWord s.pwr
  | .pwrCaps => capsWord s.pwr
  | .pwrStatus => pwrStatusWord s.pwr
  | .pwrTelem => telemWord s.pwr
  | .ringBase n => ringBaseWord (ringOf s n)
  | .ringCfg n => ringCfgWord (ringOf s n)
  | .ringCtrl _ => 0
  | .ringStat n => BitVec.ofNat 64 (ringOf s n).enableRejectCount.toNat
  | .feGrace => BitVec.ofNat 64 s.fe.grace.toNat
  | .fncValue f => (fenceOf s f).value
  | .fncSignal _ => 0
  | .fncStatus f => fncStatusWord s f
  | .objCmd => 0
  | .objArg j => word [s.obj.arg0, s.obj.arg1, s.obj.arg2] j
  | .objStatus => objStatusWord s.obj.port
  | .objCtxSel => BitVec.ofNat 64 s.obj.ctxSel.toNat
  | .objFault w => faultWord (shownFault s (ctxOf s s.obj.ctxSel.toNat)) w
  | .ptCmd => 0
  | .ptStatus => ptStatusWord s.pt.port
  | .ptTest j => packBits (fun i => testWindow s (64 * j + i))
  | .ptCfg k => ptCfgWord (sagOf s k)
  | .ptChan k j => (sagOf s k).chans.getD j 0
  | .ptWays k => maskWord (sagOf s k).ways
  | .ptCone k => BitVec.ofNat 64 (coneReg (sagOf s k))
  | .ptQuota k => quotaWord (sagOf s k)
  | .ptPerfSel k => (sagOf s k).perfSel
  | .ptPerf k n => (sagOf s k).perf.getD n 0
  | .secCmd => 0
  | .secStatus => secStatusWord s.sec
  | .secPstate k => pstateWord (sagOf s k)
  | .secBuf ofs => BitVec.ofNat 64 (leNat (bufRead s ofs 8))
  | .rasStatus => rasStatusWord s.ras
  | .rasCmd => 0
  | .rasLogHead => pack [(32, s.ras.lostCount.toNat), (0, s.ras.nextSeq.toNat)]
  | .rasCal => calWord s
  | .rasLife => lifeWord s.ras.craze
  | .rasStart => startWord s
  | .rasQuiesce => quiesceWord s
  | .rasEvents => BitVec.ofNat 64 s.ras.calRejectCount.toNat
  | .rasLog ofs => logWindow s ofs
  | .rasSummary ofs => summaryWindow s ofs
  | .dlCfg => dlCfgWord s.dl
  | .dlStatus => dlStatusWord s.dl
  | .dlIntPend => pack [(56, s.dl.sentCount.toNat), (0, s.dl.pending.toNat)]
  | .dlIntMask => BitVec.ofNat 64 s.dl.mask.toNat
  | .dlIntAck => 0
  | .dlHfilt => pack [(48, s.backinv.toNat), (0, s.hostFilter.length)]
  | .xlPortCtrl n => portCtrlWord (portOf s n)
  | .xlPortStatus n => portStatusWord (portOf s n)
  | .xlPlan n => planWord (portOf s n).plan
  | .xlPortPeer n => planWord (portOf s n).peer
  | .xlTopo => topoWord s.xl
  | .xlRxStatus => rxStatusWord s.xl
  | .xlSlice k => sliceWord (sliceOf s k)
  | .xlSliceStatus k => sliceStatusWord (sliceOf s k)
  | .xlCone n => coneWord (coneOf s n)
  | .msChCfg p => chCfgWord (chanOf s p)
  | .msChStatus p => chStatusWord (chanOf s p)
  | .msChRepair p => chRepairWord (chanOf s p)
  | .msTgCtrl p => tgCtrlWord (chanOf s p).tg
  | .msTgRange p => tgRangeWord (chanOf s p).tg
  | .msTgStatus p => tgStatusWord (chanOf s p).tg
  | .msTgResult p => tgResultWord (chanOf s p).tg
  | .msNmStatus p => nmStatusWord s p
  | .msTherm t => thermWord (stackOf s t)
  | .msSrStatus t => srStatusWord s t
  | .msPmStatus t => pmStatusWord (stackOf s t)
  | .cdSlabCfg d => BitVec.ofNat 64 (dieOf s d).ramp.toNat
  | .cdL2Status d => l2StatusWord s d
  | .cdL2Mask d k => maskWord (tblGet {} (dieOf s d).masks k)
  | .cdCoreState c => coreStateWord s c
  | .cdSlabStatus c => slabStatusWord s c
  | .cdSram c => sramWord s c
  | .cdAe c e => aeWord s c e
  | .dbTail n => (ringOf s n).tail
  | .dbRetired n => (ringOf s n).retired
  | .dbQstatus n => qstatusWord (ringOf s n)

-- What a write does

/-- The state that a command leaves. -/
def leaves (s : State) : Host.Outcome State Fault Refusal → State
  | .next t => t
  | _ => s

def toRing (n : Nat) : RingId := BitVec.toFin (BitVec.ofNat 10 n)
def toChan (p : Nat) : ChanId := BitVec.toFin (BitVec.ofNat 8 p)
def toSag (k : Nat) : SagId := BitVec.toFin (BitVec.ofNat 4 k)
def toPort (n : Nat) : PortId := if h : n < 6 then ⟨n, h⟩ else 0

/-- A port whose training a register write starts: what it meets is told by XL_PORT_TRAIN or by its timeout. -/
def trainOpen : PortTrain := ⟨some 0, 0, none⟩

/-- FE_RING_BASE_n and FE_RING_CFG_n take a write while the ring is DISABLED (R291). -/
def writeRing (s : State) (n : Nat) (f : Ring → Ring) : State := if (ringOf s n).st == .disabled then modRing s n f else s

def ringFrom (r : Ring) (v : W64) : Ring :=
  { r with
    rtCopy := bit v 56, rtCores := BitVec.ofNat 8 (field v 48 8), qfence := BitVec.ofNat 16 (field v 32 16)
    context := BitVec.ofNat 16 (field v 16 16), partition := toSag (field v 12 4), rt := bit v 8, sizeLog2 := BitVec.ofNat 5 (field v 0 5) }

/-- FE_RING_CTRL_n: ENABLE, DESTROY and RESUME. -/
def writeRingCtrl (s : State) (n : Nat) (w : W64) : State :=
  let s := if bit w 0 then leaves s (execEnable (toRing n) s) else s
  let s := if bit w 1 then leaves s (execQueueDestruction (toRing n) s) else s
  if bit w 2 then leaves s (execResume (toRing n) s) else s

/-- The request registers of a saggar take a write while it is NONE (R366). -/
def writeSag (s : State) (k : Nat) (f : Saggar → Saggar) : State := if (sagOf s k).st == .none then modSag s k f else s

/-- The reserved bits of a request register, as written. -/
def keepReserved (g : Saggar) (i : Nat) (mask : W64) (be : BitVec 8) (w : W64) : Saggar :=
  { g with reserved := tblSet 0 g.reserved i (mergeBytes (tblGet 0 g.reserved i) be w &&& mask) }

def maskFrom (v : W64) : WayMask :=
  { engine := BitVec.ofNat 15 (field v 32 15), ae := BitVec.ofNat 15 (field v 16 15), core := BitVec.ofNat 15 (field v 0 15) }

def ptCfgFrom (g : Saggar) (v : W64) : Saggar :=
  { g with clusters := BitVec.ofNat 16 (field v 48 16), copy := BitVec.ofNat 16 (field v 32 16)
           linkWeight := BitVec.ofNat 4 (field v 28 4), lsSplit := BitVec.ofNat 4 (field v 24 4) }

def quotaFrom (g : Saggar) (v : W64) : Saggar :=
  { g with qGraphs := BitVec.ofNat 13 (field v 51 13), qPages := BitVec.ofNat 10 (field v 41 10), qObjects := BitVec.ofNat 17 (field v 24 17)
           qContexts := BitVec.ofNat 13 (field v 11 13), qRings := BitVec.ofNat 11 (field v 0 11) }

/-- Counters whose selection changes restart from 0 at the next update (R395). -/
def selFrom (g : Saggar) (v : W64) : Saggar :=
  let changed := sumOf ((List.range 8).map (fun n => boolNat (perfEvent v n != perfEvent g.perfSel n) * 2 ^ n))
  { g with perfSel := v, perfRestart := g.perfRestart ||| BitVec.ofNat 8 changed }

/-- DL_CFG: a field out of its range is left unchanged (R413). -/
def dlCfgFrom (d : Derset) (v : W64) : Derset :=
  let snp := field v 16 16
  let req := field v 8 8
  { d with
    snpTimeout := if 1000 ≤ snp && snp ≤ 16000 then BitVec.ofNat 16 snp else d.snpTimeout
    reqTimeout := if 1 ≤ req && req ≤ 64 then BitVec.ofNat 8 req else d.reqTimeout
    swapThresh := BitVec.ofNat 8 (field v 0 8) }

/-- XL_PORT_CTRL: the fields, then RETIRE, then TRAIN. -/
def writePortCtrl (s : State) (n : Nat) (be : BitVec 8) (w : W64) : State :=
  let v := mergeBytes (portCtrlWord (portOf s n)) be w
  let s := modPort s n (fun p => { p with swapThresh := BitVec.ofNat 8 (field v 8 8), loopback := bit v 2 })
  let s := if bit v 3 then leaves s (execXlPortRetire (toPort n) s) else s
  if bit v 1 then leaves s (execXlPortTrain (toPort n) trainOpen s) else s

/-- MS_TG_CTRL: the fields, then ABORT, then START. -/
def writeTg (s : State) (p : Nat) (be : BitVec 8) (w : W64) : State :=
  let v := mergeBytes (tgCtrlWord (chanOf s p).tg) be w
  let s := modChan s p (fun c => { c with tg := { c.tg with
    seed := BitVec.ofNat 31 (field v 24 31), passes := BitVec.ofNat 8 (field v 16 8), pattern := BitVec.ofNat 4 (field v 4 4) } })
  let s := if bit v 1 then tgStop s p else s
  if bit v 0 then leaves s (execTgStart (toChan p) s) else s

/-- A W1C bit after a write: 1 clears it. -/
def w1c (old : Bool) (v : W64) (i : Nat) : Bool := old && !(bit v i)

/-- A write to a register under its byte enables. What is not named here is read only. -/
def writeReg (s : State) (sideband : Bool) (r : Reg) (be : BitVec 8) (w : W64) : State :=
  let e := enabledBytes be w
  let v := mergeBytes (readReg s r) be w
  match r with
  | .genStatus => { s with gen := { s.gen with changed := w1c s.gen.changed e 1 } }
  | .pwrCtrl => leaves s (execPwrCtrlWrite sideband be w s)
  | .pwrStatus => modPwr s (fun p => { p with
      sbTimeout := w1c p.sbTimeout e 5, sensorFault := w1c p.sensorFault e 4, limitReject := w1c p.limitReject e 3
      refclkFault := w1c p.refclkFault e 2, overvolt := w1c p.overvolt e 1, brownout := w1c p.brownout e 0 })
  | .ringBase n => writeRing s n (fun r => { r with base := BitVec.ofNat 40 (field v 12 40) })
  | .ringCfg n => writeRing s n (fun r => ringFrom r v)
  | .ringCtrl n => writeRingCtrl s n e
  | .feGrace => if field v 0 17 ≤ 100000 then { s with fe := { s.fe with grace := BitVec.ofNat 17 (field v 0 17) } } else s
  | .fncSignal f => leaves s (execFncSignal (BitVec.toFin (BitVec.ofNat 16 f)) be w s)
  | .fncStatus f => setFence s f { fenceOf s f with abandoned := w1c (fenceOf s f).abandoned e 1, error := w1c (fenceOf s f).error e 0 }
  | .objCmd => objPort s e .running
  | .objArg j =>
    { s with obj := { s.obj with
      arg0 := if j = 0 then v else s.obj.arg0, arg1 := if j = 1 then v else s.obj.arg1, arg2 := if j = 2 then v else s.obj.arg2 } }
  | .objStatus => setObjPort s { s.obj.port with refused := w1c s.obj.port.refused e 1 }
  | .objCtxSel => { s with obj := { s.obj with ctxSel := BitVec.ofNat 12 (field v 0 12) } }
  | .objFault i => if i = 0 then leaves s (execFaultRecordClear be w s) else s
  | .ptCmd => ptPort s e .running
  | .ptStatus => setPtPort s { s.pt.port with refused := w1c s.pt.port.refused e 1 }
  | .ptCfg k => writeSag s k (fun g => keepReserved (ptCfgFrom g v) 0 (ones 4 20) be w)
  | .ptChan k j => writeSag s k (fun g => { g with chans := listSet g.chans j v })
  | .ptWays k => writeSag s k (fun g => keepReserved { g with ways := maskFrom v } 1 (ones 47 17 ||| ones 31 1 ||| ones 15 1) be w)
  | .ptCone k => writeSag s k (fun g =>
      keepReserved { g with coneFirst := BitVec.ofNat 12 (field v 0 12), coneCount := BitVec.ofNat 13 (field v 12 13) } 2 (ones 25 39) be w)
  | .ptQuota k => writeSag s k (fun g => quotaFrom g v)
  | .ptPerfSel k => modSag s k (fun g => selFrom g v)
  | .secCmd => secPort s e .running
  | .secStatus => setSecPort s { s.sec.port with refused := w1c s.sec.port.refused e 1 }
  | .secBuf ofs =>
    if be == 0xFF then
      { s with sec := { s.sec with
        buf := ((leBytes 8 w.toNat).zipIdx).foldl (fun t p => tblSet 0 t (ofs + p.2) p.1) s.sec.buf } }
    else s
  | .rasStatus => { s with ras := { s.ras with calReject := w1c s.ras.calReject e 14 } }
  | .rasCmd => rasPort s e .running
  | .rasCal => leaves s (execRasCalWrite be w s)
  | .rasQuiesce => leaves s (execOrderlyQuiesce be w .running s)
  | .dlCfg => { s with dl := dlCfgFrom s.dl v }
  | .dlStatus => { s with dl := { s.dl with
      refused := w1c s.dl.refused e 18, timeout := w1c s.dl.timeout e 17, swapped := w1c s.dl.swapped e 16 } }
  | .dlIntMask => leaves s (execDlIntMaskWrite be w s)
  | .dlIntAck => leaves s (execDlIntAck be w s)
  | .xlPortCtrl n => writePortCtrl s n be w
  | .xlPortStatus n => modPort s n (fun p => { p with downEvent := w1c p.downEvent e 24 })
  | .xlPlan n => leaves s (execXlPlanWrite (toPort n) be w trainOpen s)
  | .xlTopo => leaves s (execXlTopoWrite be w s)
  | .xlRxStatus => { s with xl := { s.xl with discard := w1c s.xl.discard e 0 } }
  | .xlSlice k => leaves s (execXlSliceWrite (toSag k) be w s)
  | .xlSliceStatus k =>
    let s := setSlice s k { sliceOf s k with cfgReject := w1c (sliceOf s k).cfgReject e 2 }
    if bit e 3 then leaves s (execXlSliceStatusStop (toSag k) s) else s
  | .xlCone n => leaves s (execXlConeWrite (BitVec.toFin (BitVec.ofNat 12 n)) be w s)
  | .msChCfg p => leaves s (execMsChCfgWrite (toChan p) be w s)
  | .msChStatus p => modChan s p (fun c => { c with
      retrained := w1c c.retrained e 18, keyRefused := w1c c.keyRefused e 17, uncorrected := w1c c.uncorrected e 16 })
  | .msTgCtrl p => writeTg s p be w
  | .msTgRange p => modChan s p (fun c => { c with tg := { c.tg with
      last := BitVec.ofNat 21 (field v 32 21), first := BitVec.ofNat 21 (field v 0 21) } })
  | .msTgStatus p => modChan s p (fun c => { c with tg := { c.tg with
      rejected := w1c c.tg.rejected e 3, mismatch := w1c c.tg.mismatch e 2, done := w1c c.tg.done e 1 } })
  | .msNmStatus p => modChan s p (fun c => { c with dataErr := w1c c.dataErr e 32 })
  | .msTherm t => modStack s t (fun k => { k with overtemp := w1c k.overtemp e 56 })
  | .msPmStatus t => modStack s t (fun k => { k with malformed := w1c k.malformed e 40 })
  | .cdSlabCfg d => if field v 0 2 = 3 then s else modDie s d (fun x => { x with ramp := BitVec.ofNat 2 (field v 0 2) })
  | .cdL2Status d => modDie s d (fun x => { x with bad := w1c x.bad e 16 })
  | .cdL2Mask d k => if isSealed s k then s else modDie s d (fun x => { x with masks := tblSet {} x.masks k (maskFrom v) })
  | .dbTail n => leaves s (execDbTailWrite (toRing n) be w s)
  | .dbQstatus n => modRing s n (fun r => { r with
      enableReject := w1c r.enableReject e 6, dbReject := w1c r.dbReject e 5, failed := w1c r.failed e 4 })
  | _ => s

/-- What stands at a set-up offset: 0 where no register lies (R472). -/
def readSetup (s : State) (ofs : Nat) : W64 := match regAt ofs with
  | some r => readReg s r
  | none => 0

/-- What a read changes: in the firing-log window the entry is marked read (R473). -/
def afterRead (s : State) (ofs : Nat) : State := match regAt ofs with
  | some (.rasLog o) => leaves s (execFiringLogRead (BitVec.ofNat 17 o) s)
  | _ => s

def writeSetup (s : State) (sideband : Bool) (ofs : Nat) (be : BitVec 8) (w : W64) : State := match regAt ofs with
  | some r => writeReg s sideband r be w
  | none => s

/-- REGISTER_WRITE: a write of the host to a set-up register. -/
def execRegisterWrite (ofs : BitVec 26) (be : BitVec 8) (w : W64) (s : State) : Host.Outcome State Fault Refusal :=
  .next (writeSetup s false ofs.toNat be w)

-- CFG_RD and CFG_WR (R405)

/-- A set-up request of the host that can be performed; the others are answered with UNSUPPORTED. -/
def cfgLegal (a : BitVec 52) : Bool := a.toNat < 2 ^ 26 && a.toNat % 8 == 0

/-- What CFG_RD brings: a narrower read of a fence's value is ignored and brings 0 (R326). -/
def cfgData (s : State) (ofs : Nat) (be : BitVec 8) : W64 := match regAt ofs with
  | some (.fncValue _) => if be == 0xFF then readSetup s ofs else 0
  | _ => readSetup s ofs

/-- A set-up request of the host leaves its receive space, in order of arrival; one with a reserved field that is not 0 is a protocol
error (R403). -/
def takeCfg (s : State) (op : Nat) (m : HostMsg) (be : BitVec 8) (p : DlIn → Bool) (body : State → State) : State :=
  match (if dlServes s then dlTake s 3 (fun x => isMsg op m x && x.be == be && p x) else none) with
  | none => s
  | some (t, _) => if m.malformed then domainStop t causeProtocol 0 false else body t

/-- CFG_RD. -/
def execCfgRd (m : HostMsg) (be : BitVec 8) (s : State) : Host.Outcome State Fault Refusal :=
  .next (takeCfg s 0x42 m be (fun _ => true) (fun s =>
    if cfgLegal m.addr then
      afterRead (sendHost s (.ioData m.tag 0 (leBytes 8 (cfgData s m.addr.toNat be).toNat))) m.addr.toNat
    else sendHost s (.ioData m.tag 3 [])))

/-- CFG_WR: the word is the first 8 B of the payload (the model's choice, log 82). -/
def execCfgWr (m : HostMsg) (be : BitVec 8) (w : W64) (s : State) : Host.Outcome State Fault Refusal :=
  .next (takeCfg s 0x43 m be (fun x => x.data.take 8 == leBytes 8 w.toNat) (fun s =>
    if cfgLegal m.addr then sendHost (writeSetup s false m.addr.toNat be w) (.ioDone m.tag 0)
    else sendHost s (.ioDone m.tag 3)))

end Sys2Proof.Machine
end

