-- ==== Sys2Proof/Machine/Sideband.lean ====
section
/-!
DEFINITION. The sideband target and the JTAG port (R452, R438), and the pins that follow from the state.
-/
namespace Sys2Proof.Machine

open Sys2Proof

-- Pins

/-- ALERT0_N is driven low (R452, R440). -/
def alert0 (s : State) : Bool :=
  let p := s.pwr
  p.sbTimeout || p.sensorFault || p.limitReject || p.refclkFault || p.overvolt || p.brownout || p.railFail || p.holdover

/-- ALERT1_N is driven low: SERVICE or FATAL is pending, whatever the mask (R452). -/
def alert1 (s : State) : Bool := s.dl.pending.getLsbD 16 || s.dl.pending.getLsbD 17

-- Set-up accesses of the board (R452)

/-- The target answers with these bytes. -/
def sbReply (s : State) (bs : List Byte) : State := modPwr s (fun p => { p with sbAnswer := some bs, sbNack := false })

/-- The target gives NACK. -/
def sbRefuse (s : State) : State := modPwr s (fun p => { p with sbAnswer := none, sbNack := true })

/-- An offset that a read may address: GEN and PWR, and RAS while the main rails are on. -/
def sbReadable (s : State) (ofs : Nat) : Bool :=
  ofs % 8 == 0 && (ofs < 0x200000 || (s.pwr.mainRails && 0xA00000 ≤ ofs && ofs < 0xB00000))

/-- An offset that a write may address: PWR_CTRL and PWR_STATUS, and RAS_CAL while the main rails are on. -/
def sbWritable (s : State) (ofs : Nat) : Bool := ofs == 0x100000 || ofs == 0x100010 || (s.pwr.mainRails && ofs == 0xA00018)

/-- SIDEBAND_READ. -/
def execSidebandRead (ofs : BitVec 32) (s : State) : Host.Outcome State Fault Refusal :=
  .next (
    if !(standbyRuns s) then s
    else if sbReadable s ofs.toNat then afterRead (sbReply s (leBytes 8 (readSetup s ofs.toNat).toNat)) ofs.toNat
    else sbRefuse s)

/-- SIDEBAND_WRITE: all 8 bytes. -/
def execSidebandWrite (ofs : BitVec 32) (w : W64) (s : State) : Host.Outcome State Fault Refusal :=
  .next (
    if !(standbyRuns s) then s
    else if sbWritable s ofs.toNat then sbReply (writeSetup s true ofs.toNat 0xFF w) []
    else sbRefuse s)

/-- SB_TIMEOUT: a transaction unfinished 35 ms after its START is abandoned; what it wrote in part is discarded. -/
def execSbTimeout (s : State) : Host.Outcome State Fault Refusal :=
  .next (
    if !(standbyRuns s) then s
    else modPwr s (fun p => { p with
      sbAnswer := none, sbNack := false, sbTimeout := true, sbTimeoutCount := sat p.sbTimeoutCount 1 }))

-- Common command codes (R452)

/-- The static address. -/
def staticAddr (s : State) : BitVec 7 := BitVec.ofNat 7 (0x58 + s.pwr.straps.val)

/-- A command code acts while the standby domain runs. -/
def ccc (s : State) (f : State → State) : Host.Outcome State Fault Refusal := .next (if standbyRuns s then f s else s)

/-- A dynamic address is taken by a target that has none. -/
def takeAddr (a : BitVec 7) (s : State) : State :=
  if s.pwr.dynamicAddr.isSome then s else sbReply (modPwr s (fun p => { p with dynamicAddr := some a })) []

/-- SETDASA: to the static address. -/
def execSetdasa (addr : BitVec 7) (s : State) : Host.Outcome State Fault Refusal := ccc s (takeAddr addr)

/-- ENTDAA. -/
def execEntdaa (addr : BitVec 7) (s : State) : Host.Outcome State Fault Refusal := ccc s (takeAddr addr)

/-- RSTDAA. -/
def execRstdaa (s : State) : Host.Outcome State Fault Refusal :=
  ccc s (fun s => sbReply (modPwr s (fun p => { p with dynamicAddr := none })) [])

/-- GETPID: six bytes, whose values the manual does not give. -/
def execGetpid (s : State) : Host.Outcome State Fault Refusal := ccc s (fun s => sbReply s ((List.range 6).map (Config.i3cByte 0)))

/-- GETBCR: one byte. -/
def execGetbcr (s : State) : Host.Outcome State Fault Refusal := ccc s (fun s => sbReply s [Config.i3cByte 1 0])

/-- GETDCR: one byte. -/
def execGetdcr (s : State) : Host.Outcome State Fault Refusal := ccc s (fun s => sbReply s [Config.i3cByte 2 0])

/-- GETSTATUS: two bytes. -/
def execGetstatus (s : State) : Host.Outcome State Fault Refusal :=
  ccc s (fun s =>
    let r := takeFree s
    sbReply r.2 [Config.freeByte r.1 0, Config.freeByte r.1 1])

-- JTAG (R438)

/-- The instruction register's values. -/
def jtagBypass : BitVec 3 := 0
def jtagIdcode : BitVec 3 := 1
def jtagSample : BitVec 3 := 2
def jtagExtest : BitVec 3 := 3
def jtagClamp : BitVec 3 := 4
def jtagHighz : BitVec 3 := 5

/-- An instruction is selected with the data register between TDI and TDO. -/
def selectJtag (s : State) (i : BitVec 3) (reg : BitVec 32) (held off : Bool) : State :=
  modPwr s (fun p => { p with jtag := i, jtagReg := reg, outputsHeld := held, outputsOff := off })

/-- BYPASS: a register of one bit, 0. -/
def bypassed (s : State) : State := selectJtag s jtagBypass 0 false false

/-- EXTEST, CLAMP and HIGHZ act only while PWR_EN is low; at any other time they act as BYPASS. -/
def boundaryOnly (s : State) (t : State) : Host.Outcome State Fault Refusal := .next (if s.pwr.pwrEn then bypassed s else t)

/-- The 12 contacts of the chain, in the order in which R438 names them. The levels of the two bus lines come from outside. -/
def contacts (s : State) (draw : Nat) : List Bool :=
  let p := s.pwr
  [(Config.freeByte draw 0).getLsbD 0, (Config.freeByte draw 1).getLsbD 0, !(alert0 s), !(alert1 s), p.straps.val % 2 == 1,
   p.straps.val / 2 % 2 == 1, p.straps.val / 4 == 1, p.resetN, p.pwrEn, p.pwrgd, p.readyOff, !p.thermtrip]

/-- BYPASS. -/
def execBypass (s : State) : Host.Outcome State Fault Refusal := .next (bypassed s)

/-- IDCODE. -/
def execIdcode (s : State) : Host.Outcome State Fault Refusal := .next (selectJtag s jtagIdcode 0x009409CF false false)

/-- SAMPLE/PRELOAD: the contacts are captured in the boundary register. -/
def execSamplePreload (s : State) : Host.Outcome State Fault Refusal :=
  let r := takeFree s
  let v : Nat := sumOf ((contacts s r.1).zipIdx.map (fun p => boolNat p.1 * 2 ^ p.2))
  .next (modPwr (selectJtag r.2 jtagSample (BitVec.ofNat 32 v) false false) (fun p => { p with boundary := BitVec.ofNat 12 v }))

/-- EXTEST: the boundary register drives the contacts. -/
def execExtest (s : State) : Host.Outcome State Fault Refusal :=
  boundaryOnly s (selectJtag s jtagExtest (s.pwr.boundary.setWidth 32) true false)

/-- CLAMP: the boundary register drives the contacts, with the bypass register selected. -/
def execClamp (s : State) : Host.Outcome State Fault Refusal := boundaryOnly s (selectJtag s jtagClamp 0 true false)

/-- HIGHZ: the contacts are released, with the bypass register selected. -/
def execHighz (s : State) : Host.Outcome State Fault Refusal := boundaryOnly s (selectJtag s jtagHighz 0 false true)

end Sys2Proof.Machine
end

