-- ==== Sys2Proof/Machine/Dispatch.lean ====
section
/-!
DEFINITION. The one dispatch: every command of the block to its meaning.
-/
namespace Sys2Proof.Machine

open Sys2Proof

def exec (i : Instr) (s : State) : Host.Outcome State Fault Refusal :=
  match i with
  | .nop p f => Sys2Proof.Machine.execNop p f s
  | .iadd p f => Sys2Proof.Machine.execIadd p f s
  | .isub p f => Sys2Proof.Machine.execIsub p f s
  | .imul p f => Sys2Proof.Machine.execImul p f s
  | .imulhi p f => Sys2Proof.Machine.execImulhi p f s
  | .imad p f => Sys2Proof.Machine.execImad p f s
  | .iaddW p f => Sys2Proof.Machine.execIaddW p f s
  | .imin p f => Sys2Proof.Machine.execImin p f s
  | .imax p f => Sys2Proof.Machine.execImax p f s
  | .and p f => Sys2Proof.Machine.execAnd p f s
  | .or p f => Sys2Proof.Machine.execOr p f s
  | .xor p f => Sys2Proof.Machine.execXor p f s
  | .shl p f => Sys2Proof.Machine.execShl p f s
  | .shr p f => Sys2Proof.Machine.execShr p f s
  | .popc p f => Sys2Proof.Machine.execPopc p f s
  | .clz p f => Sys2Proof.Machine.execClz p f s
  | .brev p f => Sys2Proof.Machine.execBrev p f s
  | .isetp p f => Sys2Proof.Machine.execIsetp p f s
  | .fadd p f => Sys2Proof.Machine.execFadd p f s
  | .fmul p f => Sys2Proof.Machine.execFmul p f s
  | .ffma p f => Sys2Proof.Machine.execFfma p f s
  | .fmin p f => Sys2Proof.Machine.execFmin p f s
  | .fmax p f => Sys2Proof.Machine.execFmax p f s
  | .frcp p f => Sys2Proof.Machine.execFrcp p f s
  | .frsq p f => Sys2Proof.Machine.execFrsq p f s
  | .fex2 p f => Sys2Proof.Machine.execFex2 p f s
  | .flg2 p f => Sys2Proof.Machine.execFlg2 p f s
  | .fsetp p f => Sys2Proof.Machine.execFsetp p f s
  | .cvt p f => Sys2Proof.Machine.execCvt p f s
  | .mov p f => Sys2Proof.Machine.execMov p f s
  | .sel p f => Sys2Proof.Machine.execSel p f s
  | .plop p f => Sys2Proof.Machine.execPlop p f s
  | .ldL p f env => Sys2Proof.Machine.execLdL p f env s
  | .stL p f => Sys2Proof.Machine.execStL p f s
  | .ldG p f env => Sys2Proof.Machine.execLdG p f env s
  | .stG p f => Sys2Proof.Machine.execStG p f s
  | .ldx p f => Sys2Proof.Machine.execLdx p f s
  | .stx p f => Sys2Proof.Machine.execStx p f s
  | .atomAdd p f => Sys2Proof.Machine.execAtomAdd p f s
  | .atomFadd p f => Sys2Proof.Machine.execAtomFadd p f s
  | .atomSmin p f => Sys2Proof.Machine.execAtomSmin p f s
  | .atomSmax p f => Sys2Proof.Machine.execAtomSmax p f s
  | .atomUmin p f => Sys2Proof.Machine.execAtomUmin p f s
  | .atomUmax p f => Sys2Proof.Machine.execAtomUmax p f s
  | .atomAnd p f => Sys2Proof.Machine.execAtomAnd p f s
  | .atomOr p f => Sys2Proof.Machine.execAtomOr p f s
  | .atomXor p f => Sys2Proof.Machine.execAtomXor p f s
  | .atomExch p f => Sys2Proof.Machine.execAtomExch p f s
  | .atomCas p f => Sys2Proof.Machine.execAtomCas p f s
  | .fenceBlock p f => Sys2Proof.Machine.execFenceBlock p f s
  | .fenceDevice p f => Sys2Proof.Machine.execFenceDevice p f s
  | .fenceSys p f => Sys2Proof.Machine.execFenceSys p f s
  | .barBlock p f => Sys2Proof.Machine.execBarBlock p f s
  | .voteAll p f => Sys2Proof.Machine.execVoteAll p f s
  | .voteAny p f => Sys2Proof.Machine.execVoteAny p f s
  | .voteBallot p f => Sys2Proof.Machine.execVoteBallot p f s
  | .voteCount p f => Sys2Proof.Machine.execVoteCount p f s
  | .shflIdx p f => Sys2Proof.Machine.execShflIdx p f s
  | .shflUp p f => Sys2Proof.Machine.execShflUp p f s
  | .shflDown p f => Sys2Proof.Machine.execShflDown p f s
  | .shflXor p f => Sys2Proof.Machine.execShflXor p f s
  | .slabMma p f => Sys2Proof.Machine.execSlabMma p f s
  | .slabMmas p f => Sys2Proof.Machine.execSlabMmas p f s
  | .slabSq16 p f => Sys2Proof.Machine.execSlabSq16 p f s
  | .slabSq32 p f => Sys2Proof.Machine.execSlabSq32 p f s
  | .slabZero p f => Sys2Proof.Machine.execSlabZero p f s
  | .slabSt p f => Sys2Proof.Machine.execSlabSt p f s
  | .tokWait p f => Sys2Proof.Machine.execTokWait p f s
  | .tokPost p f => Sys2Proof.Machine.execTokPost p f s
  | .tokPostArm p f env => Sys2Proof.Machine.execTokPostArm p f env s
  | .tokPostStop p f => Sys2Proof.Machine.execTokPostStop p f s
  | .coneWait p f => Sys2Proof.Machine.execConeWait p f s
  | .nmIssue p f => Sys2Proof.Machine.execNmIssue p f s
  | .bra p f => Sys2Proof.Machine.execBra p f s
  | .call p f => Sys2Proof.Machine.execCall p f s
  | .ret p f => Sys2Proof.Machine.execRet p f s
  | .exit p f => Sys2Proof.Machine.execExit p f s
  | .yield p f => Sys2Proof.Machine.execYield p f s
  | .groupPromotion p => Sys2Proof.Machine.execGroupPromotion p s
  | .rotation p => Sys2Proof.Machine.execRotation p s
  | .starvingSubset p => Sys2Proof.Machine.execStarvingSubset p s
  | .activityRamp c sl => Sys2Proof.Machine.execActivityRamp c sl s
  | .blockDispatch => Sys2Proof.Machine.execBlockDispatch s
  | .blockAdmission g => Sys2Proof.Machine.execBlockAdmission g s
  | .blockRetire c b => Sys2Proof.Machine.execBlockRetire c b s
  | .coreSplitChange c split => Sys2Proof.Machine.execCoreSplitChange c split s
  | .rtReservationEffect r => Sys2Proof.Machine.execRtReservationEffect r s
  | .slabLeaseGrant c => Sys2Proof.Machine.execSlabLeaseGrant c s
  | .slabQueueEnter c sl => Sys2Proof.Machine.execSlabQueueEnter c sl s
  | .slabComputeStart c sl env => Sys2Proof.Machine.execSlabComputeStart c sl env s
  | .slabComputeComplete c sl => Sys2Proof.Machine.execSlabComputeComplete c sl s
  | .slabStReadStart c sl => Sys2Proof.Machine.execSlabStReadStart c sl s
  | .slabStComplete c sl => Sys2Proof.Machine.execSlabStComplete c sl s
  | .l1Fill c n env => Sys2Proof.Machine.execL1Fill c n env s
  | .aeSpanIssue c e env => Sys2Proof.Machine.execAeSpanIssue c e env s
  | .aeSpanComplete c e n env => Sys2Proof.Machine.execAeSpanComplete c e n env s
  | .streamStopComplete c e q => Sys2Proof.Machine.execStreamStopComplete c e q s
  | .storeBufferAllocate p => Sys2Proof.Machine.execStoreBufferAllocate p s
  | .storeBufferDrain p env => Sys2Proof.Machine.execStoreBufferDrain p env s
  | .fenceComplete p g l => Sys2Proof.Machine.execFenceComplete p g l s
  | .atomicPerform p g l order env => Sys2Proof.Machine.execAtomicPerform p g l order env s
  | .inServiceRetrain ch cause => Sys2Proof.Machine.execInServiceRetrain ch cause s
  | .rowRemap ch bank row => Sys2Proof.Machine.execRowRemap ch bank row s
  | .patrolScrub l env => Sys2Proof.Machine.execPatrolScrub l env s
  | .refresh ch bank => Sys2Proof.Machine.execRefresh ch bank s
  | .stackSensorSample st readings => Sys2Proof.Machine.execStackSensorSample st readings s
  | .oldKeySlotErase ch => Sys2Proof.Machine.execOldKeySlotErase ch s
  | .msChCfgWrite ch be w => Sys2Proof.Machine.execMsChCfgWrite ch be w s
  | .tgStart ch => Sys2Proof.Machine.execTgStart ch s
  | .tgAbort ch r => Sys2Proof.Machine.execTgAbort ch r s
  | .tgRunComplete ch r => Sys2Proof.Machine.execTgRunComplete ch r s
  | .matvec n => Sys2Proof.Machine.execMatvec n s
  | .gather n => Sys2Proof.Machine.execGather n s
  | .scatter n => Sys2Proof.Machine.execScatter n s
  | .reduce n => Sys2Proof.Machine.execReduce n s
  | .clean n => Sys2Proof.Machine.execClean n s
  | .nmAdmission st => Sys2Proof.Machine.execNmAdmission st s
  | .vectorSetFetch st env => Sys2Proof.Machine.execVectorSetFetch st env s
  | .vectorSetBroadcast st => Sys2Proof.Machine.execVectorSetBroadcast st s
  | .nmPartComplete st op ch order env => Sys2Proof.Machine.execNmPartComplete st op ch order env s
  | .nmOpComplete op => Sys2Proof.Machine.execNmOpComplete op s
  | .accumulateUpdate st env => Sys2Proof.Machine.execAccumulateUpdate st env s
  | .encode n => Sys2Proof.Machine.execEncode n s
  | .decode n => Sys2Proof.Machine.execDecode n s
  | .exportOp n => Sys2Proof.Machine.execExportOp n s
  | .importOp n => Sys2Proof.Machine.execImportOp n s
  | .histogram n => Sys2Proof.Machine.execHistogram n s
  | .install n => Sys2Proof.Machine.execInstall n s
  | .codecOpComplete op homes env => Sys2Proof.Machine.execCodecOpComplete op homes env s
  | .readShared d l cls hint env => Sys2Proof.Machine.execReadShared d l cls hint env s
  | .readUnique d l cls hint env => Sys2Proof.Machine.execReadUnique d l cls hint env s
  | .upgrade d l env => Sys2Proof.Machine.execUpgrade d l env s
  | .readNa src l env => Sys2Proof.Machine.execReadNa src l env s
  | .writeNa src l mask data env => Sys2Proof.Machine.execWriteNa src l mask data env s
  | .atomFar d l a env => Sys2Proof.Machine.execAtomFar d l a env s
  | .ldxFar d l ofs wide env => Sys2Proof.Machine.execLdxFar d l ofs wide env s
  | .stxFar d l ofs wide v env => Sys2Proof.Machine.execStxFar d l ofs wide v env s
  | .homeClean op lines env => Sys2Proof.Machine.execHomeClean op lines env s
  | .homeTransactionStart l env => Sys2Proof.Machine.execHomeTransactionStart l env s
  | .snpShared d l env => Sys2Proof.Machine.execSnpShared d l env s
  | .snpInvalidate d l env => Sys2Proof.Machine.execSnpInvalidate d l env s
  | .snpClean d l env => Sys2Proof.Machine.execSnpClean d l env s
  | .rsvKill d l => Sys2Proof.Machine.execRsvKill d l s
  | .dataS src l => Sys2Proof.Machine.execDataS src l s
  | .dataE d l => Sys2Proof.Machine.execDataE d l s
  | .dataM d l => Sys2Proof.Machine.execDataM d l s
  | .grant src l => Sys2Proof.Machine.execGrant src l s
  | .snpData from_ l env => Sys2Proof.Machine.execSnpData from_ l env s
  | .snpAck from_ l env => Sys2Proof.Machine.execSnpAck from_ l env s
  | .notPresent from_ l env => Sys2Proof.Machine.execNotPresent from_ l env s
  | .writeBack d l env => Sys2Proof.Machine.execWriteBack d l env s
  | .result d l => Sys2Proof.Machine.execResult d l s
  | .holdTimeExpiry l => Sys2Proof.Machine.execHoldTimeExpiry l s
  | .bridgeFlit b f => Sys2Proof.Machine.execBridgeFlit b f s
  | .bridgeClassSilent b cls => Sys2Proof.Machine.execBridgeClassSilent b cls s
  | .snoopTimeout l => Sys2Proof.Machine.execSnoopTimeout l s
  | .enable n => Sys2Proof.Machine.execEnable n s
  | .resume n => Sys2Proof.Machine.execResume n s
  | .queueDestruction n => Sys2Proof.Machine.execQueueDestruction n s
  | .graceExpiry n => Sys2Proof.Machine.execGraceExpiry n s
  | .destructionComplete n => Sys2Proof.Machine.execDestructionComplete n s
  | .dbTailWrite n be w => Sys2Proof.Machine.execDbTailWrite n be w s
  | .fetchTurn => Sys2Proof.Machine.execFetchTurn s
  | .nopEntry n => Sys2Proof.Machine.execNopEntry n s
  | .launch n h env => Sys2Proof.Machine.execLaunch n h env s
  | .copy n => Sys2Proof.Machine.execCopy n s
  | .fill n => Sys2Proof.Machine.execFill n s
  | .sealedLoad n => Sys2Proof.Machine.execSealedLoad n s
  | .copyComplete e env => Sys2Proof.Machine.execCopyComplete e env s
  | .link n => Sys2Proof.Machine.execLink n s
  | .signal n => Sys2Proof.Machine.execSignal n s
  | .wait n => Sys2Proof.Machine.execWait n s
  | .waitEvaluation id => Sys2Proof.Machine.execWaitEvaluation id s
  | .waitTimeout id => Sys2Proof.Machine.execWaitTimeout id s
  | .graph n => Sys2Proof.Machine.execGraph n s
  | .patch n h env => Sys2Proof.Machine.execPatch n h env s
  | .bind n h env => Sys2Proof.Machine.execBind n h env s
  | .unbind n => Sys2Proof.Machine.execUnbind n s
  | .graphNodeFetch id node h env => Sys2Proof.Machine.execGraphNodeFetch id node h env s
  | .graphLaunchComplete id => Sys2Proof.Machine.execGraphLaunchComplete id s
  | .graphPinRelease id => Sys2Proof.Machine.execGraphPinRelease id s
  | .entryStart n => Sys2Proof.Machine.execEntryStart n s
  | .launchComplete id => Sys2Proof.Machine.execLaunchComplete id s
  | .retiredAdvance n => Sys2Proof.Machine.execRetiredAdvance n s
  | .ctxOpen w pace => Sys2Proof.Machine.execCtxOpen w pace s
  | .ctxClose w pace => Sys2Proof.Machine.execCtxClose w pace s
  | .ctxQuery w pace => Sys2Proof.Machine.execCtxQuery w pace s
  | .objCreate w pace => Sys2Proof.Machine.execObjCreate w pace s
  | .objFree w pace => Sys2Proof.Machine.execObjFree w pace s
  | .objQuery w pace => Sys2Proof.Machine.execObjQuery w pace s
  | .fenceAlloc w pace => Sys2Proof.Machine.execFenceAlloc w pace s
  | .fenceFree w pace => Sys2Proof.Machine.execFenceFree w pace s
  | .fenceGrant w pace => Sys2Proof.Machine.execFenceGrant w pace s
  | .fenceRevoke w pace => Sys2Proof.Machine.execFenceRevoke w pace s
  | .objectDrained o => Sys2Proof.Machine.execObjectDrained o s
  | .objectScrubComplete o => Sys2Proof.Machine.execObjectScrubComplete o s
  | .fencePageDrained pg => Sys2Proof.Machine.execFencePageDrained pg s
  | .faultRecordClear be w => Sys2Proof.Machine.execFaultRecordClear be w s
  | .fncSignal f be w => Sys2Proof.Machine.execFncSignal f be w s
  | .xlFlitReceive n bs => Sys2Proof.Machine.execXlFlitReceive n bs s
  | .xlLaneSwap n lane cause => Sys2Proof.Machine.execXlLaneSwap n lane cause s
  | .xlPortTrain n t => Sys2Proof.Machine.execXlPortTrain n t s
  | .xlTrainStepTimeout n step => Sys2Proof.Machine.execXlTrainStepTimeout n step s
  | .xlPortRetire n => Sys2Proof.Machine.execXlPortRetire n s
  | .xlPlanWrite n be w t => Sys2Proof.Machine.execXlPlanWrite n be w t s
  | .xlTopoWrite be w => Sys2Proof.Machine.execXlTopoWrite be w s
  | .xlSliceWrite k be w => Sys2Proof.Machine.execXlSliceWrite k be w s
  | .xlSliceStatusStop k => Sys2Proof.Machine.execXlSliceStatusStop k s
  | .xlConeWrite n be w => Sys2Proof.Machine.execXlConeWrite n be w s
  | .write n pk env => Sys2Proof.Machine.execWrite n pk env s
  | .writeAcc n pk env => Sys2Proof.Machine.execWriteAcc n pk env s
  | .remoteSignalPacket n pk => Sys2Proof.Machine.execRemoteSignalPacket n pk s
  | .ack n pk => Sys2Proof.Machine.execAck n pk s
  | .nack n pk => Sys2Proof.Machine.execNack n pk s
  | .throughPacket n pk => Sys2Proof.Machine.execThroughPacket n pk s
  | .sliceStop n sliceId origin cause => Sys2Proof.Machine.execSliceStop n sliceId origin cause s
  | .linkPacketSend e h env => Sys2Proof.Machine.execLinkPacketSend e h env s
  | .linkPacketTimeout e t => Sys2Proof.Machine.execLinkPacketTimeout e t s
  | .coneWaitWake n => Sys2Proof.Machine.execConeWaitWake n s
  | .create w pace => Sys2Proof.Machine.execCreate w pace s
  | .sealCmd w pace => Sys2Proof.Machine.execSealCmd w pace s
  | .reset w pace => Sys2Proof.Machine.execReset w pace s
  | .destroy w pace => Sys2Proof.Machine.execDestroy w pace s
  | .destroyAfterReset k pace => Sys2Proof.Machine.execDestroyAfterReset k pace s
  | .testOpen w pace => Sys2Proof.Machine.execTestOpen w pace s
  | .testClose w pace => Sys2Proof.Machine.execTestClose w pace s
  | .getCerts w pace => Sys2Proof.Machine.execGetCerts w pace s
  | .report w pace => Sys2Proof.Machine.execReport w pace s
  | .keyRelease w pace => Sys2Proof.Machine.execKeyRelease w pace s
  | .keyDiscard w pace => Sys2Proof.Machine.execKeyDiscard w pace s
  | .slicePlain w pace => Sys2Proof.Machine.execSlicePlain w pace s
  | .removalReport w pace => Sys2Proof.Machine.execRemovalReport w pace s
  | .fwWrite w pace => Sys2Proof.Machine.execFwWrite w pace s
  | .fwCommitSvn w pace => Sys2Proof.Machine.execFwCommitSvn w pace s
  | .drbgReseed => Sys2Proof.Machine.execDrbgReseed s
  | .perfCounterUpdate => Sys2Proof.Machine.execPerfCounterUpdate s
  | .dlFlitReceive bs => Sys2Proof.Machine.execDlFlitReceive bs s
  | .dlAckTimeout => Sys2Proof.Machine.execDlAckTimeout s
  | .dlLaneSwap rx lane cause => Sys2Proof.Machine.execDlLaneSwap rx lane cause s
  | .cRdShared m env => Sys2Proof.Machine.execCRdShared m env s
  | .cRdUnique m env => Sys2Proof.Machine.execCRdUnique m env s
  | .cUpgrade m env => Sys2Proof.Machine.execCUpgrade m env s
  | .cWrBack m data env => Sys2Proof.Machine.execCWrBack m data env s
  | .cRdNa m env => Sys2Proof.Machine.execCRdNa m env s
  | .cWrNa m data env => Sys2Proof.Machine.execCWrNa m data env s
  | .cSnpData l sector data => Sys2Proof.Machine.execCSnpData l sector data s
  | .cSnpAck l sector => Sys2Proof.Machine.execCSnpAck l sector s
  | .cNotPresent l sector => Sys2Proof.Machine.execCNotPresent l sector s
  | .cfgRd m be => Sys2Proof.Machine.execCfgRd m be s
  | .cfgWr m be w => Sys2Proof.Machine.execCfgWr m be w s
  | .ioData tag status data => Sys2Proof.Machine.execIoData tag status data s
  | .ioDone tag status => Sys2Proof.Machine.execIoDone tag status s
  | .ioRequestGrant => Sys2Proof.Machine.execIoRequestGrant s
  | .dlRequestTimeout tag => Sys2Proof.Machine.execDlRequestTimeout tag s
  | .hostSnoopTimeout l => Sys2Proof.Machine.execHostSnoopTimeout l s
  | .creditStarvation cls => Sys2Proof.Machine.execCreditStarvation cls s
  | .int v => Sys2Proof.Machine.execInt v s
  | .dlIntAck be w => Sys2Proof.Machine.execDlIntAck be w s
  | .dlIntMaskWrite be w => Sys2Proof.Machine.execDlIntMaskWrite be w s
  | .domainReset w pace => Sys2Proof.Machine.execDomainReset w pace s
  | .markCore w pace => Sys2Proof.Machine.execMarkCore w pace s
  | .retireChannel w pace => Sys2Proof.Machine.execRetireChannel w pace s
  | .testCluster w pace => Sys2Proof.Machine.execTestCluster w pace s
  | .endTest w pace => Sys2Proof.Machine.execEndTest w pace s
  | .remapRow w pace => Sys2Proof.Machine.execRemapRow w pace s
  | .recoveryStart ok => Sys2Proof.Machine.execRecoveryStart ok s
  | .sccFailover c => Sys2Proof.Machine.execSccFailover c s
  | .selfTestPass c ok => Sys2Proof.Machine.execSelfTestPass c ok s
  | .firingLogRead ofs => Sys2Proof.Machine.execFiringLogRead ofs s
  | .poweredSecond junction watts => Sys2Proof.Machine.execPoweredSecond junction watts s
  | .summaryWrite => Sys2Proof.Machine.execSummaryWrite s
  | .rasCalWrite be w => Sys2Proof.Machine.execRasCalWrite be w s
  | .orderlyQuiesce be w pace => Sys2Proof.Machine.execOrderlyQuiesce be w pace s
  | .quiesceDrainTimeout => Sys2Proof.Machine.execQuiesceDrainTimeout s
  | .standbyEntry straps => Sys2Proof.Machine.execStandbyEntry straps s
  | .uvlo => Sys2Proof.Machine.execUvlo s
  | .brownout => Sys2Proof.Machine.execBrownout s
  | .brownoutExit => Sys2Proof.Machine.execBrownoutExit s
  | .overvolt => Sys2Proof.Machine.execOvervolt s
  | .ovShutdown => Sys2Proof.Machine.execOvShutdown s
  | .pwrEnRise railFail => Sys2Proof.Machine.execPwrEnRise railFail s
  | .pwrEnFall => Sys2Proof.Machine.execPwrEnFall s
  | .resetNAssert lowNs taken => Sys2Proof.Machine.execResetNAssert lowNs taken s
  | .startUp env pace => Sys2Proof.Machine.execStartUp env pace s
  | .startUpClockTimeout => Sys2Proof.Machine.execStartUpClockTimeout s
  | .refclkMeasure ppm flag => Sys2Proof.Machine.execRefclkMeasure ppm flag s
  | .refclkLoss => Sys2Proof.Machine.execRefclkLoss s
  | .refclkReaccept => Sys2Proof.Machine.execRefclkReaccept s
  | .holdoverExpiry => Sys2Proof.Machine.execHoldoverExpiry s
  | .fastTrip watts => Sys2Proof.Machine.execFastTrip watts s
  | .powerLoopTick watts => Sys2Proof.Machine.execPowerLoopTick watts s
  | .pwrCtrlWrite sideband be w => Sys2Proof.Machine.execPwrCtrlWrite sideband be w s
  | .junctionSample readings => Sys2Proof.Machine.execJunctionSample readings s
  | .inputSensorSample v0 v1 i0 i1 => Sys2Proof.Machine.execInputSensorSample v0 v1 i0 i1 s
  | .telemetryUpdate watts deciVolts => Sys2Proof.Machine.execTelemetryUpdate watts deciVolts s
  | .sidebandRead ofs => Sys2Proof.Machine.execSidebandRead ofs s
  | .sidebandWrite ofs w => Sys2Proof.Machine.execSidebandWrite ofs w s
  | .setdasa addr => Sys2Proof.Machine.execSetdasa addr s
  | .entdaa addr => Sys2Proof.Machine.execEntdaa addr s
  | .rstdaa => Sys2Proof.Machine.execRstdaa s
  | .getpid => Sys2Proof.Machine.execGetpid s
  | .getbcr => Sys2Proof.Machine.execGetbcr s
  | .getdcr => Sys2Proof.Machine.execGetdcr s
  | .getstatus => Sys2Proof.Machine.execGetstatus s
  | .sbTimeout => Sys2Proof.Machine.execSbTimeout s
  | .bypass => Sys2Proof.Machine.execBypass s
  | .idcode => Sys2Proof.Machine.execIdcode s
  | .samplePreload => Sys2Proof.Machine.execSamplePreload s
  | .extest => Sys2Proof.Machine.execExtest s
  | .clamp => Sys2Proof.Machine.execClamp s
  | .highz => Sys2Proof.Machine.execHighz s
  | .registerWrite ofs be w => Sys2Proof.Machine.execRegisterWrite ofs be w s

end Sys2Proof.Machine
end

