-- ==== Sys2Proof/Machine/Idle.lean ====
section
/-!
DEFINITION. What the block does on its own when no command waits: the long steps of its command ports end, and a start-up in
progress goes on by one step.
-/
namespace Sys2Proof.Machine

open Sys2Proof

/-- The ports come to rest, in the order of the blocks. -/
def idle (s : State) : State := startStep (quiesceRest (rasRest (secRest (ptRest (objPortRest s)))))

end Sys2Proof.Machine
end

