-- ==== Sys2Proof/Safety.lean ====
section
/-!
DEFINITION. The terms in which the claims speak: who issues, what a lane holds before and after, what an instruction may
touch, and what counts as a sound state.
-/
namespace Sys2Proof.Machine

open Sys2Proof

/-- The command `c` answers the next state `t` from `s`. -/
def Goes (c : Instr) (s t : State) : Prop := exec c s = .next t

/-- The sub-core `p` issues `i`: its scheduler selects it (R18, R23), its fetch lies inside the code (R234), and its group has no more than the 32
lanes of a group (R17). -/
def Issues (s : State) (p : Place) (i : Issue) : Prop :=
  pickIssue (coreOf s p.core.val) p.core.val p.sub.val = some i ∧ fetchOk s i = true ∧ (issueGrp s i).lanes.length ≤ 32

/-- Lane `n` of the group of an issue. -/
def laneAt (s : State) (i : Issue) (n : Nat) : Lane := laneOf (issueGrp s i) n

/-- The value of the die's counter that an instruction of format G reads, if it reads one (R210). -/
def aluClock (s : State) (i : Issue) (f : FmtG) : W64 :=
  (clockTick s (i.core / 64) (gClock f && !(guardedLanes s i f.pg f.pn).isEmpty)).2

/-- The operands A, B and C of lane `n` (Table 08-2). -/
def aluSrcs (m : GForm) (f : FmtG) (s : State) (i : Issue) (n : Nat) : Srcs :=
  (readSrcs m f (ctxOfIssue s i (aluClock s i f)) n (laneAt s i n)).1

/-- The word is a defined encoding that names no register beyond the allocation, and lies inside the code. -/
def GLegal (m : GForm) (f : FmtG) (wide extra : Bool) (s : State) (i : Issue) : Prop :=
  gFault m f wide extra (issueInfo s i).regs = none ∧ longFits m f s i = true

/-- What an issue leaves alone outside its own core and outside the lanes of its own group: every other unit, every other
core, the other groups but for their waits and sets, and of its saggar all but the performance counts. -/
structure IssueFrame (s t : State) (i : Issue) : Prop where
  units : t = { s with cores := t.cores, sags := t.sags, dies := t.dies, free := t.free }
  cores : ∀ c, c ≠ i.core → coreOf t c = coreOf s c
  groups : ∀ b k, ¬ (b = i.sub ∧ k = i.slot) →
    grpOf (subOf (coreOf t i.core) b) k = { grpOf (subOf (coreOf s i.core) b) k with
      lanes := (grpOf (subOf (coreOf t i.core) b) k).lanes }
  lanes : ∀ b k n, ¬ (b = i.sub ∧ k = i.slot) →
    laneOf (grpOf (subOf (coreOf t i.core) b) k) n = { laneOf (grpOf (subOf (coreOf s i.core) b) k) n with
      waited := (laneOf (grpOf (subOf (coreOf t i.core) b) k) n).waited
      starving := (laneOf (grpOf (subOf (coreOf t i.core) b) k) n).starving }
  sags : ∀ k, sagOf t k = { sagOf s k with perfTrue := (sagOf t k).perfTrue }
  dies : ∀ d, dieOf t d = { dieOf s d with clock := (dieOf t d).clock }

/-- The core of an issue is `k` afterwards, but for its groups and their sets. -/
structure CoreKept (s t : State) (i : Issue) (k : Core) : Prop where
  core : coreOf t i.core = { k with subs := (coreOf t i.core).subs }
  buffers : ∀ b, (subOf (coreOf t i.core) b).buffer = (subOf (coreOf s i.core) b).buffer

/-- An issue that changes its own group alone: lane `n` becomes `lane n` of what it was, but for its count of waits, the
group holds `u` and `held`, the operations still to write u registers are `own`, and nothing else changes. -/
structure GroupDone (s t : State) (i : Issue) (lane : Nat → Lane → Lane) (u : Tbl W32) (held : List HeldOp)
    (own : List (Nat × BitVec 32) := (issueGrp s i).uOwner) : Prop where
  lanes : ∀ n, laneAt t i n = { lane n (laneAt s i n) with
    waited := (laneAt t i n).waited, starving := (laneAt t i n).starving }
  group : issueGrp t i = { issueGrp s i with lanes := (issueGrp t i).lanes, u := u, held := held, uOwner := own }
  core : CoreKept s t i (coreOf s i.core)
  frame : IssueFrame s t i

/-- A subset blocks at its instruction: the lanes `ls` wait as `w`, the other lanes of the issue go on by 8 bytes. -/
def holds (i : Issue) (ls : List Nat) (w : Wait) (n : Nat) (l : Lane) : Lane :=
  if n ∈ ls then { l with wait := w } else if n ∈ i.lanes then { l with pc := l.pc + 8 } else l

/-- The lanes of an issue go on by 8 bytes. -/
def goesOn (i : Issue) (n : Nat) (l : Lane) : Lane := if n ∈ i.lanes then { l with pc := l.pc + 8 } else l

/-- The operations still to write u registers, after an instruction whose guarded lanes are `ls`: those of a U destination write
theirs no more (R208). -/
def uOwnerAfter (g : Grp) (ls : List Nat) (d : Opd) (w : Nat) : List (Nat × BitVec 32) := match d, ls with
  | .u k, _ :: _ => (freeU g k w).uOwner
  | _, _ => g.uOwner

/-- What a format G instruction of the ALU does: lane `n` of the guarded lanes `ls` puts `val n` into its destination of `w`
registers, a U destination takes the value of the lowest such lane, the subset goes on by `len` bytes, and no other register,
predicate or lane changes, nor anything outside the group; the core is `k` afterwards but for its groups (R205 to R208,
R211). -/
structure AluDone (s t : State) (i : Issue) (k : Core) (len : Nat) (ls : List Nat) (d : Opd) (w : Nat) (val : Nat → Nat) : Prop where
  v : ∀ n ∈ ls, ∀ k m, d = .v k → m < w → vReg (laneAt t i n) (k + m) = BitVec.ofNat 32 (val n / 2 ^ (32 * m))
  u : ∀ n k m, ls.head? = some n → d = .u k → m < w → uReg (issueGrp t i) (k + m) = BitVec.ofNat 32 (val n / 2 ^ (32 * m))
  p : ∀ n ∈ ls, ∀ k, d = .p k → k < 7 → pReg (laneAt t i n) k = (val n % 2 == 1)
  pc : ∀ n, (laneAt t i n).pc = if n ∈ i.lanes then (laneAt s i n).pc + BitVec.ofNat 32 len else (laneAt s i n).pc
  vKeep : ∀ n m, (n ∈ ls → ∀ k, d = .v k → ¬ (k ≤ m ∧ m < k + w)) → vReg (laneAt t i n) m = vReg (laneAt s i n) m
  uKeep : ∀ m, (ls ≠ [] → ∀ k, d = .u k → ¬ (k ≤ m ∧ m < k + w)) → uReg (issueGrp t i) m = uReg (issueGrp s i) m
  pKeep : ∀ n m, (n ∈ ls → d ≠ .p m) → pReg (laneAt t i n) m = pReg (laneAt s i n) m
  lane : ∀ n, laneAt t i n = { laneAt s i n with
    v := (laneAt t i n).v, preds := (laneAt t i n).preds, pc := (laneAt t i n).pc, waited := (laneAt t i n).waited
    starving := (laneAt t i n).starving, clkHi := (laneAt t i n).clkHi }
  group : issueGrp t i = { issueGrp s i with
    lanes := (issueGrp t i).lanes, u := (issueGrp t i).u
    uOwner := uOwnerAfter (issueGrp s i) ls d w }
  core : CoreKept s t i k
  frame : IssueFrame s t i

/-- The command `c` of form `m` is carried out on the sources of each guarded lane: `val` gives its result. -/
def Computes (c : Instr) (m : GForm) (f : FmtG) (wide extra : Bool) (s : State) (i : Issue) (val : Nat → Nat) : Prop :=
  GLegal m f wide extra s i → ∃ t, Goes c s t ∧
    AluDone s t i (coreOf s i.core) (gLen m f) (guardedLanes s i f.pg f.pn) (opdOf f.d) (dstWidth m.d) val

-- Frames of one unit: `t` is `s` but for the unit named, which becomes the value given

def OnlyCore (s t : State) (c : Nat) (k : Core) : Prop :=
  t = { s with cores := t.cores } ∧ ∀ x, coreOf t x = if x = c then k else coreOf s x

def OnlyChan (s t : State) (p : Nat) (k : Channel) : Prop :=
  t = { s with chans := t.chans } ∧ ∀ x, chanOf t x = if x = p then k else chanOf s x

def OnlyStack (s t : State) (i : Nat) (k : Stack) : Prop :=
  t = { s with memStacks := t.memStacks } ∧ ∀ x, stackOf t x = if x = i then k else stackOf s x

def OnlyHome (s t : State) (l : Nat) (h : HomeLine) : Prop :=
  t = { s with homes := t.homes } ∧ ∀ x, homeOf t x = if x = l then h else homeOf s x

def OnlyRing (s t : State) (n : Nat) (r : Ring) : Prop :=
  t = { s with fe := { s.fe with rings := t.fe.rings } } ∧ ∀ x, ringOf t x = if x = n then r else ringOf s x

def OnlySag (s t : State) (k : Nat) (g : Saggar) : Prop :=
  t = { s with sags := t.sags } ∧ ∀ x, sagOf t x = if x = k then g else sagOf s x

def OnlyFence (s t : State) (f : Nat) (v : Fence) : Prop :=
  t = { s with obj := { s.obj with fences := t.obj.fences } } ∧ ∀ x, fenceOf t x = if x = f then v else fenceOf s x

def OnlyXlPort (s t : State) (n : Nat) (v : XlPort) : Prop :=
  t = { s with xl := { s.xl with ports := t.xl.ports } } ∧ ∀ x, portOf t x = if x = n then v else portOf s x

def OnlyCone (s t : State) (n : Nat) (v : Cone) : Prop :=
  t = { s with xl := { s.xl with cones := t.xl.cones } } ∧ ∀ x, coneOf t x = if x = n then v else coneOf s x

def OnlyDie (s t : State) (d : Nat) (k : Die) : Prop :=
  t = { s with dies := t.dies } ∧ ∀ x, dieOf t x = if x = d then k else dieOf s x

/-- No thread of the module holds a reservation on the pair of line `l` (R222, R259). -/
def Unreserved (s : State) (l : Nat) : Prop :=
  ∀ c ∈ s.cores, ∀ u ∈ c.2.subs, ∀ g ∈ u.slots, ∀ n ∈ g.2.lanes, ∀ r, n.rsv = some r → pairOf r.line.toNat ≠ pairOf l

/-- Line `l` rests in DRAM alone: no agent holds a copy, no transaction, message or reservation concerns it, its channel serves and
takes the key tag of a request of consumer `q`, its burst reads, and the device runs (R143, R147, R249, R252, R259, R262). -/
structure RestsInDram (s : State) (l : Nat) (q : Option Nat) : Prop where
  copy : homeCopy s l = none
  idle : homeOf s l = {}
  msgs : ∀ m ∈ s.fabric, msgLine m ≠ l
  host : hostEntry s l = none
  filt : ∀ e, filtOf s e l = none
  array : ∀ e ∈ (dieOf s (lineDie l)).rsvArray, e.pair ≠ pairOf l
  rsv : Unreserved s l
  serves : chanServes s (lineChan l) = true
  burst : tblFind s.symErrs l = none
  tag : tagRefused s (lineChan l) q false = false
  run : running s = true

/-- The firing log has one entry more at its head, with the next number, and SERVICE is pending (R411, R426). -/
structure Enters (s t : State) (code cls part unit d0 d1 : Nat) : Prop where
  entry : ∃ e, t.ras.log = e :: s.ras.log.take 4095 ∧ e.seq = s.ras.nextSeq ∧ e.code = BitVec.ofNat 8 code ∧ e.cls = BitVec.ofNat 3 cls ∧
    e.partition = BitVec.ofNat 5 part ∧ e.unit = BitVec.ofNat 16 unit ∧ e.detail0 = BitVec.ofNat 64 d0 ∧ e.detail1 = BitVec.ofNat 32 d1 ∧
    e.read = false
  next : t.ras.nextSeq = s.ras.nextSeq + 1
  service : t.dl.pending.getLsbD 16 = true

/-- An entry is made at once, or buffered while the core that holds the firing log fails over (R420). -/
structure Logs (s t : State) (code cls part unit d0 d1 : Nat) : Prop where
  now : roleFails s 0 = false → Enters s t code cls part unit d0 d1
  later : roleFails s 0 = true → t.ras.log = s.ras.log ∧ t.ras.nextSeq = s.ras.nextSeq ∧
    ∃ e, t.ras.logHeld = s.ras.logHeld ++ [e] ∧ e.code = BitVec.ofNat 8 code ∧ e.cls = BitVec.ofNat 3 cls ∧
      e.partition = BitVec.ofNat 5 part ∧ e.unit = BitVec.ofNat 16 unit ∧ e.detail0 = BitVec.ofNat 64 d0 ∧ e.detail1 = BitVec.ofNat 32 d1

/-- The coherent domain stops with a cause of Table 09-5: the stop is counted and logged, FATAL and SERVICE are pending, and nothing but the
reports changes, nor a slice that is not configured (R264, R419). -/
structure DomainStops (s t : State) (cause line : Nat) : Prop where
  domain : t.ras.domain = .stopped
  count : t.ras.stopCount = sat s.ras.stopCount 1
  last : t.ras.lastStop = BitVec.ofNat 8 cause
  fatal : t.dl.pending.getLsbD 17 = true
  service : t.dl.pending.getLsbD 16 = true
  entry : ∃ e ∈ t.ras.log, e.code = 0x13 ∧ e.cls = 4 ∧ e.detail0 = BitVec.ofNat 64 line ∧ e.detail1 = BitVec.ofNat 32 cause
  rest : t = { s with ras := t.ras, dl := t.dl, xl := t.xl, free := t.free }

/-- Line `l` stands as the home copy `x` on its own die `d`, whose cores reach it there: the device runs, and no transaction, message,
filter entry or reservation of another agent concerns the line (R242, R249, R252, R259, R262). -/
structure StandsHome (s : State) (d l : Nat) (x : NearLine) : Prop where
  die : lineDie l = d
  copy : homeCopy s l = some x
  once : ∀ w w' y y', w < 15 → w' < 15 → tblFind (dieOf s d).near (nearKey l w) = some y → tblFind (dieOf s d).near (nearKey l w') = some y' →
    y.line.toNat = l → y'.line.toNat = l → w = w'
  sound : x.st ≠ .bad
  slot : tblFind (dieOf s d).far (lineSlot l) = none
  idle : homeOf s l = {}
  msgs : ∀ m ∈ s.fabric, msgLine m ≠ l
  host : hostEntry s l = none
  filt : ∀ e, filtOf s e l = none
  array : ∀ e ∈ (dieOf s d).rsvArray, e.pair ≠ pairOf l
  run : running s = true

/-- The hardware meets no error. -/
def cleanEnv (env : MemEnv) : Prop := env = noErr

/-- Entry `e` heads ring `n`, fetched and not yet checked, and new work may start (R299, R302). -/
structure EntryHeads (s : State) (n : Nat) (e : Node) (rest : List Node) : Prop where
  work : newWork s = true
  active : (ringOf s n).st = .active
  entries : (ringOf s n).entries = e :: rest
  fetched : e.st = .fetched
  seqs : ∀ x ∈ rest, x.seq ≠ e.seq

/-- Fence `f` takes the signal `v` of the front end: a value that is ahead becomes its value, another counts as out of order, and a
page that does not act takes nothing (R327). -/
def Signalled (s t : State) (f : Nat) (v : W64) : Prop :=
  let k := fenceOf s f
  fenceOf t f = (if pageActs s f = false then k
    else if v ≠ k.value ∧ (v - k.value).toNat < 2 ^ 63 then { k with value := v } else { k with ooo := sat k.ooo 1 }) ∧
  ∀ x, x ≠ f → fenceOf t x = fenceOf s x

/-- The shape that every reachable state has: device memory in canonical form, and every fixed array of units whole. -/
structure Sound (s : State) : Prop where
  mem : Memory.wf s.dram
  dies : s.dies.length = 4
  memStacks : s.memStacks.length = 16
  bridges : s.bridges.length = 14
  ports : s.xl.ports.length = 6
  links : s.xl.engines.length = 12
  subs : ∀ c, (coreOf s c).subs.length = 4
  slabs : ∀ c, (coreOf s c).slabs.length = 4
  engines : ∀ c, (coreOf s c).engines.length = 4
  lanes : ∀ c ∈ s.cores, ∀ u ∈ c.2.subs, ∀ g ∈ u.slots, g.2.lanes.length ≤ 32

end Sys2Proof.Machine
end

