-- ==== Sys2Proof/WellFormed.lean ====
section
/-!
DEFINITION. The checks that the shape of a command leaves open: the lengths of the data that come with it, and orders
that name nobody twice. A reserved field or an illegal encoding is no matter of these checks: the block answers those
as the manual says.
-/
namespace Sys2Proof

/-- The data of a coherent sector of the host, 64 B (R403). -/
def sectorLong (data : List Byte) : Bool := data.length == 64

/-- The data of a line, 128 B. -/
def lineLong (data : List Byte) : Bool := data.length == 128

/-- The readings of the module's junction sensors: 16 on each compute die, 4 on each of H, E0 and E1 (R451). -/
def junctionsWhole (readings : List (BitVec 16)) : Bool := readings.length == 76

/-- The readings of a stack's layers: sixteen and the base (R155). -/
def layersWhole (readings : List (BitVec 16)) : Bool := readings.length == 17

/-- A packet carries no more than 2,048 B (Table 13-4). -/
def payloadFits (pk : Packet) : Bool := pk.payload.length ≤ 2048

/-- A far atomic names a word that lies aligned in its line, and has an operand (R257). -/
def farAtomWhole (a : FarAtom) : Bool := a.ofs.val % (if a.wide then 8 else 4) == 0 && !a.operands.isEmpty

/-- A word of a reservation lies aligned in its line (R222). -/
def wordAligned (ofs : Fin 128) (wide : Bool) : Bool := ofs.val % (if wide then 8 else 4) == 0

/-- No one stands twice in an order. -/
def onceEach {α : Type} [BEq α] : List α → Bool
  | [] => true
  | x :: xs => !(xs.contains x) && onceEach xs

/-- A command of the host or of a unit whose data are whole. -/
def wellFormed : Instr → Bool
  | .writeNa _ _ _ data _ => lineLong data
  | .atomFar _ _ a _ => farAtomWhole a
  | .ldxFar _ _ ofs wide _ => wordAligned ofs wide
  | .stxFar _ _ ofs wide _ _ => wordAligned ofs wide
  | .cWrBack _ data _ => sectorLong data
  | .cWrNa _ data _ => sectorLong data
  | .cSnpData _ _ data => sectorLong data
  | .junctionSample readings => junctionsWhole readings
  | .stackSensorSample _ readings => layersWhole readings
  | .atomicPerform _ _ _ order _ => onceEach order
  | .nmPartComplete _ _ _ order _ => onceEach order
  | .write _ pk _ => payloadFits pk
  | .writeAcc _ pk _ => payloadFits pk
  | .remoteSignalPacket _ pk => payloadFits pk
  | .ack _ pk => payloadFits pk
  | .nack _ pk => payloadFits pk
  | .throughPacket _ pk => payloadFits pk
  | _ => true

end Sys2Proof
end

