-- ==== Sys2Proof/Certificates/Slice0/Obligations.lean ====
section
/-!
DEFINITION. The statements for the provers. Every one is about every state, and the commands of a table stand beside what the
rules say each does; where a statement rests on a choice of the model, its docstring names the log entry.
-/

open Sys2Proof Sys2Proof.Machine

-- Tvedfit: the ALU

/-- Table 08-5, the integer operations: on an issue whose word is legal, each guarded lane puts the named function of its sources into D,
and nothing else changes but what an issue counts (R25, R205 to R208, R211, R213, R215). -/
def Claims.IntegerOperations : Prop :=
  ∀ (s : State) (p : Place) (f : FmtG) (i : Issue), Issues s p i →
    let bin (mods : Nat) (n : Nat) : W32 × W32 := (w32 (aluSrcs (formBin mods) f s i n).a, w32 (aluSrcs (formBin mods) f s i n).b)
    let un (n : Nat) : W32 := w32 (aluSrcs (formUn 0) f s i n).a
    let tri (n : Nat) : W32 × W32 × W32 :=
      (w32 (aluSrcs (formTri 0) f s i n).a, w32 (aluSrcs (formTri 0) f s i n).b, w32 (aluSrcs (formTri 0) f s i n).c)
    let uns : Bool := f.mod.getLsbD 14
    Computes (.iadd p f) (formBin 0) f false true s i (fun n => ((bin 0 n).1 + (bin 0 n).2).toNat) ∧
    Computes (.isub p f) (formBin 0) f false true s i (fun n => ((bin 0 n).1 - (bin 0 n).2).toNat) ∧
    Computes (.imul p f) (formBin 0) f false true s i (fun n => ((bin 0 n).1 * (bin 0 n).2).toNat) ∧
    Computes (.imulhi p f) (formBin modU) f false true s i (fun n =>
      if uns then (bin modU n).1.toNat * (bin modU n).2.toNat / 2 ^ 32
      else (BitVec.ofInt 32 ((bin modU n).1.toInt * (bin modU n).2.toInt / 2 ^ 32)).toNat) ∧
    Computes (.imad p f) (formTri 0) f false true s i (fun n => ((tri n).1 * (tri n).2.1 + (tri n).2.2).toNat) ∧
    Computes (.imin p f) (formBin modU) f false true s i (fun n =>
      if uns then min (bin modU n).1.toNat (bin modU n).2.toNat
      else (BitVec.ofInt 32 (min (bin modU n).1.toInt (bin modU n).2.toInt)).toNat) ∧
    Computes (.imax p f) (formBin modU) f false true s i (fun n =>
      if uns then max (bin modU n).1.toNat (bin modU n).2.toNat
      else (BitVec.ofInt 32 (max (bin modU n).1.toInt (bin modU n).2.toInt)).toNat) ∧
    Computes (.and p f) (formBin 0) f false true s i (fun n => ((bin 0 n).1 &&& (bin 0 n).2).toNat) ∧
    Computes (.or p f) (formBin 0) f false true s i (fun n => ((bin 0 n).1 ||| (bin 0 n).2).toNat) ∧
    Computes (.xor p f) (formBin 0) f false true s i (fun n => ((bin 0 n).1 ^^^ (bin 0 n).2).toNat) ∧
    Computes (.shl p f) (formBin 0) f false true s i (fun n => ((bin 0 n).1 <<< ((bin 0 n).2.toNat % 32)).toNat) ∧
    Computes (.shr p f) (formBin modU) f false true s i (fun n =>
      (if uns then (bin modU n).1 >>> ((bin modU n).2.toNat % 32)
        else (bin modU n).1.sshiftRight ((bin modU n).2.toNat % 32)).toNat) ∧
    Computes (.popc p f) (formUn 0) f false true s i (fun n => ((List.range 32).filter (fun k => (un n).getLsbD k)).length) ∧
    Computes (.clz p f) (formUn 0) f false true s i (fun n => ((List.range 32).takeWhile (fun k => !(un n).getMsbD k)).length) ∧
    Computes (.brev p f) (formUn 0) f false true s i (fun n => (BitVec.ofBoolListLE ((List.range 32).map (fun k => (un n).getMsbD k))).toNat)

/-- Table 08-5, the moves: MOV copies A, SEL chooses by predicate C, IADD.W adds B, extended by U, to a 64-bit A (all of it in the
long form), and NOP goes on with no result (R213, R215, R216). -/
def Claims.MoveOperations : Prop :=
  ∀ (s : State) (p : Place) (f : FmtG) (i : Issue), Issues s p i →
    let mov : GForm := { d := .reg 1, a := .any }
    let sel : GForm := { d := .reg 1, a := .word, b := .word, c := .pred }
    let wide : GForm := { d := .reg 2, a := .reg 2, b := .word, mods := modU }
    let long : Bool := f.mod.getLsbD 15
    let uns : Bool := f.mod.getLsbD 14
    Computes (.mov p f) mov f false true s i (fun n => (aluSrcs mov f s i n).a) ∧
    Computes (.sel p f) sel f false true s i (fun n =>
      if (aluSrcs sel f s i n).c = 1 then (aluSrcs sel f s i n).a else (w32 (aluSrcs sel f s i n).b).toNat) ∧
    Computes (.iaddW p f) wide f true true s i (fun n =>
      let a : W64 := BitVec.ofNat 64 (aluSrcs wide f s i n).a
      let b := (aluSrcs wide f s i n).b
      (a + (if long then BitVec.ofNat 64 b else if uns then (w32 b).setWidth 64 else (w32 b).signExtend 64)).toNat) ∧
    Computes (.nop p f) { d := .unused, long := false } f false true s i (fun _ => 0)

/-- R92 and R93: FADD, FMUL and FFMA give the exact result rounded once to binary32, FMIN and FMAX one of their operands, each operand
after its absolute value and its negation (Table 08-6). -/
def Obligations.FloatOperations : Prop :=
  ∀ (s : State) (p : Place) (f : FmtG) (i : Issue), Issues s p i →
    let fma : GForm := { d := .reg 1, a := .word, b := .word, c := .word, mods := modF, flt := true }
    let mag (on : Bool) (w : W32) : W32 := if on then w &&& 0x7FFFFFFF#32 else w
    let sgn (on : Bool) (w : W32) : W32 := if on then w ^^^ 0x80000000#32 else w
    let opA (m : GForm) (n : Nat) : FVal := val32 (sgn (f.mod.getLsbD 14) (mag (f.mod.getLsbD 11) (w32 (aluSrcs m f s i n).a)))
    let opB (m : GForm) (n : Nat) : FVal := val32 (sgn (f.mod.getLsbD 13) (mag (f.mod.getLsbD 10) (w32 (aluSrcs m f s i n).b)))
    let opC (m : GForm) (n : Nat) : FVal := val32 (sgn (f.mod.getLsbD 12) (w32 (aluSrcs m f s i n).c))
    Computes (.fadd p f) fltBin f false true s i (fun n => (round32 (addF (opA fltBin n) (opB fltBin n))).toNat) ∧
    Computes (.fmul p f) fltBin f false true s i (fun n => (round32 (mulF (opA fltBin n) (opB fltBin n))).toNat) ∧
    Computes (.ffma p f) fma f false true s i (fun n => (round32 (addF (mulF (opA fma n) (opB fma n)) (opC fma n))).toNat) ∧
    Computes (.fmin p f) fltBin f false true s i (fun n => (round32 (minF (opA fltBin n) (opB fltBin n))).toNat) ∧
    Computes (.fmax p f) fltBin f false true s i (fun n => (round32 (maxF (opA fltBin n) (opB fltBin n))).toNat)

/-- R92: FRCP and FRSQ lie within 1 unit in the last place of the exact result, FEX2 and FLG2 within 2, and the results that the table
names are exact; which of the results in between a lane gives is open (log 16). -/
def Obligations.FloatFunctions : Prop :=
  ∀ (s : State) (p : Place) (f : FmtG) (i : Issue), Issues s p i →
    let arg (n : Nat) : W32 := fAWord f (aluSrcs fltUn f s i n)
    let fits (k : Nat) (r : Approx) (w : W32) : Prop := match r with
      | .word x => w = x
      | .near neg m e => ∃ code, closeCode k m e code = true ∧ w = BitVec.ofNat 32 (signCode fp32 neg + code)
    let within (c : Instr) (k : Nat) (fn : W32 → Approx) : Prop :=
      ∃ v : Nat → W32, (∀ n, fits k (fn (arg n)) (v n)) ∧ Computes c fltUn f false true s i (fun n => (v n).toNat)
    within (.frcp p f) 1 rcp32 ∧ within (.frsq p f) 1 rsq32 ∧ within (.fex2 p f) 2 ex232 ∧ within (.flg2 p f) 2 lg232

/-- ISETP and FSETP set predicate D to the comparison that CMP names, PLOP to the bit of LUT that its three predicates select (R215,
R216). -/
def Claims.PredicateOperations : Prop :=
  ∀ (s : State) (p : Place) (f : FmtG) (i : Issue), Issues s p i →
    let isetp : GForm := { d := .pred, a := .word, b := .word, mods := modU + 15 }
    let fsetp : GForm := { d := .pred, a := .word, b := .word, mods := modF + 15, flt := true }
    let plop : GForm := { d := .pred, a := .pred, b := .pred, c := .pred, mods := 0xFF }
    let cmp : Nat := (f.mod.extractLsb' 0 4).toNat
    let uns : Bool := f.mod.getLsbD 14
    let a (n : Nat) : W32 := w32 (aluSrcs isetp f s i n).a
    let b (n : Nat) : W32 := w32 (aluSrcs isetp f s i n).b
    let less (x y : W32) : Bool := if uns then x.ult y else x.slt y
    let x (n : Nat) : FVal := fA f (aluSrcs fsetp f s i n)
    let y (n : Nat) : FVal := fB f (aluSrcs fsetp f s i n)
    let bit (v : Nat) : Nat := if v = 1 then 1 else 0
    Computes (.isetp p f) isetp f false (cmp < 6) s i (fun n =>
      (match cmp with
        | 0 => decide (a n = b n)
        | 1 => decide (a n ≠ b n)
        | 2 => less (a n) (b n)
        | 3 => !less (b n) (a n)
        | 4 => less (b n) (a n)
        | _ => !less (a n) (b n)).toNat) ∧
    Computes (.fsetp p f) fsetp f false (cmp < 6) s i (fun n =>
      (match cmp with
        | 0 => eqF (x n) (y n)
        | 1 => !eqF (x n) (y n)
        | 2 => ltF (x n) (y n)
        | 3 => ltF (x n) (y n) || eqF (x n) (y n)
        | 4 => ltF (y n) (x n)
        | _ => ltF (y n) (x n) || eqF (x n) (y n)).toNat) ∧
    Computes (.plop p f) plop f false true s i (fun n =>
      (f.mod.getLsbD (4 * bit (aluSrcs plop f s i n).a + 2 * bit (aluSrcs plop f s i n).b + bit (aluSrcs plop f s i n).c)).toNat)

/-- CVT converts the low bits of A from FROM to TO under RMODE and SAT; under SR each lane takes a draw of its core's source, which is
open (R94 to R99, R216; log 17). -/
def Claims.Conversion : Prop :=
  ∀ (s : State) (p : Place) (f : FmtG) (i : Issue) (x y : EType), Issues s p i →
    etypeOf (f.mod.extractLsb' 10 5).toNat = some x → etypeOf (f.mod.extractLsb' 5 5).toNat = some y →
    let m := (f.mod.extractLsb' 3 2).toNat
    let form : GForm := { d := .reg 1, a := .word, mods := 0x7FFC, flt := (f.mod.extractLsb' 10 5).toNat == 0 }
    ∃ draw : Nat → BitVec 16,
      Computes (.cvt p f) form f false (cvtLegal x y m) s i (fun n =>
        convert x y (if m = 0 then .rn else if m = 1 then .rz else .sr (draw n).toNat) (f.mod.getLsbD 2)
          ((aluSrcs form f s i n).a % 2 ^ etypeBits x))

/-- R228: VOTE over the guarded lanes of the subset: ALL and ANY into a predicate, BALLOT the lanes whose predicate is true, COUNT their
number. -/
def Claims.Votes : Prop :=
  ∀ (s : State) (p : Place) (f : FmtG) (i : Issue), Issues s p i →
    let pf : GForm := { d := .pred, a := .pred, mods := 3, long := false }
    let rf : GForm := { d := .reg 1, a := .pred, mods := 3, long := false }
    let ls := guardedLanes s i f.pg f.pn
    let mode := (f.mod.extractLsb' 0 2).toNat
    let yes (m : GForm) (n : Nat) : Bool := (aluSrcs m f s i n).a == 1
    Computes (.voteAll p f) pf f false (mode == 0) s i (fun _ => (ls.all (yes pf)).toNat) ∧
    Computes (.voteAny p f) pf f false (mode == 1) s i (fun _ => (ls.any (yes pf)).toNat) ∧
    Computes (.voteBallot p f) rf f false (mode == 2) s i (fun _ => ((ls.filter (yes rf)).map (fun n => 2 ^ n)).sum) ∧
    Computes (.voteCount p f) rf f false (mode == 3) s i (fun _ => (ls.filter (yes rf)).length)

/-- R25 and R229: SHFL gives each guarded lane A of the lane that IDX, UP, DOWN or XOR names, or its own A where that lane does not take
part. -/
def Claims.Shuffles : Prop :=
  ∀ (s : State) (p : Place) (f : FmtG) (i : Issue), Issues s p i →
    let m : GForm := { d := .reg 1, a := .word, b := .word, mods := 3, long := false }
    let ls := guardedLanes s i f.pg f.pn
    let mode := (f.mod.extractLsb' 0 2).toNat
    let a (n : Nat) : Nat := (aluSrcs m f s i n).a
    let b (n : Nat) : Nat := (aluSrcs m f s i n).b
    Computes (.shflIdx p f) m f false (mode == 0) s i (fun n => if b n % 32 ∈ ls then a (b n % 32) else a n) ∧
    Computes (.shflUp p f) m f false (mode == 1) s i (fun n => if b n ≤ n ∧ n - b n ∈ ls then a (n - b n) else a n) ∧
    Computes (.shflDown p f) m f false (mode == 2) s i (fun n => if n + b n ∈ ls then a (n + b n) else a n) ∧
    Computes (.shflXor p f) m f false (mode == 3) s i (fun n =>
      if n ^^^ (b n % 32) ∈ ls then a (n ^^^ (b n % 32)) else a n)

-- Tvedfit: control flow, fences, tokens, atomics

/-- R214 and R40: a general instruction whose word is no legal encoding, or names a register beyond the allocation, gives each guarded
lane its fault and has no other effect than the count of the issue; with no guarded lane the subset goes on. R234: where bits 127:64 of a long
form lie at or beyond CODE_LENGTH, every lane of the subset faults with ADDRESS (log 70). -/
def Claims.IllegalWords : Prop :=
  ∀ (s : State) (p : Place) (f : FmtG) (i : Issue) (e : TFault), Issues s p i →
    let reg1 (mods : Nat) : GForm := { d := .reg 1, a := .word, b := .word, c := .word, mods, flt := true }
    let ls := guardedLanes s i f.pg f.pn
    ∀ x ∈ ([(.iadd p f, formBin 0, false, true), (.isub p f, formBin 0, false, true), (.imul p f, formBin 0, false, true),
        (.imulhi p f, formBin modU, false, true), (.imad p f, formTri 0, false, true), (.imin p f, formBin modU, false, true),
        (.imax p f, formBin modU, false, true), (.and p f, formBin 0, false, true), (.or p f, formBin 0, false, true),
        (.xor p f, formBin 0, false, true), (.shl p f, formBin 0, false, true), (.shr p f, formBin modU, false, true),
        (.popc p f, formUn 0, false, true), (.clz p f, formUn 0, false, true), (.brev p f, formUn 0, false, true),
        (.fadd p f, fltBin, false, true), (.fmul p f, fltBin, false, true), (.ffma p f, reg1 modF, false, true),
        (.fmin p f, fltBin, false, true), (.fmax p f, fltBin, false, true), (.frcp p f, fltUn, false, true),
        (.frsq p f, fltUn, false, true), (.fex2 p f, fltUn, false, true), (.flg2 p f, fltUn, false, true)] :
        List (Instr × GForm × Bool × Bool)),
      (longFits x.2.1 f s i = false → Goes x.1 s (settle (threadFaults (counted s i) (issueInfo s i)
        (i.lanes.map (fun n => (.address, lanePlace s i n, 0)))) i.core)) ∧
      (gFault x.2.1 f x.2.2.1 x.2.2.2 (issueInfo s i).regs = some e → longFits x.2.1 f s i = true →
      (ls ≠ [] → Goes x.1 s (settle (threadFaults (counted s i) (issueInfo s i)
        (ls.map (fun n => (e, lanePlace s i n, 0)))) i.core)) ∧
      (ls = [] → ∃ t, Goes x.1 s t ∧ AluDone s t i (coreOf s i.core) (gLen x.2.1 f) [] .none 0 (fun _ => 0)))

/-- R40 to R44: a thread fault counts on its core and in the context's fault record, takes every block of the launch off its core and
ends the launch, and leaves memory, the L2s and every other launch as they are. -/
def Claims.ThreadFaultEffects : Prop :=
  ∀ (s : State) (info : LaunchInfo) (f : TFault) (pl : FaultPlace) (addr : W64),
    let t := threadFault s info f pl addr
    let old := (ctxOf s (info.ctx % 4096)).fault
    let new := (ctxOf t (info.ctx % 4096)).fault
    (∀ c, blocksOfLaunch (coreOf t c) info.id = []) ∧
    launchOf t info.id = (launchOf s info.id).map
      (fun l => { l with aborted := true, faulted := true, next := l.blocks, returned := [], places := [] }) ∧
    (∀ id, id ≠ info.id → launchOf t id = launchOf s id) ∧
    (coreOf t pl.core).faultCount = sat (coreOf s pl.core).faultCount 1 ∧
    (∀ c, c ≠ pl.core → (coreOf t c).faultCount = (coreOf s c).faultCount) ∧
    (old.valid = false → new.valid = true ∧ new.code = BitVec.ofNat 8 (tfCode f) ∧ new.count = 1 ∧
      new.pc = (if (sagOf s (ctxOf s (info.ctx % 4096)).sag.val).st = .sealed then 0 else pl.pc)) ∧
    (old.valid = true → new = { old with count := sat old.count 1 }) ∧
    t.dram = s.dram ∧ t.dies = s.dies ∧ t.homes = s.homes ∧ t.fabric = s.fabric ∧ t.sags = s.sags ∧ t.xl = s.xl

/-- R234: BRA and RET send the guarded lanes to their targets, CALL also puts the address of the next instruction into D; the other lanes
of the subset go on. -/
def Obligations.Jumps : Prop :=
  ∀ (s : State) (p : Place) (f : FmtJ) (i : Issue), Issues s p i →
    let ls := guardedLanes s i f.pg f.pn
    let dest (n : Nat) : W32 :=
      if f.t then BitVec.ofNat 32 (readOpd (ctxOfIssue s i 0) n (laneAt s i n) (opdOf f.a) 1 false).1
      else i.pc + BitVec.ofInt 32 (8 * f.ofs.toInt)
    let goes (n : Nat) (l : Lane) : Lane :=
      if n ∈ ls then { l with pc := dest n } else if n ∈ i.lanes then { l with pc := l.pc + 8 } else l
    let inRange (o : BitVec 9) : Prop := outOfRange (issueInfo s i).regs 1 (opdOf o) = false
    f.rsv = false → (f.t = true → targetOk (opdOf f.a) = true ∧ f.ofs = 0) → (f.t = false → opdOf f.a = .none) →
    inRange f.a → inRange f.d → (∀ n ∈ ls, (dest n).toNat % 8 = 0) →
    (opdOf f.d = .none → ∃ t, Goes (.bra p f) s t ∧ GroupDone s t i goes (issueGrp s i).u (issueGrp s i).held) ∧
    (opdOf f.d = .none → f.t = true →
      ∃ t, Goes (.ret p f) s t ∧ GroupDone s t i goes (issueGrp s i).u (issueGrp s i).held) ∧
    (∀ k, opdOf f.d = .v k → ∃ t, Goes (.call p f) s t ∧
      GroupDone s t i (fun n l => if n ∈ ls then setV (goes n l) k (i.pc + 8) else goes n l) (issueGrp s i).u (issueGrp s i).held) ∧
    (∀ k, opdOf f.d = .u k → ls ≠ [] → ∃ t, Goes (.call p f) s t ∧
      GroupDone s t i goes (setU (issueGrp s i) k (i.pc + 8)).u (issueGrp s i).held (freeU (issueGrp s i) k 1).uOwner)

/-- R226 and Table 10-1: a fence blocks the guarded lanes at itself, with the STORE slots that their block has posted. -/
def Obligations.Fences : Prop :=
  ∀ (s : State) (p : Place) (f : FmtG) (i : Issue), Issues s p i → GLegal fenceForm f false true s i →
    let ls := guardedLanes s i f.pg f.pn
    let h : HeldOp := { lanes := laneMask ls, guarded := laneMask ls, pc := i.pc
                        op := .fence (postedSlots (coreOf s i.core) (issueGrp s i).blk) }
    ls ≠ [] →
    ∀ x ∈ [(Instr.fenceBlock p f, Wait.fenceBlock), (.fenceDevice p f, .fenceDevice), (.fenceSys p f, .fenceSys)],
      ∃ t, Goes x.1 s t ∧ GroupDone s t i (holds i ls x.2) (issueGrp s i).u ((issueGrp s i).held ++ [h])

/-- R219 to R223: ATOM, LDX and STX with a legal word and legal, aligned addresses in device memory block their guarded lanes until each
lane's operation has been performed; an IMM operand of FADD stands for its binary32 value (R209). The operands here are any but the
clock. -/
def Obligations.AtomicIssue : Prop :=
  ∀ (s : State) (p : Place) (f : FmtM) (i : Issue), Issues s p i →
    let ls := guardedLanes s i f.pg f.pn
    let n := szBytes f
    let w := szRegs n
    let x := ctxOfIssue s i 0
    let wide : Bool := f.sz == 3
    let at_ (l : Nat) : Nat := lowBits 64 (globalAddr x l (laneAt s i l) f)
    let opnd (o : BitVec 9) (float : Bool) (l : Nat) : W64 := BitVec.ofNat 64 (readOpd x l (laneAt s i l) (opdOf o) w float).1
    let lane (l : Nat) : LaneId := BitVec.toFin (BitVec.ofNat 5 l)
    let word (atom : Bool) : Prop := mFields f false atom = true ∧ (f.sz = 2 ∨ f.sz = 3) ∧ srcOk (.reg 2) (opdOf f.a) = true ∧
      outOfRange (issueInfo s i).regs 2 (opdOf f.a) = false ∧ outOfRange (issueInfo s i).regs w (opdOf f.d) = false
    let blocked (c : Instr) (dst : Opd) (op : Held) : Prop := ∃ t, Goes c s t ∧
      GroupDone s t i (holds i ls .atomic) (issueGrp s i).u
        ((issueGrp s i).held ++ [{ lanes := laneMask ls, guarded := laneMask ls, pc := i.pc, op }])
        (ownU (issueGrp s i) (laneMask ls) dst w).uOwner
    let okAt (write : Bool) : Prop := ∀ l ∈ ls, at_ l < 2 ^ 48 ∧ at_ l % n = 0 ∧ isHostAddr (at_ l) = false ∧
      accessFault s (issueInfo s i) (at_ l) n write = none
    ls ≠ [] → readsClock (opdOf f.b) = false → readsClock (opdOf f.d) = false →
    (word true → okAt true → srcOk (dataKind n) (opdOf f.b) = true → outOfRange (issueInfo s i).regs w (opdOf f.b) = false →
      let reqs (float : Bool) : List AtomReq :=
        ls.map (fun l => { lane := lane l, addr := at_ l, opnd := opnd f.b float l, cmp := opnd f.d false l })
      (∀ y ∈ [(Instr.atomAdd p f, AtomOp.add, 0), (.atomSmin p f, .smin, 2), (.atomSmax p f, .smax, 3), (.atomUmin p f, .umin, 4),
          (.atomUmax p f, .umax, 5), (.atomAnd p f, .and, 6), (.atomOr p f, .or, 7), (.atomXor p f, .xor, 8),
          (.atomExch p f, .exch, 9)],
        f.aop.toNat = y.2.2 → dstOk (.regOrNone w) (opdOf f.d) = true → blocked y.1 (opdOf f.d) (.atom y.2.1 wide f.d (reqs false))) ∧
      (f.aop.toNat = 1 → f.sz = 2 → dstOk (.regOrNone w) (opdOf f.d) = true → 
        blocked (.atomFadd p f) (opdOf f.d) (.atom .fadd false f.d (reqs true))) ∧
      (f.aop.toNat = 10 → dstOk (.reg w) (opdOf f.d) = true → blocked (.atomCas p f) (opdOf f.d) (.atom .cas wide f.d (reqs false)))) ∧
    (word false → okAt false → dstOk (.reg w) (opdOf f.d) = true → opdOf f.b = .none →
      blocked (.ldx p f) (opdOf f.d) (.ldx wide f.d (ls.map (fun l => { lane := lane l, addr := at_ l })))) ∧
    (∀ k : Fin 8, word false → okAt true → srcOk (dataKind n) (opdOf f.d) = true → opdOf f.b = .p k.val →
      blocked (.stx p f) .none (.stx wide k (ls.map (fun l => { lane := lane l, addr := at_ l, opnd := opnd f.d false l }))))

/-- R217, R218, R110 and R111: LD.L brings each guarded lane its bytes of the block's local store, ST.L writes each guarded lane's data there
(of two lanes that write one byte the higher one's stays); both count their replay passes, and no other byte of any block changes. -/
def Claims.LocalAccess : Prop :=
  ∀ (s : State) (p : Place) (f : FmtM) (env : MemEnv) (i : Issue), Issues s p i →
    let ls := guardedLanes s i f.pg f.pn
    let n := szBytes f
    let at_ (k : Nat) : Int := localAddr (ctxOfIssue s i 0) k (laneAt s i k) f
    let data (k : Nat) : List Byte :=
      leBytes n (readOpd (ctxOfIssue s i 0) k (laneAt s i k) (opdOf f.d) (szRegs n) false).1
    let counts : Core := { coreOf s i.core with
      replay := sat (coreOf s i.core).replay (passes (ls.map (fun k => ((at_ k).toNat, n))) - 1) }
    ls ≠ [] → mFields f false false = true → srcOk (.regImm 1) (opdOf f.a) = true → opdOf f.b = .none →
    outOfRange (issueInfo s i).regs 1 (opdOf f.a) = false → outOfRange (issueInfo s i).regs (szRegs n) (opdOf f.d) = false →
    (∀ k ∈ ls, 0 ≤ at_ k ∧ at_ k + n ≤ (issueInfo s i).lsBytes) → slabStoreHolds s i.core i.sub i.slot = false →
    env.sramFixed = 0 → env.sramBad = false →
    (dstOk (.reg (szRegs n)) (opdOf f.d) = true → ∃ t, Goes (.ldL p f env) s t ∧
      AluDone s t i counts 8 ls (opdOf f.d) (szRegs n) (fun k => loadValue (lsRead (issueBlock s i) (at_ k).toNat n) f.sx)) ∧
    (srcOk (dataKind n) (opdOf f.d) = true → readsClock (opdOf f.d) = false → ∃ t, Goes (.stL p f) s t ∧
      (∀ a, tblGet 0 (issueBlock t i).ls a = match ls.reverse.find? (fun k => decide (at_ k ≤ a ∧ (a : Int) < at_ k + n)) with
        | some k => (data k).getD (a - (at_ k).toNat) 0
        | none => tblGet 0 (issueBlock s i).ls a) ∧
      (∀ b, b ≠ (issueGrp s i).blk.val → blockOf (coreOf t i.core) b = blockOf (coreOf s i.core) b) ∧
      (∀ k, laneAt t i k = { goesOn i k (laneAt s i k) with waited := (laneAt t i k).waited, starving := (laneAt t i k).starving }) ∧
      CoreKept s t i { counts with blocks := (coreOf t i.core).blocks } ∧ IssueFrame s t i)

/-- R71: behind a SLAB.ST of its group that has still to write, LD.L and ST.L hold their lanes at themselves. -/
def Claims.LocalAccessWaits : Prop :=
  ∀ (s : State) (p : Place) (f : FmtM) (env : MemEnv) (i : Issue), Issues s p i →
    let ls := guardedLanes s i f.pg f.pn
    let n := szBytes f
    let at_ (k : Nat) : Int := localAddr (ctxOfIssue s i 0) k (laneAt s i k) f
    let lane (k : Nat) : LaneId := BitVec.toFin (BitVec.ofNat 5 k)
    let waits (c : Instr) (dst : Opd) (op : Held) : Prop := ∃ t, Goes c s t ∧ GroupDone s t i (holds i ls .slabStore) (issueGrp s i).u
      ((issueGrp s i).held ++ [{ lanes := laneMask ls, guarded := laneMask ls, pc := i.pc, op }])
      (ownU (issueGrp s i) (laneMask ls) dst (szRegs n)).uOwner
    ls ≠ [] → mFields f false false = true → srcOk (.regImm 1) (opdOf f.a) = true → opdOf f.b = .none →
    outOfRange (issueInfo s i).regs 1 (opdOf f.a) = false → outOfRange (issueInfo s i).regs (szRegs n) (opdOf f.d) = false →
    (∀ k ∈ ls, 0 ≤ at_ k ∧ at_ k + n ≤ (issueInfo s i).lsBytes) → slabStoreHolds s i.core i.sub i.slot = true →
    env.sramFixed = 0 → env.sramBad = false →
    (dstOk (.reg (szRegs n)) (opdOf f.d) = true → waits (.ldL p f env) (opdOf f.d)
      (.loadL f.d n f.sx (ls.map (fun k => { lane := lane k, addr := (at_ k).toNat })))) ∧
    (srcOk (dataKind n) (opdOf f.d) = true → readsClock (opdOf f.d) = false → waits (.stL p f) .none
      (.storeL (ls.map (fun k => { lane := lane k, addr := (at_ k).toNat
                                   val := leBytes n (readOpd (ctxOfIssue s i 0) k (laneAt s i k) (opdOf f.d) (szRegs n) false).1 }))))

/-- R112, R218 and R276: LD.G of device bytes that stand in current L1 lines brings them to the lanes, with nothing else of the core than the
ages of its L1 lines changed. Here no store of the sub-core is buffered and no operation is held on the core. -/
def Claims.GlobalLoadHit : Prop :=
  ∀ (s : State) (p : Place) (f : FmtM) (env : MemEnv) (i : Issue), Issues s p i →
    let ls := guardedLanes s i f.pg f.pn
    let n := szBytes f
    let at_ (k : Nat) : Nat := lowBits 64 (globalAddr (ctxOfIssue s i 0) k (laneAt s i k) f)
    let byte (k j : Nat) : Option Byte := l1Byte (coreOf s i.core) (at_ k + j) (laneAt s i k).ordPt
    ls ≠ [] → mFields f true false = true → srcOk (.reg 2) (opdOf f.a) = true → dstOk (.reg (szRegs n)) (opdOf f.d) = true →
    opdOf f.b = .none → outOfRange (issueInfo s i).regs 2 (opdOf f.a) = false →
    outOfRange (issueInfo s i).regs (szRegs n) (opdOf f.d) = false →
    (∀ k ∈ ls, at_ k < apertureBase ∧ accessFault s (issueInfo s i) (at_ k) n false = none) →
    (∀ k ∈ ls, ∀ j, j < n → (byte k j).isSome = true) →
    (subOf (coreOf s i.core) i.sub).buffer = [] → heldOps (coreOf s i.core) = [] → env.sramFixed = 0 → env.l1Bad = false →
    ∃ t, Goes (.ldG p f env) s t ∧
      AluDone s t i { coreOf s i.core with l1 := (coreOf t i.core).l1 } 8 ls (opdOf f.d) (szRegs n)
        (fun k => loadValue ((List.range n).map (fun j => (byte k j).getD 0)) f.sx) ∧
      (∀ l, (l1Line (coreOf t i.core) l).map (fun x => (x.addr, x.data, x.stamp)) =
        (l1Line (coreOf s i.core) l).map (fun x => (x.addr, x.data, x.stamp)))

/-- R267 to R269: ST.G puts the pieces of its lanes into the store buffer of the sub-core, one line a piece, into the youngest entry where
that holds the piece's line; a store whose pieces do not all find room holds the whole issuing subset with the rest. Memory changes only when the entries drain. -/
def Obligations.GlobalStore : Prop :=
  ∀ (s : State) (p : Place) (f : FmtM) (i : Issue), Issues s p i →
    let ls := guardedLanes s i f.pg f.pn
    let n := szBytes f
    let x := ctxOfIssue s i 0
    let info := issueInfo s i
    let at_ (k : Nat) : Nat := lowBits 64 (globalAddr x k (laneAt s i k) f)
    let pieces : List LaneReq := (ls.map (fun k =>
      ({ lane := BitVec.toFin (BitVec.ofNat 5 k), addr := bufAddr s info (at_ k) n
         val := leBytes n (readOpd x k (laneAt s i k) (opdOf f.d) (szRegs n) false).1 } : LaneReq))).flatMap storePieces
    let mark (r : LaneReq) : StoreMark :=
      { launch := info.id, pc := i.pc, blk := (issueBlock s i).lin, thread := (issueGrp s i).idx * 32 + r.lane.val }
    let buf := bufferPieces info.sag f.hint.toNat mark (BitVec.toFin (BitVec.ofNat 4 i.slot)) pieces (subOf (coreOf s i.core) i.sub).buffer
    ls ≠ [] → mFields f true false = true → srcOk (.reg 2) (opdOf f.a) = true → srcOk (dataKind n) (opdOf f.d) = true →
    readsClock (opdOf f.d) = false → opdOf f.b = .none → outOfRange info.regs 2 (opdOf f.a) = false →
    outOfRange info.regs (szRegs n) (opdOf f.d) = false →
    (∀ k ∈ ls, at_ k < 2 ^ 48 ∧ accessFault s info (at_ k) n true = none) →
    (∀ h ∈ (issueGrp s i).held, h.lanes ≠ laneMask i.lanes) →
    ∃ t, Goes (.stG p f) s t ∧ (subOf (coreOf t i.core) i.sub).buffer = buf.1 ∧
      (∀ b, b ≠ i.sub → (subOf (coreOf t i.core) b).buffer = (subOf (coreOf s i.core) b).buffer) ∧
      coreOf t i.core = { coreOf s i.core with subs := (coreOf t i.core).subs, engines := (coreOf t i.core).engines } ∧
      (coreOf t i.core).engines = (if buf.2.length < pieces.length then
        storesTaken { coreOf t i.core with engines := (coreOf s i.core).engines } i.sub i.slot (laneMask i.lanes) buf.2.isEmpty
        else coreOf s i.core).engines ∧ IssueFrame s t i ∧
      (issueGrp t i).u = (issueGrp s i).u ∧
      (buf.2 = [] → (issueGrp t i).held = (issueGrp s i).held ∧
        ∀ k, laneAt t i k = { goesOn i k (laneAt s i k) with waited := (laneAt t i k).waited, starving := (laneAt t i k).starving }) ∧
      (buf.2 ≠ [] →
        (issueGrp t i).held = (issueGrp s i).held ++
          [{ lanes := laneMask i.lanes, guarded := laneMask ls, pc := i.pc, op := .storeG f.hint.toNat buf.2 }] ∧
        ∀ k, laneAt t i k = { holds i i.lanes .buffer k (laneAt s i k) with
          waited := (laneAt t i k).waited, starving := (laneAt t i k).starving })

/-- R227, R211, R235 and R19: a thread at BAR.BLOCK blocks while some thread of its block has not arrived, and a guard on BAR.BLOCK is an
illegal instruction of the whole subset; EXIT ends the guarded lanes; YIELD goes
on and takes the group off the active set. Here no thread of the group stands at a SLAB instruction, and, for EXIT, none of the core at a barrier. -/
def Claims.BarrierExitYield : Prop :=
  ∀ (s : State) (p : Place) (f : FmtG) (j : FmtJ) (i : Issue), Issues s p i →
    (∀ n, (laneAt s i n).exited = true ∨ (laneAt s i n).wait ≠ .slab) →
    let ls := guardedLanes s i f.pg f.pn
    let ms := guardedLanes s i j.pg j.pn
    let plainWord : Prop := j.rsv = false ∧ j.t = false ∧ j.ofs = 0 ∧ opdOf j.d = .none ∧ opdOf j.a = .none
    let ends (n : Nat) (l : Lane) : Lane := if n ∈ ms then { l with exited := true } else goesOn i n l
    (¬ (f.pg = 7 ∧ f.pn = false) → Goes (.barBlock p f) s (settle (threadFaults (counted s i) (issueInfo s i)
      (i.lanes.map (fun n => (.illegal, lanePlace s i n, 0)))) i.core)) ∧
    (f.pg = 7 → f.pn = false → GLegal fenceForm f false true s i → ls ≠ [] →
      (∀ b blk, tblFind (coreOf s i.core).blocks b = some blk → ∃ x ∈ blk.groups, ∃ n,
        n < (grpOf (subOf (coreOf s i.core) x.1.val) x.2.val).lanes.length ∧
        (laneOf (grpOf (subOf (coreOf s i.core) x.1.val) x.2.val) n).exited = false ∧
        (laneOf (grpOf (subOf (coreOf s i.core) x.1.val) x.2.val) n).wait ≠ .bar ∧
        ¬ (x.1.val = i.sub ∧ x.2.val = i.slot ∧ n ∈ ls)) →
      ∃ t, Goes (.barBlock p f) s t ∧ GroupDone s t i (holds i ls .bar) (issueGrp s i).u (issueGrp s i).held) ∧
    (plainWord → ms ≠ [] → (∀ b k n, (laneOf (grpOf (subOf (coreOf s i.core) b) k) n).exited = true ∨
        (laneOf (grpOf (subOf (coreOf s i.core) b) k) n).wait ≠ .bar) →
      ∃ t, Goes (.exit p j) s t ∧ GroupDone s t i ends (issueGrp s i).u (issueGrp s i).held) ∧
    (plainWord → ms ≠ [] → ∃ t, Goes (.yield p j) s t ∧
      GroupDone s t i (goesOn i) (issueGrp s i).u (issueGrp s i).held ∧
      ∀ a ∈ (subOf (coreOf t i.core) i.sub).active, a.val ≠ i.slot)

-- The scheduler and the slabs

/-- R20 to R23: a promotion moves the head of the ready queue into a free active slot; a rotation puts the group longest in a full active
set behind the ready queue, where it still has a ready subset, and the head of the queue in its place; a ready thread that has waited 60
opportunities in the active set starves. Nothing else changes. -/
def Claims.SchedulerEvents : Prop :=
  ∀ (s : State) (p : Place), Sound s →
    let k := coreOf s p.core.val
    let u := subOf k p.sub.val
    let ready (l : Lane) : Prop := l.exited = false ∧ l.wait = .ready
    (∀ a rest, u.ready = a :: rest → u.active.length < 4 → ∃ t, Goes (.groupPromotion p) s t ∧
      OnlyCore s t p.core.val (setSub k p.sub.val { u with active := u.active ++ [a], ready := rest })) ∧
    (∀ a as b rest, u.active = a :: as → as.length = 3 → u.ready = b :: rest → (∃ l ∈ (grpOf u a.val).lanes, ready l) →
      ∃ t, Goes (.rotation p) s t ∧
        OnlyCore s t p.core.val (setSub k p.sub.val { u with active := as ++ [b], ready := rest ++ [a] })) ∧
    (∀ a as b rest, u.active = a :: as → as.length = 3 → u.ready = b :: rest → (∀ l ∈ (grpOf u a.val).lanes, ¬ ready l) →
      ∃ t, Goes (.rotation p) s t ∧ OnlyCore s t p.core.val (setSub k p.sub.val { u with active := as ++ [b], ready := rest })) ∧
    ∃ t, Goes (.starvingSubset p) s t ∧
      (∃ u', OnlyCore s t p.core.val (setSub k p.sub.val u') ∧ u' = { u with slots := u'.slots } ∧
        (∀ j, grpOf u' j = { grpOf u j with lanes := (grpOf u' j).lanes }) ∧
        (∀ j n, ready (laneOf (grpOf u j) n) → 60 ≤ (laneOf (grpOf u j) n).waited → (∃ a ∈ u.active, a.val = j) →
          laneOf (grpOf u' j) n = { laneOf (grpOf u j) n with starving := true }) ∧
        (∀ j n, ¬ (ready (laneOf (grpOf u j) n) ∧ 60 ≤ (laneOf (grpOf u j) n).waited ∧ ∃ a ∈ u.active, a.val = j) →
          laneOf (grpOf u' j) n = laneOf (grpOf u j) n))

/-- R26: the threads of a subset block at a SLAB instruction until every non-exited thread of their group is there. -/
def Claims.SlabArrival : Prop :=
  ∀ (s : State) (p : Place) (f : FmtS) (g : FmtT) (i : Issue), Issues s p i →
    (∀ n, (laneAt s i n).exited = true ∨ n ∈ i.lanes ∨
      ((laneAt s i n).wait ≠ .bar ∧ ((laneAt s i n).wait = .slab → (laneAt s i n).pc = i.pc))) →
    (∃ n, (laneAt s i n).exited = false ∧ n ∉ i.lanes ∧ (laneAt s i n).wait ≠ .slab) →
    ∀ x ∈ [(Instr.slabMma p f, Held.slabS 0x60 f), (.slabMmas p f, .slabS 0x61 f), (.slabSq16 p f, .slabS 0x62 f),
        (.slabSq32 p f, .slabS 0x63 f), (.slabZero p f, .slabS 0x64 f), (.slabSt p g, .slabT g)],
      ∃ t, Goes x.1 s t ∧ GroupDone s t i (fun n l => if n ∈ i.lanes then { l with wait := .slab } else l) (issueGrp s i).u
        ((issueGrp s i).held ++ [{ lanes := laneMask i.lanes, guarded := laneMask i.lanes, pc := i.pc, op := x.2 }])

/-- R26, R50, R53 and R57: when the last thread of the group arrives, the SLAB instruction, legal and within local store, reads its u registers and
enters the queue of its slab, behind no group that waits for it, taking a free lease that no block ahead waits for, which clears
every accumulator set of the core; the whole group goes on. -/
def Obligations.SlabIssue : Prop :=
  ∀ (s : State) (p : Place) (f : FmtS) (g : FmtT) (i : Issue), Issues s p i → Sound s →
    let k := coreOf s i.core
    let grp := issueGrp s i
    let info := issueInfo s i
    let k1 : Core := if k.lease = none then { k with
        lease := some grp.blk, leaseQueue := k.leaseQueue.filter (· != grp.blk), grantCount := sat k.grantCount 1
        slabs := k.slabs.map (fun sl => { sl with acc := [] }) } else k
    let goes (_ : Nat) (l : Lane) : Lane := if l.exited = true then l else { l with wait := .ready, pc := i.pc + 8 }
    let issues (c : Instr) (op : Held) (sl : SlabId) (form : SlabForm) : Prop :=
      (k.lease = none ∧ (k.leaseQueue = [] ∨ k.leaseQueue.head? = some grp.blk) ∨
        k.lease = some grp.blk ∧ queueWaits k i.sub i.slot grp.blk sl = false) →
      (∀ h ∈ grp.held, h.op = op) → (∀ x ∈ formExtents form, x.1 + x.2 ≤ info.lsBytes) → (slabOf k sl.val).queue.length < 8 →
      let entry : SlabEntry :=
        { blk := grp.blk, sub := BitVec.toFin (BitVec.ofNat 2 i.sub), grp := BitVec.toFin (BitVec.ofNat 4 i.slot), launch := info.id
          lane := BitVec.toFin (BitVec.ofNat 5 (lowestLane grp)), pc := i.pc, form, seq := k.slabSeq }
      ∃ t, Goes c s t ∧
        CoreKept s t i { k1 with
          slabs := listSet k1.slabs sl.val { slabOf k1 sl.val with queue := (slabOf k sl.val).queue ++ [entry] }
          slabSeq := k.slabSeq + 1 } ∧
        (∀ n, laneAt t i n = { goes n (laneAt s i n) with waited := (laneAt t i n).waited, starving := (laneAt t i n).starving }) ∧
        issueGrp t i = { grp with lanes := (issueGrp t i).lanes, held := [] } ∧ IssueFrame s t i
    let credit : Prop := f.crv = true → streamHeld (streamAt s i.core f.cre.val (ctxNo grp.blk f.crq)) = true
    (∀ n, (laneAt s i n).exited = true ∨ (n < 32 ∧ (n ∈ i.lanes ∨ ((laneAt s i n).wait = .slab ∧ (laneAt s i n).pc = i.pc)))) →
    (∀ x ∈ [(Instr.slabMma p f, 0x60), (.slabMmas p f, 0x61), (.slabSq16 p f, 0x62), (.slabSq32 p f, 0x63), (.slabZero p f, 0x64)],
      legalS x.2 f = true → credit → issues x.1 (.slabS x.2 f) f.s (formS x.2 f grp info.accFtz)) ∧
    (legalT g = true → issues (.slabSt p g) (.slabT g) g.s (formT g grp))

/-- R26, R27 and R40: a thread that arrives at a SLAB instruction while another of its group is blocked at a different one, or at
BAR.BLOCK, faults with DIVERGENT_COLLECTIVE, which ends its launch; a word that is no legal SLAB instruction faults when the group is
complete. -/
def Claims.SlabFaults : Prop :=
  ∀ (s : State) (p : Place) (f : FmtS) (g : FmtT) (i : Issue), Issues s p i →
    let info := issueInfo s i
    let ended (c : Instr) : Prop := ∃ t, Goes c s t ∧
      blocksOfLaunch (coreOf t i.core) info.id = [] ∧
      (coreOf t i.core).faultCount = sat (coreOf s i.core).faultCount 1 ∧
      launchOf t info.id = (launchOf s info.id).map
        (fun l => { l with aborted := true, faulted := true, next := l.blocks, returned := [], places := [] }) ∧ t.dram = s.dram
    ((∃ n, (laneAt s i n).exited = false ∧ n ∉ i.lanes ∧
        ((laneAt s i n).wait = .bar ∨ ((laneAt s i n).wait = .slab ∧ (laneAt s i n).pc ≠ i.pc))) →
      ∀ c ∈ [Instr.slabMma p f, .slabMmas p f, .slabSq16 p f, .slabSq32 p f, .slabZero p f, .slabSt p g], ended c) ∧
    ((∀ n, (laneAt s i n).exited = true ∨ n ∈ i.lanes) → (issueGrp s i).held = [] →
      (∀ x ∈ [(Instr.slabMma p f, 0x60), (.slabMmas p f, 0x61), (.slabSq16 p f, 0x62), (.slabSq32 p f, 0x63), (.slabZero p f, 0x64)],
        legalS x.2 f = false → ended x.1) ∧
      (legalT g = false → ended (.slabSt p g)))

/-- R50, R51, R53, R64, R67 and R72: a free lease goes to the head of the queue, which clears the accumulator sets; a waiting SLAB
instruction enters its slab's queue when there is room; a product starts with its operand bytes of local store, and when its k-steps are over each cell
of its set holds its product, SLAB.ZERO's set zeros, and the entry leaves. -/
def Claims.SlabProducts : Prop :=
  ∀ (s : State) (c : CoreId) (sl : SlabId) (env : MemEnv), Sound s →
    let k := coreOf s c.val
    let u := slabOf k sl.val
    let with_ (v : Slab) : Core := { k with slabs := listSet k.slabs sl.val v }
    (∀ b rest, k.lease = none → k.leaseQueue = b :: rest → ∃ t, Goes (.slabLeaseGrant c) s t ∧
      OnlyCore s t c.val { k with lease := some b, leaseQueue := rest.filter (· != b), grantCount := sat k.grantCount 1
                                  slabs := k.slabs.map (fun x => { x with acc := [] }) }) ∧
    (∀ b slot h form, heldOps k = [(b, slot, h)] → (grpOf (subOf k b) slot).held = [h] → h.op = .slab sl form → k.lease = some (grpOf (subOf k b) slot).blk →
      u.queue.length < 8 → ∃ t, Goes (.slabQueueEnter c sl) s t ∧ t = { s with cores := t.cores } ∧
        (∀ x, x ≠ c.val → coreOf t x = coreOf s x) ∧
        (∃ e, e.form = form ∧ e.phase = .queued ∧ e.pc = h.pc ∧ e.seq = k.slabSeq ∧
          coreOf t c.val = { with_ { u with queue := u.queue ++ [e] } with slabSeq := k.slabSeq + 1, subs := (coreOf t c.val).subs }) ∧
        heldOps (coreOf t c.val) = [] ∧
        ∀ n, n < 32 → h.lanes.getLsbD n = true → n < (grpOf (subOf k b) slot).lanes.length →
          (laneOf (grpOf (subOf (coreOf t c.val) b) slot) n).pc = (laneOf (grpOf (subOf k b) slot) n).pc + 8 ∧
          (laneOf (grpOf (subOf (coreOf t c.val) b) slot) n).wait = .ready) ∧
    (∀ e, u.queue.find? (fun x => !(isStore x.form) && entryQueued x) = some e → (∀ x ∈ u.queue, entryBusy x = false) →
      (∀ v ∈ k.slabs, ∀ y ∈ v.queue, isStore y.form = true → e.seq ≤ y.seq) → env.sramFixed = 0 → env.sramBad = false →
      let starts (left : Nat) (d : SlabData) : Prop := ∃ t, Goes (.slabComputeStart c sl env) s t ∧ OnlyCore s t c.val
        (with_ { u with queue := u.queue.map (fun x => if x.seq == e.seq then { x with phase := .running left d } else x) })
      let blk := blockOf k e.blk.val
      (∀ q, e.form = .product q → starts q.depth
        { a := lsRead blk q.baseA (lenA q), b := lsRead blk q.baseB (lenB q), sa := lsRead blk q.baseSa (lenSa q)
          sb := lsRead blk q.baseSb (lenSb q), md := lsRead blk q.baseMeta (lenMeta q) }) ∧
      (∀ a, e.form = .zero a → starts 0 ⟨[], [], [], [], []⟩)) ∧
    (∀ e rest d, u.queue = e :: rest → (∀ x ∈ rest, e.seq < x.seq) → e.phase = .running 0 d →
      let ends (set m0 rows cols : Nat) (val : Nat → Nat → W32 → W32) : Prop := ∃ t, Goes (.slabComputeComplete c sl) s t ∧
        ∃ v, OnlyCore s t c.val (with_ v) ∧ v = { u with queue := rest, acc := v.acc } ∧
          ∀ a m n, a < 4 → m < 256 → n < 32 → accGet v a m n =
            if a = set ∧ m0 ≤ m ∧ m < m0 + rows ∧ n < cols then val (m - m0) n (accGet u a m n) else accGet u a m n
      (∀ q, e.form = .product q → q.square = none → ends q.set.val 0 256 32 (fun m n old => cell q d old m n)) ∧
      (∀ q x, e.form = .product q → q.square = some x → x.1 ≤ 32 → x.2 < 8 →
        ends q.set.val (32 * x.2) x.1 x.1 (fun m n old => cell q d old m n)) ∧
      (∀ a, e.form = .zero a → ends a.val 0 256 32 (fun _ _ _ => 0)))

/-- R64 and Table 02-2: a cell of a dense INT8 product is its old value, or 0 under Z, plus the sum of the products of the elements of its row
of A and its column of B, modulo 2^32. -/
def Claims.IntegerProducts : Prop :=
  ∀ (q : ProductForm) (d : SlabData) (old : W32) (m n : Nat), q.fa = 4 → q.fb = 4 → q.sparse = false → q.square = none → m < 256 → n < 32 →
    cell q d old m n = (List.range q.depth).foldl (fun acc j =>
        acc + ((d.a.getD (256 * j + m) 0).signExtend 32 * (d.b.getD (32 * j + n) 0).signExtend 32))
      (if q.zero then 0 else old)

/-- R69 to R71 and R52: SLAB.ST reads its rows, in the format it names, once it is at the head of its queue, and with CLR clears them; its
completion writes them to local store, and with REL gives the lease back where the block has no other SLAB instruction. -/
def Claims.SlabStores : Prop :=
  ∀ (s : State) (c : CoreId) (sl : SlabId) (e : SlabEntry) (rest : List SlabEntry) (f : StoreForm), Sound s →
    let k := coreOf s c.val
    let u := slabOf k sl.val
    let row0 := (storeRows f).1
    let rows := (storeRows f).2
    let n := etypeBits (storeType f.ofmt) / 8
    let last : Prop := f.rel = true ∧ k.lease = some e.blk ∧ (∀ y ∈ rest, y.blk ≠ e.blk) ∧
      (∀ j, j ≠ sl.val → ∀ y ∈ (slabOf k j).queue, y.blk ≠ e.blk)
    u.queue = e :: rest → (∀ x ∈ rest, e.seq < x.seq) → e.form = .store f → f.rows ≤ 8 → f.ofmt ≤ 5 →
    (e.phase = .queued → ∃ t v bytes, Goes (.slabStReadStart c sl) s t ∧ t = { s with cores := t.cores, free := t.free } ∧
      (∀ x, coreOf t x = if x = c.val then { k with slabs := listSet k.slabs sl.val v } else coreOf s x) ∧
      v = { u with acc := v.acc, queue := { e with phase := .storing bytes } :: rest } ∧
      bytes.length = storeLen f ∧
      (f.ofmt = 5 → ∀ r j, r < rows → j < 32 →
        (bytes.drop (4 * (32 * r + j))).take 4 = leBytes 4 (accGet u f.set.val (row0 + r) j).toNat) ∧
      (f.ofmt ≠ 5 → f.sr = false → ∀ r j, r < rows → j < 32 →
        let acc := accGet u f.set.val (row0 + r) j
        let x := val32 (if f.itype then round32 (intVal acc.toInt) else acc)
        (bytes.drop (n * (32 * r + j))).take n =
          leBytes n (convert .fp32 (storeType f.ofmt) .rn f.sat (round32 (mulF (val32 (f.scale.getD 0x3F800000#32)) x)).toNat)) ∧
      ∀ a m j, a < 4 → m < 256 → j < 32 → accGet v a m j =
        if f.clr = true ∧ a = f.set.val ∧ row0 ≤ m ∧ m < row0 + rows then 0 else accGet u a m j) ∧
    (∀ bytes, e.phase = .storing bytes → heldOps k = [] →
      (∀ b j l, (laneOf (grpOf (subOf k b) j) l).exited = true ∨ (laneOf (grpOf (subOf k b) j) l).wait ≠ .bar) →
      ∃ t, Goes (.slabStComplete c sl) s t ∧ t = { s with cores := t.cores } ∧ (∀ x, x ≠ c.val → coreOf t x = coreOf s x) ∧
        (∀ a, tblGet 0 (blockOf (coreOf t c.val) e.blk.val).ls a =
          if f.dst ≤ a ∧ a < f.dst + bytes.length then bytes.getD (a - f.dst) 0 else tblGet 0 (blockOf k e.blk.val).ls a) ∧
        (∀ b, b ≠ e.blk.val → blockOf (coreOf t c.val) b = blockOf k b) ∧
        (∀ b j, grpOf (subOf (coreOf t c.val) b) j = grpOf (subOf k b) j) ∧
        ∃ lease, coreOf t c.val = { k with
            slabs := listSet k.slabs sl.val { u with queue := rest }, lease, blocks := (coreOf t c.val).blocks
            subs := (coreOf t c.val).subs } ∧
          (last → lease = none) ∧ (¬ last → lease = k.lease))

/-- R74: in an A-cycle with work a slab's rate is level eighths of the full rate, at most what the SLAB cap allows, and each full D-unit takes one k-step
of every running product; after 16 idle cycles the level falls by one every eighth of the ramp. A product whose last k-step has read
its operands returns its credit (R66). -/
def Claims.ActivityRamp : Prop :=
  ∀ (s : State) (c : CoreId) (sl : SlabId), Sound s →
    let k := coreOf s c.val
    let u := slabOf k sl.val
    let eighth := u.rampLen / 8
    let next (v : Slab) : Prop := ∃ t, Goes (.activityRamp c sl) s t ∧ t = { s with cores := t.cores, sags := t.sags } ∧
      (∀ x, coreOf t x = if x = c.val then { k with slabs := listSet k.slabs sl.val v } else coreOf s x) ∧
      (∀ g, sagOf t g = { sagOf s g with perfTrue := (sagOf t g).perfTrue })
    let total := u.progress + min (5 * u.level) (2 * s.pwr.caps.slab)
    let level := if u.level < 8 ∧ (u.j + 1) % eighth = 0 then u.level + 1 else u.level
    let plain : Prop := ∀ e ∈ u.queue, ∀ q, e.form = .product q → q.credit = none
    (∀ e d q x, u.queue = [e] → e.phase = .running 1 d → e.form = .product q → q.credit = some x → u.wasWorking = true → 40 ≤ total →
      let v : Slab := { u with j := u.j + 1, idle := 0, progress := total - 40, level, queue := [{ e with phase := .running 0 d }] }
      ∃ t, Goes (.activityRamp c sl) s t ∧ ∀ n, coreOf t n =
        coreOf (postStream (setCore s c.val { k with slabs := listSet k.slabs sl.val v }) c.val x.1.val (ctxNo e.blk x.2)) n) ∧
    (plain → u.wasWorking = true → (∃ e ∈ u.queue, entryWorking e = true) → total < 40 →
      next { u with j := u.j + 1, idle := 0, progress := total, level }) ∧
    (plain → u.wasWorking = true → (∃ e ∈ u.queue, entryWorking e = true) → 40 ≤ total →
      next { u with j := u.j + 1, idle := 0, progress := total - 40, level, queue := u.queue.map (fun e => match e.phase with
        | .running (m + 1) d => { e with phase := .running m d }
        | _ => e) }) ∧
    (u.wasWorking = false → (∀ e ∈ u.queue, entryWorking e = false) →
      next { u with idle := u.idle + 1, level :=
        if 16 ≤ u.idle + 1 ∧ 0 < u.level ∧ (u.idle + 1 - 16) % eighth = 0 then u.level - 1 else u.level })

/-- R214, R234, R239 and R243: a subset whose code address lies at or beyond CODE_LENGTH faults with ADDRESS, one at a word whose major opcode is reserved with ILLEGAL_INSTRUCTION; an instruction that the cluster's cache does not hold is fetched, from the home copy of its line or from
the host, enters the cache, and issues as if it had stood there; a fetch that fails faults with UNCORRECTABLE_DATA. Here the instruction is of the general form, and short. -/
def Claims.CodeFetch : Prop :=
  ∀ (s : State) (p : Place) (f : FmtG) (i : Issue) (l : Nat) (x : NearLine) (w : W64), pickIssue (coreOf s p.core.val) p.core.val p.sub.val = some i →
    let info := issueInfo s i
    let pc := i.pc.toNat
    let a := codeAddr info pc
    let n := a / 64
    let e := p.fetch
    let line (bs : List Byte) : CodeLine := { sag := info.sag, line := n, data := bs }
    let wordIn (bs : List Byte) : Prop := w = BitVec.ofNat 64 (leNat ((bs.drop (a % 64)).take 8))
    let known (b : Bool) : Prop := opcKnown (w.toNat / 2 ^ 56) = b ∧ longWord w = false
    let faults (c : Instr) (z : TFault) : Prop :=
      Goes c s (settle (threadFaults (counted s i) info (i.lanes.map (fun k => (z, lanePlace s i k, 0)))) i.core)
    let asHeld (c : Instr) (t1 : State) (bs : List Byte) : Prop :=
      codeLine t1 (i.core / 16) info.sag n = some (line bs) ∧ fetchOk t1 i = true ∧ ∃ t, Goes c s t ∧ Goes c t1 t
    ∀ c ∈ ([.nop p f, .iadd p f, .imad p f, .fadd p f, .isetp p f, .cvt p f, .mov p f, .voteAll p f] : List Instr),
      (info.codeLen ≤ pc → faults c .address) ∧
      (pc < info.codeLen → e.env.tagBad = none →
        (∀ y, codeLine s (i.core / 16) info.sag n = some y → wordIn y.data → known false → faults c .illegal) ∧
        (codeLine s (i.core / 16) info.sag n = none →
          (isHostAddr (n * 64) = true →
            (e.host.fail = true → faults c .uncorrectable) ∧
            (e.host.fail = false → wordIn (e.host.bytes.take 64) → known true → ∃ t1, t1 = { s with icaches := t1.icaches } ∧
              asHeld c t1 (e.host.bytes.take 64))) ∧
          (isHostAddr (n * 64) = false → e.env = noErr → mapLine s info.sag.val (n * 64) = some l → StandsHome s (i.core / 64) l x →
            wordIn ((x.data.drop (n * 64 % 128)).take 64) → known true → ∃ t1, t1 = { s with icaches := t1.icaches, dies := t1.dies } ∧
              (∀ y, homeCopy t1 y = if y = l then some { x with age := 0 } else homeCopy s y) ∧
              asHeld c t1 ((x.data.drop (n * 64 % 128)).take 64))))

-- The access engines, the store buffers and the L1

/-- R123 to R125 and R231: TOK.WAIT takes a buffer where the group-side count allows, ends with 0 in C when the walk is over, and else blocks;
TOK.POST counts a token or a credit, or an excess post; TOK.POST with ARM starts the walk that a legal descriptor in local store describes,
and with STOP stops a stream. Here no SLAB.ST of the group is pending. -/
def Claims.Tokens : Prop :=
  ∀ (s : State) (p : Place) (f : FmtG) (i : Issue), Issues s p i → Sound s →
    let ls := guardedLanes s i f.pg f.pn
    let grp := issueGrp s i
    let info := issueInfo s i
    let k := coreOf s i.core
    let e := tokEng f
    let ctx := ctxNo grp.blk (tokStr f)
    let n := engineOf k e.val
    let x := streamOf n ctx
    let put (y : Stream) : Core := { k with engines := listSet k.engines e.val (setStream n ctx y) }
    let post (kind : Nat) : GForm := { d := .unused, a := if kind = 1 then .uniform 1 else .unused, mods := 0x3F, long := false }
    let goes (c : Instr) (k' : Core) : Prop := ∃ t, Goes c s t ∧ CoreKept s t i k' ∧ IssueFrame s t i ∧
      issueGrp t i = { grp with lanes := (issueGrp t i).lanes } ∧
      ∀ m, laneAt t i m = { goesOn i m (laneAt s i m) with waited := (laneAt t i m).waited, starving := (laneAt t i m).starving }
    ls ≠ [] → slabStoreHolds s i.core i.sub i.slot = false → (∀ m ∈ i.lanes, m < 32) → (∀ h ∈ grp.held, h.lanes ≠ laneMask ls) →
    (GLegal tokWaitForm f false true s i → streamHeld x = true → x.waiters = [] →
      (∀ ud pc, opdOf f.d = .u ud → opdOf f.c = .p pc → x.taken < walkSlots x.walk → 0 < x.groupCount →
        ∃ t, Goes (.tokWait p f) s t ∧ CoreKept s t i (put { x with groupCount := x.groupCount - 1, taken := x.taken + 1 }) ∧
          IssueFrame s t i ∧ issueGrp t i = { grp with
            lanes := (issueGrp t i).lanes, u := (issueGrp t i).u, uOwner := (freeU grp ud 1).uOwner } ∧
          (∀ m, uReg (issueGrp t i) m =
            if m = ud then BitVec.ofNat 32 ((x.walk.slotBase + x.taken % x.walk.slots * x.walk.slotStride) / 128) else uReg grp m) ∧
          ∀ m, laneAt t i m = { (if m ∈ ls then setP (goesOn i m (laneAt s i m)) pc true else goesOn i m (laneAt s i m)) with
            waited := (laneAt t i m).waited, starving := (laneAt t i m).starving }) ∧
      (∀ pc, opdOf f.c = .p pc → walkSlots x.walk ≤ x.taken →
        ∃ t, Goes (.tokWait p f) s t ∧ CoreKept s t i (put x) ∧ IssueFrame s t i ∧
          issueGrp t i = { grp with lanes := (issueGrp t i).lanes, uOwner := grp.uOwner.filter (fun y => y.2 != laneMask ls) } ∧
          ∀ m, laneAt t i m = { (if m ∈ ls then setP (goesOn i m (laneAt s i m)) pc false else goesOn i m (laneAt s i m)) with
            waited := (laneAt t i m).waited, starving := (laneAt t i m).starving }) ∧
      (x.taken < walkSlots x.walk → x.groupCount = 0 →
        ∃ t, Goes (.tokWait p f) s t ∧
          CoreKept s t i (put { x with waiters :=
            [(BitVec.toFin (BitVec.ofNat 2 i.sub), BitVec.toFin (BitVec.ofNat 4 i.slot), laneMask ls)] }) ∧
          IssueFrame s t i ∧ issueGrp t i = { grp with
            lanes := (issueGrp t i).lanes
            held := grp.held ++ [{ lanes := laneMask ls, guarded := laneMask ls, pc := i.pc, op := .tokWait e (tokStr f) f.d f.c }]
            uOwner := (ownU grp (laneMask ls) (opdOf f.d) 1).uOwner } ∧
          ∀ m, laneAt t i m = { holds i ls .tok m (laneAt s i m) with
            waited := (laneAt t i m).waited, starving := (laneAt t i m).starving })) ∧
    (GLegal (post 0) f false (bitsOf f.mod.toNat 4 2 == 0) s i → streamHeld x = true →
      (x.posted < x.taken → goes (.tokPost p f) (put { x with engineCount := x.engineCount + 1, posted := x.posted + 1 })) ∧
      (x.taken ≤ x.posted → goes (.tokPost p f)
        { k with engines := listSet k.engines e.val { n with excess := sat n.excess 1 } })) ∧
    (GLegal (post 2) f false (bitsOf f.mod.toNat 4 2 == 2) s i → streamHeld x = true →
      let spans : List Span := if x.walk.store then n.spans else n.spans.filter (fun z => z.ctx != ctx)
      let m : AEngine := setStream n ctx { x with stopping := true }
      goes (.tokPostStop p f) { k with engines := listSet k.engines e.val { m with spans } }) ∧
    (∀ ua, GLegal (post 1) f false (bitsOf f.mod.toNat 4 2 == 1) s i → opdOf f.a = .u ua →
      let a := (uReg grp ua).toNat * 128
      let ws := wordsOf 8 (lsRead (issueBlock s i) a 64)
      let w := walkOf ws
      a + 64 ≤ info.lsBytes → (x.st = .idle ∨ x.st = .done) → x.stopping = false → walkFieldsOk ws = true → walkFits w info.lsBytes = true →
      goes (.tokPostArm p f noErr) (put
        { st := .running, walk := w, blk := grp.blk, sub := BitVec.toFin (BitVec.ofNat 2 i.sub)
          grp := BitVec.toFin (BitVec.ofNat 4 i.slot), lane := BitVec.toFin (BitVec.ofNat 5 (ls.headD 0)), pc := i.pc
          groupCount := if w.store then w.slots else 0, engineCount := if w.store then 0 else w.slots
          before := if w.store then 0 else entriesBefore (subOf k i.sub).buffer info.id i.slot
          owed := if w.store then 0 else owedLanes grp, gen := x.gen + 1 }))

/-- R119 and Table 04-4: the walk that a descriptor describes, word by word. -/
def Claims.WalkFields : Prop :=
  ∀ (ws : List W64),
    let w := walkOf ws
    let part (n lo len : Nat) : Nat := (ws.getD n 0).toNat / 2 ^ lo % 2 ^ len
    w.base = part 0 0 48 ∧ w.store = (part 0 48 1 == 1) ∧ w.hint = part 0 49 2 ∧ w.ndim = part 0 51 3 + 1 ∧ w.tdim = part 0 54 3 ∧
    w.run = 16 * (part 1 0 12 + 1) ∧ w.slots = part 1 16 8 + 1 ∧ w.slotBase = 128 * part 1 32 15 ∧ w.slotStride = 128 * part 1 48 15 ∧
    (∀ d, d < 5 → w.counts.getD d 1 = part (d + 2) 40 16 + 1 ∧
      w.strides.getD d 0 = if part (d + 2) 39 1 = 1 then Int.ofNat (part (d + 2) 0 40) - 2 ^ 40 else Int.ofNat (part (d + 2) 0 40)) ∧
    w.pitch = if part 7 0 16 = 0 then w.run else 16 * part 7 0 16

/-- R232 and R359: CONE.WAIT on an assigned counter of the own partition goes on, past an ordering point, where the counter has reached the
threshold (modulo 2^48), and else blocks; R165 and R233: NM.ISSUE of a legal descriptor sends the operation with a share for each stack that
holds a channel of the partition and goes on, or blocks while the core holds 16. -/
def Obligations.ConeAndNearMemory : Prop :=
  ∀ (s : State) (p : Place) (f : FmtG) (i : Issue), Issues s p i →
    let ls := guardedLanes s i f.pg f.pn
    let grp := issueGrp s i
    let info := issueInfo s i
    let n := uValue grp f.a 1
    let desc := uValue grp f.a 1 * 128
    let dword := uValue grp f.b 1 * 8
    let thr : BitVec 48 := BitVec.ofNat 48 (uValue grp f.b 2)
    let k := coneOf s n
    let ws := wordsOf 8 (lsRead (issueBlock s i) desc 64)
    ls ≠ [] → (∀ m ∈ i.lanes, m < 32) → (∀ h ∈ grp.held, h.lanes ≠ laneMask ls) →
    (GLegal coneForm f false true s i → n < 4096 → k.assigned = true → k.partition = info.sag →
      ((k.value - thr).toNat < 2 ^ 47 → ∃ t, Goes (.coneWait p f) s t ∧ t.now = s.now + 1 ∧ IssueFrame { s with now := s.now + 1 } t i ∧
        CoreKept s t i (coreOf s i.core) ∧ issueGrp t i = { grp with lanes := (issueGrp t i).lanes } ∧
        ∀ m, laneAt t i m = { goesOn i m (laneAt s i m) with
          ordPt := if m ∈ ls then s.now + 1 else (laneAt s i m).ordPt
          waited := (laneAt t i m).waited, starving := (laneAt t i m).starving }) ∧
      (2 ^ 47 ≤ (k.value - thr).toNat → ∃ t, Goes (.coneWait p f) s t ∧ GroupDone s t i (holds i ls .cone) grp.u
        (grp.held ++ [{ lanes := laneMask ls, guarded := laneMask ls, pc := i.pc, op := .cone n thr }]))) ∧
    (GLegal nmForm f false true s i → desc + 64 ≤ info.lsBytes → dword + 8 ≤ info.lsBytes →
      (16 ≤ nmHeld s i.core → ∃ t, Goes (.nmIssue p f) s t ∧ GroupDone s t i (holds i ls .nm) grp.u
        (grp.held ++ [{ lanes := laneMask ls, guarded := laneMask ls, pc := i.pc, op := .nm desc dword }])) ∧
      (nmHeld s i.core < 16 → nmCheck s info.sag.val ws true info.lsBytes = 0 → ∃ t op, Goes (.nmIssue p f) s t ∧
        t.nmOps = s.nmOps ++ [op] ∧ op.id = s.fe.nextId ∧ op.sag = info.sag ∧ op.ctx = info.ctx ∧ op.words = ws ∧ op.status = 0 ∧
        op.issuer = .block (BitVec.toFin (BitVec.ofNat 8 i.core)) grp.blk info (issueBlock s i).lin i.pc (grp.idx * 32 + ls.headD 0) dword ∧
        (nmEmpty ws = true → op.shares = []) ∧
        (nmEmpty ws = false → ∀ st : StackId, (∃ sh ∈ op.shares, sh.stack = st) ↔
          ∃ q ∈ ownedChannels (sagOf s info.sag.val), q / 16 = st.val) ∧
        t.fe = { s.fe with nextId := s.fe.nextId + 1 } ∧ IssueFrame { s with nmOps := t.nmOps, fe := t.fe } t i ∧
        CoreKept s t i (coreOf s i.core) ∧ issueGrp t i = { grp with lanes := (issueGrp t i).lanes } ∧
        ∀ m, laneAt t i m = { goesOn i m (laneAt s i m) with waited := (laneAt t i m).waited, starving := (laneAt t i m).starving }))

-- Events of the L1, the access engines, the store buffers and the atomics

/-- R112 to R116 and R276: a line that a core has asked for, and that stands as a home copy on the core's die, fills the L1 at the age its hint gives, and
its tracker is free again. Here no operation is held on the core. -/
def Claims.L1Fill : Prop :=
  ∀ (s : State) (c : CoreId) (n l : Nat) (env : MemEnv) (m : Miss) (x : NearLine) (g : SagId),
    let k := coreOf s c.val
    k.misses[n]? = some m → k.partition = some g → mapLine s g.val (m.line * 128) = some l → StandsHome s (c.val / 64) l x →
    cleanEnv env → heldOps k = [] →
    ∃ t, Goes (.l1Fill c n env) s t ∧ t = { s with cores := t.cores, dies := t.dies, now := s.now + 1 } ∧
      (∀ y, y ≠ c.val → coreOf t y = coreOf s y) ∧
      coreOf t c.val = { k with
        l1 := (coreOf t c.val).l1, misses := k.misses.filter (fun y => y.line != m.line), subs := (coreOf t c.val).subs } ∧
      (∀ b j, grpOf (subOf (coreOf t c.val) b) j = grpOf (subOf k b) j) ∧
      (m.hint ≠ 2 → l1Line (coreOf t c.val) m.line =
        some { addr := m.line, data := x.data, age := if m.hint = 1 then 3 else 1, stamp := s.now + 1 }) ∧
      (m.hint = 2 → (coreOf t c.val).l1 = k.l1) ∧
      homeCopy t l = some { x with age := 0 } ∧ ∀ y, y ≠ l → homeCopy t y = homeCopy s y

/-- R122, R126 and R128: an access engine issues the next span of the stream whose turn it is: it begins the next slot of the walk where none
is in progress, and the span ends at its run and at the next 2 KiB boundary. Here the span lies in device memory. -/
def Claims.SpanIssue : Prop :=
  ∀ (s : State) (c : CoreId) (e : EngId) (env : MemEnv) (ctx : Nat),
    let k := coreOf s c.val
    let n := engineOf k e.val
    let x0 := streamOf n ctx
    let w := x0.walk
    let info := (blockOf k x0.blk.val).info
    let issues (x : Stream) : Prop :=
      let a := lowBits 64 (walkGlobal w (x.started - 1) x.issued)
      let len := min (w.run - x.issued % w.run) (2048 - a % 2048)
      let sp : Span := { ctx, slot := x.started - 1, gaddr := a, vaddr := a, laddr := walkLocal w (x.started - 1) x.issued, len, id := n.seq }
      let m : AEngine := setStream n ctx { x with issued := x.issued + len }
      a < apertureBase → accessFault s info a len w.store = none →
      ∃ t, Goes (.aeSpanIssue c e env) s t ∧ OnlyCore s t c.val
        { k with engines := listSet k.engines e.val { m with spans := n.spans ++ [sp], last := ctx, seq := n.seq + 1 } }
    n.spans.length < 96 → spanCount k < 384 → k.misses.length + spanCount k < 512 → pickStream n = some ctx →
    (0 < x0.started → x0.issued < slotBytes w → issues x0) ∧
    ((x0.started = 0 ∨ slotBytes w ≤ x0.issued) →
      issues { x0 with started := x0.started + 1, issued := 0, engineCount := x0.engineCount - 1 })

/-- R114, R126, R127 and R231: a LOAD span of bytes of one line that stands as a home copy on the core's die brings them to local store; the span leaves
its engine, and a slot whose last byte has come gives the group its buffer. Here nobody waits on the stream. -/
def Claims.SpanComplete : Prop :=
  ∀ (s : State) (c : CoreId) (e : EngId) (n l : Nat) (env : MemEnv) (sp : Span) (y : NearLine), Sound s →
    let k := coreOf s c.val
    let m := engineOf k e.val
    let x := streamOf m sp.ctx
    let blk := blockOf k x.blk.val
    let moved := tblSet 0 x.moved sp.slot (tblGet 0 x.moved sp.slot + sp.len)
    let o := sp.gaddr % 128
    let ends (v : Stream) : Prop := ∃ t, Goes (.aeSpanComplete c e n env) s t ∧
      (∀ j, j ≠ c.val → coreOf t j = coreOf s j) ∧ t.dram = s.dram ∧
      streamOf (engineOf (coreOf t c.val) e.val) sp.ctx = v ∧
      (∀ q, q ≠ sp.ctx → streamOf (engineOf (coreOf t c.val) e.val) q = streamOf m q) ∧
      (∀ j, j ≠ e.val → engineOf (coreOf t c.val) j = engineOf k j) ∧
      (engineOf (coreOf t c.val) e.val).spans = m.spans.filter (fun z => z.id != sp.id) ∧
      (∀ a, tblGet 0 (blockOf (coreOf t c.val) x.blk.val).ls a = if sp.laddr ≤ a ∧ a < sp.laddr + sp.len then
        y.data.getD (o + (a - sp.laddr)) 0 else tblGet 0 blk.ls a) ∧
      (∀ b, b ≠ x.blk.val → blockOf (coreOf t c.val) b = blockOf k b) ∧
      ∀ b j, grpOf (subOf (coreOf t c.val) b) j = grpOf (subOf k b) j
    m.spans[n]? = some sp → (∀ z ∈ m.spans.take n, z.gaddr + z.len ≤ sp.gaddr ∨ sp.gaddr + sp.len ≤ z.gaddr) →
    x.walk.store = false → sp.gaddr < hostBase → 0 < sp.len → o + sp.len ≤ 128 → y.data.length = 128 →
    mapLine s blk.info.sag.val (sp.gaddr / 128 * 128) = some l → StandsHome s (c.val / 64) l y → cleanEnv env → x.waiters = [] →
    (tblGet 0 moved x.ended ≠ slotBytes x.walk → ends { x with moved }) ∧
    (tblGet 0 moved x.ended = slotBytes x.walk → x.ended < x.started → tblGet 0 moved (x.ended + 1) ≠ slotBytes x.walk →
      ends { x with moved := tblDel moved x.ended, ended := x.ended + 1, groupCount := x.groupCount + 1
                    st := if x.ended + 1 = walkSlots x.walk then .done else x.st })

/-- R125: a stopped stream without a span in flight becomes IDLE. Here nobody waits on it. -/
def Claims.StreamStop : Prop :=
  ∀ (s : State) (c : CoreId) (e : EngId) (q : Fin 64),
    let k := coreOf s c.val
    let m := engineOf k e.val
    let x := streamOf m q.val
    x.stopping = true → (∀ z ∈ m.spans, z.ctx ≠ q.val) → x.waiters = [] →
    ∃ t, Goes (.streamStopComplete c e q) s t ∧ t = { s with cores := t.cores } ∧ (∀ j, j ≠ c.val → coreOf t j = coreOf s j) ∧
      coreOf t c.val = { k with
        engines := listSet k.engines e.val (setStream m q.val { gen := x.gen }), subs := (coreOf t c.val).subs } ∧
      ∀ b j, grpOf (subOf (coreOf t c.val) b) j = grpOf (subOf k b) j

/-- R269 to R271 and R481: the pieces of a waiting store take the entries that are free, and the store completes when every piece has one; the oldest entry
drains into its line, here one that stands as a home copy on the core's die, which it leaves modified, and other lines stay. -/
def Obligations.StoreBuffers : Prop :=
  ∀ (s : State) (p : Place) (env : MemEnv), Sound s →
    let c := p.core.val
    let k := coreOf s c
    let u := subOf k p.sub.val
    (∀ slot h hint pieces, heldOps k = [(p.sub.val, slot, h)] → (grpOf u slot).held = [h] → h.op = .storeG hint pieces →
      let g := grpOf u slot
      let blk := blockOf k g.blk.val
      let mark (r : LaneReq) : StoreMark := { launch := blk.info.id, pc := h.pc, blk := blk.lin, thread := g.idx * 32 + r.lane.val }
      let r := bufferPieces blk.info.sag hint mark (BitVec.toFin (BitVec.ofNat 4 slot)) pieces u.buffer
      ∃ t, Goes (.storeBufferAllocate p) s t ∧ t = { s with cores := t.cores } ∧ (∀ j, j ≠ c → coreOf t j = coreOf s j) ∧
        coreOf t c = { k with subs := (coreOf t c).subs, engines := (coreOf t c).engines } ∧
        (coreOf t c).engines = (if r.2.length < pieces.length then
          storesTaken { coreOf t c with engines := k.engines } p.sub.val slot h.lanes r.2.isEmpty else k).engines ∧
        (subOf (coreOf t c) p.sub.val).buffer = r.1 ∧
        (r.2 = [] → (grpOf (subOf (coreOf t c) p.sub.val) slot).held = [] ∧ ∀ n, n < 32 → h.lanes.getLsbD n = true →
          n < g.lanes.length → laneOf (grpOf (subOf (coreOf t c) p.sub.val) slot) n =
            { laneOf g n with wait := .ready, pc := (laneOf g n).pc + 8 }) ∧
        (r.2 ≠ [] → (grpOf (subOf (coreOf t c) p.sub.val) slot).held = [{ h with op := .storeG hint r.2 }] ∧
          (grpOf (subOf (coreOf t c) p.sub.val) slot).lanes = g.lanes)) ∧
    (∀ e rest l x, u.buffer = e :: rest → e.line * 128 < hostBase → mapLine s e.sag.val (e.line * 128) = some l →
      StandsHome s (c / 64) l x → cleanEnv env → heldOps k = [] →
      (∀ b j n, (laneOf (grpOf (subOf k b) j) n).exited = true ∨ (laneOf (grpOf (subOf k b) j) n).wait ≠ .bar) →
      ∃ t, Goes (.storeBufferDrain p env) s t ∧ (subOf (coreOf t c) p.sub.val).buffer = rest ∧
        homeCopy t l = some { x with st := .hd, age := if e.hint = 2 then x.age else 0, data := mergeLine x.data (e.bytes.map (fun b => (b.1, b.2.v))) } ∧
        (∀ y, y ≠ l → homeCopy t y = homeCopy s y) ∧ t.dram = s.dram ∧ t.fabric = s.fabric ∧
        (∀ y, l1Line k e.line = some y → l1Line (coreOf t c) e.line =
          some { y with data := mergeLine y.data (e.bytes.map (fun b => (b.1, b.2.v))) }) ∧
        (∀ y, y ≠ e.line → l1Line (coreOf t c) y = l1Line k y) ∧
        ∀ b j n, { laneOf (grpOf (subOf (coreOf t c) b) j) n with rsv := none } = { laneOf (grpOf (subOf k b) j) n with rsv := none })

/-- R226 and R276: a thread at a fence goes on when its stores have left the store buffer and, but for FENCE.BLOCK, the slots that its block had posted are
visible; FENCE.DEVICE and FENCE.SYS are ordering points. -/
def Obligations.FenceComplete : Prop :=
  ∀ (s : State) (p : Place) (g : SlotId) (l : LaneId) (h : HeldOp) (need : List (EngId × Fin 4 × Nat × Nat)), Sound s →
    let c := p.core.val
    let b := p.sub.val
    let grp := grpOf (subOf (coreOf s c) b) g.val
    let w := (laneOf grp l.val).wait
    grp.held = [h] → h.op = .fence need → h.lanes.getLsbD l.val = true → l.val < grp.lanes.length →
    (w = .fenceBlock ∨ w = .fenceDevice ∨ w = .fenceSys) →
    (∀ e ∈ (subOf (coreOf s c) b).buffer, ∀ x ∈ e.writers, ¬ (x.2.1 = g ∧ x.2.2 = l)) →
    (w ≠ .fenceBlock → ∀ n ∈ need, slotVisible (coreOf s c) grp.blk n = true) → (w = .fenceSys → s.dl.tags = []) →
    ∃ t, Goes (.fenceComplete p g l) s t ∧
      t = { s with cores := t.cores, now := if w = .fenceBlock then s.now else s.now + 1 } ∧ (∀ j, j ≠ c → coreOf t j = coreOf s j) ∧
      coreOf t c = { coreOf s c with subs := (coreOf t c).subs } ∧
      (∀ n, laneOf (grpOf (subOf (coreOf t c) b) g.val) n = if n = l.val then
        { laneOf grp n with
          pc := (laneOf grp n).pc + 8, wait := .ready, ordPt := if w = .fenceBlock then (laneOf grp n).ordPt else s.now + 1 }
        else laneOf grp n) ∧
      (h.lanes = BitVec.ofNat 32 (2 ^ l.val) → (grpOf (subOf (coreOf t c) b) g.val).held = []) ∧
      ∀ b' j, ¬ (b' = b ∧ j = g.val) → grpOf (subOf (coreOf t c) b') j = grpOf (subOf (coreOf s c) b') j

/-- Table 08-8: the value that each atomic operation leaves in its word. -/
def Claims.AtomicValues : Prop :=
  ∀ (a b c : W32) (x y z : W64),
    let w (op : AtomOp) : Nat := atomNew op false a.toNat b.toNat c.toNat
    let d (op : AtomOp) : Nat := atomNew op true x.toNat y.toNat z.toNat
    w .add = (a + b).toNat ∧ d .add = (x + y).toNat ∧ w .fadd = (round32 (addF (val32 a) (val32 b))).toNat ∧
    w .smin = (if b.slt a then b else a).toNat ∧ d .smin = (if y.slt x then y else x).toNat ∧
    w .smax = (if a.slt b then b else a).toNat ∧ d .smax = (if x.slt y then y else x).toNat ∧
    w .umin = min a.toNat b.toNat ∧ d .umin = min x.toNat y.toNat ∧ w .umax = max a.toNat b.toNat ∧ d .umax = max x.toNat y.toNat ∧
    w .and = (a &&& b).toNat ∧ d .and = (x &&& y).toNat ∧ w .or = (a ||| b).toNat ∧ d .or = (x ||| y).toNat ∧
    w .xor = (a ^^^ b).toNat ∧ d .xor = (x ^^^ y).toNat ∧ w .exch = b.toNat ∧ d .exch = y.toNat ∧
    w .cas = (if a = c then b else a).toNat ∧ d .cas = (if x = z then y else x).toNat

/-- R219 to R223, R257 and R260: an ATOM of one lane, on a line that stands as a home copy on the core's die, returns the word and leaves the operation's value;
LDX returns the word and reserves its line; STX stores and answers 1 where its reservation covers the line, else answers 0 and changes no
memory. -/
def Claims.AtomicPerform : Prop :=
  ∀ (s : State) (p : Place) (g : SlotId) (l : LaneId) (order : List LaneId) (env : MemEnv) (h : HeldOp) (r : AtomReq) (ln : Nat)
    (x : NearLine) (wide : Bool), Sound s →
    let c := p.core.val
    let b := p.sub.val
    let grp := grpOf (subOf (coreOf s c) b) g.val
    let info := (blockOf (coreOf s c) grp.blk.val).info
    let n := if wide then 8 else 4
    let o := r.addr % 128
    let old := leNat ((x.data.drop o).take n)
    let put (v : Nat) : List Byte := (List.range 128).map (fun j => if o ≤ j ∧ j < o + n then (leBytes n v).getD (j - o) 0 else x.data.getD j 0)
    let ends (lane : Lane → Lane) (line : NearLine) : Prop := ∃ t, Goes (.atomicPerform p g l order env) s t ∧
      laneOf (grpOf (subOf (coreOf t c) b) g.val) l.val =
        { lane (laneOf grp l.val) with pc := (laneOf grp l.val).pc + 8, wait := .ready, ordPt := s.now + 1 } ∧
      (∀ m, m ≠ l.val → { laneOf (grpOf (subOf (coreOf t c) b) g.val) m with rsv := none } = { laneOf grp m with rsv := none }) ∧
      (grpOf (subOf (coreOf t c) b) g.val).held = [] ∧ (grpOf (subOf (coreOf t c) b) g.val).u = grp.u ∧
      homeCopy t ln = some line ∧ (∀ y, y ≠ ln → homeCopy t y = homeCopy s y) ∧ t.dram = s.dram ∧ t.now = s.now + 1
    grp.held = [h] → h.lanes = BitVec.ofNat 32 (2 ^ l.val) → r.lane = l → r.res = none → l.val < grp.lanes.length →
    (∀ e ∈ (subOf (coreOf s c) b).buffer, ∀ y ∈ e.writers, ¬ (y.2.1 = g ∧ y.2.2 = l)) →
    mapLine s info.sag.val r.addr = some ln → ln < 2 ^ 33 → StandsHome s (c / 64) ln x → x.data.length = 128 → o + n ≤ 128 → cleanEnv env →
    (∀ op d v, h.op = .atom op wide d [r] → opdOf d = .v v →
      ends (fun y => setVs y v (szRegs n) old) { x with st := .hd, age := 0, data := put (atomNew op wide old r.opnd.toNat r.cmp.toNat) }) ∧
    (∀ d v, h.op = .ldx wide d [r] → opdOf d = .v v →
      ends (fun y => { setVs y v (szRegs n) old with rsv := some { line := BitVec.ofNat 33 ln, far := false } }) { x with age := 0 }) ∧
    (∀ q, h.op = .stx wide q [r] → (laneOf grp l.val).rsv = some { line := BitVec.ofNat 33 ln, far := false } → s.ras.serviceOrdering = false →
      ends (fun y => { setP y q.val true with rsv := none }) { x with st := .hd, age := 0, data := put r.opnd.toNat }) ∧
    (∀ q, h.op = .stx wide q [r] → (laneOf grp l.val).rsv = none → s.ras.serviceOrdering = false →
      ends (fun y => { setP y q.val false with rsv := none }) x)

-- Dispatch

/-- R308 and R309: the front end hands the next block of a launch to the cluster with the most free block slots among the cores that can take it, the
lowest-numbered on ties; a launch whose last block is with a sequencer leaves its queue. Here one launch, not co-resident, has one block
left, and no core is claimed. -/
def Claims.BlockDispatch : Prop :=
  ∀ (s : State) (id : Nat) (l : Launch), newWork s = true → s.fe.rtQueue = [] → s.fe.bulkQueue = [id] → s.fe.handed = [] →
    launchOf s id = some l → l.info.coRes = false → l.returned = [] → l.places = [] → l.blocks = l.next + 1 → claimOf s l.info.sag.val = none →
    let able := (sagRooms s l.info.sag.val).filter (fun r => coreTakes s l.info none r)
    let free (g : Nat) : Nat := ((able.filter (fun r => r.core / 16 == g)).map (fun r => r.room.blocks)).sum
    able ≠ [] →
    ∃ t g, Goes .blockDispatch s t ∧
      t = { s with fe := { s.fe with launches := t.fe.launches, bulkQueue := [], lastSag := l.info.sag,
                                      handed := [{ launch := id, lin := l.next, cluster := g }] } } ∧
      (∀ x : ClusterId, free x.val ≤ free g.val ∧ (free x.val = free g.val → g ≤ x)) ∧
      launchOf t id = some { l with next := l.next + 1 } ∧ ∀ x, x ≠ id → launchOf t x = launchOf s x

/-- R30, R32, R206 and R276: a cluster's sequencer admits a handed block to the lowest free block slot of a core of the cluster that fits; its groups go
round robin over the sub-cores from the one with the most free slots, each thread at the kernel's entry, past an ordering point, with every register 0, the arguments
in the u registers, and the threads past the block's size exited. -/
def Claims.BlockAdmission : Prop :=
  ∀ (s : State) (g : ClusterId) (h : Handed) (l : Launch) (c first : Nat), newWork s = true → s.fe.handed = [h] → h.cluster = g →
    launchOf s h.launch = some l →
    (l.info.rt = true ∨ h.core.isSome = true ∨ coResWaits s l.info.sag.val = false) → handedPlace s l h = some (c, first) → Sound s →
    ∃ t b gs, Goes (.blockAdmission g) s t ∧
      t = { s with cores := t.cores, now := s.now + 1, fe := { s.fe with handed := [] }
                   icaches := (if noneAdmitted s l then invalidateCode s l.info else s).icaches } ∧ (∀ x, x ≠ c → coreOf t x = coreOf s x) ∧
      tblFind (coreOf s c).blocks b = none ∧ (∀ x, x < b → (tblFind (coreOf s c).blocks x).isSome = true) ∧ b < 16 ∧
      tblFind (coreOf t c).blocks b = some { info := l.info, lin := h.lin, groups := gs } ∧
      (∀ x, x ≠ b → tblFind (coreOf t c).blocks x = tblFind (coreOf s c).blocks x) ∧
      coreOf t c = { coreOf s c with blocks := (coreOf t c).blocks, subs := (coreOf t c).subs } ∧
      gs.length = (l.info.bx * l.info.bY * l.info.bz + 31) / 32 ∧
      ∀ idx j, gs[idx]? = some j → j.1.val = (first + idx) % 4 ∧
        tblFind (subOf (coreOf s c) j.1.val).slots j.2.val = none ∧
        let grp := grpOf (subOf (coreOf t c) j.1.val) j.2.val
        grp.blk.val = b ∧ grp.idx = idx ∧ grp.held = [] ∧ (∀ n, n < 64 → uReg grp n = l.info.args.getD n 0) ∧
        ∀ n, n < 32 → laneOf grp n =
          { exited := decide (l.info.bx * l.info.bY * l.info.bz ≤ 32 * idx + n), pc := l.info.entryPc, ordPt := s.now + 1 }

/-- R31: a block whose threads have exited, whose stores have left the buffers and been answered, and whose streams are through, leaves its core, with its groups,
its streams and the lease; the launch counts it. -/
def Claims.BlockRetire : Prop :=
  ∀ (s : State) (c : CoreId) (b : SlotId) (x : Block),
    let k := coreOf s c.val
    tblFind k.blocks b.val = some x →
    (∀ p ∈ x.groups, ∀ l ∈ (grpOf (subOf k p.1.val) p.2.val).lanes, l.exited = true) → (∀ u ∈ k.subs, u.buffer = []) →
    (∀ e q, q < 4 → (streamOf (engineOf k e) (4 * b.val + q)).stopping = false ∧
      ((streamOf (engineOf k e) (4 * b.val + q)).walk.store = true →
        (streamOf (engineOf k e) (4 * b.val + q)).posted ≤ (streamOf (engineOf k e) (4 * b.val + q)).ended)) →
    s.dl.waiting = [] → s.dl.tags = [] →
    ∃ t, Goes (.blockRetire c b) s t ∧ t = { s with cores := t.cores, fe := { s.fe with launches := t.fe.launches } } ∧
      (∀ y, y ≠ c.val → coreOf t y = coreOf s y) ∧
      (∀ y, tblFind (coreOf t c.val).blocks y = if y = b.val then none else tblFind k.blocks y) ∧
      (∀ p ∈ x.groups, p.1.val < k.subs.length → tblFind (subOf (coreOf t c.val) p.1.val).slots p.2.val = none) ∧
      (∀ e q, q < 4 → streamOf (engineOf (coreOf t c.val) e) (4 * b.val + q) = {}) ∧
      ((coreOf t c.val).lease = if k.lease = some b then none else k.lease) ∧
      ∀ id, launchOf t id = (launchOf s id).map (fun l => if id = x.info.id then { l with retired := l.retired + 1 } else l)

/-- R35 and R104: a core that a launch claims takes its split, and keeps the L1 lines that lie in their sets still; R310: a reservation takes effect
when only real-time work is left on the core or the engine. -/
def Claims.SplitsAndReservations : Prop :=
  ∀ (s : State) (c : CoreId) (split : Fin 12) (e : CopyEngId) (n : Nat) (g : SagId) (id : Nat) (l : Launch),
    let k := coreOf s c.val
    (k.partition = some g → claimOf s g.val = some (c.val, id) → launchOf s id = some l → l.info.split = split.val →
      ∃ t, Goes (.coreSplitChange c split) s t ∧ OnlyCore s t c.val
        { k with split := split.val, l1 := k.l1.filter (fun x => x.2.addr % (256 * (12 - split.val)) == x.1 / 8) }) ∧
    (ringOfCore s c = some n → (∀ b ∈ k.blocks, b.2.info.rt = true) → s.fe.rtQueue = [] → s.fe.bulkQueue = [] →
      ∃ t, Goes (.rtReservationEffect (.core c)) s t ∧
        OnlyRing s t n { ringOf s n with coresIn := (ringOf s n).coresIn ++ [c] }) ∧
    (ringOfEngine s e = some n → (∀ j ∈ s.fe.copies, j.engine = e → (ringOf s j.node.ring).rt = true) →
      ∃ t, Goes (.rtReservationEffect (.copy e)) s t ∧ OnlyRing s t n { ringOf s n with engineIn := true })

-- Rings

/-- R292 and R310: ENABLE of a legal bulk ring makes it ACTIVE with its sequence numbers at 0; a ring of a reserved size is refused, which is counted
and raises QUEUE_ERROR. -/
def Claims.RingEnable : Prop :=
  ∀ (s : State) (n : RingId),
    let r := ringOf s n.val
    let g := sagOf s r.partition.val
    r.st = .disabled →
    (6 ≤ r.sizeLog2.toNat → r.sizeLog2.toNat ≤ 16 → (g.st = .open ∨ g.st = .sealed) → g.sealing = false → tagCurrent s r.context = true →
      (ctxOf s (r.context.toNat % 4096)).sag = r.partition → fenceUsable s r.context r.qfence.toNat = true → r.rt = false →
      r.rtCores = 0 → r.rtCopy = false → (ringsOf s r.partition.val).length < g.qRings.toNat →
      ∃ t, Goes (.enable n) s t ∧ OnlyRing s t n.val
        { r with st := .active, tail := 0, retired := 0, next := 0, entries := [], fetches := [], failHeld := false
                 cores := [], engine := none, coresIn := [], engineIn := false, graceOver := false }) ∧
    ((r.sizeLog2.toNat < 6 ∨ 16 < r.sizeLog2.toNat) → ∃ t, Goes (.enable n) s t ∧
      (∀ m, ringOf t m = if m = n.val then { r with enableReject := true, enableRejectCount := sat r.enableRejectCount 1 }
        else ringOf s m) ∧
      t = { s with fe := { s.fe with rings := t.fe.rings }, dl := t.dl } ∧ t.dl.pending.getLsbD r.partition.val = true)

/-- R293 to R295, R303 and R305: a doorbell takes a legal tail and refuses any other; a fetch turn asks the host for the next entries; the leading completed
entries retire, which the queue fence receives; RESUME makes a FAULTED ring whose entries have terminated ACTIVE. -/
def Claims.RingProgress : Prop :=
  ∀ (s : State) (n : RingId) (w : W64),
    let r := ringOf s n.val
    (accepting s = true → (r.st = .active ∨ r.st = .faulted) → (w - r.tail).toNat < 2 ^ 63 → (w - r.retired).toNat ≤ 2 ^ r.sizeLog2.toNat →
      ∃ t, Goes (.dbTailWrite n 0xFF w) s t ∧ OnlyRing s t n.val { r with tail := w }) ∧
    (accepting s = true → (r.st = .disabled ∨ 2 ^ 63 ≤ (w - r.tail).toNat) → ∃ t, Goes (.dbTailWrite n 0xFF w) s t ∧
      (∀ m, ringOf t m = if m = n.val then { r with dbReject := true, rejectCount := sat r.rejectCount 1 } else ringOf s m) ∧
      t.dl.pending.getLsbD r.partition.val = true) ∧
    (newWork s = true → accepting s = true → ringEligible r = true → (∀ m, m ≠ n.val → ringEligible (ringOf s m) = false) →
      let k := min (min 16 (r.tail - r.next).toNat)
        (min (64 - (r.next - r.retired).toNat) (2 ^ r.sizeLog2.toNat - r.next.toNat % 2 ^ r.sizeLog2.toNat))
      ∃ t, Goes .fetchTurn s t ∧
        (∀ m, ringOf t m = if m = n.val then { r with next := r.next + BitVec.ofNat 64 k, fetches := r.fetches ++ [{ first := r.next, count := k }] } else ringOf s m) ∧
        t.dl = { s.dl with waiting := s.dl.waiting ++
          [{ owner := .fetch n.val r.next k, who := 0, write := false
             addr := BitVec.ofNat 52 (r.base.toNat * 4096 + r.next.toNat % 2 ^ r.sizeLog2.toNat * 64), len := 64 * k }] } ∧
        t = { s with dl := t.dl, fe := { s.fe with
          rings := t.fe.rings, turnRt := r.rt, lastRt := if r.rt then n else s.fe.lastRt, lastBulk := if r.rt then s.fe.lastBulk else n } }) ∧
    (∀ done x rest, r.entries = done ++ x :: rest → done ≠ [] → (∀ d ∈ done, d.st = .completed) → x.st = .started →
      let v := r.retired + BitVec.ofNat 64 done.length
      ∃ t, Goes (.retiredAdvance n) s t ∧
        (∀ m, ringOf t m = if m = n.val then { r with retired := v, entries := x :: rest } else ringOf s m) ∧
        Signalled s t r.qfence.toNat v ∧
        t = { s with fe := { s.fe with rings := t.fe.rings }, obj := { s.obj with fences := t.obj.fences } }) ∧
    (r.st = .faulted → r.entries ≠ [] → (∀ x ∈ r.entries, x.st = .completed ∨ x.st = .failed ∨ x.st = .skipped) →
      let v := r.retired + BitVec.ofNat 64 r.entries.length
      ∃ t, Goes (.resume n) s t ∧
        (∀ m, ringOf t m = if m = n.val then { r with st := .active, failHeld := false, retired := v, entries := [] } else ringOf s m) ∧
        Signalled s t r.qfence.toNat v)

/-- R331 to R335 and Table 12-16: the destruction of a queue skips what has not started; after its grace period every unit stops the queue's work; an idle
queue becomes DISABLED, and its queue fence takes the accepted tail. -/
def Claims.RingDestruction : Prop :=
  ∀ (s : State) (n : RingId),
    let r := ringOf s n.val
    let unstarted (x : Node) : Bool := x.st == .waiting || x.st == .fetched || x.st == .held || x.st == .ready
    ((r.st = .active ∨ r.st = .faulted) → s.fe.waits = [] → s.fe.runs = [] → ∃ t, Goes (.queueDestruction n) s t ∧
      (∀ m, ringOf t m = if m = n.val then { r with
          st := .destroying, graceUs := s.fe.grace.toNat, graceOver := false, fetches := []
          next := (r.fetches.head?.map (fun f => f.first)).getD r.next
          entries := r.entries.map (fun x => if unstarted x then { x with st := .skipped, objs := [] } else x) } else ringOf s m) ∧
      t = { s with fe := { s.fe with rings := t.fe.rings }, obj := { s.obj with fences := t.obj.fences }, dl := t.dl } ∧
      (∀ f, (fenceOf t f).value = (fenceOf s f).value) ∧
      ((∃ x ∈ r.entries, unstarted x = true) → pageActs s r.qfence.toNat = true → (fenceOf t r.qfence.toNat).abandoned = true)) ∧
    (r.st = .destroying → r.graceOver = false → ringIdle s n.val = false → ∃ t, Goes (.graceExpiry n) s t ∧
      (ringOf t n.val).st = .destroying ∧ (ringOf t n.val).graceOver = true ∧
      (∀ l ∈ s.fe.launches, l.node.ring = n.val → ∀ c, blocksOfLaunch (coreOf t c) l.info.id = []) ∧
      (∀ j ∈ t.fe.copies, j.node.ring ≠ n.val) ∧ (∀ o ∈ t.nmOps, ∀ x, o.issuer = .node x → x.ring ≠ n.val) ∧
      (∀ e ∈ t.xl.engines, ∀ j ∈ e.jobs, j.ring ≠ n.val) ∧ ∀ o ∈ t.codecOps, o.node.ring = n.val → o.stop.isSome = true) ∧
    (r.st = .destroying → ringIdle s n.val = true → (∀ x ∈ s.fe.runs, x.node.ring ≠ n.val) →
      ∃ t, Goes (.destructionComplete n) s t ∧
        (∀ m, ringOf t m = if m = n.val then { r with
            st := .disabled, retired := r.tail, entries := [], fetches := [], cores := [], engine := none, coresIn := []
            engineIn := false, graceOver := false } else ringOf s m) ∧
        Signalled s t r.qfence.toNat r.tail ∧
        t = { s with fe := { s.fe with rings := t.fe.rings }, obj := { s.obj with fences := t.obj.fences } })

-- Entries and graphs

/-- R236 to R238, R296 to R302 and Table 11-7: an entry at the head of its ring that passes its checks starts at once. NOP and an empty copy complete; a
near-memory, codec, copy, link, wait or launch command goes to its unit; SIGNAL signals its fence and completes. -/
def Claims.EntriesStart : Prop :=
  ∀ (s : State) (n : RingId) (e : Node) (rest : List Node) (objs : List Nat), EntryHeads s n.val e rest →
    let ref : NodeRef := { ring := n.val, seq := e.seq, graph := none }
    let ws := stripOrd e.words
    let r := ringOf s n.val
    let sag := r.partition
    let ctx := r.context.toNat
    let ends (c : Instr) (st : NodeSt) (objs : List Nat) (t : State) : Prop := Goes c s t ∧
      (∀ m, m ≠ n.val → ringOf t m = ringOf s m) ∧
      ringOf t n.val = { r with entries := { e with st, objs, launch := none, key := keyOf s sag.val ws } :: rest }
    checkNode s ref ws noHost noErr = some (s, .pass objs none) →
    (kindOf ws = 0 → ∃ t, ends (.nopEntry n) .completed [] t ∧ t = { s with fe := { s.fe with rings := t.fe.rings } }) ∧
    (∀ x ∈ [(Instr.matvec n, 1), (.gather n, 2), (.scatter n, 3), (.reduce n, 4), (.clean n, 5)], kindOf ws = x.2 →
      ∃ t o, ends x.1 .started objs t ∧ t.nmOps = s.nmOps ++ [o] ∧ o.id = s.fe.nextId ∧ o.sag = sag ∧ o.ctx = ctx ∧ o.issuer = .node ref ∧
        o.words = ws ∧ (nmEmpty ws = false → ∀ st : StackId, (∃ sh ∈ o.shares, sh.stack = st) ↔
          ∃ q ∈ ownedChannels (sagOf s sag.val), q / 16 = st.val) ∧
        t = { s with nmOps := t.nmOps, fe := { s.fe with rings := t.fe.rings, nextId := s.fe.nextId + 1 } }) ∧
    (∀ x ∈ [(Instr.encode n, 0x21), (.decode n, 0x22), (.exportOp n, 0x23), (.importOp n, 0x24), (.histogram n, 0x25), (.install n, 0x26)],
      kindOf ws = x.2 → ∃ t, ends x.1 .started objs t ∧
        t = { s with codecOps := s.codecOps ++ [{ id := s.fe.nextId, sag, ctx, node := ref, words := ws }],
                      fe := { s.fe with rings := t.fe.rings, nextId := s.fe.nextId + 1 } }) ∧
    (∀ x ∈ [(Instr.copy n, 0), (.fill n, 1), (.sealedLoad n, 2)], kindOf ws = 0x41 → copyMode ws = x.2 →
      (copyLen ws = 0 → ∃ t, ends x.1 .completed [] t ∧ t = { s with fe := { s.fe with rings := t.fe.rings } }) ∧
      (∀ g : CopyEngId, copyLen ws ≠ 0 → pickEngine s sag.val r.rt = some g.val → ∃ t, ends x.1 .started objs t ∧
        t = { s with fe := { s.fe with rings := t.fe.rings, nextId := s.fe.nextId + 1, copies := s.fe.copies ++
          [{ id := s.fe.nextId, node := ref, words := ws, sag, ctx, engine := g, key := keyOf s sag.val ws }] } })) ∧
    (∀ x ∈ [(Instr.link n, false), (.signal n, true)],
      kindOf ws = (if x.2 then 0x43 else 0x42) → (if x.2 then isRemote ws = true else linkLen ws ≠ 0) →
      let g := pickLink s sag.val ws
      ∃ t, ends x.1 .started objs t ∧ t = { s with
          xl := { s.xl with engines := t.xl.engines }, fe := { s.fe with rings := t.fe.rings, nextId := s.fe.nextId + 1 } } ∧
        (∀ m, m ≠ g → t.xl.engines.getD m {} = s.xl.engines.getD m {}) ∧
        (g < s.xl.engines.length → t.xl.engines.getD g {} = { s.xl.engines.getD g {} with
          jobs := (s.xl.engines.getD g {}).jobs ++
            [{ id := s.fe.nextId, graph := none, ring := n.val, seq := e.seq, sag, ctx, words := ws, signal := x.2 }] })) ∧
    (kindOf ws = 0x43 → isRemote ws = false → ∃ t, ends (.signal n) .completed [] t ∧
      Signalled s t (field (word ws 0) 16 16) (word ws 1) ∧
      t = { s with fe := { s.fe with rings := t.fe.rings }, obj := { s.obj with fences := t.obj.fences } }) ∧
    (kindOf ws = 0x44 → ∃ t, ends (.wait n) .started objs t ∧ t = { s with fe := { s.fe with
      rings := t.fe.rings, nextId := s.fe.nextId + 1, waits := s.fe.waits ++
        [{ id := s.fe.nextId, node := ref, sag, ctx, cone := waitCone ws, num := waitNum ws, target := waitTarget ws
           ignoreErr := bit (word ws 0) 9, timed := field (word ws 2) 0 32 != 0 }] } })

/-- R300 to R302: ENTRY_START starts the first entry of a ring that has passed its checks and that the ordering of the entries before it lets start: NOP completes, a local SIGNAL signals its fence and completes, and a WAIT and a codec operation go to their units; with no such
entry, or while no new work starts, nothing happens. -/
def Claims.EntryTurn : Prop :=
  ∀ (s : State) (n : RingId) (e : Node) (pre post : List Node),
    let r := ringOf s n.val
    let ws := stripOrd e.words
    let sag := r.partition
    let ctx := r.context.toNat
    let ref : NodeRef := { ring := n.val, seq := e.seq, graph := none }
    let ends (st : NodeSt) (objs : List Nat) (t : State) : Prop := Goes (.entryStart n) s t ∧
      (∀ m, m ≠ n.val → ringOf t m = ringOf s m) ∧
      ringOf t n.val = { r with entries := pre ++ { e with st, objs } :: post }
    ((newWork s = false ∨ ∀ x ∈ r.entries, x.st = .ready → mayStart r x = false) → Goes (.entryStart n) s s) ∧
    (newWork s = true → r.entries = pre ++ e :: post → e.st = .ready → mayStart r e = true → (∀ x ∈ pre, x.st = .ready → mayStart r x = false) →
      (∀ x ∈ pre ++ post, x.seq ≠ e.seq) →
      (kindOf ws = 0 → ∃ t, ends .completed [] t ∧ t = { s with fe := { s.fe with rings := t.fe.rings } }) ∧
      (kindOf ws = 0x43 → isRemote ws = false → ∃ t, ends .completed [] t ∧
        Signalled s t (field (word ws 0) 16 16) (word ws 1) ∧
        t = { s with fe := { s.fe with rings := t.fe.rings }, obj := { s.obj with fences := t.obj.fences } }) ∧
      (kindOf ws = 0x44 → ∃ t, ends .started e.objs t ∧ t = { s with fe := { s.fe with
        rings := t.fe.rings, nextId := s.fe.nextId + 1, waits := s.fe.waits ++
          [{ id := s.fe.nextId, node := ref, sag, ctx, cone := waitCone ws, num := waitNum ws, target := waitTarget ws
             ignoreErr := bit (word ws 0) 9, timed := field (word ws 2) 0 32 != 0 }] } }) ∧
      (isCodecKind (kindOf ws) = true → ∃ t, ends .started e.objs t ∧
        t = { s with codecOps := s.codecOps ++ [{ id := s.fe.nextId, sag, ctx, node := ref, words := ws }],
                      fe := { s.fe with rings := t.fe.rings, nextId := s.fe.nextId + 1 } }))

/-- R297, R308 and R280: a LAUNCH whose checks, which read its code object and its arguments, give the launch `i` enters dispatch behind the launches of its class; one with an extent
of 0 completes. Here no other launch is in dispatch. -/
def Claims.LaunchEntry : Prop :=
  ∀ (s u : State) (n : RingId) (e : Node) (rest : List Node) (objs : List Nat) (i : LaunchInfo) (h : HostAns) (env : MemEnv),
    EntryHeads s n.val e rest → env.tagBad = none →
    let ref : NodeRef := { ring := n.val, seq := e.seq, graph := none }
    let ws := stripOrd e.words
    kindOf ws = 0x40 → checkNode s ref ws h env = some (u, .pass objs (some i)) → newWork u = true →
    u.fe.rings = s.fe.rings → u.fe.launches = [] → u.fe.rtQueue = [] → u.fe.bulkQueue = [] → i.coRes = false →
    (i.gx ≠ 0 → i.gy ≠ 0 → i.gz ≠ 0 → 0 < i.bx → 0 < i.bY → 0 < i.bz → ∃ t, Goes (.launch n h env) s t ∧
      (∀ m, m ≠ n.val → ringOf t m = ringOf s m) ∧
      ringOf t n.val = { ringOf s n.val with entries := { e with st := .started, objs, launch := some i, key := none } :: rest } ∧
      t = { u with fe := { u.fe with
        rings := t.fe.rings, launches := [{ info := i, node := ref, blocks := i.gx.toNat * i.gy.toNat * i.gz.toNat }],
        rtQueue := if i.rt then [i.id] else [], bulkQueue := if i.rt then [] else [i.id] } }) ∧
    ((i.gx = 0 ∨ i.bx = 0) → ∃ t, Goes (.launch n h env) s t ∧
      ringOf t n.val = { ringOf s n.val with entries := { e with st := .completed, objs := [], launch := some i, key := none } :: rest } ∧
      t = { u with fe := { u.fe with rings := t.fe.rings } })

/-- R299, R304 and R306: an entry that fails a check fails its ring, which becomes FAULTED with the number and the code of its first failure; the entries behind it are skipped, its queue fence takes ERROR, and
ABANDONED with a skip, and the context's fault record, where it is empty, names the entry. -/
def Claims.EntriesFail : Prop :=
  ∀ (s : State) (n : RingId) (e : Node) (rest : List Node) (code status : Nat), EntryHeads s n.val e rest →
    let ref : NodeRef := { ring := n.val, seq := e.seq, graph := none }
    let ws := stripOrd e.words
    let r := ringOf s n.val
    let rec0 := (ctxOf s (r.context.toNat % 4096)).fault
    checkNode s ref ws noHost noErr = some (s, .reject code status) → r.failHeld = false → s.fe.runs = [] → r.fetches = [] →
    (∀ x ∈ rest, x.st = .fetched) → pageActs s r.qfence.toNat = true →
    ∀ x ∈ [(Instr.nopEntry n, 0), (.matvec n, 1), (.gather n, 2), (.scatter n, 3), (.reduce n, 4), (.clean n, 5), (.encode n, 0x21), (.decode n, 0x22),
        (.exportOp n, 0x23), (.importOp n, 0x24), (.histogram n, 0x25), (.install n, 0x26), (.link n, 0x42), (.signal n, 0x43), (.wait n, 0x44)],
      kindOf ws = x.2 → ∃ t, Goes x.1 s t ∧
        ringOf t n.val = { r with
          st := .faulted, failed := true, failCount := sat r.failCount 1, failHeld := true, failSeq := e.seq.setWidth 32
          failCode := BitVec.ofNat 8 code
          entries := { e with st := .failed, objs := [] } :: rest.map (fun y => { y with st := .skipped, objs := [] }) } ∧
        (∀ m, m ≠ n.val → ringOf t m = ringOf s m) ∧ (fenceOf t r.qfence.toNat).error = true ∧
        ((fenceOf t r.qfence.toNat).abandoned = true ∨ rest = []) ∧ t.dl.pending.getLsbD r.partition.val = true ∧
        (rec0.valid = false → let f := (ctxOf t (r.context.toNat % 4096)).fault
          f.valid = true ∧ f.source = 6 ∧ f.code = BitVec.ofNat 8 code ∧ f.status = BitVec.ofNat 8 status ∧ f.count = 1 ∧
          f.ring = BitVec.ofNat 10 n.val ∧ f.seq = e.seq.setWidth 32 ∧ f.node = 0xFFFF) ∧
        (rec0.valid = true → (ctxOf t (r.context.toNat % 4096)).fault = { rec0 with count := sat rec0.count 1 })

/-- R301 and R359: a wait whose fence or counter has reached its target completes its node; one on a fence with ERROR or ABANDONED that does not ignore them, or whose time is over, fails its node,
here an entry of a ring. -/
def Claims.Waits : Prop :=
  ∀ (s : State) (w : WaitJob) (n : RingId) (seq : W64), s.fe.waits = [w] → w.node = { ring := n.val, seq, graph := none } →
    let r := ringOf s n.val
    let f := fenceOf s w.num
    let c := coneOf s w.num
    let met : Prop := if w.cone then (c.value - w.target.setWidth 48).toNat < 2 ^ 47 else (f.value - w.target).toNat < 2 ^ 63
    let ended (st : NodeSt) (t : State) : Prop := t.fe.waits = [] ∧ ∀ x ∈ r.entries, x.seq = seq →
      ∃ y ∈ (ringOf t n.val).entries, y = { x with st, objs := [] }
    let fails (c : Instr) : Prop := ∃ t, Goes c s t ∧ ended .failed t ∧ (ringOf t n.val).st = .faulted ∧
      (ringOf t n.val).failed = true ∧ t.dl.pending.getLsbD r.partition.val = true
    (met → (w.cone = true → c.assigned = true ∧ c.partition = w.sag) → (w.cone = false → w.ignoreErr = true ∨ (f.error = false ∧ f.abandoned = false)) →
      ∃ t, Goes (.waitEvaluation w.id) s t ∧ ended .completed t ∧
        t = { s with fe := { s.fe with rings := t.fe.rings, waits := [] } }) ∧
    (r.st = .active → w.cone = false → w.ignoreErr = false → (f.error = true ∨ f.abandoned = true) → fails (.waitEvaluation w.id)) ∧
    (r.st = .active → ¬ met → w.timed = true → fails (.waitTimeout w.id))

/-- R311 to R314 and R317: UNBIND frees a slot that nothing pins; GRAPH pins the current version of its slot; PATCH rewrites a node of a version that nothing pins; BIND of a checked image binds its
slot with the image as version 0. Here the reads come from host memory, and no store lies in device memory. -/
def Obligations.GraphEntries : Prop :=
  ∀ (s : State) (n : RingId) (e : Node) (rest : List Node) (h : HostAns) (env : MemEnv), EntryHeads s n.val e rest →
    let ws := stripOrd e.words
    let r := ringOf s n.val
    let k := field (word ws 0) 16 12
    let g := graphOf s k
    let ref : NodeRef := { ring := n.val, seq := e.seq, graph := none }
    let ends (c : Instr) (st : NodeSt) (objs : List Nat) (t : State) : Prop := Goes c s t ∧
      (∀ m, m ≠ n.val → ringOf t m = ringOf s m) ∧
      ringOf t n.val = { r with entries := { e with st, objs, launch := none, key := none } :: rest } ∧
      ∀ x, x ≠ k → graphOf t x = graphOf s x
    let host (o : Nat) : Prop := (objOf s o).st = .live ∧ (objOf s o).tag = r.context ∧ (objOf s o).host = true ∧ isGraphStore s o = false
    let bytes (at_ len : Nat) : List Byte := (h.bytes.drop at_).take len
    h.fail = false → env.tagBad = none → s.fe.runs = [] →
    (kindOf ws = 0x4B → unbindFields ws = true → g.st = .bound → g.sag = r.partition → g.storeLen = 0 ∨ (objOf s g.storeObj).host = true →
      ∃ t, ends (.unbind n) .completed [] t ∧ graphOf t k = {} ∧
        t = { s with fe := { s.fe with rings := t.fe.rings, graphs := t.fe.graphs } }) ∧
    (∀ v, kindOf ws = 0x48 → graphFields ws = true → g.st = .bound → g.sag = r.partition → g.versions.getLast? = some v →
      fenceUsable s r.context (field (word ws 1) 0 16) = true → ∃ t, ends (.graph n) .started [] t ∧ graphOf t k = g ∧
        t = { s with fe := { s.fe with rings := t.fe.rings, nextId := s.fe.nextId + 1, runs := [
          { id := s.fe.nextId, node := ref, slot := k, version := v.num
            nodes := v.nodes.map (fun w => ({ words := w, st := .waiting } : Node)), fence := field (word ws 1) 0 16
            value := word ws 2, started := true }] } }) ∧
    (∀ vs v, kindOf ws = 0x49 → patchFields ws = true → g.st = .bound → g.sag = r.partition → g.versions = vs ++ [v] →
      let o := field (word ws 2) 0 16
      let node := field (word ws 1) 0 16
      let new := wordsOf 8 (bytes 0 64)
      host o → field (word ws 3) 0 48 + 64 ≤ (objOf s o).len.toNat → 64 ≤ h.bytes.length → nodeFieldsOk s r.partition.val new = true →
      node < v.nodes.length → ∃ t, ends (.patch n h env) .completed [] t ∧
        graphOf t k = { g with versions := vs ++ [{ v with nodes := listSet v.nodes node new }] } ∧
        t = { s with fe := { s.fe with rings := t.fe.rings, graphs := t.fe.graphs } }) ∧
    (kindOf ws = 0x4A → bindFields ws = true → g.st = .free → slotsUsed s r.partition < (sagOf s r.partition.val).qGraphs.toNat →
      let io := field (word ws 1) 0 16
      let iofs := field (word ws 2) 0 48
      let so := field (word ws 3) 0 16
      let sofs := field (word ws 4) 0 48
      let hdr := bytes 0 64
      let nn := rd32 hdr 4
      let ne := rd32 hdr 8
      let nodes := (pieces 64 nn (bytes 64 (64 * nn))).map (wordsOf 8)
      let edges := edgesFrom (bytes (64 + 64 * nn) (4 * ne)) ne
      host io → host so → (objOf s so).ro = false → imageHeaderOk hdr = true → h.bytes.length = 64 + 64 * nn + 4 * ne →
      iofs + 64 ≤ (objOf s io).len.toNat → iofs + rd32 hdr 12 + 64 * nn ≤ (objOf s io).len.toNat →
      iofs + rd32 hdr 16 + 4 * ne ≤ (objOf s io).len.toNat → sofs + storeSize nn ne ≤ (objOf s so).len.toNat →
      imageOk s r.partition.val nodes edges = true → ∃ t, ends (.bind n h env) .completed [] t ∧
        graphOf t k = { st := .bound, sag := r.partition, ctx := r.context, storeObj := so, storeOfs := sofs, storeLen := storeSize nn ne
                        edges := edges.eraseDups, versions := [{ num := 0, nodes }] } ∧
        t = { s with fe := { s.fe with rings := t.fe.rings, graphs := t.fe.graphs } })

/-- R280, R303, R305 and R314 to R316: a launch whose blocks have retired completes its node, or fails or aborts it; a node of a graph launch, once its
store has been read, here in host memory, starts when its predecessors have completed;  a graph launch
whose nodes have completed signals its fence and completes its entry, and once its entry has retired its version is unpinned. -/
def Obligations.LaunchesEnd : Prop :=
  ∀ (s : State) (id node : Nat) (env : MemEnv) (h : HostAns),
    (∀ l, launchOf s id = some l → l.node.graph = none → l.retired = l.blocks → l.aborted = false → l.faulted = false → storesGone s id = true →
      s.nmOps.any (opOfLaunch id) = false →
      ∃ t, Goes (.launchComplete id) s t ∧ launchOf t id = none ∧
        (∀ x, x ≠ id → launchOf t x = launchOf s x) ∧
        (∀ m, ringOf t m = if m = l.node.ring then { ringOf s m with entries := (ringOf s m).entries.map (fun e =>
          if e.seq = l.node.seq then { e with st := .completed, objs := [] } else e) } else ringOf s m) ∧
        t = { s with fe := { s.fe with rings := t.fe.rings, launches := t.fe.launches, handed := t.fe.handed,
                                        rtQueue := s.fe.rtQueue.filter (· != id), bulkQueue := s.fe.bulkQueue.filter (· != id) } }) ∧
    (∀ r x, runOf s id = some r → r.nodes[node]? = some x → newWork s = true → r.started = true → r.failed = false → x.st = .waiting →
      (ringOf s r.node.ring).st = .active → predsDone s r node = true → kindOf x.words = 0 → nopFields x.words = true →
      bit (word x.words 0) 63 = false → r.node.graph = none →
      (objOf s (graphOf s r.slot).storeObj).host = true → h.fail = false → 64 ≤ h.bytes.length → env.tagBad = none →
      ∃ t, Goes (.graphNodeFetch id node h env) s t ∧
        runOf t id = some { r with nodes := listSet r.nodes node { x with st := .completed, objs := [], launch := none, key := none } } ∧
        (∀ m, m ≠ id → runOf t m = runOf s m) ∧ t = { s with fe := { s.fe with runs := t.fe.runs } }) ∧
    (∀ r e, runOf s id = some r → r.node.graph = none → ringEntry s r.node.ring r.node.seq = some e → e.st = .started → r.started = true →
      r.failed = false → (∀ x ∈ r.nodes, x.st = .completed) → ∃ t, Goes (.graphLaunchComplete id) s t ∧ Signalled s t r.fence r.value ∧
        (∀ m, ringOf t m = if m = r.node.ring then { ringOf s m with entries := (ringOf s m).entries.map (fun y =>
          if y.seq = r.node.seq then { y with st := .completed, objs := [] } else y) } else ringOf s m) ∧
        t = { s with fe := { s.fe with rings := t.fe.rings }, obj := { s.obj with fences := t.obj.fences } }) ∧
    (∀ r v, s.fe.runs = [r] → r.id = id → r.node.graph = none → ringEntry s r.node.ring r.node.seq = none →
      (graphOf s r.slot).st = .bound → (graphOf s r.slot).versions.getLast? = some v → ∃ t, Goes (.graphPinRelease id) s t ∧
        t.fe.runs = [] ∧ (∀ y ∈ (graphOf t r.slot).versions, y.num = v.num) ∧ v ∈ (graphOf t r.slot).versions ∧
        (graphOf t r.slot).st = .bound)

-- Events of the memory stacks

/-- R139, R141 to R143, R145, R147, R151, R152, R154, R156, R423 and Table 05-11: a lane whose corrections have reached the threshold within a second is retrained on its group's spare, and a row remap that is called for puts
its channel into RETRAIN; patrol leaves a clean burst, counts and writes back a corrected one, and leaves and reports one with three wrong symbols in a codeword; a refresh takes the next eight rows of its bank; the old key slot is erased; MS_CH_CFG sets its fields, and a change of ECC_MODE on a FREE channel zeroes it,
once its stack is out of STOP. -/
def Claims.StackEvents : Prop :=
  ∀ (s : State) (ch : ChanId) (l : LineId) (bank : Fin 64) (row : Fin 32768) (lane : Fin 144) (w : W64) (env : MemEnv),
    let c := chanOf s ch.val
    let recovers (x : Instr) (r : Recovery) (k : Channel) : Prop := ∃ t, Goes x s t ∧
      t = { s with chans := t.chans, ras := { s.ras with running := some r } } ∧
      ∀ y, chanOf t y = if y = ch.val then { k with st := .retrain } else chanOf s y
    (c.st = .owned → c.retrainThresh ≠ 0 → c.retrainThresh.toNat ≤ laneCount c s.ras.craze.poweredS.toNat lane.val → dqMapped c (dqGroup lane.val) = false → recoveries s = [] →
      
      recovers (.inServiceRetrain ch (.dq lane)) (.dqLane ch lane)
        { mapDq c lane.val with laneErrs := c.laneErrs.filter (fun e => e.1 != lane.val) }) ∧
    (c.st = .owned → (bank.val, row.val) ∈ c.candidates → recoveries s = [] → bankRemaps c bank.val < 16 → c.remapped < 1024 →
      s.ras.repair.length < 327680 → recovers (.rowRemap ch bank row) (.row ch bank.val row.val) c) ∧
    (let k := chanOf s (lineChan l.toNat)
     k.patrol = true → chanServes s (lineChan l.toNat) = true → burstErrs s l.toNat = [] → env.line.bus = [] → env.line.parity = 0 →
      let rewritten (t : State) : Prop := (∀ a, memGet t.dram a = memGet s.dram a) ∧ ∀ x, burstErrs t x = burstErrs s x
      let now := s.ras.craze.poweredS.toNat
      (env.line.bank = [] → ∃ t, Goes (.patrolScrub l env) s t ∧ rewritten t ∧ t = { s with dram := t.dram, symErrs := t.symErrs }) ∧
      (∀ e, env.line.bank = [e] → e.mask ≠ 0 → e.lane.val < 144 → ∃ t, Goes (.patrolScrub l env) s t ∧ rewritten t ∧
        t = { s with chans := t.chans, dram := t.dram, symErrs := t.symErrs, ras := { s.ras with craze := { s.ras.craze with errors := listModify (· + 1) s.ras.craze.errors 0 } } } ∧
        ∀ y, chanOf t y = if y = lineChan l.toNat then { k with
          corrected := sat k.corrected 1, rowErrs := (chanOf t y).rowErrs, candidates := (chanOf t y).candidates
          laneErrs := k.laneErrs.filter (fun x => x.2 == now) ++ [(e.lane.val, now)] } else chanOf s y) ∧
      (∀ a b d : SymErr, env.line.bank = [a, b, d] → k.strong = false → k.uncErrs = [] → (∀ e ∈ [a, b, d], e.mask ≠ 0 ∧ e.lane.val < 64) →
        a.lane ≠ b.lane → a.lane ≠ d.lane → b.lane ≠ d.lane → ∃ t, Goes (.patrolScrub l env) s t ∧
        (∀ x, burstErrs t x = if x = l.toNat then [a, b, d] else burstErrs s x) ∧
        t = { s with chans := t.chans, symErrs := t.symErrs, ras := t.ras, dl := t.dl, free := t.free } ∧
        Logs s t 0x0A 0 0x1F (0x2000 + lineChan l.toNat) (lineOfs l.toNat) 0 ∧
        ∀ y, chanOf t y = if y = lineChan l.toNat then { k with
          uncorrected := true, uncorrectedCount := sat k.uncorrectedCount 1, uncErrs := (chanOf t y).uncErrs
          candidates := (chanOf t y).candidates } else chanOf s y)) ∧
    ((c.st = .free ∨ c.st = .owned ∨ c.st = .retrain) → ∃ t, Goes (.refresh ch bank) s t ∧
      OnlyChan s t ch.val { c with refreshed := (chanOf t ch.val).refreshed } ∧
      ∀ b, tblGet 0 (chanOf t ch.val).refreshed b = if b = bank.val then (tblGet 0 c.refreshed b + 1) % 4096 else tblGet 0 c.refreshed b) ∧
    (∃ t, Goes (.oldKeySlotErase ch) s t ∧ OnlyChan s t ch.val { c with oldTag := none }) ∧
    (let mode := w.toNat % 4
     let set : Channel := { c with retrainThresh := BitVec.ofNat 8 (w.toNat / 256), patrol := w.getLsbD 2 }
     ((c.st ≠ .free ∨ 2 ≤ mode ∨ c.strong = (mode == 1)) → ∃ t, Goes (.msChCfgWrite ch 0xFF w) s t ∧ OnlyChan s t ch.val set) ∧
     (c.st = .free → mode < 2 → c.strong ≠ (mode == 1) → (stackOf s (ch.val / 16)).throttle = .stop → ∃ t, Goes (.msChCfgWrite ch 0xFF w) s t ∧
        OnlyChan s t ch.val { set with strong := mode == 1, zeroDue := true }) ∧
     (c.st = .free → mode < 2 → c.strong ≠ (mode == 1) → (stackOf s (ch.val / 16)).throttle ≠ .stop → ∃ t, Goes (.msChCfgWrite ch 0xFF w) s t ∧
        t = { s with chans := t.chans, dram := t.dram, symErrs := s.symErrs.filter (fun e => lineChan e.1 != ch.val) } ∧
        (∀ y, chanOf t y = if y = ch.val then { set with strong := mode == 1, zeroDue := false, addrPattern := false } else chanOf s y) ∧
        ∀ a, memGet t.dram a = if a / 2 ^ 32 = ch.val then 0 else memGet s.dram a))

/-- R155, R156, Table 05-4 and Table 05-14: with 17 plausible readings a stack's temperature is its hottest layer's, and its throttle follows it. Here no channel
of the stack has still to be zeroed. -/
def Claims.StackSensors : Prop :=
  ∀ (s : State) (st : StackId) (rs : List (BitVec 16)) (h : BitVec 16), Sound s →
    let k := stackOf s st.val
    let cur := k.throttle
    let T := h.toInt
    let want : Throttle :=
      if 1680 ≤ T then .stop
      else if cur = .stop then (if T ≤ 1600 then .half else .stop)
      else if 1600 ≤ T ∨ (cur = .half ∧ 1568 ≤ T) then .half
      else if 1472 ≤ T ∨ cur = .half ∨ (cur = .actCap ∧ 1440 ≤ T) then .actCap
      else .none
    let stops : Prop := want = .stop ∧ cur ≠ .stop
    rs.length = 17 → (∀ i, i < 17 → -640 ≤ (rs.getD i 0).toInt ∧ (rs.getD i 0).toInt ≤ 2400 ∧
      ∀ q, k.readings[i]? = some q → ((rs.getD i 0).toInt - q.toInt).natAbs ≤ 160) →
    h ∈ rs.take 16 → (∀ r ∈ rs.take 16, r.toInt ≤ T) → (∀ i, i < 16 → (chanOf s (16 * st.val + i)).zeroDue = false) →
    ∃ t, Goes (.stackSensorSample st rs) s t ∧ t = { s with memStacks := t.memStacks, ras := t.ras, dl := t.dl, free := t.free } ∧
      (∀ y, y ≠ st.val → stackOf t y = stackOf s y) ∧
      (stops → Logs s t 0x0D 7 0x1F (0x3000 + st.val) 0 0 ∧ stackOf t st.val = { k with
        readings := rs, sensorFault := 0, temp := h, throttle := .stop, overtemp := true, stopCount := sat k.stopCount 1 }) ∧
      (¬ stops → t = { s with memStacks := t.memStacks } ∧
        stackOf t st.val = { k with readings := rs, sensorFault := 0, temp := h, throttle := want })

/-- R159 to R161 and Tables 05-7 to 05-10: a start of the traffic generator that is legal runs, and any other is refused and counted; an abort stops a run, which reports what it has
found and of memory changes only what the run writes; a writing run of ADDR that ends leaves in each word its offset, and no error in its range. -/
def Claims.TrafficGenerator : Prop :=
  ∀ (s : State) (ch : ChanId) (r : TgResult),
    let c := chanOf s ch.val
    let g := c.tg
    let base := ch.val * 2 ^ 32
    let lo := g.runFirst.toNat * 2048
    let hi := (g.runLast.toNat + 1) * 2048
    let legal : Prop := (c.st = .free ∨ testWindow s ch.val = true) ∧ (testWindow s ch.val = true → g.pattern = 4 ∨ g.pattern = 5) ∧
      g.first.toNat ≤ g.last.toNat ∧ (g.last.toNat + 1) * 2048 ≤ chanCap c ∧ g.pattern.toNat < 6 ∧ g.busy = false
    (legal → ∃ t, Goes (.tgStart ch) s t ∧ OnlyChan s t ch.val { c with tg := { g with
      busy := true, runPattern := g.pattern, runFirst := g.first, runLast := g.last, runSeed := if g.seed = 0 then 1 else g.seed
      runPasses := g.passes } }) ∧
    (¬ legal → ∃ t, Goes (.tgStart ch) s t ∧ OnlyChan s t ch.val
      { c with tg := { g with rejected := true, rejectCount := sat g.rejectCount 1 } }) ∧
    (g.busy = true → g.runPattern = 5 → ∃ t, Goes (.tgAbort ch r) s t ∧
      OnlyChan s t ch.val { c with tg := { g with busy := false, blocks := r.blocks, elapsed := r.elapsed } }) ∧
    (g.busy = true → g.runPattern.toNat < 4 → c.addrPattern = false → ∃ t, Goes (.tgAbort ch r) s t ∧
      t = { s with chans := t.chans, dram := t.dram, symErrs := t.symErrs, free := t.free } ∧
      (∀ y, chanOf t y = if y = ch.val then { c with tg := if r.mismatches = 0 then { g with busy := false } else
          { g with busy := false, mismatch := true, mismatchCount := sat g.mismatchCount r.mismatches, firstOffset := r.firstOffset
                   firstLane := r.firstLane } } else chanOf s y) ∧
      (∀ l, ¬ (lineChan l = ch.val ∧ lo ≤ lineOfs l ∧ lineOfs l < hi) → burstErrs t l = burstErrs s l) ∧
      ∀ a, ¬ (base + lo ≤ a ∧ a < base + hi) → memGet t.dram a = memGet s.dram a) ∧
    (g.busy = true → g.runPasses ≠ 0 → g.runPattern = 0 → r.mismatches = 0 → c.addrPattern = false → (c.st = .free ∨ testWindow s ch.val = true) →
      (stackOf s (ch.val / 16)).throttle ≠ .stop → ∃ t, Goes (.tgRunComplete ch r) s t ∧
      t = { s with chans := t.chans, dram := t.dram, symErrs := t.symErrs, free := t.free } ∧
      (∀ l, burstErrs t l = if lineChan l = ch.val ∧ lo ≤ lineOfs l ∧ lineOfs l < hi then [] else burstErrs s l) ∧
      (∀ y, chanOf t y = if y = ch.val then { c with tg := { g with busy := false, done := true, doneCount := sat g.doneCount 1 } }
        else chanOf s y) ∧
      (∀ o, lo ≤ o → o < hi → memGet t.dram (base + o) = BitVec.ofNat 8 (o / 8 * 8 / 256 ^ (o % 8))) ∧
      ∀ a, ¬ (base + lo ≤ a ∧ a < base + hi) → memGet t.dram a = memGet s.dram a)

-- Near-memory operations and the codecs as they run

/-- R165, R172, R173 and R179: the one waiting operation of a stack is admitted; the vector set of the next MATVEC is read into the staging buffer, and then becomes resident; the oldest update of an accumulate path
is added to its element, here an INT32, and the last one of a stack ends its share; an operation whose shares are done completes its node, or writes TAG to its completion word, past an ordering point of every thread of its block,
while that is resident. -/
def Claims.NearMemoryEvents : Prop :=
  ∀ (s : State) (st : StackId) (o : NmOp) (h : NmShare) (rest : List NmShare), Sound s → s.nmOps = [o] →
    let ws := o.words
    let k := stackOf s st.val
    let share (x : NmShare) : List NmOp := [{ o with shares := x :: rest }]
    (o.shares = h :: rest → (∀ x ∈ rest, x.stack ≠ st) → h.stack = st →
      (h.phase = .waiting → (∀ p ∈ h.parts, p.val / 16 = st.val) → newWork s = true → ∃ t, Goes (.nmAdmission st) s t ∧
        t = { s with nmOps := share { h with phase := if h.parts = [] then .done else .running, adm := s.fe.nextId }, memStacks := t.memStacks,
                      fe := { s.fe with nextId := s.fe.nextId + 1 } } ∧
        ∀ y, stackOf t y = if y = st.val then { k with lastSag := o.sag } else stackOf s y) ∧
      (h.phase = .running → kindOf ws = 1 → h.loaded = false → h.left ≠ [] →
        (∀ l x, nmBarrier ws = false → nmStoresDrained s o = true → k.vset = none → k.staging = none → nmVecs ws = 1 →
          nmVbase ws % 128 + nmVecBytes ws ≤ 128 → 0 < nmVecBytes ws → mapLine s o.sag.val (nmVbase ws / 128 * 128) = some l →
          StandsHome s (lineDie l) l x →
          let set : Vset := { tag := nmTag o, data := (x.data.drop (nmVbase ws % 128)).take (nmVecBytes ws), op := o.id }
          ∃ t, Goes (.vectorSetFetch st noErr) s t ∧ t = { s with dies := t.dies, memStacks := t.memStacks } ∧
            (∀ y, stackOf t y = if y = st.val then { k with staging := some set } else stackOf s y) ∧
            homeCopy t l = some { x with age := 0 } ∧ ∀ y, y ≠ l → homeCopy t y = homeCopy s y) ∧
        (∀ v, k.vset = none → k.staging = some v → v.op = o.id → ∃ t, Goes (.vectorSetBroadcast st) s t ∧
          t = { s with nmOps := share { h with loaded := true }, memStacks := t.memStacks } ∧
          ∀ y, stackOf t y = if y = st.val then { k with vset := some v, staging := none } else stackOf s y))) ∧
    (∀ u us v l x, k.accQueue = u :: us → u.src = .op o.id x → u.etype = 8 → u.vals = [v] → u.addr % 4 = 0 →
      mapLine s u.sag.val u.addr = some l → RestsInDram s l (some u.sag.val) →
      let at_ := lineKey l + u.addr % 128
      let new := BitVec.ofNat 32 (leNat (memRead s.dram at_ 4)) + v
      ∃ t, Goes (.accumulateUpdate st noErr) s t ∧ t = { s with dram := t.dram, sags := t.sags, memStacks := t.memStacks, nmOps := t.nmOps } ∧
        t.nmOps = [{ o with shares := o.shares.map (fun h =>
          if h.stack == x && h.phase == .running && h.left.isEmpty && !(updatesLeft t o.id x) then { h with phase := .done } else h) }] ∧
        (∀ y, stackOf t y = if y = st.val then { k with accQueue := us } else stackOf s y) ∧
        (∀ y, sagOf t y = { sagOf s y with perfTrue := (sagOf t y).perfTrue }) ∧
        ∀ a, memGet t.dram a = if at_ ≤ a ∧ a < at_ + 4 then BitVec.ofNat 8 (new.toNat / 256 ^ (a - at_)) else memGet s.dram a) ∧
    ((∀ x ∈ o.shares, x.phase = .done) → (∀ y ∈ s.memStacks, ∀ u ∈ y.accQueue, ∀ x, u.src ≠ .op o.id x) → (kindOf ws = 5 → nmStride ws ≤ 128 * o.cleaned) →
      (∀ n, o.issuer = .node n → n.graph = none → ∃ t, Goes (.nmOpComplete o.id) s t ∧
        t = { s with nmOps := [], fe := { s.fe with rings := t.fe.rings } } ∧
        ∀ m, ringOf t m = if m = n.ring then { ringOf s m with entries := (ringOf s m).entries.map (fun e =>
          if e.seq = n.seq then { e with st := .completed, objs := [] } else e) } else ringOf s m) ∧
      (∀ c b info lin pc th dword, o.issuer = .block c b info lin pc th dword → heldOps (coreOf s c.val) = [] → issuerBlock s o = none →
        ∃ t, Goes (.nmOpComplete o.id) s t ∧ t = { s with nmOps := [], cores := t.cores } ∧
          ∀ y x, blockOf (coreOf t y) x = blockOf (coreOf s y) x) ∧
      (∀ c b info lin pc th dword, o.issuer = .block c b info lin pc th dword → heldOps (coreOf s c.val) = [] → issuerBlock s o = some (c, b) →
        ∃ t, Goes (.nmOpComplete o.id) s t ∧
        t = { s with nmOps := [], cores := t.cores, now := s.now + 1 } ∧ (∀ y, y ≠ c.val → coreOf t y = coreOf s y) ∧
        (∀ q, tblGet 0 (blockOf (coreOf t c.val) b.val).ls q = if dword ≤ q ∧ q < dword + 8 then
          BitVec.ofNat 8 ((word ws 7).toNat / 256 ^ (q - dword)) else tblGet 0 (blockOf (coreOf s c.val) b.val).ls q) ∧
        (∀ x, x ≠ b.val → blockOf (coreOf t c.val) x = blockOf (coreOf s c.val) x) ∧
        ∀ q j g, tblFind (subOf (coreOf s c.val) q).slots j = some g → (grpOf (subOf (coreOf t c.val) q) j).lanes =
          if g.blk = b then g.lanes.map (fun l => { l with ordPt := s.now + 1 }) else g.lanes))

/-- R170, R171 and R174: the part of a MATVEC over INT8 weights and vectors, here of one tile and not the last of its stack, leaves for each row and vector the exact sum of the products modulo
2^32; the part of a GATHER of one row to local store moves the row that the index names. Either part is then through. -/
def Claims.NearMemoryParts : Prop :=
  ∀ (s : State) (st : StackId) (o : NmOp) (h : NmShare) (rest : List NmShare) (ch : ChanId) (order : List ChanId), Sound s →
    let ws := o.words
    let own := ownedChannels (sagOf s o.sag.val)
    let left := h.left.filter (fun p => p != ch)
    s.nmOps = [o] → o.shares = h :: rest → (∀ x ∈ rest, x.stack ≠ st) → h.stack = st → h.phase = .running → ch ∈ h.left →
    nmBarrier ws = false → nmStoresDrained s o = true → running s = true →
    (∀ (v : Vset) (tile : Nat → Byte), kindOf ws = 1 → nmCodec ws = false → h.loaded = true → (stackOf s st.val).vset = some v → left ≠ [] →
      nmEtA ws = 9 → nmEtV ws = 9 → nmRowTiles ws = 1 → nmKTiles ws = 1 → nmBase ws % 2048 = 0 →
      nmBase ws / 2048 % own.length = own.idxOf ch.val →
      (∀ q, q < 2048 → ∃ l, mapLine s o.sag.val ((nmBase ws + q) / 128 * 128) = some l ∧ chanServes s (lineChan l) = true ∧ burstErrs s l = [] ∧
        tagRefused s (lineChan l) (some o.sag.val) false = false ∧
        memGet s.dram (lineKey l + q % 128) = tile q) →
      let products (i n : Nat) : List Int :=
        (List.range (nmTk ws)).map (fun q => (tile (i * nmTk ws + q)).toInt * (v.data.getD (n * nmTk ws + q) 0).toInt)
      let new : List (ChanId × Nat × Nat × W32) := (List.range (nmTr ws)).flatMap (fun i =>
        (List.range (nmVecs ws)).map (fun n => (ch, i, n, BitVec.ofInt 32 (products i n).sum)))
      ∃ t, Goes (.nmPartComplete st o.id ch order noErr) s t ∧
        t = { s with nmOps := [{ o with shares := { h with left, partials := h.partials ++ new } :: rest }], sags := t.sags } ∧
        ∀ y, sagOf t y = { sagOf s y with perfTrue := (sagOf t y).perfTrue }) ∧
    (∀ (c : CoreId) (b : SlotId) (info : LaunchInfo) (lin th dword li la oo : Nat) (pc : W32) (x : NearLine), kindOf ws = 2 → nmCount ws = 1 → nmDmode ws = 2 →
      o.issuer = .block c b info lin pc th dword → issuerBlock s o = some (c, b) → updatesLeft s o.id st = false → nmIbase ws % 4 = 0 → mapLine s o.sag.val (nmIbase ws / 128 * 128) = some li →
      StandsHome s (lineDie li) li x → x.data.length = 128 →
      let a := nmBase ws + leNat ((x.data.drop (nmIbase ws % 128)).take 4) * nmPitch ws
      let d := nmDbase ws
      let k := coreOf s c.val
      a + nmRow ws ≤ carveSize s o.sag.val → a % 2048 + nmRow ws ≤ 2048 → a % 128 + nmRow ws ≤ 128 → mapAddr s o.sag.val a = some (ch.val, oo) →
      mapLine s o.sag.val (a / 128 * 128) = some la → chanServes s (lineChan la) = true → burstErrs s la = [] →
      tagRefused s (lineChan la) (some o.sag.val) false = false →
      ∃ t, Goes (.nmPartComplete st o.id ch order noErr) s t ∧
        t = { s with nmOps := [{ o with shares := { h with left, partials := if left = [] then [] else h.partials,
                                                           phase := if left = [] then .done else .running } :: rest }],
                      cores := t.cores, dies := t.dies, sags := t.sags } ∧
        (∀ y, sagOf t y = { sagOf s y with perfTrue := (sagOf t y).perfTrue }) ∧
        homeCopy t li = some { x with age := 0 } ∧ (∀ y, y ≠ li → homeCopy t y = homeCopy s y) ∧
        (∀ y, y ≠ c.val → coreOf t y = coreOf s y) ∧ coreOf t c.val = { k with blocks := (coreOf t c.val).blocks } ∧
        (∀ y, y ≠ b.val → blockOf (coreOf t c.val) y = blockOf k y) ∧
        ∀ q, tblGet 0 (blockOf (coreOf t c.val) b.val).ls q = if d ≤ q ∧ q < d + nmRow ws then
          memGet s.dram (lineKey la + a % 128 + (q - d)) else tblGet 0 (blockOf k b.val).ls q)

/-- R191, R196, R197 and R201: a codec operation of no homes writes its result record with status OK and completes its node; an INSTALL puts a valid length table into its slot of the saggar's codebooks. Here the
record lies in one line that rests in DRAM, and no other operation runs. -/
def Claims.CodecOperations : Prop :=
  ∀ (s : State) (o : CodecOp) (lr homes : Nat), s.codecOps = [o] → s.nmOps = [] → o.stop = none → o.done = 0 → o.node.graph = none →
    let ws := o.words
    let sag := o.sag.val
    let stream : Bool := kindOf ws == 0x23 || kindOf ws == 0x24
    let rec_ : List Byte := leBytes 8 0 ++ leBytes 8 (word ws 7).toNat ++ if stream then leBytes 8 o.bytes else []
    let at_ := lineKey lr + cdRbase ws % 128
    mapLine s sag (cdRbase ws / 128 * 128) = some lr → RestsInDram s lr (some sag) → cdRbase ws % 128 + rec_.length ≤ 128 →
    let ends (books : Tbl (List Byte)) (t : State) : Prop :=
      t = { s with codecOps := [], dram := t.dram, sags := t.sags, fe := { s.fe with rings := t.fe.rings } } ∧
      (∀ m, ringOf t m = if m = o.node.ring then { ringOf s m with entries := (ringOf s m).entries.map (fun e =>
        if e.seq = o.node.seq then { e with st := .completed, objs := [] } else e) } else ringOf s m) ∧
      (∀ y, sagOf t y = { sagOf s y with perfTrue := (sagOf t y).perfTrue, books := if y = sag then books else (sagOf s y).books }) ∧
      ∀ a, memGet t.dram a = if at_ ≤ a ∧ a < at_ + rec_.length then rec_.getD (a - at_) 0 else memGet s.dram a
    (kindOf ws ∈ [0x21, 0x22, 0x23, 0x24, 0x25] → cdCount ws = 0 → ∃ t, Goes (.codecOpComplete o.id homes noErr) s t ∧ ends (sagOf s sag).books t) ∧
    (∀ lt, kindOf ws = 0x26 → codecAbsent s o = false → cdSbase ws % 128 = 0 → mapLine s sag (cdSbase ws) = some lt →
      chanServes s (lineChan lt) = true → burstErrs s lt = [] → tagRefused s (lineChan lt) (some sag) false = false →
      bookValid (memRead s.dram (lineKey lt) 128) = true →
      ∃ t, Goes (.codecOpComplete o.id homes noErr) s t ∧
        ends (tblPut (sagOf s sag).books (cdBook ws) (memRead s.dram (lineKey lt) 128)) t)

/-- R187, R188, R190, R192 and R194: the codec loses nothing: the decoder reads from the header and the payload that the encoder writes the block that the encoder read,
whatever the block, the element type and the valid codebook. -/
def Obligations.CodecIsLossless : Prop :=
  ∀ (plain table : List Byte) (et book : Nat) (books : Tbl (List Byte)), plain.length = 4096 → (splitOf et).isSome = true → book < 64 →
    bookValid table = true → tblFind books book = some table →
    let b := pmEncode plain et book table
    b.1.length = 16 ∧ b.2.length ≤ 4096 ∧ hdrLen b.1 = b.2.length ∧ pmDecode b.1 b.2 books (some et) = .ok plain

-- Coherence

/-- R248, R250 and R255: the requests of a die for a line that stands at its home as a home copy alone are served at once: READ_SHARED gives the data and, but under NO_ALLOC, enters the die in the filter; READ_UNIQUE gives
the only copy and begins the hold time; READ_NA, of any source, gives the data and changes no copy. -/
def Obligations.HomeReads : Prop :=
  ∀ (s : State) (d : DieId) (l : LineId) (x : NearLine) (cls : ReqClass) (hint : BitVec 2), Sound s → (∀ n, homeUsed s l.toNat n < 32) →
    StandsHome s (lineDie l.toNat) l.toNat x → Unreserved s l.toNat →
    (d.val ≠ lineDie l.toNat → tblFind (dieOf s d.val).far (lineSlot l.toNat) = none → slotOpen s d.val l.toNat = false →
      (hint ≠ 2 → ∃ t, Goes (.readShared d l cls hint noErr) s t ∧ t.fabric = s.fabric ++ [.dataS (.die d) l x.data true] ∧
        (∀ y, homeOf t y = if y = l.toNat then {} else homeOf s y) ∧
        (∀ k, tblFind t.filter k = if k = filtKey d.val l.toNat then some { line := l, unique := false } else tblFind s.filter k) ∧
        (∀ y, homeCopy t y = if y = l.toNat then some { x with age := 0 } else homeCopy s y) ∧
        t = { s with homes := t.homes, dies := t.dies, filter := t.filter, fabric := t.fabric }) ∧
      (hint = 2 → ∃ t, Goes (.readShared d l cls hint noErr) s t ∧ (∀ y, homeOf t y = if y = l.toNat then {} else homeOf s y) ∧
        t = { s with homes := t.homes, fabric := s.fabric ++ [.dataS (.die d) l x.data false] }) ∧
      (∃ t, Goes (.readUnique d l cls hint noErr) s t ∧
        t.fabric = s.fabric ++ [if x.st = .hd then .dataM d l x.data false else .dataE d l x.data false] ∧
        (∀ y, homeOf t y = if y = l.toNat then { hold := some (.die d) } else homeOf s y) ∧
        (∀ k, tblFind t.filter k = if k = filtKey d.val l.toNat then some { line := l, unique := true } else tblFind s.filter k) ∧
        (∀ y, homeCopy t y = if y = l.toNat then none else homeCopy s y) ∧
        t = { s with homes := t.homes, dies := t.dies, filter := t.filter, fabric := t.fabric })) ∧
    ∀ src : ReqSrc, ∃ t, Goes (.readNa src l noErr) s t ∧ (∀ y, homeOf t y = if y = l.toNat then {} else homeOf s y) ∧
      t = { s with homes := t.homes, fabric := s.fabric ++ [.dataS src l x.data false] }

/-- R250, R255 and R263: WRITE_NA puts its bytes into a line that rests in DRAM and is granted; UPGRADE makes a die that alone holds a line FS its only holder, and begins the hold time. -/
def Obligations.HomeWrites : Prop :=
  ∀ (s : State) (d : DieId) (l : LineId) (y : FarLine) (src : ReqSrc) (mask : BitVec 128) (data : List Byte), Sound s →
    (∀ n, homeUsed s l.toNat n < 32) →
    (RestsInDram s l.toNat none → ∃ t, Goes (.writeNa src l mask data noErr) s t ∧
      t.fabric = s.fabric ++ [.grant src l false false] ∧ (∀ z, homeOf t z = if z = l.toNat then {} else homeOf s z) ∧
      t = { s with homes := t.homes, dram := t.dram, sags := t.sags, fabric := t.fabric } ∧
      (∀ z, sagOf t z = { sagOf s z with perfTrue := (sagOf t z).perfTrue }) ∧
      (∀ i, i < 128 → memGet t.dram (lineKey l.toNat + i) =
        if mask.getLsbD i then data.getD i 0 else memGet s.dram (lineKey l.toNat + i)) ∧
      ∀ a, ¬ (lineKey l.toNat ≤ a ∧ a < lineKey l.toNat + 128) → memGet t.dram a = memGet s.dram a) ∧
    (farCopy s d.val l.toNat = some y → y.st = .fs → filtOf s d.val l.toNat = some { line := l, unique := false } →
      (∀ e, e ≠ d.val → filtOf s e l.toNat = none) → homeCopy s l.toNat = none → homeOf s l.toNat = {} → hostEntry s l.toNat = none →
      Unreserved s l.toNat → slotOpen s d.val l.toNat = false → running s = true →
      ∃ t, Goes (.upgrade d l noErr) s t ∧ t.fabric = s.fabric ++ [.grant (.die d) l true false] ∧
        (∀ z, homeOf t z = if z = l.toNat then { hold := some (.die d) } else homeOf s z) ∧
        (∀ k, tblFind t.filter k = if k = filtKey d.val l.toNat then some { line := l, unique := true } else tblFind s.filter k) ∧
        t = { s with homes := t.homes, filter := t.filter, fabric := t.fabric })

/-- R257 to R261: the far operations of a die on a line that stands at its home as a home copy alone: ATOM_FAR performs its operands in order and sends the old values; LDX_FAR sends the word and reserves the pair where its set
has room; STX_FAR whose die has no reservation leaves the line, and one whose die holds the pair's only reservation writes its word, with which that die's reservations on the pair go. -/
def Obligations.HomeFarOperations : Prop :=
  ∀ (s : State) (d : DieId) (l : LineId) (x : NearLine) (ofs : Fin 128) (wide : Bool) (v : W64), Sound s →
    (∀ n, homeUsed s l.toNat n < 32) → ofs.val % opBytes wide = 0 →
    let L := l.toNat
    let D := lineDie L
    let idle (t : State) : Prop := ∀ y, homeOf t y = if y = L then {} else homeOf s y
    let copies (t : State) (c : NearLine) : Prop := ∀ y, homeCopy t y = if y = L then some c else homeCopy s y
    let counts (t : State) : Prop := ∀ y, sagOf t y = { sagOf s y with perfTrue := (sagOf t y).perfTrue }
    (StandsHome s D L x → Unreserved s L →
      (∀ a : FarAtom, a.ofs.val % opBytes a.wide = 0 → (a.op = .fadd → a.wide = false) →
        let run := atomRun a.op a.wide a.operands (wordAt x.data a.ofs.val (opBytes a.wide))
        ∃ t, Goes (.atomFar d l a noErr) s t ∧ idle t ∧ t.fabric = s.fabric ++ [.result d l (run.1.map (BitVec.ofNat 64))] ∧
          copies t { x with st := .hd, age := 0, data := putWord x.data a.ofs.val (opBytes a.wide) run.2 } ∧ counts t ∧
          t = { s with homes := t.homes, dies := t.dies, sags := t.sags, fabric := t.fabric }) ∧
      (((dieOf s D).rsvArray.filter (fun e => e.slice == lineSlice L && rsvSet e.pair == rsvSet (pairOf L))).length < 8 →
        ∃ t, Goes (.ldxFar d l ofs wide noErr) s t ∧ idle t ∧ copies t { x with age := 0 } ∧
          t.fabric = s.fabric ++ [.result d l [BitVec.ofNat 64 (wordAt x.data ofs.val (opBytes wide))]] ∧
          (dieOf t D).rsvArray = (dieOf s D).rsvArray ++ [{ slice := lineSlice L, pair := pairOf L, mask := BitVec.ofNat 4 (2 ^ d.val) }] ∧
          counts t ∧ t = { s with homes := t.homes, dies := t.dies, sags := t.sags, fabric := t.fabric }) ∧
      (∃ t, Goes (.stxFar d l ofs wide v noErr) s t ∧ idle t ∧
        t = { s with homes := t.homes, fabric := s.fabric ++ [.grant (.die d) l false false] })) ∧
    (∀ e : RsvEntry, homeCopy s L = some x → x.st ≠ .bad → homeOf s L = {} → hostEntry s L = none → (∀ y, filtOf s y L = none) → running s = true →
      (dieOf s D).rsvArray = [e] → e.pair = pairOf L → e.mask = BitVec.ofNat 4 (2 ^ d.val) →
      (∀ c ∈ s.cores, ∀ u ∈ c.2.subs, ∀ g ∈ u.slots, ∀ n ∈ g.2.lanes, ∀ r, n.rsv = some r → r.far = true) →
      ∃ t, Goes (.stxFar d l ofs wide v noErr) s t ∧ (∀ y, homeOf t y = homeOf s y) ∧
        t.fabric = s.fabric ++ [.grant (.die d) l false false] ∧ (dieOf t D).rsvArray = [] ∧
        copies t { x with st := .hd, age := 0, data := putWord x.data ofs.val (opBytes wide) v.toNat } ∧
        t = { s with homes := t.homes, dies := t.dies, cores := t.cores, fabric := t.fabric } ∧
        ∀ c b k n, laneOf (grpOf (subOf (coreOf t c) b) k) n =
          let z := laneOf (grpOf (subOf (coreOf s c) b) k) n
          match z.rsv with
          | some r => if c / 64 = d.val ∧ pairOf r.line.toNat = pairOf L then { z with rsv := none } else z
          | none => z)

/-- R176, R249 and R255: the home takes the oldest request of a line, here a READ_NA; a CLEAN writes back a modified home copy, which stays; the hold time ends. -/
def Obligations.HomeWork : Prop :=
  ∀ (s : State) (d : DieId) (l : LineId) (x : NearLine), Sound s →
    (∃ t, Goes (.holdTimeExpiry l) s t ∧ OnlyHome s t l.toNat { homeOf s l.toNat with hold := none }) ∧
    (StandsHome s (lineDie l.toNat) l.toNat x → let s1 := setHome s l.toNat { queue := [.readNa (.die d)] }
      ∃ t, Goes (.homeTransactionStart l noErr) s1 t ∧ (∀ y, homeOf t y = homeOf s y) ∧
        t = { s with homes := t.homes, fabric := s.fabric ++ [.dataS (.die d) l x.data false] }) ∧
    (∀ o : NmOp, s.nmOps = [o] → kindOf o.words = 5 → (∀ h ∈ o.shares, h.phase = .done) → nmStoresDrained s o = true →
      o.cleaned < nmStride o.words / 128 → mapLine s o.sag.val (nmBase o.words + 128 * o.cleaned) = some l.toNat →
      StandsHome s (lineDie l.toNat) l.toNat x → x.st = .hd → x.data.length = 128 → chanServes s (lineChan l.toNat) = true →
      ∃ t, Goes (.homeClean o.id 1 noErr) s t ∧
        t = { s with nmOps := [{ o with cleaned := o.cleaned + 1 }], dram := t.dram, symErrs := t.symErrs, dies := t.dies, sags := t.sags } ∧
        (∀ y, burstErrs t y = if y = l.toNat then [] else burstErrs s y) ∧
        (∀ y, homeCopy t y = if y = l.toNat then some { x with st := .hc } else homeCopy s y) ∧
        (∀ y, sagOf t y = { sagOf s y with perfTrue := (sagOf t y).perfTrue }) ∧
        ∀ a, memGet t.dram a = if lineKey l.toNat ≤ a ∧ a < lineKey l.toNat + 128 then x.data.getD (a - lineKey l.toNat) 0
          else memGet s.dram a)

/-- R248, R250, R252, R253 and R261: a die answers the snoop at the head of the fabric from its own copy, NOT_PRESENT without one; RSV_KILL clears its far reservations on the pair. -/
def Obligations.DieSnoops : Prop :=
  ∀ (s : State) (d : DieId) (l : LineId) (fab : List FabMsg) (y : FarLine), Sound s → running s = true →
    let L := l.toNat
    let far (t : State) (z : Option FarLine) : Prop := farCopy t d.val L = z ∧
      (∀ e, e ≠ d.val → dieOf t e = dieOf s e) ∧ dieOf t d.val = { dieOf s d.val with far := (dieOf t d.val).far } ∧
      ∀ k, k ≠ lineSlot L → tblFind (dieOf t d.val).far k = tblFind (dieOf s d.val).far k
    (grantOnWay s d l = false → farCopy s d.val L = some y → Unreserved s L →
      (s.fabric = .snpShared d l :: fab → ∃ t, Goes (.snpShared d l noErr) s t ∧ far t (some { y with st := .fs, won := none }) ∧
        t = { s with dies := t.dies, fabric := fab ++ [if y.st = .fm then .snpData (.die d) l true y.data else .snpAck (.die d) l true] }) ∧
      (s.fabric = .snpInvalidate d l :: fab → ∃ t, Goes (.snpInvalidate d l noErr) s t ∧ far t none ∧
        t = { s with dies := t.dies, fabric := fab ++ [if y.st = .fm then .snpData (.die d) l false y.data else .snpAck (.die d) l false] }) ∧
      (s.fabric = .snpClean d l :: fab → ∃ t, Goes (.snpClean d l noErr) s t ∧
        far t (some (if y.st = .fm then { y with st := .fe, won := none } else y)) ∧
        t = { s with dies := t.dies, fabric := fab ++ [if y.st = .fm then .snpData (.die d) l true y.data else .snpAck (.die d) l true] })) ∧
    (grantOnWay s d l = false → farCopy s d.val L = none →
      (s.fabric = .snpShared d l :: fab → Goes (.snpShared d l noErr) s { s with fabric := fab ++ [.notPresent (.die d) l] }) ∧
      (s.fabric = .snpInvalidate d l :: fab → Goes (.snpInvalidate d l noErr) s { s with fabric := fab ++ [.notPresent (.die d) l] }) ∧
      (s.fabric = .snpClean d l :: fab → Goes (.snpClean d l noErr) s { s with fabric := fab ++ [.notPresent (.die d) l] })) ∧
    (s.fabric = .rsvKill d l :: fab → ∃ t, Goes (.rsvKill d l) s t ∧ t = { s with cores := t.cores, fabric := fab } ∧
      ∀ c b k n, laneOf (grpOf (subOf (coreOf t c) b) k) n =
        let z := laneOf (grpOf (subOf (coreOf s c) b) k) n
        match z.rsv with
        | some r => if c / 64 = d.val ∧ r.far = true ∧ pairOf r.line.toNat = pairOf L then { z with rsv := none } else z
        | none => z)

/-- R143, R248, R250 and R264: the home's answers arrive: data fill the free far way of their die as FS, FE or FM; the GRANT of an UPGRADE makes FS into FE, any other, a RESULT and an error in place of an answer only reach their requester. -/
def Obligations.DieReplies : Prop :=
  ∀ (s : State) (d : DieId) (l : LineId) (fab : List FabMsg) (y : FarLine) (data : List Byte) (w : Bool), Sound s → running s = true →
    let L := l.toNat
    let far (t : State) (z : FarLine) : Prop := t = { s with dies := t.dies, fabric := fab } ∧ farCopy t d.val L = some z ∧
      (∀ e, e ≠ d.val → dieOf t e = dieOf s e) ∧ dieOf t d.val = { dieOf s d.val with far := (dieOf t d.val).far } ∧
      ∀ k, k ≠ lineSlot L → tblFind (dieOf t d.val).far k = tblFind (dieOf s d.val).far k
    (lineDie L ≠ d.val → tblFind (dieOf s d.val).far (lineSlot L) = none →
      (s.fabric = .dataS (.die d) l data true :: fab → ∃ t, Goes (.dataS (.die d) l) s t ∧ far t { line := l, st := .fs, data }) ∧
      (s.fabric = .dataE d l data w :: fab → ∃ t, Goes (.dataE d l) s t ∧ far t { line := l, st := .fe, data, won := some w }) ∧
      (s.fabric = .dataM d l data w :: fab → ∃ t, Goes (.dataM d l) s t ∧ far t { line := l, st := .fm, data, won := some w })) ∧
    (farCopy s d.val L = some y → y.st = .fs → s.fabric = .grant (.die d) l true w :: fab →
      ∃ t, Goes (.grant (.die d) l) s t ∧ far t { y with st := .fe, won := some w }) ∧
    (∀ src, s.fabric = .dataS src l data false :: fab → Goes (.dataS src l) s { s with fabric := fab }) ∧
    (∀ src, s.fabric = .grant src l false w :: fab → Goes (.grant src l) s { s with fabric := fab }) ∧
    (∀ vals, s.fabric = .result d l vals :: fab → Goes (.result d l) s { s with fabric := fab }) ∧
    (s.fabric = .error (.die d) l :: fab → ∀ c ∈ [Instr.dataS (.die d) l, .dataE d l, .dataM d l, .grant (.die d) l, .result d l],
      Goes c s { s with fabric := fab })

/-- R244, R249, R250, R252, R253, R264 and Table 09-5: the last answer to a home's snoops performs its request: modified data that a snoop for READ_NA brings are written to DRAM and given; an answer without data for an UPGRADE clears the filter entry and grants, and so does
NOT_PRESENT, which is counted; a die sends a modified line that it evicts back to its home, which it enters as it arrives; a good flit of a bridge is taken, any other is replayed; a bridge that is silent with a flit pending and a snoop that stays unanswered stop the domain. -/
def Obligations.HomeReplies : Prop :=
  ∀ (s : State) (d e : DieId) (l : LineId) (fab : List FabMsg) (data : List Byte) (b : BridgeId) (f : Flit) (cls : Fin 3), Sound s →
    let L := l.toNat
    let D := lineDie L
    let opens (r : HomeReq) : Prop := homeOf s L = { txn := some { req := r, waiting := [.die d], snooped := true, hit := false } }
    let homesAs (t : State) (h : HomeLine) : Prop := ∀ y, homeOf t y = if y = L then h else homeOf s y
    let granted (t : State) (stale : Nat) : Prop := homesAs t { hold := some (.die e) } ∧
      filtOf t d.val L = none ∧ filtOf t e.val L = some { line := l, unique := true } ∧
      t = { s with homes := t.homes, filter := t.filter, dies := t.dies, fabric := fab ++ [.grant (.die e) l true true] } ∧
      ∀ y, dieOf t y = { dieOf s y with stale := if y = D then sat (dieOf s y).stale stale else (dieOf s y).stale }
    running s = true →
    (opens (.readNa (.die e)) → s.fabric = .snpData (.die d) l true data :: fab → data.length = 128 → homeCopy s L = none →
      chanServes s (lineChan L) = true → tagRefused s (lineChan L) none false = false →
      ∃ t, Goes (.snpData (.die d) l noErr) s t ∧ homesAs t {} ∧
        t = { s with homes := t.homes, dram := t.dram, symErrs := t.symErrs, sags := t.sags, fabric := fab ++ [.dataS (.die e) l data false] } ∧
        (∀ y, burstErrs t y = if y = L then [] else burstErrs s y) ∧
        (∀ y, sagOf t y = { sagOf s y with perfTrue := (sagOf t y).perfTrue }) ∧
        ∀ a, memGet t.dram a = if lineKey L ≤ a ∧ a < lineKey L + 128 then data.getD (a - lineKey L) 0 else memGet s.dram a) ∧
    (opens (.upgrade e) → e ≠ d → (filtOf s d.val L).isSome = true → (filtOf s e.val L).isSome = true → homeCopy s L = none → Unreserved s L →
      (s.fabric = .snpAck (.die d) l false :: fab → ∃ t, Goes (.snpAck (.die d) l noErr) s t ∧ granted t 0) ∧
      (s.fabric = .notPresent (.die d) l :: fab → (∀ dat, .writeBack d l dat ∉ fab) → ∃ t, Goes (.notPresent (.die d) l noErr) s t ∧ granted t 1)) ∧
    (∀ y : FarLine, farCopy s d.val L = some y → y.st = .fm → Unreserved s L → writeBacks s d L < 16 →
      ∃ t, Goes (.writeBack d l noErr) s t ∧ t = { s with dies := t.dies, fabric := s.fabric ++ [.writeBack d l y.data] } ∧
        farCopy t d.val L = none ∧ ∀ z, dieOf t z = { dieOf s z with far := if z = d.val then (dieOf t z).far else (dieOf s z).far }) ∧
    (farCopy s d.val L = none → s.fabric = .writeBack d l data :: fab → homeCopy s L = none →
      (∃ w, w < 15 ∧ (wayMask s L .core).getLsbD w = true ∧ tblFind (dieOf s D).near (nearKey L w) = none) →
      ∃ t, Goes (.writeBack d l noErr) s t ∧ t = { s with dies := t.dies, filter := t.filter, fabric := fab } ∧ filtOf t d.val L = none ∧
        ∀ z, homeCopy t z = if z = L then some { line := l, st := .hd, age := 1, data } else homeCopy s z) ∧
    (let k := s.bridges.getD b.val {}
     let k' : Bridge := if f.crcOk = true ∧ f.seq = k.rxSeq then { k with rxSeq := k.rxSeq + 1, resend := false }
       else { k with replays := k.replays + 1, resend := true }
     ∃ t, Goes (.bridgeFlit b f) s t ∧ t = { s with bridges := listSet s.bridges b.val k' }) ∧
    (bridgePending s b cls = true → ∃ t, Goes (.bridgeClassSilent b cls) s t ∧ DomainStops s t 7 0 ∧ b ∈ t.ras.deadBridges) ∧
    (bridgePending s b cls = false → Goes (.bridgeClassSilent b cls) s s) ∧
    (∀ x, (homeOf s L).txn = some x → .die d ∈ x.waiting → ∃ t, Goes (.snoopTimeout l) s t ∧ DomainStops s t 6 (lineKey L))

-- Contexts, objects, fences, copies

/-- R318 to R320, R322, R323, R325, R326, R329, R330, R363 and Tables 12-2 to 12-6: the commands of the object port that succeed, each with its RESULT and what it makes of the slot, the object or the page that it names. TAG stands in the command word, the
operands in OBJ_ARG0 to OBJ_ARG2; the command ends at once. -/
def Claims.ObjectCommands : Prop :=
  ∀ (s : State) (tag : BitVec 16), accepting s = true → s.obj.port.busy = false →
    let slot := tag.toNat % 4096
    let c := ctxOf s slot
    let k := c.sag
    let w : W64 := BitVec.ofNat 64 (tag.toNat * 65536)
    let a0 := s.obj.arg0.toNat
    let a1 := s.obj.arg1.toNat
    let a2 := s.obj.arg2.toNat
    let o := a0 % 65536
    let x := objOf s o
    let p := pageOf s a0
    let g : BitVec 16 := BitVec.ofNat 16 a1
    let ends (t : State) (res : Nat) : Prop := t = { s with obj := { s.obj with
      ctxs := t.obj.ctxs, objs := t.obj.objs, pages := t.obj.pages, fences := t.obj.fences
      port := { s.obj.port with busy := false, todo := [], status := 0, result := BitVec.ofNat 32 res } } }
    let ctxs (t : State) (i : Nat) (v : Ctx) : Prop := ∀ y, ctxOf t y = if y = i then v else ctxOf s y
    let objs (t : State) (i : Nat) (v : Obj) : Prop := ∀ y, objOf t y = if y = i then v else objOf s y
    let pages (t : State) (i : Nat) (v : FencePage) : Prop := ∀ y, pageOf t y = if y = i then v else pageOf s y
    let same (t : State) (a b d e : Bool) : Prop := (a = true → t.obj.ctxs = s.obj.ctxs) ∧ (b = true → t.obj.objs = s.obj.objs) ∧
      (d = true → t.obj.pages = s.obj.pages) ∧ (e = true → t.obj.fences = s.obj.fences)
    (∀ i, a0 < 16 → a1 = 0 → a2 = 0 → exists_ (sagOf s a0) = true → i < 4096 → (ctxOf s i).st = .free →
      (∀ j, j < i → (ctxOf s j).st ≠ .free) → ctxCount s (BitVec.toFin (BitVec.ofNat 4 a0)) < (sagOf s a0).qContexts.toNat →
      let gen := (ctxOf s i).gen + 1
      ∃ t, Goes (.ctxOpen 0 .ended) s t ∧ ends t (gen.toNat * 4096 + i) ∧ same t false true true true ∧
        ctxs t i { st := .open, gen, sag := BitVec.toFin (BitVec.ofNat 4 a0), fault := {} }) ∧
    (a0 = 0 → a1 = 0 → a2 = 0 → ∃ t, Goes (.ctxQuery w .ended) s t ∧ same t true true true true ∧
      ends t (slot + 4096 * c.gen.toNat + 65536 * (match c.st with
        | .free => 0
        | .open => 1
        | .closing => 2))) ∧
    (tagCurrent s tag = true → a0 ≤ 1 → a1 = 0 → a2 = 0 → (∀ r ∈ s.fe.rings, r.2.st ≠ .disabled → r.2.context ≠ tag) →
      (∀ y ∈ s.obj.objs, y.2.tag.toNat % 4096 ≠ slot) → (∀ y ∈ s.obj.pages, y.2.owner.toNat % 4096 ≠ slot) →
      ∃ t, Goes (.ctxClose w .ended) s t ∧ ends t 0 ∧ same t false true false true ∧ ctxs t slot { c with st := .free } ∧
        ∀ y, pageOf t y = { pageOf s y with grants := (pageOf s y).grants.filter (· != tag) }) ∧
    (∀ i, tagCurrent s tag = true → a0 % 128 = 0 → 0 < a1 → a0 + a1 ≤ carveSize s k.val → a0 < 2 ^ 48 → a1 < 2 ^ 48 →
      a2 < 8 → a2 % 2 = 0 → (a2 < 4 ∨ (sagOf s k.val).st ≠ .sealed) → objCount s k < (sagOf s k.val).qObjects.toNat → i < 65536 →
      tblFind s.obj.objs i = none → (∀ j, j < i → tblFind s.obj.objs j ≠ none) →
      ∃ t, Goes (.objCreate w .ended) s t ∧ ends t i ∧ same t true false true true ∧ objs t i
        { st := .live, tag, sag := k, ro := a2 / 2 % 2 == 1, hostMap := a2 / 4 == 1, base := BitVec.ofNat 48 a0, len := BitVec.ofNat 48 a1 }) ∧
    (tagCurrent s tag = true → a0 < 2 ^ 17 → a1 = 0 → a2 = 0 → x.st = .live → x.tag = tag → isGraphStore s o = false →
      let held : Prop := (∃ z ∈ liveNodes s, o ∈ z.objs) ∨ ctxLaunches s tag ≠ []
      let scrub : Bool := 65536 ≤ a0
      ∃ t, Goes (.objFree w .ended) s t ∧ ends t 0 ∧ same t true false true true ∧
        (held → objs t o { x with st := .draining, scrub, launches := ctxLaunches s tag }) ∧
        (¬ held → scrub = true → x.host = false → objs t o { x with st := .scrubbing, scrub := true, launches := [] }) ∧
        (¬ held → (scrub = false ∨ x.host = true) → objs t o {})) ∧
    (tagCurrent s tag = true → a0 < 2 ^ 16 → a1 = 0 → a2 = 0 → x.st ≠ .free → x.tag = tag →
      ∃ t, Goes (.objQuery w .ended) s t ∧ same t true true true true ∧ ends t (16 * min (holdCount s o) (2 ^ 20 - 1) + match x.st with
        | .free => 0
        | .live => 1
        | .draining => 2
        | .scrubbing => 3)) ∧
    (∀ i, tagCurrent s tag = true → a0 ≤ 1 → a1 = 0 → a2 = 0 → pageCount s k < (sagOf s k.val).qPages.toNat → i < 512 →
      tblFind s.obj.pages i = none → (∀ j, j < i → tblFind s.obj.pages j ≠ none) →
      ∃ t, Goes (.fenceAlloc w .ended) s t ∧ ends t i ∧ same t true true false false ∧ pages t i { st := .live, owner := tag, remote := a0 == 1 } ∧
        ∀ f, fenceOf t f = if f / 128 = i then {} else fenceOf s f) ∧
    (tagCurrent s tag = true → a0 < 512 → a1 < 2 ^ 16 → a2 = 0 → p.st = .live → p.owner = tag →
      (a1 = 0 → c.st = .open → ∃ t, Goes (.fenceFree w .ended) s t ∧ ends t 0 ∧ same t true true false true ∧
        (pageHeld s a0 = true → pages t a0 { p with st := .draining }) ∧ (pageHeld s a0 = false → pages t a0 {})) ∧
      (tagCurrent s g = true → (ctxOf s (a1 % 4096)).sag = k →
        (g ∉ p.grants → p.grants.length < 4 → ∃ t, Goes (.fenceGrant w .ended) s t ∧ ends t 0 ∧ same t true true false true ∧
          pages t a0 { p with grants := p.grants ++ [g] }) ∧
        (g ∈ p.grants → ∃ t, Goes (.fenceRevoke w .ended) s t ∧ ends t 0 ∧ same t true true false true ∧
          pages t a0 { p with grants := p.grants.filter (· != g) })))

/-- R319 to R321, R325 to R327, R330 and Table 12-6: the object port refuses a command while another is checked, and answers BAD_TAG to a tag that is not current; an object and a fence page that nothing holds any more leave
DRAINING; the scrub of an object leaves zeros and no copy of its lines; 1 written to VALID clears the selected fault record; a whole write to a fence of a LIVE page signals it. -/
def Claims.ObjectEvents : Prop :=
  ∀ (s : State) (o f : FenceId) (pg : Fin 512) (be : BitVec 8) (w v : W64) (pace : Pace) (tag : BitVec 16),
    let x := objOf s o.val
    let port := s.obj.port
    let tagged : W64 := BitVec.ofNat 64 (tag.toNat * 65536)
    let commands (a : W64) (p : Pace) : List Instr := [.ctxOpen a p, .ctxClose a p, .ctxQuery a p, .objCreate a p, .objFree a p, .objQuery a p,
      .fenceAlloc a p, .fenceFree a p, .fenceGrant a p, .fenceRevoke a p]
    (port.busy = true → ∀ c ∈ commands w pace, Goes c s
      { s with obj := { s.obj with port := { port with refused := true, refusedCount := sat port.refusedCount 1 } } }) ∧
    (accepting s = true → port.busy = false → tagCurrent s tag = false → s.obj.arg0 = 0 → s.obj.arg1 = 0 → s.obj.arg2 = 0 →
      ∀ c ∈ ([.ctxClose tagged .ended, .objCreate tagged .ended, .objFree tagged .ended, .objQuery tagged .ended, .fenceAlloc tagged .ended,
        .fenceFree tagged .ended, .fenceGrant tagged .ended, .fenceRevoke tagged .ended] : List Instr),
        Goes c s { s with obj := { s.obj with port := { port with busy := false, todo := [], status := 3, result := 0 } } }) ∧
    (x.st = .draining → holdCount s o.val = 0 → (ctxOf s (x.tag.toNat % 4096)).st ≠ .closing → ∃ t, Goes (.objectDrained o) s t ∧
      t = { s with obj := { s.obj with objs := t.obj.objs } } ∧
      ∀ y, objOf t y = if y = o.val then (if x.scrub = true ∧ x.host = false then { x with st := .scrubbing, launches := [] } else {})
        else objOf s y) ∧
    (let own := ownedChannels (sagOf s x.sag.val)
     let hit (l : Nat) : Prop := ∃ a, unmapKey own (lineKey l) = some a ∧ x.base.toNat ≤ a ∧ a < x.base.toNat + x.len.toNat
     x.st = .scrubbing → (ctxOf s (x.tag.toNat % 4096)).st ≠ .closing → x.len.toNat % 128 = 0 →
      (∀ h ∈ s.homes, ¬ hit h.1) → (∀ m ∈ s.fabric, ¬ hit (msgLine m)) → (∀ h ∈ s.hostFilter, ¬ hit h.line.toNat) →
      (∀ q ∈ own, chanServes s q = true) → ∃ t, Goes (.objectScrubComplete o) s t ∧
        (∀ y, objOf t y = if y = o.val then {} else objOf s y) ∧ (∀ l, hit l → homeCopy t l = none ∧ ∀ d, farCopy t d l = none) ∧
        (∀ a b, unmapKey own a = some b → memGet t.dram a =
          if x.base.toNat ≤ b ∧ b < x.base.toNat + x.len.toNat then 0 else memGet s.dram a) ∧
        ∀ a, unmapKey own a = none → memGet t.dram a = memGet s.dram a) ∧
    ((pageOf s pg.val).st = .draining → pageHeld s pg.val = false → (ctxOf s ((pageOf s pg.val).owner.toNat % 4096)).st ≠ .closing →
      ∃ t, Goes (.fencePageDrained pg) s t ∧ t = { s with obj := { s.obj with pages := t.obj.pages } } ∧
        ∀ y, pageOf t y = if y = pg.val then {} else pageOf s y) ∧
    (let i := s.obj.ctxSel.toNat
     (be.getLsbD 7 = true → w.getLsbD 63 = true → ∃ t, Goes (.faultRecordClear be w) s t ∧
        t = { s with obj := { s.obj with ctxs := t.obj.ctxs } } ∧
        ∀ y, ctxOf t y = if y = i then { ctxOf s i with fault := {} } else ctxOf s y) ∧
     ((be.getLsbD 7 = false ∨ w.getLsbD 63 = false) → Goes (.faultRecordClear be w) s s)) ∧
    ((be = 0xFF → (pageOf s (f.val / 128)).st = .live → ∃ t, Goes (.fncSignal f be v) s t ∧ Signalled s t f.val v ∧
        t = { s with obj := { s.obj with fences := t.obj.fences } }) ∧
     ((be ≠ 0xFF ∨ (pageOf s (f.val / 128)).st ≠ .live) → Goes (.fncSignal f be v) s s))

/-- R298, R324, R382, R392, R393, R407 and R483: a copy engine moves the bytes of the node at its head, and with the last one the node completes; here a COPY from a line that stands as a home copy to a line that rests in DRAM, a FILL of such a line,
a COPY from the host, which first asks for its bytes and then writes those that have come, and a SEALED_LOAD of one chunk, whose plaintext is what AES-GCM opens and which is measured. The node is an entry of a ring that has just begun. -/
def Claims.Copies : Prop :=
  ∀ (s : State) (e : CopyEngId) (j : CopyJob) (la lb : Nat) (x : NearLine) (bs : List Byte), s.fe.copies = [j] → j.engine = e → j.node.graph = none →
    let ws := j.words
    let fresh : CopyJob := { id := j.id, node := j.node, words := ws, sag := j.sag, ctx := j.ctx, engine := e, key := j.key }
    let len := copyLen ws
    let src := objOf s (field (word ws 0) 16 16)
    let dst := objOf s (field (word ws 0) 32 16)
    let a := src.base.toNat + copySrcOfs ws
    let b := dst.base.toNat + copyDstOfs ws
    let dest := lineKey lb + b % 128
    dst.host = false → 0 < len → b % 128 + len ≤ 128 → mapLine s j.sag.val (b / 128 * 128) = some lb → RestsInDram s lb (some j.sag.val) → la ≠ lb →
    (∀ q ∈ s.dl.waiting, ∀ o, q.owner ≠ .copy e j.id o) → (∀ q ∈ s.dl.tags, ∀ o, q.2.owner ≠ .copy e j.id o) →
    let ends (t : State) (bytes : List Byte) : Prop :=
      t = { s with dram := t.dram, dies := t.dies, sags := t.sags, fe := { s.fe with rings := t.fe.rings, copies := [] } } ∧
      (∀ n, ringOf t n = if n = j.node.ring then { ringOf s n with entries := (ringOf s n).entries.map (fun y =>
        if y.seq = j.node.seq then { y with st := .completed, objs := [] } else y) } else ringOf s n) ∧
      (∀ q, memGet t.dram q = if dest ≤ q ∧ q < dest + len then bytes.getD (q - dest) 0 else memGet s.dram q) ∧
      (∀ y, sagOf t y = { sagOf s y with
        perfTrue := (sagOf t y).perfTrue, log := (sagOf t y).log, overflow := (sagOf t y).overflow
        overflowDigest := (sagOf t y).overflowDigest }) ∧
      ((sagOf s j.sag.val).log.length < 1024 → (sagOf t j.sag.val).log = (sagOf s j.sag.val).log ++
        if copyMeasured ws = true then [logEntryOf j (sha384 bytes)] else [])
    let stands (n : Nat) : Prop := src.host = false ∧ a % 128 + n ≤ 128 ∧ mapLine s j.sag.val (a / 128 * 128) = some la ∧
      StandsHome s (lineDie la) la x ∧ x.data.length = 128
    (copyMode ws = 0 → j = fresh → stands len → ∃ t, Goes (.copyComplete e noErr) s t ∧ ends t ((x.data.drop (a % 128)).take len) ∧
      homeCopy t la = some { x with age := 0 }) ∧
    (copyMode ws = 1 → j = fresh → ∃ t, Goes (.copyComplete e noErr) s t ∧ t.dies = s.dies ∧
      ends t ((List.range len).map (fun i => BitVec.ofNat 8 ((word ws 4).toNat / 256 ^ (i % 8))))) ∧
    (copyMode ws = 0 → src.host = true → a % 4096 + len ≤ 4096 →
      (j = fresh → ∃ t, Goes (.copyComplete e noErr) s t ∧ t = { s with
        fe := { s.fe with copies := [{ fresh with asked := len, reads := [0] }] }
        dl := { s.dl with waiting := s.dl.waiting ++ [{ owner := .copy e j.id 0, who := 5 + e.val, write := false
                                                        addr := BitVec.ofNat 52 (a / 16 * 16), len := unitsLen a len }] } }) ∧
      (j = { fresh with asked := len, got := [(0, bs)] } → bs.length = len → ∃ t, Goes (.copyComplete e noErr) s t ∧ t.dies = s.dies ∧ ends t bs)) ∧
    (∀ key plain, copyMode ws = 2 → j = fresh → j.key = some key → stands (80 + len) →
      let image := x.data.drop (a % 128)
      sealedHeaderOk (image.take 64) len = true → plain.length = len →
      gcmOpen key ((image.drop 16).take 8 ++ leBytes 4 0) (image.take 64) ((image.drop 64).take len) ((image.drop (64 + len)).take 16) = some plain →
      ∃ t, Goes (.copyComplete e noErr) s t ∧ ends t plain ∧ homeCopy t la = some { x with age := 0 })

-- Xator

/-- R338, R339, R341 to R345, R349, R358, R415 and Tables 13-2, 13-3, 13-9 to 13-12: a port takes the next good flit, with its packets, what it acknowledges and its credits, asks again for a bad one, and sends again the flits that the other side asks for; a lane that fails is swapped where a spare is left and the port goes DOWN where none is; a port trains to UP when
the identity that it receives is the one of its plan, and fails otherwise; it retires; XL_PLAN and XL_TOPO are written. -/
def Claims.XlPorts : Prop :=
  ∀ (s : State) (n : PortId) (bs : List Byte) (lane : Fin 34) (i : PeerId) (step : Fin 6) (bad : Nat) (w : W64) (tr : PortTrain), Sound s →
    let p := portOf s n.val
    let word : Nat := w.toNat
    let quiet : Prop := ∀ k, k < 16 → (sliceOf s k).valid = false
    let ports (t : State) (v : XlPort) : Prop := ∀ x, portOf t x = if x = n.val then v else portOf s x
    let fails (c : Instr) (k : Nat) (res : BitVec 3) : Prop := ∃ t, Goes c s t ∧
      ports t { p with st := .trainFail, failStep := BitVec.ofNat 3 k, result := res } ∧
      Logs s t 0x11 7 0x1F (0x4000 + n.val) 0 k ∧
      t = { s with xl := { s.xl with ports := t.xl.ports }, ras := t.ras, dl := t.dl, free := t.free }
    ((p.st = .up ∨ p.st = .swap ∨ p.st = .test) →
      (parseFlit bs = none → ∃ t, Goes (.xlFlitReceive n bs) s t ∧ OnlyXlPort s t n.val
        { p with tx := p.tx ++ [{ seq := p.txSeq, acked := p.rxSeq - 1, credits := [], body := .replay p.rxSeq }] }) ∧
      (∀ f u, parseFlit bs = some f → f.body = .units u → f.seq ≠ p.rxSeq → Goes (.xlFlitReceive n bs) s s) ∧
      (∀ f u, parseFlit bs = some f → f.body = .units u → f.seq = p.rxSeq → p.ctl = [] → p.rsp = [] → p.req = [] → (∀ x ∈ p.owed, x = 0) →
        let r := takePackets 64 (p.rxBytes ++ u)
        ∃ t, Goes (.xlFlitReceive n bs) s t ∧ OnlyXlPort s t n.val
          { p with rxSeq := p.rxSeq + 1, acked := f.acked, replayed := if f.acked = p.acked then p.replayed else none
                   used := f.credits.foldl (fun u c => listModify (fun x => x - c.2) u c.1) p.used, rxBytes := r.2
                   input := p.input ++ r.1.map .packet }) ∧
      (∀ f seq, parseFlit bs = some f → f.body = .replay seq → p.st = .up → p.stopped = false →
        let old := if f.acked = p.acked then p.replayed else none
        replayRun old seq < 16 → ∃ t, Goes (.xlFlitReceive n bs) s t ∧
          ports t { p with acked := f.acked, replayed := some (seq, replayRun old seq), replayCount := sat p.replayCount 1
                           tx := p.tx ++ p.sent.filter (fun f => (f.seq - seq).toNat < 2048) } ∧
          t = { s with xl := { s.xl with ports := t.xl.ports }
                       ras := { s.ras with craze := { s.ras.craze with errors := listModify (· + 1) s.ras.craze.errors 5 } } })) ∧
    (∀ cause, p.st = .up → (cause = .threshold → p.swapThresh ≠ 0) → recoveries s = [] →
      (p.sparesUsed < 2 → ∃ t, Goes (.xlLaneSwap n lane cause) s t ∧ ports t { p with st := .swap } ∧
        t = { s with xl := { s.xl with ports := t.xl.ports },
                      ras := { s.ras with running := some (.xlLane n lane.val (cause == .lossOfLock)) } }) ∧
      (2 ≤ p.sparesUsed → quiet → ∃ t, Goes (.xlLaneSwap n lane cause) s t ∧
        ports t { initLink p with st := .down, downEvent := true, downCount := sat p.downCount 1 } ∧
        Logs s t 0x0F 3 0x1F (0x4000 + n.val) 0 0 ∧
        t = { s with xl := { s.xl with ports := t.xl.ports }, ras := t.ras, dl := t.dl, free := t.free })) ∧
    (ready s = true → p.plan.mode = 1 → p.st ≠ .up → p.st ≠ .swap → p.st ≠ .retired → p.loopback = false →
      (bad ≤ 2 → i.vendor = 0x4E47 → i.part = 0x0940 → i.rack = p.plan.rack → i.slot = p.plan.slot → i.port = p.plan.port →
        wireNeighbour s n.val = some i.coord → i.coord ≠ s.xl.coord → ∃ t, Goes (.xlPortTrain n ⟨none, bad, some i⟩) s t ∧ OnlyXlPort s t n.val
          { initLink p with st := .up, failStep := 0, result := 3, sparesUsed := bad, sentId := some (ownIdentity s n.val)
                            peer := { mode := 0, port := i.port, slot := i.slot, rack := i.rack } }) ∧
      (bad ≤ 2 → ∃ t, Goes (.xlPortTrain n ⟨none, bad, none⟩) s t ∧
        ports t { p with st := .checkFail, failStep := 0, result := 1, sparesUsed := bad, sentId := some (ownIdentity s n.val), peer := {} } ∧
        Logs s t 0x0E 7 0x1F (0x4000 + n.val) 0 1 ∧
        t = { s with xl := { s.xl with ports := t.xl.ports }, ras := t.ras, dl := t.dl, free := t.free }) ∧
      (2 < bad → fails (.xlPortTrain n ⟨none, bad, none⟩) 3 0)) ∧
    (p.st = .training → fails (.xlTrainStepTimeout n step) (step.val + 1) p.result) ∧
    (p.st ≠ .retired → quiet → s.ras.repair.length < 327680 → ∃ t, Goes (.xlPortRetire n) s t ∧ ports t { initLink p with st := .retired } ∧
      Logs s t 0x0F 3 0x1F (0x4000 + n.val) 0 0 ∧ t.ras.repair = s.ras.repair ++ [BitVec.ofNat 32 (4 * 2 ^ 29 + n.val)] ∧
      t.ras.craze.portsRetired = s.ras.craze.portsRetired ||| BitVec.ofNat 8 (2 ^ n.val) ∧
      t = { s with xl := { s.xl with ports := t.xl.ports }, ras := t.ras, dl := t.dl, free := t.free, gen := t.gen }) ∧
    (p.st = .unused → word / 2 ^ 62 ≠ 3 → word / 2 ^ 48 % 8 < 6 → ∃ t, Goes (.xlPlanWrite n 0xFF w tr) s t ∧ OnlyXlPort s t n.val { p with plan :=
      { mode := BitVec.ofNat 2 (word / 2 ^ 62), port := BitVec.ofNat 3 (word / 2 ^ 48), slot := BitVec.ofNat 6 (word / 2 ^ 32)
        rack := BitVec.ofNat 32 word } }) ∧
    (let free : Prop := ∀ x ∈ s.xl.ports, x.st ≠ .up ∧ x.st ≠ .swap ∧ x.st ≠ .training
     let inside : Prop := word % 64 < 4 * (word / 2 ^ 20 % 16 + 1) ∧ word / 64 % 64 < 4 ∧ word / 4096 % 64 < 4
     (free → inside → Goes (.xlTopoWrite 0xFF w) s { s with xl := { s.xl with
        rackSerial := BitVec.ofNat 32 (word / 2 ^ 32), xwrap := w.getLsbD 24, racksM1 := BitVec.ofNat 4 (word / 2 ^ 20)
        coord := BitVec.ofNat 18 word } }) ∧
     (¬ (free ∧ inside) → Goes (.xlTopoWrite 0xFF w) s s))

/-- R232, R346, R357 to R359 and R385: XL_SLICE_k takes a legal slice and refuses an illegal one, and a new SLICE_ID ends a stop; a slice that stops, here or elsewhere, marks its status, loses its counters and tells its other
members once through its ports in UP, here with nothing else to send; XL_CONE_n is
written, but not for a SEALED saggar; a subset whose counter has reached its threshold goes on, past an ordering point. -/
def Claims.XlSlices : Prop :=
  ∀ (s : State) (k : SagId) (w : W64) (n : PortId) (cn : ConeId) (sid : BitVec 16) (origin : Coord) (cause : BitVec 2), Sound s →
    let r := sliceOf s k.val
    let g := sagOf s k.val
    let v := w.toNat
    let new : SliceReg := { r with
      sliceId := BitVec.ofNat 16 (v / 2 ^ 48), valid := w.getLsbD 39, wz := w.getLsbD 38, wy := w.getLsbD 37, wx := w.getLsbD 36
      ezM1 := BitVec.ofNat 6 (v / 2 ^ 30), eyM1 := BitVec.ofNat 6 (v / 2 ^ 24), exM1 := BitVec.ofNat 6 (v / 2 ^ 18), origin := BitVec.ofNat 18 v }
    let slices (t : State) (x : SliceReg) : Prop := ∀ y, sliceOf t y = if y = k.val then x else sliceOf s y
    let onlySlice (t : State) (x : SliceReg) : Prop := t = { s with xl := { s.xl with slices := t.xl.slices } } ∧ slices t x
    let stops (c : Instr) (s1 : State) (id : BitVec 16) (o : Coord) (z : BitVec 2) (but : Option Nat) : Prop := ∃ t, Goes c s t ∧
      slices t { r with stopped := true, stopOrigin := o, cause := z, stopCount := sat r.stopCount 1 } ∧
      (∀ y, portOf t y = if y < 6 ∧ (portOf s y).st = .up ∧ portInSlice s r y = true ∧ but ≠ some y then
          emit (countUnits (portOf s y) (.sliceStop id o z) true) (.sliceStop id o z)
        else portOf s1 y) ∧
      (∀ y, coneOf t y = let x := coneOf s y
        if x.assigned = true ∧ x.partition = k then { x with assigned := false } else x) ∧
      t.xl.seen = (id, o) :: s.xl.seen ∧ Logs s t 0x10 3 k.val 0xF000 o.toNat z.toNat ∧
      t = { s with xl := { s.xl with slices := t.xl.slices, cones := t.xl.cones, ports := t.xl.ports, seen := t.xl.seen },
                    ras := t.ras, dl := t.dl, free := t.free }
    let atRest : Prop := ∀ q ∈ s.xl.ports, q.st = .up → q.ctl = [] ∧ q.rsp = [] ∧ q.req = [] ∧ q.stopped = false ∧ (∀ x ∈ q.owed, x = 0) ∧
      hasCredit q 4 1 = true ∧ unacked q + 7 ≤ 2047
    let idle : Prop := (s.xl.cones.map (fun x => x.1)).Nodup ∧ (∀ e ∈ s.xl.engines, ∀ j ∈ e.jobs, j.sag ≠ k) ∧ (∀ x ∈ s.fe.waits, ¬ (x.cone = true ∧ x.sag = k)) ∧ waitedCones s = []
    (g.st ≠ .sealed →
      (new.valid = true → sliceOk s new = false → ∃ t, Goes (.xlSliceWrite k 0xFF w) s t ∧
        onlySlice t { r with cfgReject := true, rejectCount := sat r.rejectCount 1 }) ∧
      ((new.valid = false ∨ sliceOk s new = true) → g.slice = none →
        ((r.stopped = false ∨ new.sliceId = r.sliceId) → ∃ t, Goes (.xlSliceWrite k 0xFF w) s t ∧ onlySlice t new) ∧
        (r.stopped = true → new.sliceId ≠ r.sliceId → exists_ g = true → ∃ t, Goes (.xlSliceWrite k 0xFF w) s t ∧
          slices t { new with stopped := false } ∧
          (∀ y, coneOf t y = if g.coneFirst.toNat ≤ y ∧ y < g.coneFirst.toNat + g.coneCount.toNat then
            { assigned := true, partition := k, value := 0 } else coneOf s y) ∧
          t = { s with xl := { s.xl with slices := t.xl.slices, cones := t.xl.cones, seen := s.xl.seen.filter (fun x => x.1 != r.sliceId) } }))) ∧
    (g.st = .sealed → Goes (.xlSliceWrite k 0xFF w) s s) ∧
    let m : XlMsg := .sliceStop sid origin cause
    (r.valid = true → r.stopped = false → idle → atRest →
      stops (.xlSliceStatusStop k) s r.sliceId s.xl.coord 2 none ∧
      (r.sliceId = sid → (sid, origin) ∉ s.xl.seen → portServes (portOf s n.val) = true → inInput (portOf s n.val) m = true →
        (∀ j, j < 16 → (sliceOf s j).valid = true → (sliceOf s j).sliceId = sid → j = k.val) →
        stops (.sliceStop n sid origin cause) (takeInput s n.val m) sid origin cause (some n.val))) ∧
    ((sid, origin) ∈ s.xl.seen → portServes (portOf s n.val) = true → inInput (portOf s n.val) m = true →
      Goes (.sliceStop n sid origin cause) s (takeInput s n.val m)) ∧
    (inInput (portOf s n.val) m = false → Goes (.sliceStop n sid origin cause) s s) ∧
    (let c := coneOf s cn.val
     let sealed_ : Prop := c.assigned = true ∧ (sagOf s c.partition.val).st = .sealed
     (¬ sealed_ → ∃ t, Goes (.xlConeWrite cn 0xFF w) s t ∧ OnlyCone s t cn.val
        { assigned := w.getLsbD 52, partition := BitVec.toFin (BitVec.ofNat 4 (v / 2 ^ 48)), value := BitVec.ofNat 48 v }) ∧
     (sealed_ → Goes (.xlConeWrite cn 0xFF w) s s)) ∧
    (waitedCones s = [] → Goes (.coneWaitWake cn) s s) ∧
    (∀ c b slot h thr, (s.cores.map (fun x => x.1)).Nodup → (∀ x ∈ s.cores, heldOps x.2 = if x.1 = c then [(b, slot, h)] else []) → c ∈ s.cores.map (fun x => x.1) →
      h.op = .cone cn.val thr → (coneOf s cn.val).assigned = true →
      let grp := grpOf (subOf (coreOf s c) b) slot
      (coneOf s cn.val).partition = (blockOf (coreOf s c) grp.blk.val).info.sag → ((coneOf s cn.val).value - thr).toNat < 2 ^ 47 →
      grp.held = [h] → grp.lanes.length = 32 → ∃ t, Goes (.coneWaitWake cn) s t ∧ t = { s with cores := t.cores, now := s.now + 1 } ∧
        (∀ j, j ≠ c → coreOf t j = coreOf s j) ∧ (grpOf (subOf (coreOf t c) b) slot).held = [] ∧
        ∀ j, laneOf (grpOf (subOf (coreOf t c) b) slot) j = if j < 32 ∧ h.lanes.getLsbD j = true then
          { laneOf grp j with pc := (laneOf grp j).pc + 8, wait := .ready, ordPt := s.now + 1 } else laneOf grp j)

/-- R327, R329, R347 to R357, R419 and Table 13-4: a packet that no check discards leaves the input buffer, is opened, done and answered: a WRITE puts its plaintext into memory and a WRITE_ACC its words on the accumulate path, and the WRITE counts on its counter and gets an ACK; a remote
SIGNAL signals its fence; an ACK and a NACK settle their tracker, and a packet unanswered for 10 ms fails its node; a packet for another module goes to the output of its next port, unless it would cross a dead bridge between the edge dies; a link engine seals and sends the next packet of a job. Any packet that a check discards is counted. -/
def Claims.XlPackets : Prop :=
  ∀ (s : State) (n : PortId) (pk : Packet) (h : HostAns), Sound s →
    let k := pk.partition
    let g := sagOf s k.val
    let r := sliceOf s k.val
    let s1 := takeInput s n.val (.packet pk)
    let plain := (openPacket s pk).getD []
    let atPort : Prop := portServes (portOf s n.val) = true ∧ inInput (portOf s n.val) (.packet pk) = true
    let here : Prop := atPort ∧ pk.dst = s.xl.coord
    let sagsAs (t : State) (sent : W64) : Prop :=
      ∀ y, sagOf t y = { sagOf s y with perfTrue := (sagOf t y).perfTrue, sent := if y = k.val then sent else (sagOf s y).sent }
    let replies (t : State) (ty reason : Nat) : Prop := ∃ out a, routePort s r pk.src = some out ∧ t.xl.ports = (sendPacket s1 out a).xl.ports ∧
      a.ptype = BitVec.ofNat 8 ty ∧ a.reason = BitVec.ofNat 8 reason ∧ a.partition = k ∧ a.epoch = g.epoch ∧ a.src = s.xl.coord ∧ a.dst = pk.src ∧
      a.tracker = pk.tracker ∧ a.seq = g.sent ∧ a.payload = []
    let routed : Prop := (routePort s r pk.src).isSome = true
    (∀ l, here → pk.ptype = 1 → pkReason s pk = 0 → routed → pk.dstAddr.toNat % 128 + plain.length ≤ 128 → plain ≠ [] →
      mapLine s k.val (pk.dstAddr.toNat / 128 * 128) = some l → RestsInDram s l (some k.val) →
      let at_ := lineKey l + pk.dstAddr.toNat % 128
      let c := coneOf s pk.ctr.val
      ∃ t, Goes (.write n pk noErr) s t ∧ replies t 4 0 ∧ sagsAs t (g.sent + 1) ∧
        (∀ y, coneOf t y = if y = pk.ctr.val then { c with value := c.value + BitVec.ofNat 48 (pk.lenM1.toNat + 1) } else coneOf s y) ∧
        (∀ a, memGet t.dram a = if at_ ≤ a ∧ a < at_ + plain.length then plain.getD (a - at_) 0 else memGet s.dram a) ∧
        t = { s with dram := t.dram, sags := t.sags, xl := { s.xl with ports := t.xl.ports, cones := t.xl.cones } }) ∧
    (∀ ch o, here → pk.ptype = 2 → pkReason s pk = 0 → pk.accEtype = 8 → pk.lenM1 = 3 →
      mapAddr s k.val (pk.dstAddr.toNat / 128 * 128) = some (ch, o) → ∃ t, Goes (.writeAcc n pk noErr) s t ∧
        t = { s1 with memStacks := t.memStacks, fe := { s.fe with nextId := s.fe.nextId + 1 } } ∧
        ∀ y, stackOf t y = if y = ch / 16 then { stackOf s y with accQueue := (stackOf s y).accQueue ++
          [{ sag := k, addr := pk.dstAddr.toNat, etype := 8, vals := [BitVec.ofNat 32 (leNat plain)]
             src := .packet s.fe.nextId (some (n, { pk with payload := plain })) }] } else stackOf s y) ∧
    (here → pk.ptype = 3 → pkReason s pk = 0 → ∃ t, Goes (.remoteSignalPacket n pk) s t ∧
      Signalled s t (leNat (plain.take 2)) (BitVec.ofNat 64 (leNat (plain.drop 8))) ∧
      t = { s1 with obj := { s.obj with fences := t.obj.fences } }) ∧
    (here → pkReason s pk ≠ 0 →
      let counts (t : State) : Prop := t.xl.discard = true ∧ t.xl.discardCount = sat s.xl.discardCount 1 ∧
        t.xl.epochCount = (if pkReason s pk = 4 then sat s.xl.epochCount 1 else s.xl.epochCount) ∧
        t.xl.authCount = (if pkReason s pk = 5 then sat s.xl.authCount 1 else s.xl.authCount) ∧ t.dram = s.dram ∧ t.memStacks = s.memStacks ∧
        t.obj = s.obj ∧ t.xl.cones = s.xl.cones ∧ (g.st ≠ .sealed → t.xl.lastReason = BitVec.ofNat 4 (pkReason s pk) ∧ t.xl.lastSource = pk.src)
      (pk.ptype = 1 → ∃ t, Goes (.write n pk noErr) s t ∧ counts t ∧ (routed → replies t 5 (pkReason s pk))) ∧
      (pk.ptype = 2 → ∃ t, Goes (.writeAcc n pk noErr) s t ∧ counts t ∧ (routed → replies t 5 (pkReason s pk))) ∧
      (pk.ptype = 3 → ∃ t, Goes (.remoteSignalPacket n pk) s t ∧ counts t ∧ t.xl.ports = s1.xl.ports) ∧
      (pk.ptype = 4 → ∃ t, Goes (.ack n pk) s t ∧ counts t ∧ t.xl.ports = s1.xl.ports) ∧
      (pk.ptype = 5 → ∃ t, Goes (.nack n pk) s t ∧ counts t ∧ t.xl.ports = s1.xl.ports)) ∧
    (∀ (e : LinkEngId) (tr : Fin 512) (tk : Tracker) (j : LinkJob), let en := s.xl.engines.getD e.val {}
      en.jobs = [j] → tblFind en.trackers tr.val = some tk → tk.job = j.id → j.graph = none → (ringOf s j.ring).st = .active →
      let tracks (t : State) (jobs : List LinkJob) : Prop := (t.xl.engines.getD e.val {}).jobs = jobs ∧
        (∀ y, tblFind (t.xl.engines.getD e.val {}).trackers y = if y = tr.val then none else tblFind en.trackers y) ∧
        ∀ y, y ≠ e.val → t.xl.engines.getD y {} = s.xl.engines.getD y {}
      let entry (t : State) (st : NodeSt) : Prop := ∀ x ∈ (ringOf s j.ring).entries, x.seq = j.seq →
        ∃ y ∈ (ringOf t j.ring).entries, y = { x with st, objs := [] }
      (here → pkReason s pk = 0 → pk.tracker.toNat = e.val * 512 + tr.val →
        (pk.ptype = 4 → ((j.open_ = 1 ∧ linkLen j.words ≤ j.cut) → ∃ t, Goes (.ack n pk) s t ∧ tracks t [] ∧ entry t .completed) ∧
          (1 < j.open_ → ∃ t, Goes (.ack n pk) s t ∧ tracks t [{ j with open_ := j.open_ - 1 }] ∧
            t = { s1 with xl := { s1.xl with engines := t.xl.engines } })) ∧
        (pk.ptype = 5 → ∃ t, Goes (.nack n pk) s t ∧ tracks t [] ∧ entry t .failed ∧ (ringOf t j.ring).st = .faulted)) ∧
      (∃ t, Goes (.linkPacketTimeout e tr) s t ∧ tracks t [] ∧ entry t .failed ∧ (ringOf t j.ring).st = .faulted)) ∧
    (∀ out, atPort → pk.dst ≠ s.xl.coord → headerBad pk = false → payloadBad pk = false → routePort s r pk.dst = some out →
      r.valid = true → inSlice r pk.src = true → inSlice r pk.dst = true → portServes (portOf s out) = true →
      (routerCut s n.val out = true → Goes (.throughPacket n pk) s s) ∧
      (routerCut s n.val out = false → Goes (.throughPacket n pk) s (putPacket (modPort s n.val (fun p => { p with input := p.input.erase (.packet pk) })) out
        { pk with vc := vcOut s pk.ptype.toNat out (n.val / 2 == out / 2 && pk.vc.toNat % 2 == 1) } (some (n, min 4 pk.vc.toNat))))) ∧
    (atPort → pk.dst ≠ s.xl.coord → (headerBad pk = true ∨ payloadBad pk = true) → ∃ t, Goes (.throughPacket n pk) s t ∧
      t.xl.discardCount = sat s.xl.discardCount 1 ∧ (g.st ≠ .sealed → t.xl.lastReason = 1) ∧ t.dram = s.dram) ∧
    (∀ (e : LinkEngId) (j : LinkJob) (out : Nat), let en := s.xl.engines.getD e.val {}
      let ws := j.words
      let len := nextPayload j
      let addr := linkAddr ws + j.cut
      en.jobs = [j] → en.trackers = [] → j.sag = k → r.stopped = false → j.signal = false → linkOp ws = 0 → j.cut < linkLen ws →
      routePort s r (jobDst ws) = some out → (portOf s out).st = .up → (portOf s out).stopped = false →
      (objOf s (field (word ws 0) 16 16)).host = true → h.fail = false → len ≤ h.bytes.length → ∃ t a, Goes (.linkPacketSend e h noErr) s t ∧
        t.xl.ports = (sendPacket s out a).xl.ports ∧ a.ptype = 1 ∧ a.partition = k ∧ a.epoch = g.epoch ∧ a.dst = jobDst ws ∧ a.src = s.xl.coord ∧ a.seq = g.sent ∧
        a.lenM1 = BitVec.ofNat 11 (len - 1) ∧ a.dstAddr = BitVec.ofNat 48 addr ∧ a.payload = h.bytes.take len ∧
        a.tracker = BitVec.ofNat 13 (e.val * 512) ∧ sagsAs t (g.sent + 1) ∧
        t.xl.engines.getD e.val {} = { en with jobs := [{ j with cut := j.cut + len, open_ := j.open_ + 1 }], last := k,
                                                trackers := [(0, { job := j.id, sag := k, addr := BitVec.ofNat 48 addr })] } ∧
        t = { s with sags := t.sags, xl := { s.xl with ports := t.xl.ports, engines := t.xl.engines } })

/-- R338, R341, R349 and R374: an answer that comes to the output of a port in UP with nothing else to send leaves at once where the port holds credits for it, in flits that hold its bytes; without credits it waits, and so does all that comes to a port
whose packet flits stand still. -/
def Claims.XlOutput : Prop :=
  ∀ (s : State) (n : PortId) (pk : Packet), Sound s → (pk.ptype = 4 ∨ pk.ptype = 5) →
    let p := portOf s n.val
    let waits (t : State) : Prop := OnlyXlPort s t n.val { p with rsp := p.rsp ++ [⟨pk, none⟩] }
    (p.st = .swap → waits (putPacket s n.val pk none)) ∧
    (p.st = .up → p.stopped = true → waits (putPacket s n.val pk none)) ∧
    (p.st = .up → p.stopped = false → p.ctl = [] → p.rsp = [] → p.req = [] → (∀ x ∈ p.owed, x = 0) →
      (hasCredit p pk.vc.toNat (packetUnits pk) = false → waits (putPacket s n.val pk none)) ∧
      (hasCredit p pk.vc.toNat (packetUnits pk) = true → unacked p + 7 ≤ 2047 →
        OnlyXlPort s (putPacket s n.val pk none) n.val (flushUnits (countUnits p (.packet pk) true) (packetBytes pk))))

/-- R338 and R350: the bytes of a flit and of a packet say what they hold: a flit is read from its 512 B as it was written, and a packet from the units of the flit stream. The places of the fields in a flit's header are the model's choice (log 81). -/
def Claims.XlEncoding : Prop :=
  ∀ (f : XlFlit) (u rest : List Byte) (a b : Nat × Nat) (pk : Packet),
    (f.body = .units u → u.length % 16 = 0 → u.length ≤ 496 → (f.credits = [] ∨ f.credits = [a] ∨ f.credits = [a, b]) →
      (∀ c ∈ f.credits, c.1 < 8 ∧ 0 < c.2 ∧ c.2 < 2 ^ 17) → (flitBytes f).length = 512 ∧ parseFlit (flitBytes f) = some f) ∧
    (pk.resBad = false → pk.tag.length = 16 → payloadBad pk = false →
      (packetBytes pk).length = 16 * packetUnits pk ∧ takePackets 1 (packetBytes pk ++ rest) = ([pk], rest))

-- Saggars and the security mailbox

/-- R147, R148, R365 to R370, R386, R394, R397, R420 and Tables 14-3, 14-6, 14-8, 14-11, 15-16: the commands of PT_CMD for saggar `k`. A write while BUSY is refused; while the core that holds the partition commands fails over it is held; a command that the saggar's
state does not accept gives STATE. Where no ring is enabled and no generator runs, the long steps of CREATE, SEAL, RESET and DESTROY end with the configuration, keys, channels, cores, counters and contents that the tables give; a DESTROY of a
saggar in RESETTING waits; a test window opens and closes on an owned channel. -/
def Claims.Partitions : Prop :=
  ∀ (s : State) (k : SagId) (p : ChanId) (pace : Pace),
    let g := sagOf s k.val
    let port := s.pt.port
    let w : W64 := BitVec.ofNat 64 (k.val * 256)
    let wp : W64 := BitVec.ofNat 64 (k.val * 256 + p.val * 65536)
    let own := ownedChannels g
    let cores := (clustersOf g).flatMap clusterCores
    let tag (e : BitVec 4) : Option KeyTag := some ⟨k, e⟩
    let said (t : State) (n : BitVec 8) : Prop := t.pt.port = { port with busy := false, todo := [], status := n, result := 0 }
    let sags (t : State) (v : Saggar) : Prop := (∀ y, y ≠ k.val → sagOf t y = { sagOf s y with perfTrue := (sagOf t y).perfTrue }) ∧
      sagOf t k.val = { v with perfTrue := (sagOf t k.val).perfTrue }
    let chans (t : State) (f : Channel → Channel) : Prop := ∀ q, chanOf t q = if q ∈ own then f (chanOf s q) else chanOf s q
    let empty (t : State) : Prop := ∀ a, memGet t.dram a = if a / 2 ^ 32 ∈ own then 0 else memGet s.dram a
    let noCopies (t : State) : Prop := ∀ l, lineChan l ∈ own → homeCopy t l = none ∧ ∀ d, farCopy t d l = none
    let zeroed (c : Channel) : Channel := { c with zeroDue := false, addrPattern := false }
    let blank : Saggar := { g with
      log := [], overflow := 0, overflowDigest := List.replicate 48 0, slice := none, ephemeral := none, weightKeys := [],
      books := [], reports := [], sent := 0 }
    let cleared (x : Core) : Core := { x with
      subs := List.replicate 4 {}, blocks := [], slabs := x.slabs.map (fun y => { y with acc := [], queue := [] }),
      lease := none, leaseQueue := [], engines := x.engines.map (fun e => { e with streams := [], spans := [], excess := 0 }),
      l1 := [], misses := [], grantCount := 0, faultCount := 0, corrected := 0, l1Refetch := 0, replay := 0 }
    let counters (t : State) (v : Cone) : Prop := ∀ n, g.coneFirst.toNat ≤ n → n < g.coneFirst.toNat + g.coneCount.toNat → coneOf t n = v
    let named (t : State) : Prop :=
      (∀ i, ctxOf t i = if (ctxOf s i).st ≠ .free ∧ (ctxOf s i).sag = k then { ctxOf s i with st := .free } else ctxOf s i) ∧
      ∀ o, objOf t o = if (objOf s o).sag = k then {} else objOf s o
    (port.busy = true → ∀ c ∈ ([.create w pace, .sealCmd w pace, .reset w pace, .destroy w pace, .testOpen wp pace, .testClose wp pace] : List Instr),
      Goes c s { s with pt := { s.pt with port := { port with refused := true, refusedCount := sat port.refusedCount 1 } } }) ∧
    (port.busy = false → (roleFails s 0 = true ∨ pace = .checking) →
      Goes (.create w pace) s { s with pt := { s.pt with port := { port with busy := true, todo := [w ||| 1] } } } ∧
      Goes (.destroy w pace) s { s with pt := { s.pt with port := { port with busy := true, todo := [w ||| 4] } } }) ∧
    (port.busy = false → roleFails s 0 = false → accepting s = true →
      let refusal (c : Instr) : Prop := Goes c s { s with pt := { s.pt with port := { port with busy := false, todo := [], status := 2, result := 0 } } }
      (g.reserved = [] → g.st ≠ .none → refusal (.create w .ended)) ∧
      (g.st ≠ .open → refusal (.sealCmd w .ended)) ∧
      (g.st ≠ .open → g.st ≠ .sealed → refusal (.reset w .ended) ∧ refusal (.testOpen wp .ended) ∧ refusal (.testClose wp .ended) ∧
        (g.st ≠ .resetting → refusal (.destroy w .ended))) ∧
      (g.st = .resetting → ∃ t, Goes (.destroy w .running) s t ∧ said t 0 ∧ sags t { g with destroyWaits := true }) ∧
      (exists_ g = true → p.val ∈ own → g.sealing = false →
        (∃ t, Goes (.testOpen wp .ended) s t ∧ said t 0 ∧ testWindow t p.val = true ∧ t = { s with pt := t.pt } ∧
          ∀ q, q ≠ p.val → testWindow t q = testWindow s q) ∧
        ∃ t, Goes (.testClose wp .ended) s t ∧ said t 0 ∧ testWindow t p.val = false ∧ (∀ q, q ≠ p.val → testWindow t q = testWindow s q) ∧
          (testWindow s p.val = true → (chanOf t p.val).tg.busy = false) ∧ ((chanOf s p.val).tg.busy = false → t = { s with pt := t.pt }))) ∧
    (port.busy = false → roleFails s 0 = false → accepting s = true → Sound s → ringsOf s k.val = [] → s.fe.copies = [] → s.fe.graphs = [] →
      s.fabric = [] → sagWaits s k.val = false → (∀ st, (stackOf s st).accQueue = []) → (∀ q ∈ own, (chanOf s q).tg.busy = false) →
      (s.cores.map (fun c => c.1)).Nodup → (s.chans.map (fun c => c.1)).Nodup →
      (s.xl.cones.map (fun c => c.1)).Nodup → (s.obj.ctxs.map (fun c => c.1)).Nodup → (s.obj.objs.map (fun c => c.1)).Nodup →
      (∀ c, (coreOf s c).partition = some k → (coreOf s c).st ≠ .retiring) → g.sealing = false → g.destroyWaits = false →
      (∀ w ∈ g.reserved, w.2 = 0) →
      (g.st = .none → geometryOk g = true → claimedByOther s k.val = false → present s g = true → oneEcc s g = true →
        ∃ t, Goes (.create w .ended) s t ∧ said t 0 ∧ empty t ∧
          sags t { blank with
            st := .open, wasSealed := false, epoch := 0, memKey := some s.sec.nextKey, linkKey := some (Config.keyBytes (s.sec.nextKey + 1)) } ∧
          chans t (fun c => { zeroed c with st := .owned, partition := some k, tag := tag 0, oldTag := none }) ∧
          counters t { assigned := true, partition := k, value := 0 } ∧
          (∀ d, d < 4 → tblGet {} (dieOf t d).masks k.val = g.ways) ∧
          ∀ c, coreOf t c = if c ∈ cores then
              let x := { coreOf s c with st := if (coreOf s c).st = .test then .active else (coreOf s c).st }
              { (if dieForm g then x else setSplit x g.lsSplit.toNat) with partition := some k }
            else coreOf s c) ∧
      (g.st = .open → (∀ o ∈ s.obj.objs, o.2.sag = k → o.2.hostMap = false) →
        ∃ t, Goes (.sealCmd w .ended) s t ∧ said t 0 ∧ empty t ∧ noCopies t ∧ t.obj = s.obj ∧ t.cores = s.cores ∧
          sags t { blank with
            st := .sealed, epoch := g.epoch + 1, memKey := some s.sec.nextKey, linkKey := some (Config.keyBytes (s.sec.nextKey + 1)),
            ephemeral := some (s.sec.nextKey + 2) } ∧
          chans t (fun c => { zeroed c with tag := tag (g.epoch + 1), oldTag := c.tag })) ∧
      (exists_ g = true → ∃ t, Goes (.reset w .ended) s t ∧ said t 0 ∧ noCopies t ∧ named t ∧ sags t { g with wasSealed := false, books := [] } ∧
        chans t id ∧ counters t { assigned := true, partition := k, value := 0 } ∧ (sliceOf t k.val).stopped = false ∧
        (∀ c, coreOf t c = if (coreOf s c).partition = some k then cleared (coreOf s c) else coreOf s c) ∧
        (∀ d, (∃ q ∈ own, q / 64 = d) → (dieOf t d).predictor = []) ∧
        ∀ l x, lineChan l ∈ own → homeCopy s l = some x →
          (∀ d ∈ s.dies, (∀ e ∈ d.near, e.2.data.length = 128 ∧ (e.2.line.toNat = l → e.2 = x)) ∧
            ∀ e ∈ d.far, e.2.data.length = 128 ∧ e.2.line.toNat ≠ l) →
          ∀ i, i < 128 → memGet t.dram (lineKey l + i) = if x.st = .hd then x.data.getD i 0 else memGet s.dram (lineKey l + i)) ∧
      (let released (t : State) : Prop :=
        empty t ∧ noCopies t ∧ named t ∧
        chans t (fun c => { zeroed c with st := if c.st = .owned then .free else c.st, partition := none, tag := none, oldTag := none }) ∧
        (∀ n, g.coneFirst.toNat ≤ n → n < g.coneFirst.toNat + g.coneCount.toNat → (coneOf t n).assigned = false) ∧
        (∀ d, tblGet {} (dieOf t d).masks k.val = {}) ∧
        ∀ c, coreOf t c = if (coreOf s c).partition = some k then { cleared (coreOf s c) with partition := none } else coreOf s c
       let gone : Saggar := { g with
        st := .none, wasSealed := false, memKey := none, linkKey := none, slice := none, ephemeral := none, weightKeys := []
        books := [], reports := [] }
       (g.st = .open → ∃ t, Goes (.destroy w .ended) s t ∧ said t 0 ∧ released t ∧ sags t gone) ∧
       (g.st = .sealed → (sliceOf s k.val).valid = false → ∃ t, Goes (.destroy w .ended) s t ∧ said t 0 ∧ released t ∧
        t.sec.removals = s.sec.removals + 1 ∧
        sags t { gone with
          log := [], overflow := 0, overflowDigest := List.replicate 48 0, sent := 0, epoch := g.epoch + 1
          removal := some { oldEpoch := g.epoch, epoch := g.epoch + 1, channels := g.chans, entries := BitVec.ofNat 32 g.log.length
                            overflow := g.overflow, digest := sha384 (g.log.flatten ++ g.overflowDigest), serial := s.sec.removals + 1
                            log := g.log } }))) ∧
    (running s = true → Sound s → g.st = .resetting → g.destroyWaits = true → g.wasSealed = false → ringsOf s k.val = [] → s.fe.copies = [] →
      s.fe.graphs = [] → s.fabric = [] → sagWaits s k.val = false → (∀ q ∈ own, (chanOf s q).tg.busy = false) →
      (s.cores.map (fun c => c.1)).Nodup →
      (∀ c, (coreOf s c).partition = some k → (coreOf s c).st ≠ .retiring) →
      ∃ t, Goes (.destroyAfterReset k .ended) s t ∧ t.pt.port = port ∧ empty t ∧ noCopies t ∧ (sagOf t k.val).st = .none ∧
        (sagOf t k.val).memKey = none ∧ (∀ c, (coreOf t c).partition ≠ some k) ∧
        chans t (fun c => { zeroed c with st := if c.st = .owned then .free else c.st, partition := none, tag := none, oldTag := none }))

/-- R376, R377, R381, R383, R384, R389, R391, R395, R397 and Tables 15-3 to 15-5, 15-8, 15-11: the commands of SEC_CMD for saggar `k`, with their STATUS, their RESULT_LEN and what they leave in SEC_BUF and in the saggar; only GET_CERTS
is performed while the module takes no commands. The signature of a report is 96 bytes of the alias key. DRBG_RESEED starts the count of requests anew, and every 10 ms each performance counter takes its true count rounded down to a multiple
of 4,096, or restarts. -/
def Claims.Mailbox : Prop :=
  ∀ (s : State) (k : SagId) (h : Fin 64) (ofs : Nat) (pace : Pace),
    let g := sagOf s k.val
    let port := s.sec.port
    let w : W64 := BitVec.ofNat 64 (k.val * 256)
    let wh : W64 := BitVec.ofNat 64 (k.val * 256 + h.val * 65536)
    let wf : W64 := BitVec.ofNat 64 (ofs * 2 ^ 32)
    let done (n : BitVec 8) (len : Nat) : Port := { port with busy := false, todo := [], status := n, result := BitVec.ofNat 32 len }
    let fails (c : Instr) (n : BitVec 8) : Prop := Goes c s { s with sec := { s.sec with port := done n 0 } }
    let holdsBuf (t : State) (bs : List Byte) : Prop := ∀ i, tblGet 0 t.sec.buf i = if i < bs.length then bs.getD i 0 else tblGet 0 s.sec.buf i
    let sags (t : State) (v : Saggar) : Prop := ∀ y, sagOf t y = if y = k.val then v else sagOf s y
    let derived (secret : List Byte) (e : BitVec 4) : Option (List Byte) :=
      some (hkdf384 secret (leBytes 2 (sliceOf s k.val).sliceId.toNat ++ leBytes 1 e.toNat) (ascii "HX940 link") 32)
    let nonce := bufRead s 0 48
    (port.busy = true → ∀ c ∈ ([.getCerts w pace, .report w pace, .keyRelease w pace, .keyDiscard wh pace, .slicePlain w pace, .removalReport w pace,
        .fwWrite wf pace, .fwCommitSvn w pace] : List Instr),
      Goes c s { s with sec := { s.sec with port := { port with refused := true, refusedCount := sat port.refusedCount 1 } } }) ∧
    (port.busy = false →
      (s.sec.certs.length ≤ 131072 → ∃ t, Goes (.getCerts 0 .ended) s t ∧ holdsBuf t s.sec.certs ∧
        t = { s with sec := { s.sec with buf := t.sec.buf, port := done 0 s.sec.certs.length } }) ∧
      (accepting s = false → ∀ c ∈ ([.report w .ended, .keyRelease w .ended, .keyDiscard wh .ended, .slicePlain w .ended, .removalReport w .ended,
        .fwWrite wf .ended, .fwCommitSvn 0 .ended] : List Instr), fails c 2)) ∧
    (port.busy = false → accepting s = true → ((g.st = .creating ∨ g.st = .resetting ∨ g.st = .removing) →
      ∀ c ∈ ([.report w .ended, .keyRelease w .ended, .keyDiscard wh .ended, .slicePlain w .ended, .removalReport w .ended] : List Instr), fails c 2)) ∧
    (port.busy = false → accepting s = true → g.st ≠ .creating → g.st ≠ .resetting → g.st ≠ .removing →
      (g.sealing = true → fails (.report w .ended) 2 ∧ fails (.keyRelease w .ended) 2) ∧
      (g.sealing = false → g.log.length ≤ 1024 → ∃ t sig, Goes (.report w .ended) s t ∧ List.length sig = 96 ∧
        let r := reportBody s k.val (attestPart g) nonce ++ sig
        r.length = 608 + 64 * g.log.length ∧ holdsBuf t r ∧ t.sec.port = done 0 r.length ∧
        (r.drop 8).take 4 = leBytes 4 r.length ∧ (r.drop 17).take 1 = [BitVec.ofNat 8 k.val] ∧ (r.drop 19).take 1 = [BitVec.ofNat 8 g.epoch.toNat] ∧
        (r.drop 32).take 48 = nonce ∧ (r.drop 240).take 8 = leBytes 4 (bootImage s).svn.toNat ++ leBytes 4 s.sec.fusedSvn.toNat ∧
        sags t { g with reports := (g.reports ++ [sha384 r]).drop (g.reports.length + 1 - 8) } ∧
        t = { s with sec := { s.sec with buf := t.sec.buf, port := t.sec.port }, sags := t.sags, free := s.free + 1 }) ∧
      (match g.removal with
       | none => fails (.removalReport w .ended) 2
       | some x => x.log.length ≤ 1024 → ∃ t sig, Goes (.removalReport w .ended) s t ∧ List.length sig = 96 ∧
          let r := reportBody s k.val (removalPart x) nonce ++ sig
          holdsBuf t r ∧ r.length = 608 + 64 * x.log.length ∧ (r.drop 32).take 48 = nonce ∧ (r.drop 448).take 48 = fit 48 x.digest ∧
          t = { s with sec := { s.sec with buf := t.sec.buf, port := done 0 r.length }, free := s.free + 1 }) ∧
      ((tblFind g.weightKeys h.val).isNone = true → fails (.keyDiscard wh .ended) 5) ∧
      ((tblFind g.weightKeys h.val).isSome = true → ∃ t, Goes (.keyDiscard wh .ended) s t ∧ sags t { g with weightKeys := tblDel g.weightKeys h.val } ∧
        t = { s with sec := { s.sec with port := done 0 0 }, sags := t.sags }) ∧
      (g.st ≠ .open → fails (.slicePlain w .ended) 2) ∧
      (g.st = .open → ∃ t, Goes (.slicePlain w .ended) s t ∧
        sags t { g with slice := some (bufRead s 0 32), linkKey := derived (bufRead s 0 32) g.epoch } ∧
        t = { s with sec := { s.sec with port := done 0 0 }, sags := t.sags })) ∧
    (let b := bufRead s 0 208
     let digest := (b.drop 8).take 48
     let kind := b.getD 4 0
     let slot := (b.getD 5 0).toNat
     port.busy = false → accepting s = true →
      (g.st = .none ∨ g.st = .open → fails (.keyRelease w .ended) 2) ∧
      (g.st = .sealed → g.sealing = false →
        (blobForm b = false → fails (.keyRelease w .ended) 1) ∧
        (blobForm b = true →
          (kind = 1 → (64 ≤ slot ∨ (tblFind g.weightKeys slot).isSome = true) → fails (.keyRelease w .ended) 5) ∧
          ((kind = 2 ∨ (slot < 64 ∧ (tblFind g.weightKeys slot).isNone = true)) →
            (digest ∉ g.reports → fails (.keyRelease w .ended) 3) ∧
            (digest ∈ g.reports → Config.ecdh (g.ephemeral.getD 0) ((b.drop 56).take 97) = none → fails (.keyRelease w .ended) 4) ∧
            (digest ∈ g.reports → ∀ x, Config.ecdh (g.ephemeral.getD 0) ((b.drop 56).take 97) = some x →
              let m := hkdf384 x digest (ascii "HX940 release" ++ b.take 8) 44
              let opened := gcmOpen (m.take 32) (m.drop 32) (b.take 160) ((b.drop 160).take 32) ((b.drop 192).take 16)
              (opened = none → fails (.keyRelease w .ended) 4) ∧
              ∀ key, opened = some key → ∃ t, Goes (.keyRelease w .ended) s t ∧
                sags t (if kind = 1 then { g with weightKeys := tblPut g.weightKeys slot key }
                  else { g with slice := some key, linkKey := derived key g.epoch }) ∧
                t = { s with sec := { s.sec with port := done 0 0 }, sags := t.sags }))))) ∧
    (port.busy = false → accepting s = true → s.sec.slots.length = 2 → s.sec.updated.length = 2 →
      let o := 1 - s.sec.bootSlot.val
      let block := bufRead s 0 65536
      let keeps (t : State) : Prop := t = { s with sec := { s.sec with slots := t.sec.slots, updated := t.sec.updated, port := done 0 0 } } ∧
        bootImage t = bootImage s ∧ t.sec.updated.getD o false = true ∧ tblFind (t.sec.slots.getD o {}).written (ofs / 65536) = some block
      (ofs < 2 ^ 32 → ofs % 65536 ≠ 0 → fails (.fwWrite wf .ended) 1) ∧
      (ofs < 2 ^ 32 → ofs % 65536 = 0 → 14 * 2 ^ 20 ≤ ofs → fails (.fwWrite wf .ended) 6) ∧
      (ofs % 65536 = 0 → 0 < ofs → ofs < 14 * 2 ^ 20 → ∃ t, Goes (.fwWrite wf .ended) s t ∧ keeps t ∧
        (s.sec.updated.getD o false = false → (t.sec.slots.getD o {}).valid = false)) ∧
      (ofs = 0 → ∃ t, Goes (.fwWrite wf .ended) s t ∧ keeps t ∧
        (t.sec.slots.getD o {}).svn = BitVec.ofNat 32 (leNat ((block.drop 12).take 4)) ∧
        (t.sec.slots.getD o {}).build = BitVec.ofNat 64 (leNat ((block.drop 16).take 8))) ∧
      (let i := bootImage s
       (i.svn.toNat ≤ s.sec.fusedSvn.toNat → fails (.fwCommitSvn 0 .ended) 6) ∧
       (s.sec.fusedSvn.toNat < i.svn.toNat → ∃ t, Goes (.fwCommitSvn 0 .ended) s t ∧
        t.sec = { s.sec with fusedSvn := i.svn, port := done 0 0 } ∧ t.ras.craze.fwChanges = sat s.ras.craze.fwChanges 1 ∧
        (roleFails s 0 = false → ∃ e ∈ t.ras.log, e.code = 0x16 ∧ e.detail0 = i.build ∧ e.detail1 = i.svn) ∧ t = { s with sec := t.sec, ras := t.ras, dl := t.dl, free := t.free }))) ∧
    Goes .drbgReseed s { s with sec := { s.sec with drbg := 0 } } ∧
    ∃ t, Goes .perfCounterUpdate s t ∧ t = { s with sags := t.sags } ∧ ∀ y, (sagOf s y).perfTrue.length = 8 →
      sagOf t y = { sagOf s y with perf := (sagOf t y).perf, perfTrue := (sagOf t y).perfTrue, perfRestart := 0 } ∧
      ∀ n, n < 8 → let c := (sagOf s y).perfTrue.getD n 0
        ((sagOf s y).perfRestart.getLsbD n = true → (sagOf t y).perf.getD n 0 = 0 ∧ (sagOf t y).perfTrue.getD n 0 = 0) ∧
        ((sagOf s y).perfRestart.getLsbD n = false → (sagOf t y).perf.getD n 0 = BitVec.ofNat 64 (c / 4096 * 4096) ∧
          (sagOf t y).perfTrue.getD n 0 = c)

-- The Derset link

/-- R399, R401 to R403, R405, R409, R412, R413, R417 and Tables 16-2, 16-5: a good flit in sequence is taken, with what it acknowledges, the credits it returns and its messages, which enter the receive spaces of their classes; a bad one is asked for again; a replay that the host
asks for counts and resends, and the sixteenth in succession of one flit puts the link in DOWN and stops the domain; a lane fault starts a swap, or puts a link without a spare in DOWN; set-up reads and writes leave their receive space and are answered, illegal ones with UNSUPPORTED;
a device request times out with its tag held back; the host snoop and credit timers stop the domain; an INT leaves once the writes before its cause have ended; the acknowledgement clears a pending bit, and the unmasking of a pending vector makes one INT wait. -/
def Claims.DersetLink : Prop :=
  ∀ (s : State) (bs : List Byte) (rx : Bool) (lane : Fin 34) (cause : SwapCause) (m : HostMsg) (tag : BitVec 11) (be : BitVec 8) (w : W64) (l : LineId)
    (cls : Fin 6) (v : Fin 18), s.dl.st = .up → s.dl.stopped = false → recoveries s = [] → running s = true →
    let d := s.dl
    let link (x : Derset) : State := { s with dl := x }
    let fallen (x : Derset) : State := { s with dl := { x with st := .down, stopped := false } }
    let counted (x : State) (k : Nat) (q : BitVec 12) (base : Derset) : Prop :=
      k < 16 → x = { s with ras := x.ras, dl := { base with
          replayCount := sat base.replayCount 1, replayed := some (q, k), flits := base.flits ++ base.kept.filter (fun f => (f.seq - q).toNat < 1024) } } ∧
        x.ras = { s.ras with craze := { s.ras.craze with errors := x.ras.craze.errors } }
    let stops (x : State) (base : Derset) : Prop := x.ras.domain = .stopped ∧ x.dl.st = .down ∧ x.ras.lastStop = 8 ∧ x.ras.stopByLink = true ∧
      x.dl.pending.getLsbD 17 = true ∧ x.dl.replayCount = sat base.replayCount 1
    let acks (f : XlFlit) : Derset := { d with acked := f.acked, replayed := if f.acked = d.acked then d.replayed else none }
    let first (op c : Nat) (x : DlIn) : Prop := d.input.find? (fun y => hostClass y.op.toNat == some c) = some x ∧ x.op.toNat = op ∧ x.tag = m.tag ∧
      x.addr = m.addr ∧ x.malformed = m.malformed ∧ x.be = be
    let got (x : DlIn) : State := pumpDl (link { d with input := d.input.erase x, owed := listModify (· + inUnits x) d.owed 3 })
    (dlParseFlit bs = none → Goes (.dlFlitReceive bs) s
      (link { d with flits := d.flits ++ [{ seq := d.txSeq, acked := d.rxSeq - 1, credits := [], body := .replay d.rxSeq }] })) ∧
    (∀ f u, dlParseFlit bs = some f → f.body = .units u →
      (f.seq ≠ d.rxSeq → Goes (.dlFlitReceive bs) s s) ∧
      (f.seq = d.rxSeq →
        let r := takeDl 64 (d.rxBytes ++ u)
        let base : Derset := { acks f with
          rxSeq := d.rxSeq + 1, used := f.credits.foldl (fun u c => listModify (fun x => x - c.2) u c.1) d.used, rxBytes := r.2 }
        ((∀ x ∈ r.1, (hostClass x.op.toNat).isSome = true) →
          (∀ c, c < 6 → spaceUsed { d with input := d.input ++ r.1 } c ≤ deviceGrant.getD c 0) →
          Goes (.dlFlitReceive bs) s (pumpDl (link { base with input := d.input ++ r.1 }))) ∧
        (∀ x, r.1 = [x] → (hostClass x.op.toNat = none ∨
            ∃ c, hostClass x.op.toNat = some c ∧ deviceGrant.getD c 0 < spaceUsed { d with input := d.input ++ [x] } c) →
          ∃ t, Goes (.dlFlitReceive bs) s t ∧ DomainStops (link base) t 5 0))) ∧
    (∀ f seq, dlParseFlit bs = some f → f.body = .replay seq → let k := replayRun (acks f).replayed seq
      ∃ t, Goes (.dlFlitReceive bs) s t ∧ counted t k seq (acks f) ∧ (16 ≤ k → stops t (acks f))) ∧
    ((dlUnacked d = 0 → Goes .dlAckTimeout s s) ∧
     (dlUnacked d ≠ 0 → let k := replayRun d.replayed (d.acked + 1)
      ∃ t, Goes .dlAckTimeout s t ∧ counted t k (d.acked + 1) d ∧ (16 ≤ k → stops t d))) ∧
    (let used := if rx = true then d.sparesRx else d.sparesTx
     cause = .lossOfLock ∨ rx = false ∨ d.swapThresh ≠ 0 →
      (used < 2 → Goes (.dlLaneSwap rx lane cause) s
        { s with dl := { d with st := .swap }, ras := { s.ras with running := some (.dlLane rx lane.val (cause == .lossOfLock)) } }) ∧
      (2 ≤ used → ∃ t, Goes (.dlLaneSwap rx lane cause) s t ∧ DomainStops (fallen d) t 8 0)) ∧
    (rx = true → cause = .threshold → d.swapThresh = 0 → Goes (.dlLaneSwap rx lane cause) s s) ∧
    ((∀ x ∈ d.input, hostClass x.op.toNat ≠ some 3) → Goes (.cfgRd m be) s s ∧ Goes (.cfgWr m be w) s s) ∧
    (∀ x, first 0x42 3 x →
      (m.malformed = true → ∃ t, Goes (.cfgRd m be) s t ∧ DomainStops (got x) t 5 0) ∧
      (m.malformed = false → (2 ^ 26 ≤ m.addr.toNat ∨ m.addr.toNat % 8 ≠ 0) → Goes (.cfgRd m be) s (sendHost (got x) (.ioData m.tag 3 []))) ∧
      (m.malformed = false → m.addr.toNat < 2 ^ 26 → m.addr.toNat % 8 = 0 →
        (regAt m.addr.toNat = none → Goes (.cfgRd m be) s (sendHost (got x) (.ioData m.tag 0 (List.replicate 8 0)))) ∧
        (∀ n, n < 1024 → m.addr.toNat = 0x3000000 + 0x1000 * n →
          Goes (.cfgRd m be) s (sendHost (got x) (.ioData m.tag 0 (leBytes 8 (ringOf s n).tail.toNat)))) ∧
        (∀ n, n < 65536 → m.addr.toNat = 0x400000 + 32 * n → Goes (.cfgRd m be) s (sendHost (got x)
          (.ioData m.tag 0 (if be = 0xFF then leBytes 8 (fenceOf s n).value.toNat else List.replicate 8 0)))))) ∧
    (∀ x, first 0x43 3 x → x.data.take 8 = leBytes 8 w.toNat →
      (m.malformed = true → ∃ t, Goes (.cfgWr m be w) s t ∧ DomainStops (got x) t 5 0) ∧
      (m.malformed = false → (2 ^ 26 ≤ m.addr.toNat ∨ m.addr.toNat % 8 ≠ 0) → Goes (.cfgWr m be w) s (sendHost (got x) (.ioDone m.tag 3))) ∧
      (m.malformed = false → m.addr.toNat < 2 ^ 26 → m.addr.toNat % 8 = 0 → regAt m.addr.toNat = none →
        Goes (.cfgWr m be w) s (sendHost (got x) (.ioDone m.tag 0))) ∧
      (m.malformed = false → m.addr.toNat = 0x600028 → ∃ t, Goes (.cfgWr m be w) s t ∧
        t = { sendHost (got x) (.ioDone m.tag 0) with obj := { s.obj with ctxSel := t.obj.ctxSel } } ∧
        (be = 0xFF → t.obj.ctxSel = w.setWidth 12) ∧ (be = 0 → t.obj.ctxSel = s.obj.ctxSel))) ∧
    (unsent s tag = true → Goes (.dlRequestTimeout tag) s s) ∧
    (unsent s tag = false →
     (tag ∈ d.stale → Goes (.dlRequestTimeout tag) s (link { d with stale := d.stale.filter (· ≠ tag) })) ∧
     ∀ x r first count, tag ∉ d.stale → tblFind d.tags tag.toNat = some x → x.owner = .fetch r first count → x.write = false →
      let q := ringOf s r
      (q.st ≠ .active → Goes (.dlRequestTimeout tag) s (link { d with
        tags := tblDel d.tags tag.toNat, stale := d.stale ++ [tag], timeout := true, timeoutCount := sat d.timeoutCount 1 })) ∧
      (q.fetches = [⟨first, count, .pending⟩] → q.st = .active → q.failHeld = false → (∀ e ∈ q.entries, e.seq ≠ first) →
        ∃ t, Goes (.dlRequestTimeout tag) s t ∧
        tag ∈ t.dl.stale ∧ t.dl.timeout = true ∧ (ringOf t r).st = .faulted ∧ (ringOf t r).failCode = 0 ∧ (ringOf t r).next = first + 1 ∧
        (ringOf t r).failSeq = first.setWidth 32)) ∧
    (((hostSnooped s l 0 = true ∨ hostSnooped s l 1 = true) → ∃ t, Goes (.hostSnoopTimeout l) s t ∧ DomainStops s t 8 (lineKey l.toNat)) ∧
     (hostSnooped s l 0 = false → hostSnooped s l 1 = false → Goes (.hostSnoopTimeout l) s s)) ∧
    (let waits := d.out.find? (fun y => dlClass y == cls.val)
     (∀ y, waits = some y → dlCredit d y = false → ∃ t, Goes (.creditStarvation cls) s t ∧ DomainStops s t 8 0) ∧
     ((waits = none ∨ ∃ y, waits = some y ∧ dlCredit d y = true) → Goes (.creditStarvation cls) s s)) ∧
    (∀ n rest, d.ints = (v, n) :: rest →
      ((∀ x ∈ d.tags, x.2.write = true → n ≤ x.2.order) →
        Goes (.int v) s (sendHost (link { d with ints := rest, sentCount := sat d.sentCount 1 }) (.int v))) ∧
      ((∃ x ∈ d.tags, x.2.write = true ∧ x.2.order < n) → Goes (.int v) s s)) ∧
    (be.getLsbD 0 = true → w.toNat % 32 = v.val → ∃ t, Goes (.dlIntAck be w) s t ∧ t = link { d with pending := t.dl.pending } ∧
      ∀ u, u < 18 → t.dl.pending.getLsbD u = (d.pending.getLsbD u && u != v.val)) ∧
    (be = 0xFF → ∃ t, Goes (.dlIntMaskWrite be w) s t ∧ t = link { d with mask := w.setWidth 18, ints := t.dl.ints } ∧
      ∃ xs : List (Fin 18 × Nat), t.dl.ints = d.ints ++ xs ∧ (xs.map (fun x => x.1)).Nodup ∧
        ∀ u : Fin 18, u ∈ xs.map (fun x => x.1) ↔ d.mask.getLsbD u.val = true ∧ w.getLsbD u.val = false ∧ d.pending.getLsbD u.val = true)

/-- R399, R401 and R402: a message of the device leaves in the next flits when the link is UP, nothing waits before it, and the host's grant of its class and the 1,024 flits of the retry buffer have room: its bytes fill flits of 244, numbered on, each acknowledging what has
arrived, and its units count against the grant; without credits, or while the link is not UP, it waits. -/
def Claims.DersetSending : Prop :=
  ∀ (s : State) (m : DlMsg),
    let d := s.dl
    let n := 16 * dlUnits m
    (d.st ≠ .up ∨ d.stopped = true → sendHost s m = { s with dl := { d with out := d.out ++ [m] } }) ∧
    (d.st = .up → d.stopped = false → d.out = [] → (∀ x ∈ d.owed, x = 0) →
      (dlCredit d m = false → sendHost s m = { s with dl := { d with out := [m] } }) ∧
      (dlCredit d m = true → (dlBytes m).length = n → 0 < n → n ≤ 244 * (1023 - dlUnacked d) → ∃ fs : List XlFlit,
        sendHost s m = { s with dl := { d with
          used := listModify (· + dlUnits m) d.used (dlClass m), tx := d.tx ++ [m], txSeq := d.txSeq + BitVec.ofNat 12 fs.length
          kept := (d.kept ++ fs).drop (d.kept.length + fs.length - 1024), flits := d.flits ++ fs } } ∧
        fs.flatMap (fun f => match f.body with
          | .units u => u
          | _ => []) = dlBytes m ∧
        ∀ i f, fs[i]? = some f → f.seq = d.txSeq + BitVec.ofNat 12 i ∧ f.acked = d.rxSeq - 1 ∧ f.credits = [] ∧
          ∃ u, f.body = .units u ∧ 0 < u.length ∧ u.length ≤ 244))

/-- R398 and R403: the bytes of a Derset flit and of the host's messages say what they hold: a flit is read from its 256 B as it was written, and a message, header and payload, from the flit stream. The type codes and the places in a flit's header are the model's choice (log 82). -/
def Claims.DersetEncoding : Prop :=
  ∀ (f : XlFlit) (u rest : List Byte) (a b : Nat × Nat) (op status tag lenM1 addr : Nat) (data : List Byte),
    (f.credits = [] ∨ f.credits = [a] ∨ f.credits = [a, b] → (∀ c ∈ f.credits, c.1 < 8 ∧ 0 < c.2 ∧ c.2 < 512) →
      (f.body = .units u → 0 < u.length → u.length ≤ 244 → (dlFlitBytes f).length = 256 ∧
        dlParseFlit (dlFlitBytes f) = some { f with body := .units (u ++ List.replicate (244 - u.length) 0) }) ∧
      (∀ q, f.body = .replay q → (dlFlitBytes f).length = 256 ∧ dlParseFlit (dlFlitBytes f) = some f)) ∧
    ((hostClass op).isSome = true → status < 16 → tag < 2048 → lenM1 < 256 → addr < 2 ^ 52 → data.length = hostPayload op lenM1 →
      takeDl 1 (dlHeader op status tag lenM1 addr ++ data ++ rest) =
        ([{ op := BitVec.ofNat 8 op, status := BitVec.ofNat 4 status, tag := BitVec.ofNat 11 tag, be := 0, addr := BitVec.ofNat 52 addr
            malformed := false, data }], rest))

/-- R255, R262 to R264, R385, R403, R406 to R409 and Tables 16-4, 16-6: the coherent requests of the host leave their receive space; they are refused unless their address is mapped for it, and else are performed at the home of their line: reads give the sector and enter the
host filter, an upgrade and a read for ownership leave no other copy and begin the hold time, a write-back and a write without caching go to DRAM. The answers to snoops go to the home; one without a snoop, or a response to no request, stops the domain. Requests to host memory leave
under the lowest free tag; the data of a ring fetch become its entries, in sequence order, an error puts the ring in FAULTED, and a late answer is counted. -/
def Claims.HostRequests : Prop :=
  ∀ (s : State) (k : SagId) (a : Nat) (m : HostMsg) (l : LineId) (i : Fin 2) (x : NearLine) (data : List Byte) (tag : BitVec 11), Sound s →
    running s = true →
    let L := l.toNat
    let D := lineDie L
    let d := s.dl
    let g := sagOf s k.val
    let coherent : List (Instr × Nat × List Byte) := [(.cRdShared m noErr, 1, []), (.cRdUnique m noErr, 2, []), (.cUpgrade m noErr, 3, []),
      (.cWrBack m data noErr, 4, data), (.cRdNa m noErr, 5, []), (.cWrNa m data noErr, 6, data)]
    let first (c : Nat) (z : DlIn) : Prop := d.input.find? (fun y => hostClass y.op.toNat == some c) = some z
    let asks (op : Nat) (bs : List Byte) (z : DlIn) : Prop := first 0 z ∧ z.op.toNat = op ∧ z.tag = m.tag ∧ z.addr = m.addr ∧
      z.malformed = m.malformed ∧ z.data = bs
    let got (c : Nat) (z : DlIn) : State :=
      pumpDl { s with dl := { d with input := d.input.erase z, owed := listModify (· + inUnits z) d.owed c } }
    let sends (t : State) (z : DlIn) (y : DlMsg) : Prop := t.dl = (sendHost (got 0 z) y).dl
    let sector (bs : List Byte) : List Byte := (bs.drop (64 * i.val)).take 64
    let entry (old : HostEntry) (st : SectorSt) : HostEntry := if i = 0 then { old with s0 := st } else { old with s1 := st }
    let only (t : State) (hold : Option Holder) : Prop := t = { s with
      homes := t.homes, dies := t.dies, dram := t.dram, symErrs := t.symErrs, sags := t.sags, hostFilter := t.hostFilter, dl := t.dl } ∧
      (∀ y, homeOf t y = if y = L then { homeOf s L with hold := hold } else homeOf s y) ∧
      ∀ y, sagOf t y = { sagOf s y with perfTrue := (sagOf t y).perfTrue }
    let copies (t : State) (c : Option NearLine) : Prop := ∀ y, homeCopy t y = if y = L then c else homeCopy s y
    let lineBytes (t : State) (val : Nat → Byte) : Prop :=
      ∀ b, memGet t.dram b = if lineKey L ≤ b ∧ b < lineKey L + 128 then val (b - lineKey L) else memGet s.dram b
    let asIs (b : Nat) : Byte := memGet s.dram (lineKey L + b)
    let written (b : Nat) : Byte := if 64 * i.val ≤ b ∧ b < 64 * i.val + 64 then data.getD (b - 64 * i.val) 0 else asIs b
    (∀ c ∈ coherent, (∀ y ∈ d.input, hostClass y.op.toNat ≠ some 0) → Goes c.1 s s) ∧
    (m.malformed = true → ∀ c ∈ coherent, ∀ z, asks c.2.1 c.2.2 z → ∃ t, Goes c.1 s t ∧ DomainStops (got 0 z) t 5 0) ∧
    (m.malformed = false → (2 ^ 44 ≤ m.addr.toNat ∨ m.addr.toNat % 64 ≠ 0) → ∀ c ∈ coherent, ∀ z, asks c.2.1 c.2.2 z →
      Goes c.1 s (sendHost (got 0 z) (.refusal m.tag 3))) ∧
    (m.malformed = false → m.addr.toNat = k.val * 2 ^ 40 + a → a < 2 ^ 40 → a % 64 = 0 →
      (hostMapped s k.val a = false → ∀ c ∈ coherent, ∀ z, asks c.2.1 c.2.2 z → Goes c.1 s (sendHost { got 0 z with
        dl := { (got 0 z).dl with refused := true, refusedCount := sat d.refusedCount 1 }
        sec := { s.sec with hostDeny := if g.st = .sealed ∧ a < carveSize s k.val then sat s.sec.hostDeny 1 else s.sec.hostDeny } }
        (.refusal m.tag 1))) ∧
      (hostMapped s k.val a = true → mapLine s k.val a = some L → i.val = a / 64 % 2 → homeUsed s L 4 < 64 →
        (StandsHome s D L x → Unreserved s L → x.data.length = 128 → hostFull s L = false →
          (∀ z, asks 1 [] z → ∃ t, Goes (.cRdShared m noErr) s t ∧ sends t z (.dataS m.tag (sector x.data)) ∧ only t none ∧ copies t (some x) ∧
            t.dram = s.dram ∧ t.hostFilter = s.hostFilter ++ [entry { line := l } .shared]) ∧
          (∀ z, asks 2 [] z → ∃ t, Goes (.cRdUnique m noErr) s t ∧ only t (some .host) ∧ copies t none ∧
            t.hostFilter = s.hostFilter ++ [entry { line := l } .unique] ∧
            sends t z (if x.st = .hd then .dataM m.tag (sector x.data) else .dataE m.tag (sector x.data)) ∧
            lineBytes t (fun b => if x.st = .hd then x.data.getD b 0 else asIs b)) ∧
          ∀ z, asks 5 [] z → ∃ t, Goes (.cRdNa m noErr) s t ∧ sends t z (.ioData m.tag 0 (sector x.data)) ∧ only t none ∧ copies t (some x) ∧
            t.dram = s.dram ∧ t.hostFilter = s.hostFilter) ∧
        (RestsInDram s L none → 64 ≤ data.length → ∀ z, asks 6 data z → ∃ t, Goes (.cWrNa m data noErr) s t ∧ sends t z (.done m.tag) ∧ only t none ∧
          copies t none ∧ t.hostFilter = s.hostFilter ∧ lineBytes t written) ∧
        (∀ e, s.hostFilter = [e] → e.line = l → homeCopy s L = none → homeOf s L = {} → (∀ n, filtOf s n L = none) → Unreserved s L →
          (∀ r ∈ (dieOf s D).rsvArray, r.pair ≠ pairOf L) → chanServes s (lineChan L) = true → tblFind s.symErrs L = none →
          tagRefused s (lineChan L) none false = false →
          (sectorOf e i = .shared → ∀ z, asks 3 [] z → ∃ t, Goes (.cUpgrade m noErr) s t ∧ sends t z (.grant m.tag) ∧ only t (some .host) ∧
            copies t none ∧ t.dram = s.dram ∧ t.hostFilter = [entry e .unique]) ∧
          (sectorOf e i ≠ .unique → ∀ z, asks 4 data z → Goes (.cWrBack m data noErr) s (sendHost (got 0 z) (.done m.tag))) ∧
          (sectorOf e i = .unique → 64 ≤ data.length → ∀ z, asks 4 data z → ∃ t, Goes (.cWrBack m data noErr) s t ∧ sends t z (.done m.tag) ∧
            only t none ∧ copies t none ∧ t.hostFilter = (if sectorOf e (1 - i) = .inv then [] else [entry e .inv]) ∧ lineBytes t written)))) ∧
    (let answers : List (Instr × Nat × List Byte × FabMsg) := [(.cSnpData l i data, 0x24, data, .snpData (.host i) l false data),
       (.cSnpAck l i, 0x25, [], .snpAck (.host i) l false), (.cNotPresent l i, 0x26, [], .notPresent (.host i) l)]
     ∀ y ∈ answers, ∀ z, first 2 z → z.op.toNat = y.2.1 → z.data = y.2.2.1 →
      (z.malformed = false → dersetSector s z.addr = some (L, i) →
        (hostSnooped (got 2 z) l i = true → Goes y.1 s { got 2 z with fabric := s.fabric ++ [y.2.2.2] }) ∧
        (hostSnooped (got 2 z) l i = false → ∃ t, Goes y.1 s t ∧ DomainStops (got 2 z) t 5 (lineKey L))) ∧
      ((z.malformed = true ∨ dersetSector s z.addr = none) → ∃ t, Goes y.1 s t ∧ DomainStops (got 2 z) t 5 (lineKey L))) ∧
    (∀ q rest n, d.st = .up → d.stopped = false → d.waiting = q :: rest → (∀ y ∈ rest, y.who = q.who) → q.who < 21 → freeTag s = some n →
      tagFree s q.who = true →
      let msg : DlMsg := if q.write = true then .ioWr (BitVec.ofNat 11 n) q.addr q.data else .ioRd (BitVec.ofNat 11 n) q.addr q.len
      let t1 := sendHost { s with dl := { d with
        waiting := rest, lastWho := q.who, sent := d.sent + 1
        tags := tblPut d.tags n { owner := q.owner, write := q.write, order := d.sent, addr := q.addr } } } msg
      ∃ t, Goes .ioRequestGrant s t ∧ t.dl.tx = t1.dl.tx ∧ ((∀ c b ms, q.owner ≠ .store c b ms) → t = t1)) ∧
    (∀ c ∈ ([(.ioData tag 0 data, 0x50, data, false), (.ioDone tag 0, 0x51, [], true)] : List (Instr × Nat × List Byte × Bool)), ∀ z, first 4 z →
      z.op.toNat = c.2.1 → z.tag = tag → z.status = 0 → z.data = c.2.2.1 →
      (z.malformed = true → ∃ t, Goes c.1 s t ∧ DomainStops (got 4 z) t 5 0) ∧
      (z.malformed = false →
        (tag ∈ d.stale → Goes c.1 s { got 4 z with dl := { (got 4 z).dl with timeoutCount := sat d.timeoutCount 1 } }) ∧
        (tag ∉ d.stale → (∀ y, tblFind d.tags tag.toNat = some y → y.write ≠ c.2.2.2) → ∃ t, Goes c.1 s t ∧ t.ras.domain = .stopped ∧
          t.ras.lastStop = 5) ∧
        ∀ y, tag ∉ d.stale → tblFind d.tags tag.toNat = some y →
          let freed : State := { got 4 z with dl := { (got 4 z).dl with tags := tblDel d.tags tag.toNat } }
          (c.2.2.2 = true → y.write = true → (∃ c b ms, y.owner = .store c b ms) → Goes c.1 s freed) ∧
          ∀ r first count, c.2.2.2 = false → y.write = false → y.owner = .fetch r first count → (ringOf s r).st = .active →
            let q := ringOf s r
            (q.fetches = [⟨first, count, .pending⟩] → ∃ t, Goes c.1 s t ∧ OnlyRing freed t r { q with
              fetches := []
              entries := q.entries ++ (List.range count).map (fun j =>
                { seq := first + BitVec.ofNat 64 j, words := wordsOf 8 (data.drop (64 * j)) }) }) ∧
            (∀ f, q.fetches = [f, ⟨first, count, .pending⟩] → f.ans = .pending → f.first ≠ first → ∃ t, Goes c.1 s t ∧
              OnlyRing freed t r { q with fetches := [f, ⟨first, count, .data data⟩] }))) ∧
    (∀ y r fs count z, tag ∉ d.stale → tblFind d.tags tag.toNat = some y → y.write = false → y.owner = .fetch r fs count →
      (ringOf s r).fetches = [⟨fs, count, .pending⟩] → (ringOf s r).st = .active → (ringOf s r).failHeld = false →
      (∀ e ∈ (ringOf s r).entries, e.seq ≠ fs) → first 4 z → z.op.toNat = 0x50 → z.tag = tag → z.status = 2 → z.data = data → z.malformed = false →
      let q := ringOf s r
      ∃ t, Goes (.ioData tag 2 data) s t ∧ (ringOf t r).st = .faulted ∧
        (ringOf t r).failCode = 0 ∧ (ringOf t r).next = fs + 1 ∧ (ringOf t r).failSeq = fs.setWidth 32 ∧
        ((ctxOf s (q.context.toNat % 4096)).fault.valid = false → (sagOf s (ctxOf s (q.context.toNat % 4096)).sag.val).st ≠ .sealed →
          let rec_ := (ctxOf t (q.context.toNat % 4096)).fault
          rec_.valid = true ∧ rec_.source = 6 ∧ rec_.code = 0 ∧ rec_.addr = BitVec.ofNat 64 y.addr.toNat))

-- Service firmware

/-- R9, R376, R397, R419, R421 to R425, R432 and Tables 17-3, 17-10, 17-15: the operations of RAS_CMD with their CMD_STATUS: a write while CMD_BUSY is discarded, a reserved bit gives BAD_OP, and a unit in another state gives STATE. DOMAIN_RESET leaves
no work, no cached line and no saggar, and keeps device memory; a SEALED saggar leaves a removal record that names no channel. MARK_CORE, RETIRE_CHANNEL, the test of a cluster and REMAP_ROW change their unit. -/
def Claims.ServiceCommands : Prop :=
  ∀ (s : State) (c : CoreId) (p : ChanId) (cl : Fin 16) (bank : Fin 64) (row : Fin 32768) (pace : Pace), recoveries s = [] →
    let port := s.ras.port
    let done (r : Ras) (n : BitVec 8) : Ras := { r with port := { port with busy := false, todo := [], status := n, result := 0 } }
    let fails (i : Instr) (n : BitVec 8) : Prop := Goes i s { s with ras := done s.ras n }
    let wc : W64 := BitVec.ofNat 64 (c.val * 65536)
    let wp : W64 := BitVec.ofNat 64 (p.val * 65536)
    let wg : W64 := BitVec.ofNat 64 (cl.val * 65536)
    let wr : W64 := BitVec.ofNat 64 (p.val * 65536 + bank.val * 2 ^ 24 + row.val * 2 ^ 32)
    let all : List Instr := [.domainReset 0 .ended, .markCore wc .ended, .retireChannel wp .ended, .testCluster wg .ended, .endTest wg .ended,
      .remapRow wr .ended]
    let ch := chanOf s p.val
    let core := coreOf s c.val
    (port.busy = true → ∀ w, ∀ i ∈ ([.domainReset w pace, .markCore w pace, .retireChannel w pace, .testCluster w pace, .endTest w pace,
      .remapRow w pace] : List Instr), Goes i s s) ∧
    (port.busy = false → ready s = false → s.ras.domain ≠ .resetting → ∀ i ∈ all, fails i 2) ∧
    (port.busy = false → ready s = true → s.ras.domain ≠ .resetting →
      (fails (.domainReset 256 .ended) 1 ∧ fails (.markCore 256 .ended) 1 ∧ fails (.testCluster (BitVec.ofNat 64 (2 ^ 20)) .ended) 1) ∧
      (s.ras.domain = .running ∨ s.ras.stopByLink = true → fails (.domainReset 0 .ended) 2) ∧
      (core.st ≠ .active → fails (.markCore wc .ended) 2) ∧ (ch.st ≠ .free → fails (.retireChannel wp .ended) 2) ∧
      (clusterOwned s cl.val = true → fails (.testCluster wg .ended) 2) ∧
      ((∀ x ∈ clusterCores cl.val, (coreOf s x).st ≠ .test) → fails (.endTest wg .ended) 2) ∧
      (ch.st ≠ .owned → ch.st ≠ .free → fails (.remapRow wr .ended) 2) ∧
      ((ch.st = .owned ∨ ch.st = .free) → ch.strong = true → 30720 ≤ row.val → fails (.remapRow wr .ended) 3) ∧
      (core.st = .active → ∃ t, Goes (.markCore wc .ended) s t ∧ (coreOf t c.val).st = .retiring ∧ t.ras.port = (done s.ras 0).port ∧
        (core.partition = none → Logs s t 7 7 noPart (0x1000 + c.val) 0 3 ∧ (∀ x, coreOf t x = if x = c.val then { core with st := .retiring } else coreOf s x) ∧
          t = { s with cores := t.cores, ras := t.ras, dl := t.dl, free := t.free })) ∧
      (ch.st = .free → ch.tg.busy = false → s.ras.repair.length < 327680 → s.ras.craze.channelsRetired.length = 4 →
        ∃ t, Goes (.retireChannel wp .ended) s t ∧ t = { s with chans := t.chans, ras := t.ras, gen := t.gen } ∧
          (∀ x, chanOf t x = if x = p.val then { ch with st := .retired } else chanOf s x) ∧
          t.ras.repair = s.ras.repair ++ [BitVec.ofNat 32 (3 * 2 ^ 29 + p.val)] ∧ t.ras.port = (done s.ras 0).port ∧
          (t.ras.craze.channelsRetired.getD (p.val / 64) 0).getLsbD (p.val % 64) = true ∧
          (s.gen.mapped = true → t.gen.changed = true ∧ t.gen.count = sat s.gen.count 1)) ∧
      (clusterOwned s cl.val = false → ∃ t, Goes (.testCluster wg .ended) s t ∧ t = { s with cores := t.cores, ras := done s.ras 0 } ∧
        ∀ x, coreOf t x = if x / 16 = cl.val ∧ (coreOf s x).st = .active then { coreOf s x with st := .test } else coreOf s x) ∧
      ((∃ x ∈ clusterCores cl.val, (coreOf s x).st = .test) → ∃ t, Goes (.endTest wg .ended) s t ∧ t = { s with cores := t.cores, ras := done s.ras 0 } ∧
        ∀ x, coreOf t x = if x / 16 = cl.val ∧ (coreOf s x).st = .test then { coreOf s x with st := .active } else coreOf s x) ∧
      ((ch.st = .owned ∨ ch.st = .free) → (ch.strong = true → row.val < 30720) → s.ras.repair.length < 327680 →
        (rowSpare ch bank.val = true → ∃ t, Goes (.remapRow wr .ended) s t ∧
          t = { s with chans := t.chans, ras := { done s.ras 0 with running := some (.row p bank.val row.val) } } ∧
          ∀ x, chanOf t x = if x = p.val then { ch with st := .retrain } else chanOf s x) ∧
        (rowSpare ch bank.val = false → ∃ t, Goes (.remapRow wr .ended) s t ∧ t.ras.port = (done s.ras 4).port ∧
          (∃ e ∈ t.ras.log, e.code = 0x09) ∧ (∃ e ∈ t.ras.log, e.code = 0x15) ∧ t = { s with ras := t.ras, dl := t.dl, free := t.free }))) ∧
    (port.busy = false → ready s = true → s.ras.domain = .stopped → s.ras.stopByLink = false →
      (∀ x, (coreOf s x).st ≠ .retiring) → (∀ x, (chanOf s x).tg.busy = false) → ∃ t, Goes (.domainReset 0 .ended) s t ∧
        t.ras.domain = .running ∧ t.ras.serviceOrdering = false ∧ t.ras.port = (done s.ras 0).port ∧ t.dram = s.dram ∧
        Logs s t 0x14 7 noPart 0xF000 0 0 ∧ t.homes = [] ∧ t.fabric = [] ∧ t.filter = [] ∧ t.hostFilter = [] ∧ t.nmOps = [] ∧ t.codecOps = [] ∧
        t.fe.launches = [] ∧ t.fe.copies = [] ∧ t.fe.waits = [] ∧ t.fe.runs = [] ∧ t.fe.graphs = [] ∧ t.obj.objs = [] ∧ t.obj.pages = [] ∧
        (∀ d, (dieOf t d).near = [] ∧ (dieOf t d).far = [] ∧ (dieOf t d).predictor = [] ∧ (dieOf t d).rsvArray = []) ∧
        (∀ x, (coreOf t x).blocks = [] ∧ (coreOf t x).subs = List.replicate 4 {} ∧ (coreOf t x).st = (coreOf s x).st) ∧
        (∀ n, (ringOf t n).st = .disabled ∧ (ringOf t n).entries = []) ∧ (∀ i, (ctxOf t i).st = .free ∧ (ctxOf t i).gen = (ctxOf s i).gen) ∧
        (∀ k : SagId, let g := sagOf s k.val
          (sagOf t k.val).st = .none ∧ (g.st ≠ .none → (sagOf t k.val).memKey = none ∧ (sagOf t k.val).linkKey = none ∧ (sagOf t k.val).slice = none) ∧
          (g.st = .sealed → ∃ r, (sagOf t k.val).removal = some r ∧ r.channels = [0, 0, 0, 0] ∧ r.oldEpoch = g.epoch ∧ r.log = g.log) ∧
          (g.st ≠ .none → ∀ q ∈ ownedChannels g, (chanOf t q).partition = none ∧
            (chanOf t q).st = if (chanOf s q).st = .owned then .free else (chanOf s q).st)))

/-- R149 to R152, R341, R401, R415, R416, R418, R420 to R422, R425 and Tables 17-2, 17-4, 17-7: a recovery that ends gives its unit back with the spare that serves it, and is counted and logged; the next of the queue starts; a failed one, such as a retrain whose verification reads show an error on its lane, stops
the domain, and a channel whose stack is in STOP makes it wait. A failed service control core gives its role to the standby; without one the domain stops. A spare or a core under test that fails its self-test is retired. -/
def Claims.Recoveries : Prop :=
  ∀ (s : State) (r : Recovery) (p : ChanId) (c : Fin 4) (x : CoreId) (lane : Nat), Sound s →
    let ch := chanOf s p.val
    let ras := s.ras
    let back (k : Channel) : Channel := { k with st := if k.partition.isSome = true then .owned else .free }
    let counted (t : State) : Prop := t.ras.recoveryCount = sat ras.recoveryCount 1 ∧ t.ras.running = none ∧ t.ras.queue = []
    let chans (t : State) (v : Channel) : Prop := ∀ y, chanOf t y = if y = p.val then v else chanOf s y
    let serves : Prop := (stackOf s (p.val / 16)).throttle ≠ .stop
    let errorless : Prop := ∀ e ∈ s.symErrs, lineChan e.1 ≠ p.val
    (ras.running = none → ∀ ok, Goes (.recoveryStart ok) s s) ∧
    (ras.running = some r → ras.queue = [] →
      (recoveryWaits s r = true → ∀ ok, Goes (.recoveryStart ok) s s) ∧
      ((r = .dqLane p lane ∨ r = .caLane p lane) → ch.st = .retrain → serves → errorless → ∃ t, Goes (.recoveryStart true) s t ∧ counted t ∧
        chans t { back ch with retrained := true, retrainCount := sat ch.retrainCount 1 } ∧
        Logs s t 3 1 noPart (0x2000 + p.val) lane 0) ∧
      (r = .dqLane p lane → serves → running s = true →
        (∃ e ∈ s.symErrs, lineChan e.1 = p.val ∧ lineOfs e.1 < 65536 ∧ ∃ y ∈ burstErrs s e.1, y.lane.val = lane) →
        ∃ t, Goes (.recoveryStart true) s t ∧ t.ras.domain = .stopped ∧ t.ras.running = none ∧ t.ras.recoveryCount = ras.recoveryCount) ∧
      (∀ bank row, r = .row p bank row → bank < 64 → row < 32768 → ch.st = .retrain → serves → errorless → ras.repair.length < 327680 →
        ∃ t, Goes (.recoveryStart true) s t ∧ counted t ∧ Logs s t 4 1 noPart (0x2000 + p.val) (bank * 65536 + row) 0 ∧
          t.ras.repair = ras.repair ++ [BitVec.ofNat 32 (2 ^ 29 + p.val * 2 ^ 21 + bank * 2 ^ 15 + row)] ∧
          t.ras.craze.rowsRemapped = sat ras.craze.rowsRemapped 1 ∧
          chans t { back ch with
            remaps := ch.remaps ++ [(bank, row)], remapped := ch.remapped + 1, candidates := ch.candidates.filter (· != (bank, row)) }) ∧
      (∀ rx loss, r = .dlLane rx lane loss → s.dl.st = .swap → ∃ t, Goes (.recoveryStart true) s t ∧ counted t ∧
        Logs s t 2 1 noPart 0x5000 lane 0 ∧ t.dl.st = .up ∧ t.dl.stopped = false ∧ t.dl.swapped = true ∧ t.dl.swapCount = sat s.dl.swapCount 1 ∧
        (if rx = true then t.dl.sparesRx = s.dl.sparesRx + 1 ∧ t.dl.sparesTx = s.dl.sparesTx
         else t.dl.sparesTx = s.dl.sparesTx + 1 ∧ t.dl.sparesRx = s.dl.sparesRx)) ∧
      (∀ n : PortId, ∀ loss, let q := portOf s n.val
        r = .xlLane n lane loss → q.st = .swap → q.ctl = [] → q.rsp = [] → q.req = [] → (∀ x ∈ q.owed, x = 0) →
        ∃ t, Goes (.recoveryStart true) s t ∧ counted t ∧ Logs s t 1 1 noPart (0x4000 + n.val) lane 0 ∧
          ∀ y, portOf t y = if y = n.val then { q with
            st := .up, stopped := false, sparesUsed := q.sparesUsed + 1, swapCount := sat q.swapCount 1
            tx := q.tx ++ q.sent.filter (fun f => (f.seq - (q.acked + 1)).toNat < 2048) } else portOf s y) ∧
      (∀ k i role, r = .failover k → k < 4 → i < 4 → ras.sccs.length = 4 → (ras.sccs.getD k {}).role = some role → (ras.sccs.getD k {}).failed = true →
        ras.sccs.getD i {} = ⟨false, none⟩ → (∀ y, y < 4 → y ≠ k → y ≠ i → (ras.sccs.getD y {}).role ≠ none) →
        ∃ t, Goes (.recoveryStart true) s t ∧ counted t ∧ (ras.logHeld = [] → Enters s t 5 1 noPart (0x6000 + k) 0 role) ∧
          t.ras.logHeld = [] ∧ (∀ y ∈ ras.logHeld.drop (ras.logHeld.length - 4095), ∃ e ∈ t.ras.log, e = { y with seq := e.seq }) ∧
          t.ras.craze.failovers = sat ras.craze.failovers 1 ∧ (t.ras.sccs.getD k {}).role = none ∧ t.ras.sccs.getD i {} = ⟨false, some role⟩) ∧
      (running s = true → recoveryWaits s r = false → ∃ t, Goes (.recoveryStart false) s t ∧ t.ras.domain = .stopped ∧ t.ras.running = none ∧ t.dl.pending.getLsbD 17 = true ∧
        (∃ e ∈ t.ras.log, e.code = 0x12 ∧ e.cls = 4 ∧ e.detail1 = BitVec.ofNat 32 (recCode r)) ∧
        (∀ rx loss, r = .dlLane rx lane loss → s.dl.st = .swap → t.dl.st = .down))) ∧
    (∀ q qs, ras.running = some r → ras.queue = q :: qs → recoveryWaits s r = false → recoverySound s r = true → ∃ t, Goes (.recoveryStart true) s t ∧ t.ras.running = some q ∧ t.ras.queue = qs ∧
      t.ras.recoveryCount = sat ras.recoveryCount 1) ∧
    (ras.sccs.length = 4 → let k := ras.sccs.getD c.val {}
      (k.failed = true → Goes (.sccFailover c) s s) ∧
      (k.failed = false → k.role = none → ∃ t, Goes (.sccFailover c) s t ∧ t = { s with ras := { ras with standby := false, sccs := t.ras.sccs } } ∧
        (t.ras.sccs.getD c.val {}).failed = true) ∧
      (∀ role, k.failed = false → k.role = some role → running s = true →
        (ras.standby = true → recoveries s = [] → ∃ t, Goes (.sccFailover c) s t ∧
          t = { s with ras := { ras with standby := false, running := some (.failover c.val), sccs := t.ras.sccs } } ∧
          ∀ y, y < 4 → t.ras.sccs.getD y {} = if y = c.val then { k with failed := true } else ras.sccs.getD y {}) ∧
        ((ras.standby = false ∨ (role = 1 ∧ ras.running = some r)) → ∃ t, Goes (.sccFailover c) s t ∧ t.ras.domain = .stopped ∧
          ∃ e ∈ t.ras.log, e.code = 0x12 ∧ e.cls = 4))) ∧
    (let k := coreOf s x.val
     ((k.st = .spare ∨ k.st = .test) →
      (∃ t, Goes (.selfTestPass x true) s t ∧ OnlyCore s t x.val { k with selfTest := true }) ∧
      (ras.repair.length < 327680 → ras.craze.coreMap.length = 4 → ∃ t, Goes (.selfTestPass x false) s t ∧
        (∀ y, coreOf t y = if y = x.val then { k with st := .retired, selfTest := false } else coreOf s y) ∧
        Logs s t 6 1 (corePart k) (0x1000 + x.val) 0 0 ∧ t.ras.repair = ras.repair ++ [BitVec.ofNat 32 (2 * 2 ^ 29 + x.val)] ∧
        t.ras.craze.coresRetired = sat ras.craze.coresRetired 1 ∧ (t.ras.craze.coreMap.getD (x.val / 64) 0).getLsbD (x.val % 64) = true)) ∧
     (k.st = .active → ∀ ok, Goes (.selfTestPass x ok) s s))

/-- R426, R428 to R430 and Table 17-9: a read of the firing-log window marks its entry read; a powered second adds to the running counts, to the bin of each reading and to the thermal-cycle detector; a summary takes the next SEQ, and its last 4 bytes
are the CRC of the rest; a calendar stamp in range becomes STAMP_LAST, the first also STAMP_FIRST, an earlier one is logged, and one out of range is refused. -/
def Claims.CrazingRecord : Prop :=
  ∀ (s : State) (ofs : BitVec 17) (j : BitVec 16) (watts : Nat) (w : W64),
    let z := s.ras.craze
    let only (t : State) : Prop := t = { s with ras := { s.ras with craze := t.ras.craze } }
    (∃ t, Goes (.firingLogRead ofs) s t ∧ t = { s with ras := { s.ras with log := t.ras.log } } ∧
      t.ras.log = s.ras.log.map (fun e => if e.seq.toNat % 4096 = ofs.toNat / 32 then { e with read := true } else e)) ∧
    (z.dieBins.length = 14 →
      let celsius (a : Int) : Int := 16 * a
      let inBin (t : Int) (b : Nat) : Prop :=
        (b = 0 ∧ t < celsius 45) ∨ (b = 13 ∧ celsius 105 ≤ t) ∨ (0 < b ∧ b < 13 ∧ celsius (40 + 5 * b) ≤ t ∧ t < celsius (45 + 5 * b))
      (∃ t, Goes (.poweredSecond none watts) s t ∧ only t ∧ t.ras.craze.poweredS = z.poweredS + 1 ∧ t.ras.craze.energyWs = z.energyWs + watts ∧
        t.ras.craze.dieBins = z.dieBins ∧ t.ras.craze.thermalCycles = z.thermalCycles) ∧
      (∃ t, Goes (.poweredSecond (some j) watts) s t ∧ only t ∧ t.ras.craze.poweredS = z.poweredS + 1 ∧ t.ras.craze.energyWs = z.energyWs + watts ∧
        (∀ b, b < 14 → (inBin j.toInt b → t.ras.craze.dieBins.getD b 0 = z.dieBins.getD b 0 + 1) ∧
          (¬ inBin j.toInt b → t.ras.craze.dieBins.getD b 0 = z.dieBins.getD b 0)) ∧
        (∀ i b, i < s.memStacks.length → s.memStacks.length ≤ z.stackBins.length → b < 14 → (z.stackBins.getD i []).length = 14 →
          (inBin (stackOf s i).temp.toInt b → (t.ras.craze.stackBins.getD i []).getD b 0 = (z.stackBins.getD i []).getD b 0 + 1) ∧
          (¬ inBin (stackOf s i).temp.toInt b → (t.ras.craze.stackBins.getD i []).getD b 0 = (z.stackBins.getD i []).getD b 0)) ∧
        (z.lo = none → t.ras.craze.lo = some j.toInt ∧ t.ras.craze.hi = j.toInt ∧ t.ras.craze.rising = true) ∧
        ∀ lo, z.lo = some lo →
          let c := t.ras.craze
          (z.rising = true → c.hi = max z.hi j.toInt ∧
            (j.toInt ≤ c.hi - celsius 40 → c.rising = false ∧ c.lo = some j.toInt ∧
              c.thermalCycles = if celsius 40 ≤ c.hi - lo then sat z.thermalCycles 1 else z.thermalCycles) ∧
            (c.hi - celsius 40 < j.toInt → c.rising = true ∧ c.lo = some lo ∧ c.thermalCycles = z.thermalCycles)) ∧
          (z.rising = false → c.lo = some (min lo j.toInt) ∧ c.thermalCycles = z.thermalCycles ∧
            (min lo j.toInt + celsius 40 ≤ j.toInt → c.rising = true ∧ c.hi = j.toInt) ∧
            (j.toInt < min lo j.toInt + celsius 40 → c.rising = false ∧ c.hi = z.hi)))) ∧
    (z.dieBins.length = 14 → z.stackBins.length = 16 → (∀ b ∈ z.stackBins, b.length = 14) → z.channelsRetired.length = 4 → z.coreMap.length = 4 →
      z.errors.length = 8 → ∃ t x, Goes .summaryWrite s t ∧ t = { s with ras := t.ras, dl := t.dl, free := t.free } ∧
        t.ras.summaries.head? = some x ∧ x.counters = t.ras.craze ∧ x.counters.seq = z.seq + 1 ∧ x.counters.poweredS = z.poweredS ∧
        x.bytes.length = 4096 ∧ x.bytes.drop 4092 = leBytes 4 (crc32c (x.bytes.take 4092)) ∧ x.bytes.take 4 = leBytes 4 0x43525A48 ∧
        (x.bytes.drop 8).take 8 = leBytes 8 (z.seq + 1).toNat ∧ (x.bytes.drop 16).take 8 = leBytes 8 z.poweredS.toNat ∧
        (x.bytes.drop 24).take 8 = leBytes 8 (z.energyWs / 3600) ∧ (x.bytes.drop 32).take 4 = leBytes 4 z.thermalCycles.toNat ∧
        ∀ y ∈ t.ras.summaries.tail, y ∈ s.ras.summaries ∧ y.counters.seq.toNat % 256 ≠ (z.seq + 1).toNat % 256) ∧
    (((w.toNat < 1704067200 ∨ 4102444800 < w.toNat) → Goes (.rasCalWrite 0xFF w) s
        { s with ras := { s.ras with calReject := true, calRejectCount := sat s.ras.calRejectCount 1 } }) ∧
     (1704067200 ≤ w.toNat → w.toNat ≤ 4102444800 → ∃ t, Goes (.rasCalWrite 0xFF w) s t ∧ t.ras.craze.stampLast = some (w, z.poweredS) ∧
        t.ras.craze.stampFirst = (if z.stampFirst.isSome = true then z.stampFirst else some (w, z.poweredS)) ∧
        (w.toNat < (calWord s).toNat → Logs s t 0x17 7 noPart 0xF000 0 0) ∧ ((calWord s).toNat ≤ w.toNat → only t)))

/-- R264, R290, R468 to R471 and Tables 19-6, 19-8: RAS_QUIESCE takes TIMEOUT_MS in its range, and START begins an orderly quiesce while the device is READY or after a failed start-up; at the drain timeout every ring that is not idle is destroyed; a
quiesce whose engines still have writes to make stays in DRAINING, and one that has no work to drain ends with every line in DRAM, the summary written and READY_OFF released; after a domain stop it ends as PARTIAL. -/
def Claims.Quiesce : Prop :=
  ∀ (s : State) (ms : Nat),
    let word_ (start : Bool) : W64 := BitVec.ofNat 64 (2 * ms + boolNat start)
    let timed (q : BitVec 4) : Ras := { s.ras with timeoutMs := BitVec.ofNat 16 ms, qstate := q, quiesceAborted := false }
    let may : Prop := s.ras.qstate = 0 ∧ ((s.ras.phase = 8 ∧ s.ras.domain ≠ .resetting) ∨ (s.ras.fail ≠ 0 ∧ s.dl.st = .up))
    ((ms = 0 ∨ (10000 < ms ∧ ms < 65536)) → Goes (.orderlyQuiesce 0xFF (word_ true) .running) s s) ∧
    (0 < ms → ms ≤ 10000 →
      Goes (.orderlyQuiesce 0xFF (word_ false) .ended) s { s with ras := { s.ras with timeoutMs := BitVec.ofNat 16 ms } } ∧
      (¬ may → Goes (.orderlyQuiesce 0xFF (word_ true) .ended) s { s with ras := { s.ras with timeoutMs := BitVec.ofNat 16 ms } }) ∧
      (may → Goes (.orderlyQuiesce 0xFF (word_ true) .running) s { s with ras := timed (if s.ras.fail = 0 then 1 else 2) }) ∧
      (may → s.ras.fail ≠ 0 → ∃ t, Goes (.orderlyQuiesce 0xFF (word_ true) .ended) s t ∧ t.ras.qstate = 3 ∧ t.pwr.readyOff = true ∧
        t.ras.craze.seq = s.ras.craze.seq + 1 ∧ t.dies = s.dies ∧ t.dram = s.dram) ∧
      (may → s.ras.fail = 0 → busyRings s = [] → (∀ c b, (subOf (coreOf s c) b).buffer = []) → running s = true → allQuiet s = false →
        Goes (.orderlyQuiesce 0xFF (word_ true) .ended) s { s with ras := timed 1 }) ∧
      (may → s.ras.fail = 0 → busyRings s = [] → (running s = true → allQuiet s = true) → ∃ t, Goes (.orderlyQuiesce 0xFF (word_ true) .ended) s t ∧
        t.pwr.readyOff = true ∧ t.ras.craze.seq = s.ras.craze.seq + 1 ∧
        (running s = true → t.ras.qstate = 3 ∧ ∀ l, l < 2 ^ 33 → homeCopy t l = none ∧ ∀ d, farCopy t d l = none) ∧
        (running s = false → t.ras.qstate = 5 ∧ t.dies = s.dies ∧ t.dram = s.dram))) ∧
    (s.ras.qstate ≠ 1 → Goes .quiesceDrainTimeout s s) ∧
    (s.ras.qstate = 1 → (busyRings s = [] → Goes .quiesceDrainTimeout s s) ∧
      (busyRings s ≠ [] → ∃ t, Goes .quiesceDrainTimeout s t ∧ t.ras.quiesceAborted = true ∧ ∀ n ∈ busyRings s, (ringOf t n).st = .disabled))

-- Power, clocks, sensors and start-up

/-- A module reset (R444, R445, Table 18-8): of the main domain stay the counts that power-on clears, the flash and its record, the firing log and the fuses; every core is as built and every unit waits for its training, but what is RETIRED stays so, no ring or saggar is left, and the caps
are those of Bisque. -/
structure Restarts (s t : State) : Prop where
  pending : t.pending = s.pending
  fuses : t.fuses = s.fuses
  cores : ∀ c, c < 256 → coreOf t c = { st := if (coreOf s c).st = .retired then .retired else builtState s.fuses c }
  rings : (s.fe.rings.map (fun x => x.1)).Nodup → ∀ n, ringOf t n = { enableRejectCount := (ringOf s n).enableRejectCount }
  sags : ∀ k, sagOf t k = {}
  chans : (s.chans.map (fun x => x.1)).Nodup → ∀ p, (chanOf t p).st = (if (chanOf s p).st = .retired then .retired else .untrained) ∧ (chanOf t p).partition = none ∧ (chanOf t p).tag = none ∧ (chanOf t p).remaps = [] ∧
    (chanOf t p).corrected = (chanOf s p).corrected ∧ (chanOf t p).retrainCount = (chanOf s p).retrainCount
  link : t.dl = { replayCount := s.dl.replayCount, refusedCount := s.dl.refusedCount, timeoutCount := s.dl.timeoutCount
                  swapCount := s.dl.swapCount, sentCount := s.dl.sentCount, tx := s.dl.tx, flits := s.dl.flits }
  ports : ∀ n, (portOf t n).st = (if (portOf s n).st = .retired then .retired else .unused) ∧ (portOf t n).sparesUsed = 0 ∧ (portOf t n).downCount = (portOf s n).downCount
  caches : ∀ d, (dieOf t d).near = [] ∧ (dieOf t d).far = [] ∧ (dieOf t d).clock = 0
  phase : t.ras.phase = 0 ∧ t.ras.fail = 0 ∧ t.ras.qstate = 0 ∧ t.ras.domain = .running ∧ t.ras.clock = 0
  log : t.ras.log = s.ras.log ∧ t.ras.nextSeq = s.ras.nextSeq
  flash : t.ras.summaries = s.ras.summaries ∧ t.ras.repair = s.ras.repair ∧ t.ras.history = s.ras.history ∧ t.sec.slots = s.sec.slots ∧
    t.sec.fusedSvn = s.sec.fusedSvn
  fabric : t.homes = [] ∧ t.fabric = [] ∧ t.filter = [] ∧ t.hostFilter = []
  power : t.pwr.profile = 0 ∧ t.pwr.caps = ⟨17, 4, 20, 20, 20⟩ ∧ t.pwr.limit = s.pwr.limit ∧ t.pwr.brownoutCount = s.pwr.brownoutCount ∧
    t.pwr.jthrottle = false ∧ t.pwr.holdover = false

/-- R437 to R441, R444, R445 and Tables 18-4, 18-6, 18-8: the input states, PWR_EN and RESET_N: what they set, what they count, and the resets that they start with their RESET_CAUSE. -/
def Claims.InputStates : Prop :=
  ∀ (s : State) (straps : Fin 8) (ns : Nat) (taken fails : Bool),
    let p := s.pwr
    let pwr (x : Power) : State := { s with pwr := x }
    (p.input = .off → p.ovShutdown = false → Goes (.standbyEntry straps) s (pwr { p with input := .standby, straps })) ∧
    ((p.input ≠ .off ∨ p.ovShutdown = true) → Goes (.standbyEntry straps) s s) ∧
    (p.input = .off → Goes .uvlo s (pwr { p with ovShutdown := false }) ∧ Goes .ovShutdown s s) ∧
    (p.input ≠ .off → ∀ x ∈ [(Instr.uvlo, (3 : BitVec 4), false), (.ovShutdown, 4, true)], ∃ t, Goes x.1 s t ∧
      t.pwr.input = .off ∧ t.pwr.mainRails = false ∧ t.pwr.pwrgd = false ∧ t.pwr.ovShutdown = x.2.2 ∧ t.pwr.pwrEn = p.pwrEn ∧
      t.pwr.resetCause = (if p.mainRails = true then x.2.1 else 0) ∧ t.pwr.limit = 0 ∧ t.pwr.brownoutCount = 0 ∧ t.pwr.overvoltCount = 0 ∧
      t.pwr.sbTimeoutCount = 0 ∧ t.ras.log = [] ∧ t.ras.nextSeq = 0 ∧ t.ras.summaries = s.ras.summaries ∧ t.ras.repair = s.ras.repair ∧
      t.sec.slots = s.sec.slots ∧ t.sec.fusedSvn = s.sec.fusedSvn ∧ t.fuses = s.fuses ∧ (∀ c, (chanOf t c).corrected = 0 ∧ (chanOf t c).st = .untrained) ∧
      ∀ k, sagOf t k = {}) ∧
    (p.input = .operating → ∃ t, Goes .brownout s t ∧ t.pwr = { p with input := .brownout, brownout := true, brownoutCount := sat p.brownoutCount 1 } ∧
      t.dl.pending.getLsbD 16 = true ∧ t = { s with pwr := t.pwr, dl := t.dl }) ∧
    (p.input ≠ .operating → Goes .brownout s s) ∧
    ((p.input = .brownout ∨ p.input = .overvolt) → Goes .brownoutExit s (pwr { p with input := .operating })) ∧
    (p.input = .standby → Goes .brownoutExit s s ∧ Goes .overvolt s s) ∧
    ((p.input = .operating ∨ p.input = .brownout) → Goes .overvolt s
      (pwr { p with input := .overvolt, overvolt := true, overvoltCount := sat p.overvoltCount 1 })) ∧
    (p.input = .standby → p.mainRails = false → p.railsHeld = false → p.pwrEn = false →
      (∃ t, Goes (.pwrEnRise false) s t ∧ Restarts s t ∧ t.pwr.mainRails = true ∧ t.pwr.pwrgd = true ∧ t.pwr.input = .operating ∧ t.pwr.pwrEn = true ∧
        t.pwr.readyOff = false ∧ t.pwr.resetCause = 2) ∧
      ∃ t, Goes (.pwrEnRise true) s t ∧ Restarts s t ∧ t.pwr.mainRails = false ∧ t.pwr.pwrgd = false ∧ t.pwr.railFail = true ∧
        t.pwr.resetCause = 7 ∧ t.pwr.railsHeld = true) ∧
    ((p.input = .off ∨ p.railsHeld = true) → p.pwrEn = true → Goes (.pwrEnRise fails) s s) ∧
    (p.mainRails = true → ∃ t, Goes .pwrEnFall s t ∧ Restarts s t ∧ t.pwr.mainRails = false ∧ t.pwr.pwrgd = false ∧ t.pwr.input = .standby ∧
      t.pwr.pwrEn = false ∧ t.pwr.thermtrip = false ∧ t.pwr.resetCause = p.resetCause) ∧
    (p.mainRails = false → Goes .pwrEnFall s (pwr { p with pwrEn := false, railFail := false, railsHeld := false, thermtrip := false })) ∧
    ((ns < 10000 ∨ p.mainRails = false ∨ (ns < 12000 ∧ taken = false)) → Goes (.resetNAssert ns taken) s s) ∧
    (p.mainRails = true → (12000 ≤ ns ∨ (10000 ≤ ns ∧ taken = true)) → ∃ t, Goes (.resetNAssert ns taken) s t ∧ Restarts s t ∧
      t.pwr.resetCause = 1 ∧ t.pwr.mainRails = true ∧ t.pwr.input = p.input)

/-- R443, R446 to R449, R453, R455 and Tables 18-5, 18-13: the reference clock is accepted or lost and the PLL enters and leaves holdover; its expiry switches the rails off; the fast trip and the 1 ms loop lower and raise the caps, of which the stacks take their own; PWR_CTRL takes a profile
from either side and a board limit from the sideband alone. -/
def Claims.ClocksAndPower : Prop :=
  ∀ (s : State) (ppm : Int) (flag : Bool) (watts : Nat) (w : W64),
    let p := s.pwr
    let pwr (x : Power) : State := { s with pwr := x }
    let told (x : Power) : State := { s with pwr := x, memStacks := s.memStacks.map (fun k => { k with cap := BitVec.ofNat 5 x.caps.nm }) }
    let lost : Power :=
      if p.mainRails = true ∧ 2 ≤ s.ras.phase.toNat ∧ p.holdover = false then
        { p with refclkOk := false, holdover := true, refclkFault := true, refclkCount := sat p.refclkCount 1 }
      else { p with refclkOk := false }
    let back : Power := { p with refclkOk := true, holdover := false }
    let ceiling (v : BitVec 2) : Caps := match v.toNat with
      | 0 => ⟨17, 4, 20, 20, 20⟩
      | 1 => ⟨6, 20, 20, 20, 20⟩
      | 2 => ⟨20, 0, 20, 20, 20⟩
      | _ => ⟨5, 5, 5, 5, 5⟩
    let least (a b : Caps) : Caps := ⟨min a.slab b.slab, min a.nm b.nm, min a.mem b.mem, min a.link b.link, min a.issue b.issue⟩
    let inForce (v : BitVec 2) : Caps := if p.input = .brownout ∨ p.holdover = true then least (ceiling v) (ceiling 3) else ceiling v
    let limit (v : BitVec 2) (l : BitVec 10) : Nat :=
      let board := if l = 0 then 2400 else min 2400 (10 * l.toNat)
      if v = 3 then min board 600 else board
    (p.input ≠ .off →
      (Goes .refclkLoss s (pwr lost) ∧ Goes .refclkReaccept s (pwr back)) ∧
      (ppm.natAbs ≤ 250 → Goes (.refclkMeasure ppm flag) s (pwr back)) ∧ (350 < ppm.natAbs → Goes (.refclkMeasure ppm flag) s (pwr lost)) ∧
      (250 < ppm.natAbs → ppm.natAbs ≤ 350 → Goes (.refclkMeasure ppm flag) s (pwr (if flag = true then lost else back)))) ∧
    (p.holdover = false → Goes .holdoverExpiry s s) ∧
    (p.input ≠ .off → ∀ c, (c = Instr.holdoverExpiry ∧ p.holdover = true) ∨
        (c = .startUpClockTimeout ∧ p.mainRails = true ∧ s.ras.phase = 1 ∧ p.refclkOk = false) →
      ∃ t, Goes c s t ∧ Restarts s t ∧ t.pwr.mainRails = false ∧ t.pwr.pwrgd = false ∧ t.pwr.resetCause = 6 ∧ t.pwr.railsHeld = true ∧
        t.pwr.input = .standby) ∧
    (p.refclkOk = true → Goes .startUpClockTimeout s s) ∧
    (p.mainRails = true → p.ampsLost = false →
      (limit p.profileNow p.limitNow + 400 < watts → Goes (.fastTrip watts) s (told { p with caps := { p.caps with
        slab := max 1 (p.caps.slab - 4), nm := if p.caps.nm = 0 then 0 else max 1 (p.caps.nm - 4) } })) ∧
      (watts ≤ limit p.profileNow p.limitNow + 400 → Goes (.fastTrip watts) s s)) ∧
    (p.mainRails = true → p.ampsLost = true → Goes (.fastTrip watts) s s) ∧
    (p.mainRails = true → p.ampsLost = false → p.jthrottle = false →
      let c := least p.caps (inForce p.profile)
      let lim := limit p.profile p.limit
      let below := if p.profile ≠ p.profileNow ∨ p.limit ≠ p.limitNow then 0 else p.below
      let ends (b : Nat) (x : Caps) : Prop := Goes (.powerLoopTick watts) s
        (told { p with profileNow := p.profile, limitNow := p.limit, below := b, caps := x })
      (lim < watts → (1 < c.slab ∨ 1 < c.nm) → ends 0 (if c.nm ≤ c.slab then { c with slab := c.slab - 1 } else { c with nm := c.nm - 1 })) ∧
      (lim < watts → c.slab ≤ 1 → c.nm ≤ 1 → ends 0 { c with mem := max 5 (c.mem - 1), link := max 5 (c.link - 1), issue := max 5 (c.issue - 1) }) ∧
      (watts ≤ lim → lim - 100 ≤ watts → ends 0 c) ∧ (watts < lim - 100 → below = 0 → ends 1 c) ∧
      (watts < lim - 100 → 0 < below → let top := inForce p.profile
        ((c.mem < top.mem ∨ c.link < top.link ∨ c.issue < top.issue) → ends 0 { c with
          mem := min top.mem (c.mem + 1), link := min top.link (c.link + 1), issue := min top.issue (c.issue + 1) }) ∧
        (c.mem = top.mem → c.link = top.link → c.issue = top.issue →
          (c.slab = top.slab → c.nm = top.nm → ends 0 c) ∧
          (c.slab < top.slab → top.nm - c.nm ≤ top.slab - c.slab → ends 0 { c with slab := c.slab + 1 }) ∧
          (top.slab - c.slab < top.nm - c.nm → ends 0 { c with nm := c.nm + 1 })))) ∧
    (p.mainRails = true → p.jthrottle = true → ∃ t, Goes (.powerLoopTick watts) s t ∧ t = told t.pwr ∧ 1 ≤ t.pwr.caps.slab ∧
      t.pwr.caps.slab ≤ max 1 (p.caps.slab - 1)) ∧
    (p.input ≠ .off → p.mainRails = true →
      let lim := w.toNat / 2 ^ 32 % 1024
      let now : Power := { p with profile := w.setWidth 2 }
      Goes (.pwrCtrlWrite false 0xFF w) s (pwr now) ∧
      (lim = 0 ∨ (60 ≤ lim ∧ lim ≤ 240) → Goes (.pwrCtrlWrite true 0xFF w) s (pwr { now with limit := BitVec.ofNat 10 lim })) ∧
      ((0 < lim ∧ lim < 60) ∨ 240 < lim → Goes (.pwrCtrlWrite true 0xFF w) s
        (pwr { now with limitReject := true, limitRejectCount := sat p.limitRejectCount 1 })))

/-- R396, R449 to R451 and Tables 18-12, 18-16: a sample of the junction sensors gives each kind of die its hottest plausible reading, sets and clears the junction rule, and trips at 110 °C in two successive samples; an input pair in range and in
agreement is used, else the one reading that the table names, and with no voltage BROWNOUT is entered; the telemetry takes its 1 s means. -/
def Claims.Sensors : Prop :=
  ∀ (s : State) (r : List (BitVec 16)) (v0 v1 i0 i1 : Int) (watts dv : Nat),
    let p := s.pwr
    let temp (i : Nat) : Int := (r.getD i 0).toInt
    let celsius (a : Int) : Int := 16 * a
    let highest (m : Int) (lo hi : Nat) : Prop := (∀ i, lo ≤ i → i < hi → temp i ≤ m) ∧ ∃ i, lo ≤ i ∧ i < hi ∧ temp i = m
    ((r.length ≠ 76 ∨ p.mainRails = false) → Goes (.junctionSample r) s s) ∧
    (r.length = 76 → p.mainRails = true →
      (∀ i, i < 76 → celsius (-40) ≤ temp i ∧ temp i ≤ celsius 150 ∧ ∀ q, p.junctions[i]? = some q → (temp i - q.toInt).natAbs ≤ 160) →
      ((∀ i ∈ p.hotSensors, temp i < celsius 110) → ∃ t, Goes (.junctionSample r) s t ∧ t = { s with pwr := t.pwr } ∧
        highest t.pwr.junctionC 0 64 ∧ highest t.pwr.junctionH 64 68 ∧ highest t.pwr.junctionE 68 76 ∧
        t.pwr = { p with
          junctions := r, junctionC := t.pwr.junctionC, junctionH := t.pwr.junctionH, junctionE := t.pwr.junctionE
          hotSensors := (List.range 76).filter (fun i => celsius 110 ≤ temp i)
          jthrottle := if celsius 100 ≤ t.pwr.junctionC then true else if t.pwr.junctionC < celsius 97 then false else p.jthrottle }) ∧
      (p.input ≠ .off → (∃ i ∈ p.hotSensors, i < 76 ∧ celsius 110 ≤ temp i) → ∃ t, Goes (.junctionSample r) s t ∧ Restarts s t ∧
        t.pwr.mainRails = false ∧ t.pwr.thermtrip = true ∧ t.pwr.resetCause = 5 ∧ t.pwr.railsHeld = true)) ∧
    (r.length = 76 → p.mainRails = true → s.ras.phase.toNat < 3 → ∀ j, j < 76 → (temp j < celsius (-40) ∨ celsius 150 < temp j) →
      (∀ i, i < 76 → i ≠ j → celsius (-40) ≤ temp i ∧ temp i < celsius 110 ∧ ∀ q, p.junctions[i]? = some q → (temp i - q.toInt).natAbs ≤ 160) →
      ∃ t, Goes (.junctionSample r) s t ∧ t.pwr.sensorFault = true ∧ t.pwr.sensorCount = sat p.sensorCount 1 ∧ j ∉ t.pwr.hotSensors ∧
        (j < 64 → (∀ i, i < 64 → i ≠ j → temp i ≤ t.pwr.junctionC) ∧ ∃ i, i < 64 ∧ i ≠ j ∧ temp i = t.pwr.junctionC)) ∧
    (p.input ≠ .off →
      let inV (x : Int) : Prop := 40000 ≤ x ∧ x ≤ 80000
      let inA (x : Int) : Prop := 0 ≤ x ∧ x ≤ 60000
      (inV v0 → inV v1 → inA i0 → inA i1 → (v0 - v1).natAbs ≤ 1500 → (i0 - i1).natAbs ≤ 2000 → Goes (.inputSensorSample v0 v1 i0 i1) s
        { s with pwr := { p with volts := [v0, v1], amps := [i0, i1], ampsLost := false } }) ∧
      (s.ras.phase.toNat < 3 → inV v0 → inV v1 → 1500 < (v0 - v1).natAbs → inA i0 → inA i1 → (i0 - i1).natAbs ≤ 2000 →
        Goes (.inputSensorSample v0 v1 i0 i1) s { s with pwr := { p with
          volts := [min v0 v1], amps := [i0, i1], ampsLost := false, sensorFault := true, sensorCount := sat p.sensorCount 1 } }) ∧
      (s.ras.phase.toNat < 3 → inV v0 → inV v1 → (v0 - v1).natAbs ≤ 1500 → inA i0 → inA i1 → 2000 < (i0 - i1).natAbs →
        Goes (.inputSensorSample v0 v1 i0 i1) s { s with pwr := { p with
          volts := [v0, v1], amps := [max i0 i1], ampsLost := false, sensorFault := true, sensorCount := sat p.sensorCount 1 } }) ∧
      (¬ inV v0 → ¬ inV v1 → ∃ t, Goes (.inputSensorSample v0 v1 i0 i1) s t ∧ t.pwr.volts = [] ∧ t.pwr.sensorFault = true ∧
        (p.input = .operating → t.pwr.input = .brownout ∧ t.pwr.brownout = true ∧ t.dl.pending.getLsbD 16 = true)) ∧
      (¬ inA i0 → ¬ inA i1 → ∃ t, Goes (.inputSensorSample v0 v1 i0 i1) s t ∧ t.pwr.amps = [] ∧ t.pwr.ampsLost = true)) ∧
    (p.mainRails = false → Goes (.telemetryUpdate watts dv) s s) ∧
    (p.mainRails = true → ∃ t, Goes (.telemetryUpdate watts dv) s t ∧ t = { s with pwr := { p with
        inputW := BitVec.ofNat 16 (watts / 10), inputDv := BitVec.ofNat 10 dv, hotC := t.pwr.hotC, hotH := t.pwr.hotH, hotE := t.pwr.hotE } } ∧
      t.pwr.hotC = BitVec.ofInt 8 (p.junctionC.fdiv 16) ∧ t.pwr.hotH = BitVec.ofInt 8 (p.junctionH.fdiv 16) ∧
      t.pwr.hotE = BitVec.ofInt 8 (p.junctionE.fdiv 16))

/-- R454 to R463, R466 and Tables 19-1, 19-4: start-up from a released reset reaches READY with the preferred valid image, every part trained and the maps final; a channel maps its failing lanes to their spares, and is FAILED where a group has more of them or a step times out; a step that fails keeps its number in PHASE with FAIL and FAIL_DETAIL. -/
def Claims.StartUp : Prop :=
  ∀ (s : State) (env : StartEnv) (pace : Pace) (q : ChanId) (i j : Fin 144) (n m : Nat) (k : Fin 6),
    let a := s.sec.slots.getD 0 {}
    let b := s.sec.slots.getD 1 {}
    let whole (x : FlashSlot) : Prop := x.valid = true ∧ x.erased = false ∧ s.sec.fusedSvn.toNat ≤ x.svn.toNat
    let clean : StartEnv := { env with
      slotFault0 := 0, slotFault1 := 0, headerBad0 := false, headerBad1 := false, sccDead := 0, bridgeDead := none, repairReads := true
      coreFails := [], chans := [], dersetFail := none, dersetBad := (0, 0), dersetGrant := [0, 256, 4096, 257, 8192, 4] }
    let stopsAt (e : StartEnv) (phase fail : BitVec 4) (detail : Nat) : Prop := ∃ t, Goes (.startUp e .ended) s t ∧ t.ras.phase = phase ∧
      t.ras.fail = fail ∧ t.ras.failDetail = BitVec.ofNat 16 detail ∧ ready t = false
    ((s.pwr.mainRails = false ∨ s.ras.phase ≠ 0) → Goes (.startUp env pace) s s) ∧
    (s.pwr.mainRails = true → s.ras.phase = 0 → s.ras.fail = 0 → s.ras.qstate = 0 → s.pwr.refclkOk = true → s.pwr.input = .operating → s.pwr.holdover = false →
      s.ras.repair = [] → s.dies.length = 4 → (s.cores.map (fun x => x.1)).Nodup → (∀ c, c < 256 → coreOf s c = { st := builtState s.fuses c }) →
      (∃ c, c < 256 ∧ builtState s.fuses c = .active) → (s.chans.map (fun x => x.1)).Nodup →
      (∀ p, (chanOf s p).st = .untrained) → whole a → whole b →
      (∃ t, Goes (.startUp clean .checking) s t ∧ t.ras.phase = 1) ∧
      (∃ t, Goes (.startUp clean .ended) s t ∧ ready t = true ∧ t.ras.phase = 8 ∧ t.ras.fail = 0 ∧ t.ras.serviceOrdering = false ∧
        t.ras.fallback = false ∧ t.gen.mapped = true ∧ t.dl.st = .up ∧ t.ras.failedChannels = 0 ∧ (∀ p, p < 256 → (chanOf t p).st = .free ∧ (chanOf t p).addrPattern = true) ∧
        t.sec.bootSlot = (if a.svn.toNat < b.svn.toNat ∨ (a.svn = b.svn ∧ a.build.toNat < b.build.toNat) then 1 else 0) ∧
        t.sec.seedLocked = true ∧ t.dl.mask = s.dl.mask ∧ (∀ k, sagOf t k = sagOf s k) ∧
        ∀ c, c < 256 → (coreOf t c).st = builtState s.fuses c ∨ (builtState s.fuses c = .spare ∧ (coreOf t c).st = .active)) ∧
      (1 ≤ n → 1 ≤ m → let one (x : ChanTrain) : State → Prop := fun t => Goes (.startUp { clean with chans := [x] } .ended) s t ∧ t.ras.phase = 8
        (∃ t, one ⟨q, none, [], [(i, n)]⟩ t ∧ (chanOf t q.val).st = .free ∧
          (chanOf t q.val).dqSpare = listSet (chanOf s q.val).dqSpare (dqGroup i.val) (BitVec.ofNat 8 (128 + dqIndex i.val))) ∧
        (i ≠ j → dqGroup i.val = dqGroup j.val → ∃ t, one ⟨q, none, [], [(i, n), (j, m)]⟩ t ∧ (chanOf t q.val).st = .failed ∧
          (chanOf t q.val).failStep = 4 ∧ t.ras.failedChannels = 1) ∧
        ∃ t, one ⟨q, some k, [], []⟩ t ∧ (chanOf t q.val).st = .failed ∧ (chanOf t q.val).failStep = BitVec.ofNat 3 (k.val + 1)) ∧
      (b.svn.toNat < a.svn.toNat → ∃ t, Goes (.startUp { clean with slotFault0 := 3 } .ended) s t ∧ t.ras.phase = 8 ∧ t.ras.fallback = true ∧
        t.sec.bootSlot = 1) ∧
      stopsAt { clean with slotFault0 := 2, slotFault1 := 3 } 2 2 (2 + 256 * 3) ∧ stopsAt { clean with headerBad0 := true, headerBad1 := true } 2 2 257 ∧
      (∃ t, Goes (.startUp { clean with sccDead := 2 } .ended) s t ∧ t.ras.phase = 8 ∧ t.ras.standby = false) ∧
      stopsAt { clean with sccDead := 3 } 3 3 3 ∧ (∀ n, stopsAt { clean with bridgeDead := some n } 4 4 n.val) ∧
      stopsAt { clean with repairReads := false } 5 5 0 ∧ (∀ n, stopsAt { clean with dersetFail := some n } 6 8 (n.val + 1)) ∧
      stopsAt { clean with chans := (List.finRange 256).map (fun p => ⟨p, some 0, [], []⟩) } 6 7 0)

/-- R452 and the sideband's rows of Table 20-13: while the input is qualified the target answers a read of GEN and PWR, and of RAS while the main
rails are on, and a write of PWR_CTRL, PWR_STATUS and RAS_CAL; it gives NACK to every other; an address is assigned to a target that has none; a
transaction cut off at 35 ms sets SB_TIMEOUT. The bytes of GETPID, GETBCR, GETDCR and GETSTATUS are free (log 3, 54). -/
def Claims.Sideband : Prop :=
  ∀ (s : State) (ofs : BitVec 32) (w : W64) (addr : BitVec 7),
    let p := s.pwr
    let o := ofs.toNat
    let tells (f : Power → Power) (bs : List Byte) : State := { s with pwr := { f p with sbAnswer := some bs, sbNack := false } }
    let nack : State := { s with pwr := { p with sbAnswer := none, sbNack := true } }
    let log_ : Prop := 0xA10000 ≤ o ∧ o < 0xA30000
    let readable : Prop := o % 8 = 0 ∧ (o < 0x200000 ∨ (p.mainRails = true ∧ 0xA00000 ≤ o ∧ o < 0xB00000))
    let lim := bitsOf w.toNat 32 10
    let profile : BitVec 2 := if p.mainRails = true then BitVec.ofNat 2 w.toNat else p.profile
    (p.input = .off → Goes (.sidebandRead ofs) s s ∧ Goes (.sidebandWrite ofs w) s s ∧ Goes (.setdasa addr) s s ∧ Goes (.entdaa addr) s s ∧
      Goes .rstdaa s s ∧ Goes .getpid s s ∧ Goes .getbcr s s ∧ Goes .getdcr s s ∧ Goes .getstatus s s ∧ Goes .sbTimeout s s) ∧
    (p.input ≠ .off →
      (readable → ¬ log_ → Goes (.sidebandRead ofs) s (tells id (leBytes 8 (readSetup s o).toNat))) ∧
      (readable → log_ → ∃ t, Goes (.sidebandRead ofs) s t ∧ t.pwr.sbAnswer = some (leBytes 8 (readSetup s o).toNat) ∧
        t.ras.log = s.ras.log.map (fun e => if e.seq.toNat % 4096 = (o - 0xA10000) / 32 then { e with read := true } else e)) ∧
      (¬ readable → Goes (.sidebandRead ofs) s nack) ∧
      (o = 0 → readSetup s o = 0x000000A009404E47) ∧ (o = 0xF8 → readSetup s o = 0) ∧
      (o = 0x100000 → readSetup s o = BitVec.ofNat 64 (p.limit.toNat * 2 ^ 32 + p.profile.toNat)) ∧
      (o = 0x100000 → (lim = 0 ∨ (60 ≤ lim ∧ lim ≤ 240)) →
        Goes (.sidebandWrite ofs w) s (tells (fun p => { p with profile := profile, limit := BitVec.ofNat 10 lim }) [])) ∧
      (o = 0x100000 → lim ≠ 0 → (lim < 60 ∨ 240 < lim) → Goes (.sidebandWrite ofs w) s
        (tells (fun p => { p with profile := profile, limitReject := true, limitRejectCount := sat p.limitRejectCount 1 }) [])) ∧
      (o = 0x100010 → Goes (.sidebandWrite ofs w) s (tells (fun p => { p with
        sbTimeout := p.sbTimeout && !(w.getLsbD 5), sensorFault := p.sensorFault && !(w.getLsbD 4)
        limitReject := p.limitReject && !(w.getLsbD 3), refclkFault := p.refclkFault && !(w.getLsbD 2)
        overvolt := p.overvolt && !(w.getLsbD 1), brownout := p.brownout && !(w.getLsbD 0) }) [])) ∧
      (o = 0xA00018 → p.mainRails = true → ∃ t u, Goes (.rasCalWrite 0xFF w) s u ∧ Goes (.sidebandWrite ofs w) s t ∧ t.ras = u.ras ∧
        t.pwr.sbAnswer = some [] ∧ t.pwr.sbNack = false) ∧
      (o ≠ 0x100000 → o ≠ 0x100010 → (o ≠ 0xA00018 ∨ p.mainRails = false) → Goes (.sidebandWrite ofs w) s nack) ∧
      (p.dynamicAddr = none → Goes (.setdasa addr) s (tells (fun p => { p with dynamicAddr := some addr }) []) ∧
        Goes (.entdaa addr) s (tells (fun p => { p with dynamicAddr := some addr }) [])) ∧
      (∀ a, p.dynamicAddr = some a → Goes (.setdasa addr) s s ∧ Goes (.entdaa addr) s s) ∧
      Goes .rstdaa s (tells (fun p => { p with dynamicAddr := none }) []) ∧
      (∃ bs, bs.length = 6 ∧ Goes .getpid s (tells id bs)) ∧ (∃ b, Goes .getbcr s (tells id [b])) ∧ (∃ b, Goes .getdcr s (tells id [b])) ∧
      (∃ a b, Goes .getstatus s { tells id [a, b] with free := s.free + 1 }) ∧
      Goes .sbTimeout s { s with pwr := { p with
        sbAnswer := none, sbNack := false, sbTimeout := true, sbTimeoutCount := sat p.sbTimeoutCount 1 } }) ∧
    (staticAddr s).toNat = 0x58 + p.straps.val ∧
    (alert0 s = true ↔ (p.sbTimeout = true ∨ p.sensorFault = true ∨ p.limitReject = true ∨ p.refclkFault = true ∨ p.overvolt = true ∨
      p.brownout = true ∨ p.railFail = true ∨ p.holdover = true)) ∧
    (alert1 s = true ↔ (s.dl.pending.getLsbD 16 = true ∨ s.dl.pending.getLsbD 17 = true))

/-- R438: BYPASS, IDCODE and SAMPLE/PRELOAD at any time; EXTEST, CLAMP and HIGHZ while PWR_EN is low, and as BYPASS at any other time. The
instruction codes are the model's (log 56), and so are the levels of the two bus lines. -/
def Claims.Jtag : Prop :=
  ∀ (s : State),
    let p := s.pwr
    let selects (i : BitVec 3) (r : BitVec 32) (held off : Bool) : State :=
      { s with pwr := { p with jtag := i, jtagReg := r, outputsHeld := held, outputsOff := off } }
    let bypassed_ : State := selects 0 0 false false
    Goes .bypass s bypassed_ ∧
    Goes .idcode s (selects 1 ((0x0 : BitVec 4) ++ (0x0940 : BitVec 16) ++ (0x4E7 : BitVec 11) ++ (1 : BitVec 1)) false false) ∧
    (p.pwrEn = true → Goes .extest s bypassed_ ∧ Goes .clamp s bypassed_ ∧ Goes .highz s bypassed_) ∧
    (p.pwrEn = false → Goes .extest s (selects 3 (p.boundary.setWidth 32) true false) ∧ Goes .clamp s (selects 4 0 true false) ∧
      Goes .highz s (selects 5 0 false true)) ∧
    ∃ t, Goes .samplePreload s t ∧ t = { s with
        free := s.free + 1
        pwr := { p with jtag := 2, jtagReg := t.pwr.boundary.setWidth 32, boundary := t.pwr.boundary, outputsHeld := false, outputsOff := false } } ∧
      t.pwr.boundary.getLsbD 2 = !(alert0 s) ∧ t.pwr.boundary.getLsbD 3 = !(alert1 s) ∧ t.pwr.boundary.getLsbD 7 = p.resetN ∧
      t.pwr.boundary.getLsbD 8 = p.pwrEn ∧ t.pwr.boundary.getLsbD 9 = p.pwrgd ∧ t.pwr.boundary.getLsbD 10 = p.readyOff ∧
      t.pwr.boundary.getLsbD 11 = !p.thermtrip ∧
      ∀ j, j < 3 → t.pwr.boundary.getLsbD (4 + j) = p.straps.val.testBit j

/-- R472 to R477, R291, R366, R413, R449 and R476 and the tables of the registers: a write of the host to a set-up offset has the effect of the register's access type,
byte by byte, and none where no register lies, where the register is read only, where its unit does not take a write, or where the value is out of its range. -/
def Claims.RegisterWrites : Prop :=
  ∀ (s : State) (w : W64) (be : BitVec 8),
    let n26 (x : Nat) : BitVec 26 := BitVec.ofNat 26 x
    let wr (x : Nat) (b : BitVec 8) (t : State) : Prop := Goes (.registerWrite (n26 x) b w) s t
    let v := w.toNat
    -- byte enables: an enabled byte comes from the write, another from the register
    (∀ (old : W64) i, i < 64 → (mergeBytes old be w).getLsbD i = if be.getLsbD (i / 8) = true then w.getLsbD i else old.getLsbD i) ∧
    -- no register, or read only
    (∀ x, x < 2 ^ 26 → regAt x = none → wr x be s) ∧ (∀ x, x % 8 ≠ 0 → x < 2 ^ 26 → regAt x = none) ∧
    wr 0x0 be s ∧ wr 0x8 be s ∧ wr 0x10 be s ∧ wr 0x18 be s ∧ wr 0x20 be s ∧ wr 0x30 be s ∧ wr 0x100008 be s ∧ wr 0x100018 be s ∧
    (∀ n, n < 1024 → wr (0x3000008 + 0x1000 * n) be s) ∧ (∀ f, f < 65536 → wr (0x400000 + 32 * f) be s) ∧
    -- GEN_STATUS: write 1 to clear
    wr 0x28 0xFF { s with gen := { s.gen with changed := s.gen.changed && !(w.getLsbD 1) } } ∧
    -- rings: base and configuration while DISABLED
    (∀ n, n < 1024 →
      ((ringOf s n).st ≠ .disabled → wr (0x200000 + 0x20 * n) be s ∧ wr (0x200008 + 0x20 * n) be s) ∧
      ((ringOf s n).st = .disabled →
        (∃ t, wr (0x200000 + 0x20 * n) 0xFF t ∧ OnlyRing s t n { ringOf s n with base := BitVec.ofNat 40 (bitsOf v 12 40) }) ∧
        (∃ t, wr (0x200008 + 0x20 * n) 0xFF t ∧ OnlyRing s t n { ringOf s n with
          rtCopy := w.getLsbD 56, rtCores := BitVec.ofNat 8 (bitsOf v 48 8), qfence := BitVec.ofNat 16 (bitsOf v 32 16)
          context := BitVec.ofNat 16 (bitsOf v 16 16), partition := toSag (bitsOf v 12 4), rt := w.getLsbD 8
          sizeLog2 := BitVec.ofNat 5 (bitsOf v 0 5) }))) ∧
    (bitsOf v 0 17 ≤ 100000 → wr 0x210000 0xFF { s with fe := { s.fe with grace := BitVec.ofNat 17 v } }) ∧
    (100000 < bitsOf v 0 17 → wr 0x210000 0xFF s) ∧
    -- the object port
    wr 0x600008 0xFF { s with obj := { s.obj with arg0 := w } } ∧ wr 0x600010 0xFF { s with obj := { s.obj with arg1 := w } } ∧
    wr 0x600018 0xFF { s with obj := { s.obj with arg2 := w } } ∧
    wr 0x600008 be { s with obj := { s.obj with arg0 := mergeBytes s.obj.arg0 be w } } ∧
    wr 0x600028 0xFF { s with obj := { s.obj with ctxSel := BitVec.ofNat 12 v } } ∧
    -- the request registers of a saggar while it is NONE
    (∀ k, k < 16 → ((sagOf s k).st ≠ .none → wr (0x801000 + 0x100 * k) be s ∧ wr (0x801008 + 0x100 * k) be s ∧ wr (0x801028 + 0x100 * k) be s ∧
        wr (0x801030 + 0x100 * k) be s ∧ wr (0x801038 + 0x100 * k) be s) ∧
      ((sagOf s k).st = .none → (∃ t, wr (0x801038 + 0x100 * k) 0xFF t ∧ OnlySag s t k { sagOf s k with
          qGraphs := BitVec.ofNat 13 (bitsOf v 51 13), qPages := BitVec.ofNat 10 (bitsOf v 41 10), qObjects := BitVec.ofNat 17 (bitsOf v 24 17)
          qContexts := BitVec.ofNat 13 (bitsOf v 11 13), qRings := BitVec.ofNat 11 (bitsOf v 0 11) }) ∧
        ∃ t, wr (0x801000 + 0x100 * k) 0xFF t ∧ OnlySag s t k { sagOf s k with
          clusters := BitVec.ofNat 16 (bitsOf v 48 16), copy := BitVec.ofNat 16 (bitsOf v 32 16), linkWeight := BitVec.ofNat 4 (bitsOf v 28 4)
          lsSplit := BitVec.ofNat 4 (bitsOf v 24 4), reserved := (sagOf t k).reserved })) ∧
    -- the mailbox's buffer takes whole words alone
    (be ≠ 0xFF → ∀ j, j < 16384 → wr (0x910000 + 8 * j) be s) ∧
    (∀ j, j < 16384 → ∃ t, wr (0x910000 + 8 * j) 0xFF t ∧ t = { s with sec := { s.sec with buf := t.sec.buf } } ∧
      ∀ a, tblGet 0 t.sec.buf a = if 8 * j ≤ a ∧ a < 8 * j + 8 then BitVec.ofNat 8 (v / 2 ^ (8 * (a - 8 * j))) else tblGet 0 s.sec.buf a) ∧
    -- DL_CFG: a field out of its range is left unchanged
    (wr 0xB00000 0xFF { s with dl := { s.dl with
      snpTimeout := if 1000 ≤ bitsOf v 16 16 ∧ bitsOf v 16 16 ≤ 16000 then BitVec.ofNat 16 (bitsOf v 16 16) else s.dl.snpTimeout
      reqTimeout := if 1 ≤ bitsOf v 8 8 ∧ bitsOf v 8 8 ≤ 64 then BitVec.ofNat 8 (bitsOf v 8 8) else s.dl.reqTimeout
      swapThresh := BitVec.ofNat 8 v } }) ∧
    -- the stacks' and the dies' registers
    (∀ t_ q, t_ < 16 → q < 16 → ∃ t, wr (0x1000008 + 0x40000 * t_ + 0x1000 * q) 0xFF t ∧
      let c := chanOf s (16 * t_ + q)
      OnlyChan s t (16 * t_ + q) { c with
        retrained := c.retrained && !(w.getLsbD 18), keyRefused := c.keyRefused && !(w.getLsbD 17)
        uncorrected := c.uncorrected && !(w.getLsbD 16) }) ∧
    (∀ d, d < 4 → s.dies.length = 4 →
      (bitsOf v 0 2 = 3 → wr (0x2000000 + 0x400000 * d) 0xFF s) ∧
      (bitsOf v 0 2 ≠ 3 → ∃ t, wr (0x2000000 + 0x400000 * d) 0xFF t ∧ OnlyDie s t d { dieOf s d with ramp := BitVec.ofNat 2 v }) ∧
      ∀ k, k < 16 →
        ((sagOf s k).st = .sealed → wr (0x2000100 + 0x400000 * d + 8 * k) be s) ∧
        ((sagOf s k).st ≠ .sealed → ∃ t, wr (0x2000100 + 0x400000 * d + 8 * k) 0xFF t ∧ OnlyDie s t d { dieOf s d with masks := (dieOf t d).masks } ∧
          tblGet {} (dieOf t d).masks k = { engine := BitVec.ofNat 15 (bitsOf v 32 15), ae := BitVec.ofNat 15 (bitsOf v 16 15), core := BitVec.ofNat 15 (bitsOf v 0 15) } ∧
          ∀ x, x ≠ k → tblGet {} (dieOf t d).masks x = tblGet {} (dieOf s d).masks x)) ∧
    -- the commands' registers do what their commands do
    (∀ n (h : n < 1024), ∃ t, wr (0x3000000 + 0x1000 * n) be t ∧ Goes (.dbTailWrite ⟨n, h⟩ be w) s t) ∧
    (∃ t, wr 0xB00018 be t ∧ Goes (.dlIntMaskWrite be w) s t) ∧ (∃ t, wr 0xB00020 be t ∧ Goes (.dlIntAck be w) s t) ∧
    (∃ t, wr 0x100000 be t ∧ Goes (.pwrCtrlWrite false be w) s t) ∧ (∃ t, wr 0xA00018 be t ∧ Goes (.rasCalWrite be w) s t) ∧
    (∃ t, wr 0xA00030 be t ∧ Goes (.orderlyQuiesce be w .running) s t)

-- The machine

/-- R135 and R136: a saggar's channels are ranked by 16 c + s, and a partition-relative address lies in channel owned[b mod n] at offset
(b / n) × 2048 + A[10:0], where b = A >> 11; every address below N × C has its own place, below the capacity C. -/
def Obligations.AddressMap : Prop :=
  ∀ (s : State) (k : Nat),
    let own := ownedChannels (sagOf s k)
    let n := own.length
    (∀ p, p ∈ own ↔ p < 256 ∧ ((sagOf s k).chans.getD (p / 64) 0).getLsbD (p % 64) = true) ∧
    own.Pairwise (fun p q => 16 * (p % 16) + p / 16 < 16 * (q % 16) + q / 16) ∧
    ∀ cap, (∀ p ∈ own, chanCap (chanOf s p) = cap) →
      (∀ a, a < n * cap → ∃ chan, own[a / 2048 % n]? = some chan ∧ mapAddr s k a = some (chan, a / 2048 / n * 2048 + a % 2048) ∧
        a / 2048 / n * 2048 + a % 2048 < cap) ∧
      (∀ a b, a < n * cap → b < n * cap → mapAddr s k a = mapAddr s k b → a = b) ∧
      (∀ a, n * cap ≤ a → mapAddr s k a = none)

/-- R206: when a block starts, every v register and p0 to p6 hold 0, ui holds bytes 4i to 4i + 3 of its argument area, little-endian, for i below 16, and
u16 to u63 hold 0. -/
def Obligations.BlockRegisters : Prop :=
  ∀ (s u : State) (g : ClusterId) (h : Handed) (l : Launch) (c first id : Nat) (ref : NodeRef) (ws : List W64) (hdr ent area : List Byte),
    newWork s = true → s.fe.handed = [h] → h.cluster = g → launchOf s h.launch = some l →
    (l.info.rt = true ∨ h.core.isSome = true ∨ coResWaits s l.info.sag.val = false) →
    handedPlace s l h = some (c, first) → Sound s → area.length = 64 → l.info = mkLaunch u id ref ws hdr ent area →
    ∃ t b x, Goes (.blockAdmission g) s t ∧ tblFind (coreOf s c).blocks b = none ∧ tblFind (coreOf t c).blocks b = some x ∧
      x.groups.length = (l.info.bx * l.info.bY * l.info.bz + 31) / 32 ∧
      ∀ j ∈ x.groups,
        let grp := grpOf (subOf (coreOf t c) j.1.val) j.2.val
        (∀ i, i < 16 → (uReg grp i).toNat = (area.getD (4 * i) 0).toNat + 2 ^ 8 * (area.getD (4 * i + 1) 0).toNat +
          2 ^ 16 * (area.getD (4 * i + 2) 0).toNat + 2 ^ 24 * (area.getD (4 * i + 3) 0).toNat) ∧
        (∀ i, 16 ≤ i → i < 64 → uReg grp i = 0) ∧
        ∀ n, n < 32 → (∀ r, vReg (laneOf grp n) r = 0) ∧ ∀ r, r < 7 → pReg (laneOf grp n) r = false

/-- Tables 08-4 and 08-11: the fields of an instruction word lie where the formats G, M, J, S and T place them, and every field comes back with every value. -/
def Obligations.DecodedWords : Prop :=
  ∀ (p : Place) (env : MemEnv) (ext : W64) (pn pg_ : Nat) (d a b c : BitVec 9) (mod : BitVec 16) (sz : BitVec 3) (hint : BitVec 2) (ofs : BitVec 15)
    (jofs : BitVec 32) (x y : BitVec 1) (s2 ac cre crq : BitVec 2) (ua ub usa usb umeta : BitVec 6) (fa fb : BitVec 4) (kd : BitVec 7) (z v r : BitVec 1)
    (ofmt : BitVec 3) (rows : BitVec 4) (rsv : BitVec 27),
    let head (o : BitVec 8) : BitVec 12 := o ++ BitVec.ofNat 1 pn ++ BitVec.ofNat 3 pg_
    let g (o : BitVec 8) : W64 := head o ++ d ++ a ++ b ++ c ++ mod
    let m (o : BitVec 8) (aop : BitVec 4) : W64 := head o ++ d ++ a ++ b ++ sz ++ x ++ hint ++ aop ++ ofs
    let j (o : BitVec 8) : W64 := head o ++ d ++ a ++ x ++ y ++ jofs
    let w_s (o : BitVec 8) : W64 := o ++ s2 ++ ac ++ ua ++ ub ++ usa ++ usb ++ umeta ++ fa ++ fb ++ kd ++ z ++ v ++ cre ++ crq ++ r
    let w_t (o : BitVec 8) : W64 := o ++ s2 ++ ac ++ ua ++ ub ++ x ++ ofmt ++ y ++ rows ++ z ++ v ++ r ++ (fa.extractLsb' 0 1) ++ rsv
    let pn_ : Bool := pn % 2 == 1
    let pg : Fin 8 := Fin.ofNat 8 pg_
    let fg : FmtG := { pn := pn_, pg, d, a, b, c, mod, ext }
    let fm (aop : BitVec 4) : FmtM := { pn := pn_, pg, d, a, b, sz, sx := x == 1, hint, aop, ofs }
    let fj : FmtJ := { pn := pn_, pg, d, a, t := x == 1, rsv := y == 1, ofs := jofs }
    let fs : FmtS := { s := s2.toFin, ac := ac.toFin, ua := ua.toFin, ub := ub.toFin, usa := usa.toFin, usb := usb.toFin, umeta, fa, fb, kd, z := z == 1,
                        crv := v == 1, cre := cre.toFin, crq := crq.toFin, rsv := r == 1 }
    let ft : FmtT := { s := s2.toFin, ac := ac.toFin, ud := ua.toFin, uscale := ub.toFin, scl := x == 1, ofmt, itype := y == 1, rows, sat := z == 1,
                        sr := v == 1, clr := r == 1, rel := fa.getLsbD 0, rsv }
    let dec (w : W64) (i : Instr) : Prop := decodeTvedfit p env w ext = some i
    dec (g 0x01) (.iadd p fg) ∧ dec (g 0x22) (.ffma p fg) ∧ dec (g 0x30) (.cvt p fg) ∧ dec (g 0x53) (.barBlock p fg) ∧ dec (g 0x6B) (.nmIssue p fg) ∧
    (mod.extractLsb' 0 2 = 2 → dec (g 0x58) (.voteBallot p fg) ∧ dec (g 0x59) (.shflDown p fg)) ∧
    dec (m 0x40 0) (.ldL p (fm 0) env) ∧ dec (m 0x49 0) (.stG p (fm 0)) ∧ dec (m 0x4C 0xA) (.atomCas p (fm 0xA)) ∧
    dec (j 0x70) (.bra p fj) ∧ dec (j 0x72) (.ret p fj) ∧ dec (w_s 0x60) (.slabMma p fs) ∧ dec (w_s 0x64) (.slabZero p fs) ∧
    dec (w_t 0x65) (.slabSt p ft) ∧ decodeTvedfit p env (g 0x12) ext = none

/-- A step runs the command at the front of the queue on the state with the queue's rest; on an empty queue it idles, which is the model's choice (log 6). -/
def Obligations.StepRunsTheFront : Prop :=
  ∀ (s : State) (c : Instr) (rest : List Instr),
    step { s with pending := c :: rest } = exec c { s with pending := rest } ∧ step { s with pending := [] } = .next (idle { s with pending := [] })

/-- R479 and Table 20-13: what every set-up register reads after reset, and every array of units is whole then. The fields that harvest, the record or the fuses fix are left
out; the rest of the state after reset is the model's choice (log 2, 66). -/
def Obligations.ResetState : Prop :=
  let rd (ofs : Nat) : Nat := (readSetup State.reset ofs).toNat
  Sound State.reset ∧ State.reset.pending = [] ∧ State.reset.dram = [] ∧
  rd 0 = 0x000000A009404E47 ∧ rd 0x10 = 0x0000108F01101010 ∧ rd 0x18 = 0xFFFFFFFFFFFFFFF0 ∧ rd 0x20 = 0 ∧ rd 0x28 = 0x300 ∧
  (∀ j, j < 14 → j ≠ 1 → rd (0x30 + 8 * j) = 0) ∧ rd 0x100000 = 0 ∧ rd 0x100008 = 0x1414140411 ∧ rd 0x100010 = 0x300 ∧ rd 0x100018 = 0 ∧
  (∀ n, n < 1024 → rd (0x200000 + 0x20 * n) = 0 ∧ rd (0x200008 + 0x20 * n) = 6 ∧ rd (0x200010 + 0x20 * n) = 0 ∧ rd (0x200018 + 0x20 * n) = 0 ∧
    rd (0x3000000 + 0x1000 * n) = 0 ∧ rd (0x3000008 + 0x1000 * n) = 0 ∧ rd (0x3000010 + 0x1000 * n) = 0) ∧
  rd 0x210000 = 0x3E8 ∧ (∀ f j, f < 65536 → j < 3 → rd (0x400000 + 32 * f + 8 * j) = 0) ∧
  (∀ j, j < 6 → rd (0x600000 + 8 * j) = 0) ∧ (∀ w, w < 5 → rd (0x600040 + 8 * w) = 0) ∧ rd 0x800000 = 0 ∧ rd 0x800008 = 0 ∧
  (∀ j, j < 4 → rd (0x800020 + 8 * j) = 0) ∧
  (∀ k, k < 16 → rd (0x801000 + 0x100 * k) = 0x10000000 ∧ (∀ j, j < 4 → rd (0x801008 + 0x100 * k + 8 * j) = 0) ∧
    rd (0x801028 + 0x100 * k) = 0x7FFF7FFF7FFF ∧ rd (0x801030 + 0x100 * k) = 0 ∧ rd (0x801038 + 0x100 * k) = 0 ∧ rd (0x801040 + 0x100 * k) = 0 ∧
    (∀ n, n < 8 → rd (0x801080 + 0x100 * k + 8 * n) = 0) ∧ rd (0x900100 + 8 * k) = 0 ∧ rd (0xC60100 + 8 * k) = 0 ∧ rd (0xC60180 + 8 * k) = 0) ∧
  rd 0x900000 = 0 ∧ rd 0x900008 = 0 ∧ (∀ j, j < 16384 → rd (0x910000 + 8 * j) = 0 ∧ rd (0xA10000 + 8 * j) = 0) ∧
  rd 0xA00000 = 0x8000 ∧ rd 0xA00008 = 0 ∧ rd 0xA00010 = 0 ∧ rd 0xA00018 = 0 ∧ rd 0xA00020 / 65536 = 0xFFFFFFFFFFFF ∧ rd 0xA00028 = 0 ∧
  rd 0xA00030 = 0xC8 ∧ rd 0xA00038 = 0 ∧
  rd 0xB00000 = 0x7D00440 ∧ rd 0xB00008 = 0 ∧ rd 0xB00010 = 0 ∧ rd 0xB00018 = 0x3FFFF ∧ rd 0xB00020 = 0 ∧ rd 0xB00028 = 0 ∧
  (∀ n, n < 6 → rd (0xC00000 + 0x10000 * n) = 0x4000 ∧ rd (0xC00008 + 0x10000 * n) = 0 ∧ rd (0xC00010 + 0x10000 * n) = 0 ∧ rd (0xC00018 + 0x10000 * n) = 0) ∧
  rd 0xC60000 = 0 ∧ rd 0xC60008 = 0 ∧ (∀ n, n < 4096 → rd (0xC70000 + 8 * n) = 0) ∧
  (∀ t, t < 16 → rd (0x1020000 + 0x40000 * t) = 0 ∧ ∀ c, c < 16 →
    let r (i : Nat) : Nat := rd (0x1000000 + 0x40000 * t + 0x1000 * c + 8 * i)
    r 0 = 0x4004 ∧ r 1 = 0xFF00 ∧ r 2 = 0 ∧ r 3 = 0x1010000 ∧ r 4 = 0x1FFFFF00000000 ∧ r 5 = 0 ∧ r 6 = 0 ∧ r 7 ≤ 1) ∧
  ∀ d, d < 4 → rd (0x2000000 + 0x400000 * d) = 1 ∧ rd (0x2000008 + 0x400000 * d) = 0 ∧
    (∀ k, k < 16 → rd (0x2000100 + 0x400000 * d + 8 * k) = 0x7FFF7FFF7FFF) ∧
    ∀ i, i < 64 →
      let r (x : Nat) : Nat := rd (0x2010000 + 0x400000 * d + 0x1000 * i + 8 * x)
      r 0 / 16 = 0xFF0 ∧ r 1 = 0 ∧ r 2 = 0 ∧ ∀ e, e < 4 → r (4 + e) = 0

/-- Every step keeps the machine's shape: whatever the command, device memory stays in canonical form and every array of units stays whole, the fuses
keep what final test burnt, and the queue loses its front alone. Every step answers a next state. -/
def Obligations.EveryStepKeeps : Prop :=
  ∀ s : State, Sound s → ∃ t, step s = .next t ∧ Sound t ∧ t.fuses = s.fuses ∧ t.pending = s.pending.tail

/-- R476: while saggar k is SEALED, writes to CD_L2_MASK_k, to XL_SLICE_k and to every XL_CONE_n with ASSIGNED 1 and PARTITION k change nothing; at every other
time their fields take the value written, for XL_SLICE_k where R346 accepts it (a new SLICE_ID also ends a stop, R359). -/
def Obligations.LockedFields : Prop :=
  ∀ (s : State) (k : SagId) (w : W64) (be : BitVec 8) (n : ConeId) (d : DieId), s.dies.length = 4 →
    let wr (x : Nat) (b : BitVec 8) (t : State) : Prop := Goes (.registerWrite (BitVec.ofNat 26 x) b w) s t
    let c := coneOf s n.val
    let v := w.toNat
    let mask := 0x2000100 + 0x400000 * d.val + 8 * k.val
    let slice := 0xC60100 + 8 * k.val
    let cone := 0xC70000 + 8 * n.val
    let box : SliceReg := { sliceOf s k.val with
      sliceId := BitVec.ofNat 16 (bitsOf v 48 16), valid := w.getLsbD 39, wz := w.getLsbD 38, wy := w.getLsbD 37, wx := w.getLsbD 36
      ezM1 := BitVec.ofNat 6 (bitsOf v 30 6), eyM1 := BitVec.ofNat 6 (bitsOf v 24 6), exM1 := BitVec.ofNat 6 (bitsOf v 18 6)
      origin := BitVec.ofNat 18 v }
    ((sagOf s k.val).st = .sealed → wr mask be s ∧ wr slice be s ∧ (c.assigned = true → c.partition = k → wr cone be s)) ∧
    ((sagOf s k.val).st ≠ .sealed →
      (∃ t, wr mask 0xFF t ∧ OnlyDie s t d.val { dieOf s d.val with masks := (dieOf t d.val).masks } ∧
        ∀ x, tblGet {} (dieOf t d.val).masks x = if x = k.val then
          { engine := BitVec.ofNat 15 (bitsOf v 32 15), ae := BitVec.ofNat 15 (bitsOf v 16 15), core := BitVec.ofNat 15 (bitsOf v 0 15) }
          else tblGet {} (dieOf s d.val).masks x) ∧
      ((w.getLsbD 39 = true → sliceOk s box = true) → ∃ t, wr slice 0xFF t ∧ ∀ x, sliceOf t x = if x = k.val then
          { box with stopped := (sliceOf s k.val).stopped && box.sliceId == (sliceOf s k.val).sliceId } else sliceOf s x) ∧
      (c.partition = k → ∃ t, wr cone 0xFF t ∧ OnlyCone s t n.val
        { assigned := w.getLsbD 52, partition := toSag (bitsOf v 48 4), value := BitVec.ofNat 48 v })) ∧
    (c.assigned = false → ∃ t, wr cone 0xFF t ∧ OnlyCone s t n.val
      { assigned := w.getLsbD 52, partition := toSag (bitsOf v 48 4), value := BitVec.ofNat 48 v })

-- The obligations that are made of several claims

/-- The integer operations of Table 08-5, MOV, SEL, IADD.W and NOP, with their frame. -/
def Obligations.IntegersAndMoves : Prop := Claims.IntegerOperations ∧ Claims.MoveOperations

/-- ISETP, FSETP and PLOP set a predicate; CVT converts between the element types. -/
def Obligations.PredicatesAndConversion : Prop := Claims.PredicateOperations ∧ Claims.Conversion

/-- VOTE and SHFL operate over the issuing subset only. -/
def Obligations.VotesAndShuffles : Prop := Claims.Votes ∧ Claims.Shuffles

/-- A thread fault ends its launch and is recorded; an illegal word and a fetch that fails give it; a fetch fills the instruction cache. -/
def Obligations.ThreadFaults : Prop := Claims.ThreadFaultEffects ∧ Claims.IllegalWords ∧ Claims.CodeFetch

/-- LD.L and ST.L on the local store, and their wait behind SLAB.ST. -/
def Obligations.LocalAccesses : Prop := Claims.LocalAccess ∧ Claims.LocalAccessWaits

/-- LD.G of current L1 lines, and the fill of a line into the L1. -/
def Obligations.GlobalLoads : Prop := Claims.GlobalLoadHit ∧ Claims.L1Fill

/-- BAR.BLOCK, EXIT and YIELD; promotion, rotation and starvation of groups. -/
def Obligations.GroupsAndTheirSchedule : Prop := Claims.BarrierExitYield ∧ Claims.SchedulerEvents

/-- Threads gather at a SLAB instruction, or fault there. -/
def Obligations.SlabArrivalAndFaults : Prop := Claims.SlabArrival ∧ Claims.SlabFaults

/-- Slab products start, end and leave their sums; the INT8 product is exact. -/
def Obligations.SlabArithmetic : Prop := Claims.SlabProducts ∧ Claims.IntegerProducts

/-- SLAB.ST reads and writes its rows; the activity ramp paces the slabs. -/
def Obligations.SlabStoresAndRamp : Prop := Claims.SlabStores ∧ Claims.ActivityRamp

/-- TOK.WAIT, TOK.POST and the walk of a descriptor. -/
def Obligations.TokensAndWalks : Prop := Claims.Tokens ∧ Claims.WalkFields

/-- Access engines issue and complete spans and stop streams. -/
def Obligations.Streams : Prop := Claims.SpanIssue ∧ Claims.SpanComplete ∧ Claims.StreamStop

/-- The values of the atomics and their effect on memory and reservations. -/
def Obligations.Atomics : Prop := Claims.AtomicValues ∧ Claims.AtomicPerform

/-- Blocks are dispatched to clusters, admitted to cores and retire; core splits and real-time reservations take effect. -/
def Obligations.Blocks : Prop := Claims.BlockDispatch ∧ Claims.BlockAdmission ∧ Claims.BlockRetire ∧ Claims.SplitsAndReservations

/-- Rings are enabled, make progress and are destroyed. -/
def Obligations.Rings : Prop := Claims.RingEnable ∧ Claims.RingProgress ∧ Claims.RingDestruction

/-- Checked ring entries start, launches among them; failing entries fault their ring; waits complete or fail. -/
def Obligations.Entries : Prop := Claims.EntriesStart ∧ Claims.EntryTurn ∧ Claims.LaunchEntry ∧ Claims.EntriesFail ∧ Claims.Waits

/-- Events of the memory stacks, their sensors and the traffic generator. -/
def Obligations.MemoryStacks : Prop := Claims.StackEvents ∧ Claims.StackSensors ∧ Claims.TrafficGenerator

/-- Near-memory operations are admitted, run and complete; codec operations write their record, and INSTALL sets a codebook. -/
def Obligations.NearMemory : Prop := Claims.NearMemoryEvents ∧ Claims.NearMemoryParts ∧ Claims.CodecOperations

/-- The object port, scrubs, fault records and fences. -/
def Obligations.Objects : Prop := Claims.ObjectCommands ∧ Claims.ObjectEvents

/-- The copy engines: COPY, FILL and SEALED_LOAD. -/
def Obligations.CopyEngines : Prop := Claims.Copies

/-- The Xator ports, the slices and the cone counters. -/
def Obligations.XatorPortsAndSlices : Prop := Claims.XlPorts ∧ Claims.XlSlices

/-- Packets between modules, and when a port sends them. -/
def Obligations.XatorPackets : Prop := Claims.XlPackets ∧ Claims.XlOutput

/-- The commands of PT_CMD. -/
def Obligations.PartitionCommands : Prop := Claims.Partitions

/-- The commands of SEC_CMD. -/
def Obligations.MailboxCommands : Prop := Claims.Mailbox

/-- The Derset link: flits, credits, set-up accesses, timers and interrupts. -/
def Obligations.HostLink : Prop := Claims.DersetLink ∧ Claims.DersetSending

/-- Flits, packets and messages come back from their bytes. -/
def Obligations.LinkEncodings : Prop := Claims.XlEncoding ∧ Claims.DersetEncoding

/-- The coherent requests of the host and the requests to it. -/
def Obligations.HostRequests : Prop := Claims.HostRequests

/-- The commands of RAS_CMD, and the recoveries. -/
def Obligations.ServiceAndRecovery : Prop := Claims.ServiceCommands ∧ Claims.Recoveries

/-- The crazing record, the calendar and the orderly quiesce. -/
def Obligations.RecordsAndQuiesce : Prop := Claims.CrazingRecord ∧ Claims.Quiesce

/-- Input states, resets and the start-up sequence. -/
def Obligations.PowerUpAndStartUp : Prop := Claims.InputStates ∧ Claims.StartUp

/-- Reference clock, power capping, sensors and telemetry. -/
def Obligations.ClocksPowerSensors : Prop := Claims.ClocksAndPower ∧ Claims.Sensors

/-- The sideband target and the JTAG port. -/
def Obligations.SidebandAndJtag : Prop := Claims.Sideband ∧ Claims.Jtag

/-- Writes to set-up registers. -/
def Obligations.SetupWrites : Prop := Claims.RegisterWrites
end

