-- ==== Sys2Proof/Laws/Tables.lean ====
section
/-!
SUPPORT. The laws of the sparse tables, of lists as arrays and of device memory: a read after a write, and the canonical
form that every write keeps.
-/
namespace Sys2Proof.Machine

open Sys2Proof

variable {α : Type}

-- Tables

theorem tblFind_tblPut (t : Tbl α) (i j : Nat) (v : α) :
    tblFind (tblPut t i v) j = if j = i then some v else tblFind t j := by
  induction t with
  | nil =>
    by_cases h : j = i
    · simp [tblPut, tblFind, h]
    · simp [tblPut, tblFind, h, Ne.symm h]
  | cons p t ih =>
    obtain ⟨k, w⟩ := p
    by_cases hji : j = i
    · subst hji
      unfold tblPut
      split
      · simp [tblFind]
      · split
        · simp [tblFind]
        · simp_all [tblFind]
    · unfold tblPut
      split
      · simp [tblFind, Ne.symm hji]
      · split
        · rename_i h1 h2
          have : k = i := by simpa using h2
          subst this
          simp [tblFind, Ne.symm hji]
        · simp_all [tblFind]

theorem tblFind_tblDel (t : Tbl α) (i j : Nat) :
    tblFind (tblDel t i) j = if j = i then none else tblFind t j := by
  induction t with
  | nil => simp [tblDel, tblFind]
  | cons p t ih =>
    obtain ⟨k, w⟩ := p
    by_cases hk : k = i
    · subst hk
      by_cases hj : j = k
      · subst hj; simpa [tblDel] using ih
      · have : ¬ k = j := fun e => hj e.symm
        simp [tblDel, tblFind, ih, hj, this]
    · by_cases hj : j = i
      · have : ¬ k = j := fun e => hk (e.trans hj)
        simp_all [tblDel, tblFind]
      · simp_all [tblDel, tblFind]

/-- A read of a table after a write. -/
@[simp] theorem tblGet_tblSet [DecidableEq α] (d : α) (t : Tbl α) (i j : Nat) (v : α) :
    tblGet d (tblSet d t i v) j = if j = i then v else tblGet d t j := by
  unfold tblGet tblSet
  by_cases h : v = d
  · by_cases hj : j = i <;> simp [h, tblFind_tblDel, hj]
  · by_cases hj : j = i <;> simp [h, tblFind_tblPut, hj]

@[simp] theorem tblGet_nil (d : α) (i : Nat) : tblGet d [] i = d := rfl

-- Lists as arrays

@[simp] theorem listModify_length (f : α → α) (l : List α) (i : Nat) : (listModify f l i).length = l.length := by
  induction l generalizing i with
  | nil => rfl
  | cons x t ih => cases i <;> simp [listModify, ih]

/-- A read of an array after element `i` changed. -/
theorem listModify_getD (f : α → α) (l : List α) (i j : Nat) (d : α) :
    (listModify f l i).getD j d = if j = i ∧ j < l.length then f (l.getD j d) else l.getD j d := by
  induction l generalizing i j with
  | nil => simp [listModify]
  | cons x t ih =>
    cases i with
    | zero => cases j <;> simp [listModify]
    | succ i =>
      cases j with
      | zero => simp [listModify]
      | succ j =>
        have := ih i j
        simp only [List.getD_cons_succ, listModify, List.length_cons, Nat.add_right_cancel_iff, Nat.add_lt_add_iff_right] at this ⊢
        exact this

@[simp] theorem listSet_length (l : List α) (i : Nat) (v : α) : (listSet l i v).length = l.length :=
  listModify_length _ l i

theorem listSet_getD (l : List α) (i j : Nat) (v d : α) :
    (listSet l i v).getD j d = if j = i ∧ j < l.length then v else l.getD j d :=
  listModify_getD _ l i j d

-- Device memory

theorem memGet_eq (m : List Host.Cell) (i : Nat) : memGet m i = tblGet 0 m i := by
  induction m with
  | nil => rfl
  | cons p t ih =>
    obtain ⟨k, v⟩ := p
    by_cases h : k = i
    · simp [memGet, tblGet, tblFind, h]
    · simp only [tblGet] at ih
      simp [memGet, tblGet, tblFind, h, ih]

/-- A byte read after a byte was written. -/
@[simp] theorem memGet_memPut (m : List Host.Cell) (i j : Nat) (v : Byte) :
    memGet (memPut m i v) j = if j = i then v else memGet m j := by
  simp [memGet_eq, memPut]

/-- A write of bytes leaves every other byte alone, and the written ones read back. -/
theorem memGet_memWrite (m : List Host.Cell) (i : Nat) (bs : List Byte) (j : Nat) :
    memGet (memWrite m i bs) j = if i ≤ j ∧ j < i + bs.length then bs.getD (j - i) 0 else memGet m j := by
  induction bs generalizing m i with
  | nil => rw [memWrite, if_neg (fun h => Nat.lt_irrefl i (Nat.lt_of_le_of_lt h.1 h.2))]
  | cons b t ih =>
    rw [memWrite, ih]
    by_cases h1 : i + 1 ≤ j ∧ j < i + 1 + t.length
    · have h2 : i ≤ j ∧ j < i + (b :: t).length := by simp; omega
      have h3 : j - i = (j - (i + 1)) + 1 := by omega
      rw [if_pos h1, if_pos h2, h3, List.getD_cons_succ]
    · rw [if_neg h1, memGet_memPut]
      by_cases h2 : j = i
      · subst h2; simp
      · have h3 : ¬ (i ≤ j ∧ j < i + (b :: t).length) := by simp at h1 ⊢; omega
        rw [if_neg h2, if_neg h3]

theorem memRead_length (m : List Host.Cell) (i n : Nat) : (memRead m i n).length = n := by
  induction n generalizing i with
  | zero => rfl
  | succ n ih => simp [memRead, ih]

theorem memRead_getD (m : List Host.Cell) (i n j : Nat) (h : j < n) : (memRead m i n).getD j 0 = memGet m (i + j) := by
  induction n generalizing i j with
  | zero => omega
  | succ n ih =>
    cases j with
    | zero => simp [memRead]
    | succ j =>
      simp only [memRead, List.getD_cons_succ]
      rw [ih (i + 1) j (by omega)]
      congr 1; omega

/-- Bytes read back after they were written. -/
theorem memRead_memWrite (m : List Host.Cell) (i : Nat) (bs : List Byte) :
    memRead (memWrite m i bs) i bs.length = bs := by
  apply List.ext_getElem
  · simp [memRead_length]
  · intro j h1 h2
    have e := memRead_getD (memWrite m i bs) i bs.length j h2
    rw [memGet_memWrite, if_pos (by omega)] at e
    simp only [List.getD_eq_getElem?_getD] at e
    simp only [Nat.add_sub_cancel_left, List.getElem?_eq_getElem h1, List.getElem?_eq_getElem h2] at e
    simpa using e

theorem memSortedFrom_mono {lo lo' : Nat} {m : List Host.Cell} (h : lo' ≤ lo) (w : memSortedFrom lo m = true) :
    memSortedFrom lo' m = true := by
  cases m with
  | nil => rfl
  | cons p t =>
    obtain ⟨k, v⟩ := p
    simp only [memSortedFrom, Bool.and_eq_true, decide_eq_true_eq] at w ⊢
    exact ⟨⟨by omega, w.1.2⟩, w.2⟩

theorem memSortedFrom_tblDel {lo : Nat} {m : List Host.Cell} (i : Nat) (w : memSortedFrom lo m = true) :
    memSortedFrom lo (tblDel m i) = true := by
  induction m generalizing lo with
  | nil => rfl
  | cons p t ih =>
    obtain ⟨k, v⟩ := p
    simp only [memSortedFrom, Bool.and_eq_true, decide_eq_true_eq] at w
    by_cases h : k = i
    · simp only [tblDel, h, beq_self_eq_true, if_true]
      exact ih (memSortedFrom_mono (by omega) w.2)
    · simp only [tblDel, beq_iff_eq, h, if_false, memSortedFrom, Bool.and_eq_true, decide_eq_true_eq]
      exact ⟨w.1, ih w.2⟩

theorem memSortedFrom_tblPut {lo i : Nat} {v : Byte} {m : List Host.Cell} (hi : lo ≤ i) (hv : v ≠ 0)
    (w : memSortedFrom lo m = true) : memSortedFrom lo (tblPut m i v) = true := by
  induction m generalizing lo with
  | nil => simpa [tblPut, memSortedFrom, hi] using hv
  | cons p t ih =>
    obtain ⟨k, x⟩ := p
    simp only [memSortedFrom, Bool.and_eq_true, decide_eq_true_eq] at w
    unfold tblPut
    split
    · rename_i h
      simp only [memSortedFrom, Bool.and_eq_true, decide_eq_true_eq]
      exact ⟨⟨hi, hv⟩, ⟨by omega, w.1.2⟩, w.2⟩
    · split
      · rename_i h1 h2
        have e : k = i := by simpa using h2
        subst e
        simp only [memSortedFrom, Bool.and_eq_true, decide_eq_true_eq]
        exact ⟨⟨hi, hv⟩, w.2⟩
      · rename_i h1 h2
        have e : k ≠ i := by simpa using h2
        simp only [memSortedFrom, Bool.and_eq_true, decide_eq_true_eq]
        exact ⟨w.1, ih (by omega) w.2⟩

/-- A byte write keeps the canonical form. -/
theorem wf_memPut {m : List Host.Cell} (i : Nat) (v : Byte) (w : Memory.wf m) : Memory.wf (memPut m i v) := by
  unfold memPut tblSet
  split
  · exact memSortedFrom_tblDel i w
  · exact memSortedFrom_tblPut (Nat.zero_le i) ‹_› w

/-- A write of bytes keeps the canonical form. -/
theorem wf_memWrite {m : List Host.Cell} (i : Nat) (bs : List Byte) (w : Memory.wf m) : Memory.wf (memWrite m i bs) := by
  induction bs generalizing m i with
  | nil => exact w
  | cons b t ih => exact ih (i + 1) (wf_memPut i b w)

theorem memSortedFrom_filter {lo : Nat} {m : List Host.Cell} (f : Host.Cell → Bool) (w : memSortedFrom lo m = true) :
    memSortedFrom lo (m.filter f) = true := by
  induction m generalizing lo with
  | nil => rfl
  | cons p t ih =>
    obtain ⟨k, v⟩ := p
    simp only [memSortedFrom, Bool.and_eq_true, decide_eq_true_eq] at w
    by_cases h : f (k, v)
    · rw [List.filter_cons_of_pos h]
      simp only [memSortedFrom, Bool.and_eq_true, decide_eq_true_eq]
      exact ⟨w.1, ih w.2⟩
    · rw [List.filter_cons_of_neg h]
      exact ih (memSortedFrom_mono (by omega) w.2)

/-- Zeroing a range keeps the canonical form. -/
theorem wf_memZero {m : List Host.Cell} (lo hi : Nat) (w : Memory.wf m) : Memory.wf (memZero m lo hi) :=
  memSortedFrom_filter _ w

-- The lowest number with a property

/-- What `firstFrom` answers has the property, and no lower number does. -/
theorem firstFrom_some {p : Nat → Bool} {n i k : Nat} (h : firstFrom p n i = some k) :
    i ≤ k ∧ k < i + n ∧ p k = true ∧ ∀ j, i ≤ j → j < k → p j = false := by
  induction n generalizing i with
  | zero => cases h
  | succ n ih =>
    rw [firstFrom] at h
    by_cases hp : p i
    · rw [if_pos hp] at h
      cases h
      exact ⟨Nat.le_refl _, by omega, hp, fun j a b => absurd b (by omega)⟩
    · rw [if_neg hp] at h
      obtain ⟨a, b, c, d⟩ := ih h
      refine ⟨by omega, by omega, c, fun j e f => ?_⟩
      by_cases hj : j = i
      · rw [hj]; simpa using hp
      · exact d j (by omega) f

/-- The lowest number with the property is what `firstFrom` answers. -/
theorem firstFrom_eq {p : Nat → Bool} {n i k : Nat} (hi : i ≤ k) (hk : k < i + n) (hp : p k = true) (low : ∀ j, i ≤ j → j < k → p j = false) :
    firstFrom p n i = some k := by
  induction n generalizing i with
  | zero => omega
  | succ n ih =>
    rw [firstFrom]
    by_cases e : i = k
    · rw [e, if_pos hp]
    · rw [if_neg (by rw [low i (Nat.le_refl i) (by omega)]; decide)]
      exact ih (by omega) (by omega) (fun j a b => low j (by omega) b)

end Sys2Proof.Machine
end

