-- ==== Sys2Proof/Laws/State.lean ====
section
/-!
SUPPORT. What each named update of one unit leaves alone, one lemma per field of the state, and what it reads back.
-/
namespace Sys2Proof.Machine

open Sys2Proof

variable (s : State)

-- setCore

@[simp] theorem setCore_pending (c : Nat) (k : Core) : (setCore s c k).pending = s.pending := rfl
@[simp] theorem setCore_dram (c : Nat) (k : Core) : (setCore s c k).dram = s.dram := rfl
@[simp] theorem setCore_symErrs (c : Nat) (k : Core) : (setCore s c k).symErrs = s.symErrs := rfl
@[simp] theorem setCore_icaches (c : Nat) (k : Core) : (setCore s c k).icaches = s.icaches := rfl
@[simp] theorem setCore_dies (c : Nat) (k : Core) : (setCore s c k).dies = s.dies := rfl
@[simp] theorem setCore_chans (c : Nat) (k : Core) : (setCore s c k).chans = s.chans := rfl
@[simp] theorem setCore_stacks (c : Nat) (k : Core) : (setCore s c k).memStacks = s.memStacks := rfl
@[simp] theorem setCore_nmOps (c : Nat) (k : Core) : (setCore s c k).nmOps = s.nmOps := rfl
@[simp] theorem setCore_codecOps (c : Nat) (k : Core) : (setCore s c k).codecOps = s.codecOps := rfl
@[simp] theorem setCore_homes (c : Nat) (k : Core) : (setCore s c k).homes = s.homes := rfl
@[simp] theorem setCore_fabric (c : Nat) (k : Core) : (setCore s c k).fabric = s.fabric := rfl
@[simp] theorem setCore_filter (c : Nat) (k : Core) : (setCore s c k).filter = s.filter := rfl
@[simp] theorem setCore_hostFilter (c : Nat) (k : Core) : (setCore s c k).hostFilter = s.hostFilter := rfl
@[simp] theorem setCore_backinv (c : Nat) (k : Core) : (setCore s c k).backinv = s.backinv := rfl
@[simp] theorem setCore_bridges (c : Nat) (k : Core) : (setCore s c k).bridges = s.bridges := rfl
@[simp] theorem setCore_fe (c : Nat) (k : Core) : (setCore s c k).fe = s.fe := rfl
@[simp] theorem setCore_obj (c : Nat) (k : Core) : (setCore s c k).obj = s.obj := rfl
@[simp] theorem setCore_pt (c : Nat) (k : Core) : (setCore s c k).pt = s.pt := rfl
@[simp] theorem setCore_sags (c : Nat) (k : Core) : (setCore s c k).sags = s.sags := rfl
@[simp] theorem setCore_sec (c : Nat) (k : Core) : (setCore s c k).sec = s.sec := rfl
@[simp] theorem setCore_xl (c : Nat) (k : Core) : (setCore s c k).xl = s.xl := rfl
@[simp] theorem setCore_dl (c : Nat) (k : Core) : (setCore s c k).dl = s.dl := rfl
@[simp] theorem setCore_ras (c : Nat) (k : Core) : (setCore s c k).ras = s.ras := rfl
@[simp] theorem setCore_pwr (c : Nat) (k : Core) : (setCore s c k).pwr = s.pwr := rfl
@[simp] theorem setCore_gen (c : Nat) (k : Core) : (setCore s c k).gen = s.gen := rfl
@[simp] theorem setCore_fuses (c : Nat) (k : Core) : (setCore s c k).fuses = s.fuses := rfl
@[simp] theorem setCore_free (c : Nat) (k : Core) : (setCore s c k).free = s.free := rfl
@[simp] theorem setCore_now (c : Nat) (k : Core) : (setCore s c k).now = s.now := rfl

-- modCore

@[simp] theorem modCore_pending (c : Nat) (f : Core → Core) : (modCore s c f).pending = s.pending := rfl
@[simp] theorem modCore_dram (c : Nat) (f : Core → Core) : (modCore s c f).dram = s.dram := rfl
@[simp] theorem modCore_symErrs (c : Nat) (f : Core → Core) : (modCore s c f).symErrs = s.symErrs := rfl
@[simp] theorem modCore_icaches (c : Nat) (f : Core → Core) : (modCore s c f).icaches = s.icaches := rfl
@[simp] theorem modCore_dies (c : Nat) (f : Core → Core) : (modCore s c f).dies = s.dies := rfl
@[simp] theorem modCore_chans (c : Nat) (f : Core → Core) : (modCore s c f).chans = s.chans := rfl
@[simp] theorem modCore_stacks (c : Nat) (f : Core → Core) : (modCore s c f).memStacks = s.memStacks := rfl
@[simp] theorem modCore_nmOps (c : Nat) (f : Core → Core) : (modCore s c f).nmOps = s.nmOps := rfl
@[simp] theorem modCore_codecOps (c : Nat) (f : Core → Core) : (modCore s c f).codecOps = s.codecOps := rfl
@[simp] theorem modCore_homes (c : Nat) (f : Core → Core) : (modCore s c f).homes = s.homes := rfl
@[simp] theorem modCore_fabric (c : Nat) (f : Core → Core) : (modCore s c f).fabric = s.fabric := rfl
@[simp] theorem modCore_filter (c : Nat) (f : Core → Core) : (modCore s c f).filter = s.filter := rfl
@[simp] theorem modCore_hostFilter (c : Nat) (f : Core → Core) : (modCore s c f).hostFilter = s.hostFilter := rfl
@[simp] theorem modCore_backinv (c : Nat) (f : Core → Core) : (modCore s c f).backinv = s.backinv := rfl
@[simp] theorem modCore_bridges (c : Nat) (f : Core → Core) : (modCore s c f).bridges = s.bridges := rfl
@[simp] theorem modCore_fe (c : Nat) (f : Core → Core) : (modCore s c f).fe = s.fe := rfl
@[simp] theorem modCore_obj (c : Nat) (f : Core → Core) : (modCore s c f).obj = s.obj := rfl
@[simp] theorem modCore_pt (c : Nat) (f : Core → Core) : (modCore s c f).pt = s.pt := rfl
@[simp] theorem modCore_sags (c : Nat) (f : Core → Core) : (modCore s c f).sags = s.sags := rfl
@[simp] theorem modCore_sec (c : Nat) (f : Core → Core) : (modCore s c f).sec = s.sec := rfl
@[simp] theorem modCore_xl (c : Nat) (f : Core → Core) : (modCore s c f).xl = s.xl := rfl
@[simp] theorem modCore_dl (c : Nat) (f : Core → Core) : (modCore s c f).dl = s.dl := rfl
@[simp] theorem modCore_ras (c : Nat) (f : Core → Core) : (modCore s c f).ras = s.ras := rfl
@[simp] theorem modCore_pwr (c : Nat) (f : Core → Core) : (modCore s c f).pwr = s.pwr := rfl
@[simp] theorem modCore_gen (c : Nat) (f : Core → Core) : (modCore s c f).gen = s.gen := rfl
@[simp] theorem modCore_fuses (c : Nat) (f : Core → Core) : (modCore s c f).fuses = s.fuses := rfl
@[simp] theorem modCore_free (c : Nat) (f : Core → Core) : (modCore s c f).free = s.free := rfl
@[simp] theorem modCore_now (c : Nat) (f : Core → Core) : (modCore s c f).now = s.now := rfl

-- setChan

@[simp] theorem setChan_pending (p : Nat) (c : Channel) : (setChan s p c).pending = s.pending := rfl
@[simp] theorem setChan_dram (p : Nat) (c : Channel) : (setChan s p c).dram = s.dram := rfl
@[simp] theorem setChan_symErrs (p : Nat) (c : Channel) : (setChan s p c).symErrs = s.symErrs := rfl
@[simp] theorem setChan_icaches (p : Nat) (c : Channel) : (setChan s p c).icaches = s.icaches := rfl
@[simp] theorem setChan_cores (p : Nat) (c : Channel) : (setChan s p c).cores = s.cores := rfl
@[simp] theorem setChan_dies (p : Nat) (c : Channel) : (setChan s p c).dies = s.dies := rfl
@[simp] theorem setChan_stacks (p : Nat) (c : Channel) : (setChan s p c).memStacks = s.memStacks := rfl
@[simp] theorem setChan_nmOps (p : Nat) (c : Channel) : (setChan s p c).nmOps = s.nmOps := rfl
@[simp] theorem setChan_codecOps (p : Nat) (c : Channel) : (setChan s p c).codecOps = s.codecOps := rfl
@[simp] theorem setChan_homes (p : Nat) (c : Channel) : (setChan s p c).homes = s.homes := rfl
@[simp] theorem setChan_fabric (p : Nat) (c : Channel) : (setChan s p c).fabric = s.fabric := rfl
@[simp] theorem setChan_filter (p : Nat) (c : Channel) : (setChan s p c).filter = s.filter := rfl
@[simp] theorem setChan_hostFilter (p : Nat) (c : Channel) : (setChan s p c).hostFilter = s.hostFilter := rfl
@[simp] theorem setChan_backinv (p : Nat) (c : Channel) : (setChan s p c).backinv = s.backinv := rfl
@[simp] theorem setChan_bridges (p : Nat) (c : Channel) : (setChan s p c).bridges = s.bridges := rfl
@[simp] theorem setChan_fe (p : Nat) (c : Channel) : (setChan s p c).fe = s.fe := rfl
@[simp] theorem setChan_obj (p : Nat) (c : Channel) : (setChan s p c).obj = s.obj := rfl
@[simp] theorem setChan_pt (p : Nat) (c : Channel) : (setChan s p c).pt = s.pt := rfl
@[simp] theorem setChan_sags (p : Nat) (c : Channel) : (setChan s p c).sags = s.sags := rfl
@[simp] theorem setChan_sec (p : Nat) (c : Channel) : (setChan s p c).sec = s.sec := rfl
@[simp] theorem setChan_xl (p : Nat) (c : Channel) : (setChan s p c).xl = s.xl := rfl
@[simp] theorem setChan_dl (p : Nat) (c : Channel) : (setChan s p c).dl = s.dl := rfl
@[simp] theorem setChan_ras (p : Nat) (c : Channel) : (setChan s p c).ras = s.ras := rfl
@[simp] theorem setChan_pwr (p : Nat) (c : Channel) : (setChan s p c).pwr = s.pwr := rfl
@[simp] theorem setChan_gen (p : Nat) (c : Channel) : (setChan s p c).gen = s.gen := rfl
@[simp] theorem setChan_fuses (p : Nat) (c : Channel) : (setChan s p c).fuses = s.fuses := rfl
@[simp] theorem setChan_free (p : Nat) (c : Channel) : (setChan s p c).free = s.free := rfl
@[simp] theorem setChan_now (p : Nat) (c : Channel) : (setChan s p c).now = s.now := rfl

-- modChan

@[simp] theorem modChan_pending (p : Nat) (f : Channel → Channel) : (modChan s p f).pending = s.pending := rfl
@[simp] theorem modChan_dram (p : Nat) (f : Channel → Channel) : (modChan s p f).dram = s.dram := rfl
@[simp] theorem modChan_symErrs (p : Nat) (f : Channel → Channel) : (modChan s p f).symErrs = s.symErrs := rfl
@[simp] theorem modChan_icaches (p : Nat) (f : Channel → Channel) : (modChan s p f).icaches = s.icaches := rfl
@[simp] theorem modChan_cores (p : Nat) (f : Channel → Channel) : (modChan s p f).cores = s.cores := rfl
@[simp] theorem modChan_dies (p : Nat) (f : Channel → Channel) : (modChan s p f).dies = s.dies := rfl
@[simp] theorem modChan_stacks (p : Nat) (f : Channel → Channel) : (modChan s p f).memStacks = s.memStacks := rfl
@[simp] theorem modChan_nmOps (p : Nat) (f : Channel → Channel) : (modChan s p f).nmOps = s.nmOps := rfl
@[simp] theorem modChan_codecOps (p : Nat) (f : Channel → Channel) : (modChan s p f).codecOps = s.codecOps := rfl
@[simp] theorem modChan_homes (p : Nat) (f : Channel → Channel) : (modChan s p f).homes = s.homes := rfl
@[simp] theorem modChan_fabric (p : Nat) (f : Channel → Channel) : (modChan s p f).fabric = s.fabric := rfl
@[simp] theorem modChan_filter (p : Nat) (f : Channel → Channel) : (modChan s p f).filter = s.filter := rfl
@[simp] theorem modChan_hostFilter (p : Nat) (f : Channel → Channel) : (modChan s p f).hostFilter = s.hostFilter := rfl
@[simp] theorem modChan_backinv (p : Nat) (f : Channel → Channel) : (modChan s p f).backinv = s.backinv := rfl
@[simp] theorem modChan_bridges (p : Nat) (f : Channel → Channel) : (modChan s p f).bridges = s.bridges := rfl
@[simp] theorem modChan_fe (p : Nat) (f : Channel → Channel) : (modChan s p f).fe = s.fe := rfl
@[simp] theorem modChan_obj (p : Nat) (f : Channel → Channel) : (modChan s p f).obj = s.obj := rfl
@[simp] theorem modChan_pt (p : Nat) (f : Channel → Channel) : (modChan s p f).pt = s.pt := rfl
@[simp] theorem modChan_sags (p : Nat) (f : Channel → Channel) : (modChan s p f).sags = s.sags := rfl
@[simp] theorem modChan_sec (p : Nat) (f : Channel → Channel) : (modChan s p f).sec = s.sec := rfl
@[simp] theorem modChan_xl (p : Nat) (f : Channel → Channel) : (modChan s p f).xl = s.xl := rfl
@[simp] theorem modChan_dl (p : Nat) (f : Channel → Channel) : (modChan s p f).dl = s.dl := rfl
@[simp] theorem modChan_ras (p : Nat) (f : Channel → Channel) : (modChan s p f).ras = s.ras := rfl
@[simp] theorem modChan_pwr (p : Nat) (f : Channel → Channel) : (modChan s p f).pwr = s.pwr := rfl
@[simp] theorem modChan_gen (p : Nat) (f : Channel → Channel) : (modChan s p f).gen = s.gen := rfl
@[simp] theorem modChan_fuses (p : Nat) (f : Channel → Channel) : (modChan s p f).fuses = s.fuses := rfl
@[simp] theorem modChan_free (p : Nat) (f : Channel → Channel) : (modChan s p f).free = s.free := rfl
@[simp] theorem modChan_now (p : Nat) (f : Channel → Channel) : (modChan s p f).now = s.now := rfl

-- modStack

@[simp] theorem modStack_pending (i : Nat) (f : Stack → Stack) : (modStack s i f).pending = s.pending := rfl
@[simp] theorem modStack_dram (i : Nat) (f : Stack → Stack) : (modStack s i f).dram = s.dram := rfl
@[simp] theorem modStack_symErrs (i : Nat) (f : Stack → Stack) : (modStack s i f).symErrs = s.symErrs := rfl
@[simp] theorem modStack_icaches (i : Nat) (f : Stack → Stack) : (modStack s i f).icaches = s.icaches := rfl
@[simp] theorem modStack_cores (i : Nat) (f : Stack → Stack) : (modStack s i f).cores = s.cores := rfl
@[simp] theorem modStack_dies (i : Nat) (f : Stack → Stack) : (modStack s i f).dies = s.dies := rfl
@[simp] theorem modStack_chans (i : Nat) (f : Stack → Stack) : (modStack s i f).chans = s.chans := rfl
@[simp] theorem modStack_nmOps (i : Nat) (f : Stack → Stack) : (modStack s i f).nmOps = s.nmOps := rfl
@[simp] theorem modStack_codecOps (i : Nat) (f : Stack → Stack) : (modStack s i f).codecOps = s.codecOps := rfl
@[simp] theorem modStack_homes (i : Nat) (f : Stack → Stack) : (modStack s i f).homes = s.homes := rfl
@[simp] theorem modStack_fabric (i : Nat) (f : Stack → Stack) : (modStack s i f).fabric = s.fabric := rfl
@[simp] theorem modStack_filter (i : Nat) (f : Stack → Stack) : (modStack s i f).filter = s.filter := rfl
@[simp] theorem modStack_hostFilter (i : Nat) (f : Stack → Stack) : (modStack s i f).hostFilter = s.hostFilter := rfl
@[simp] theorem modStack_backinv (i : Nat) (f : Stack → Stack) : (modStack s i f).backinv = s.backinv := rfl
@[simp] theorem modStack_bridges (i : Nat) (f : Stack → Stack) : (modStack s i f).bridges = s.bridges := rfl
@[simp] theorem modStack_fe (i : Nat) (f : Stack → Stack) : (modStack s i f).fe = s.fe := rfl
@[simp] theorem modStack_obj (i : Nat) (f : Stack → Stack) : (modStack s i f).obj = s.obj := rfl
@[simp] theorem modStack_pt (i : Nat) (f : Stack → Stack) : (modStack s i f).pt = s.pt := rfl
@[simp] theorem modStack_sags (i : Nat) (f : Stack → Stack) : (modStack s i f).sags = s.sags := rfl
@[simp] theorem modStack_sec (i : Nat) (f : Stack → Stack) : (modStack s i f).sec = s.sec := rfl
@[simp] theorem modStack_xl (i : Nat) (f : Stack → Stack) : (modStack s i f).xl = s.xl := rfl
@[simp] theorem modStack_dl (i : Nat) (f : Stack → Stack) : (modStack s i f).dl = s.dl := rfl
@[simp] theorem modStack_ras (i : Nat) (f : Stack → Stack) : (modStack s i f).ras = s.ras := rfl
@[simp] theorem modStack_pwr (i : Nat) (f : Stack → Stack) : (modStack s i f).pwr = s.pwr := rfl
@[simp] theorem modStack_gen (i : Nat) (f : Stack → Stack) : (modStack s i f).gen = s.gen := rfl
@[simp] theorem modStack_fuses (i : Nat) (f : Stack → Stack) : (modStack s i f).fuses = s.fuses := rfl
@[simp] theorem modStack_free (i : Nat) (f : Stack → Stack) : (modStack s i f).free = s.free := rfl
@[simp] theorem modStack_now (i : Nat) (f : Stack → Stack) : (modStack s i f).now = s.now := rfl

-- modDie

@[simp] theorem modDie_pending (d : Nat) (f : Die → Die) : (modDie s d f).pending = s.pending := rfl
@[simp] theorem modDie_dram (d : Nat) (f : Die → Die) : (modDie s d f).dram = s.dram := rfl
@[simp] theorem modDie_symErrs (d : Nat) (f : Die → Die) : (modDie s d f).symErrs = s.symErrs := rfl
@[simp] theorem modDie_icaches (d : Nat) (f : Die → Die) : (modDie s d f).icaches = s.icaches := rfl
@[simp] theorem modDie_cores (d : Nat) (f : Die → Die) : (modDie s d f).cores = s.cores := rfl
@[simp] theorem modDie_chans (d : Nat) (f : Die → Die) : (modDie s d f).chans = s.chans := rfl
@[simp] theorem modDie_stacks (d : Nat) (f : Die → Die) : (modDie s d f).memStacks = s.memStacks := rfl
@[simp] theorem modDie_nmOps (d : Nat) (f : Die → Die) : (modDie s d f).nmOps = s.nmOps := rfl
@[simp] theorem modDie_codecOps (d : Nat) (f : Die → Die) : (modDie s d f).codecOps = s.codecOps := rfl
@[simp] theorem modDie_homes (d : Nat) (f : Die → Die) : (modDie s d f).homes = s.homes := rfl
@[simp] theorem modDie_fabric (d : Nat) (f : Die → Die) : (modDie s d f).fabric = s.fabric := rfl
@[simp] theorem modDie_filter (d : Nat) (f : Die → Die) : (modDie s d f).filter = s.filter := rfl
@[simp] theorem modDie_hostFilter (d : Nat) (f : Die → Die) : (modDie s d f).hostFilter = s.hostFilter := rfl
@[simp] theorem modDie_backinv (d : Nat) (f : Die → Die) : (modDie s d f).backinv = s.backinv := rfl
@[simp] theorem modDie_bridges (d : Nat) (f : Die → Die) : (modDie s d f).bridges = s.bridges := rfl
@[simp] theorem modDie_fe (d : Nat) (f : Die → Die) : (modDie s d f).fe = s.fe := rfl
@[simp] theorem modDie_obj (d : Nat) (f : Die → Die) : (modDie s d f).obj = s.obj := rfl
@[simp] theorem modDie_pt (d : Nat) (f : Die → Die) : (modDie s d f).pt = s.pt := rfl
@[simp] theorem modDie_sags (d : Nat) (f : Die → Die) : (modDie s d f).sags = s.sags := rfl
@[simp] theorem modDie_sec (d : Nat) (f : Die → Die) : (modDie s d f).sec = s.sec := rfl
@[simp] theorem modDie_xl (d : Nat) (f : Die → Die) : (modDie s d f).xl = s.xl := rfl
@[simp] theorem modDie_dl (d : Nat) (f : Die → Die) : (modDie s d f).dl = s.dl := rfl
@[simp] theorem modDie_ras (d : Nat) (f : Die → Die) : (modDie s d f).ras = s.ras := rfl
@[simp] theorem modDie_pwr (d : Nat) (f : Die → Die) : (modDie s d f).pwr = s.pwr := rfl
@[simp] theorem modDie_gen (d : Nat) (f : Die → Die) : (modDie s d f).gen = s.gen := rfl
@[simp] theorem modDie_fuses (d : Nat) (f : Die → Die) : (modDie s d f).fuses = s.fuses := rfl
@[simp] theorem modDie_free (d : Nat) (f : Die → Die) : (modDie s d f).free = s.free := rfl
@[simp] theorem modDie_now (d : Nat) (f : Die → Die) : (modDie s d f).now = s.now := rfl

-- setRing

@[simp] theorem setRing_pending (n : Nat) (r : Ring) : (setRing s n r).pending = s.pending := rfl
@[simp] theorem setRing_dram (n : Nat) (r : Ring) : (setRing s n r).dram = s.dram := rfl
@[simp] theorem setRing_symErrs (n : Nat) (r : Ring) : (setRing s n r).symErrs = s.symErrs := rfl
@[simp] theorem setRing_icaches (n : Nat) (r : Ring) : (setRing s n r).icaches = s.icaches := rfl
@[simp] theorem setRing_cores (n : Nat) (r : Ring) : (setRing s n r).cores = s.cores := rfl
@[simp] theorem setRing_dies (n : Nat) (r : Ring) : (setRing s n r).dies = s.dies := rfl
@[simp] theorem setRing_chans (n : Nat) (r : Ring) : (setRing s n r).chans = s.chans := rfl
@[simp] theorem setRing_stacks (n : Nat) (r : Ring) : (setRing s n r).memStacks = s.memStacks := rfl
@[simp] theorem setRing_nmOps (n : Nat) (r : Ring) : (setRing s n r).nmOps = s.nmOps := rfl
@[simp] theorem setRing_codecOps (n : Nat) (r : Ring) : (setRing s n r).codecOps = s.codecOps := rfl
@[simp] theorem setRing_homes (n : Nat) (r : Ring) : (setRing s n r).homes = s.homes := rfl
@[simp] theorem setRing_fabric (n : Nat) (r : Ring) : (setRing s n r).fabric = s.fabric := rfl
@[simp] theorem setRing_filter (n : Nat) (r : Ring) : (setRing s n r).filter = s.filter := rfl
@[simp] theorem setRing_hostFilter (n : Nat) (r : Ring) : (setRing s n r).hostFilter = s.hostFilter := rfl
@[simp] theorem setRing_backinv (n : Nat) (r : Ring) : (setRing s n r).backinv = s.backinv := rfl
@[simp] theorem setRing_bridges (n : Nat) (r : Ring) : (setRing s n r).bridges = s.bridges := rfl
@[simp] theorem setRing_obj (n : Nat) (r : Ring) : (setRing s n r).obj = s.obj := rfl
@[simp] theorem setRing_pt (n : Nat) (r : Ring) : (setRing s n r).pt = s.pt := rfl
@[simp] theorem setRing_sags (n : Nat) (r : Ring) : (setRing s n r).sags = s.sags := rfl
@[simp] theorem setRing_sec (n : Nat) (r : Ring) : (setRing s n r).sec = s.sec := rfl
@[simp] theorem setRing_xl (n : Nat) (r : Ring) : (setRing s n r).xl = s.xl := rfl
@[simp] theorem setRing_dl (n : Nat) (r : Ring) : (setRing s n r).dl = s.dl := rfl
@[simp] theorem setRing_ras (n : Nat) (r : Ring) : (setRing s n r).ras = s.ras := rfl
@[simp] theorem setRing_pwr (n : Nat) (r : Ring) : (setRing s n r).pwr = s.pwr := rfl
@[simp] theorem setRing_gen (n : Nat) (r : Ring) : (setRing s n r).gen = s.gen := rfl
@[simp] theorem setRing_fuses (n : Nat) (r : Ring) : (setRing s n r).fuses = s.fuses := rfl
@[simp] theorem setRing_free (n : Nat) (r : Ring) : (setRing s n r).free = s.free := rfl
@[simp] theorem setRing_now (n : Nat) (r : Ring) : (setRing s n r).now = s.now := rfl

-- modRing

@[simp] theorem modRing_pending (n : Nat) (f : Ring → Ring) : (modRing s n f).pending = s.pending := rfl
@[simp] theorem modRing_dram (n : Nat) (f : Ring → Ring) : (modRing s n f).dram = s.dram := rfl
@[simp] theorem modRing_symErrs (n : Nat) (f : Ring → Ring) : (modRing s n f).symErrs = s.symErrs := rfl
@[simp] theorem modRing_icaches (n : Nat) (f : Ring → Ring) : (modRing s n f).icaches = s.icaches := rfl
@[simp] theorem modRing_cores (n : Nat) (f : Ring → Ring) : (modRing s n f).cores = s.cores := rfl
@[simp] theorem modRing_dies (n : Nat) (f : Ring → Ring) : (modRing s n f).dies = s.dies := rfl
@[simp] theorem modRing_chans (n : Nat) (f : Ring → Ring) : (modRing s n f).chans = s.chans := rfl
@[simp] theorem modRing_stacks (n : Nat) (f : Ring → Ring) : (modRing s n f).memStacks = s.memStacks := rfl
@[simp] theorem modRing_nmOps (n : Nat) (f : Ring → Ring) : (modRing s n f).nmOps = s.nmOps := rfl
@[simp] theorem modRing_codecOps (n : Nat) (f : Ring → Ring) : (modRing s n f).codecOps = s.codecOps := rfl
@[simp] theorem modRing_homes (n : Nat) (f : Ring → Ring) : (modRing s n f).homes = s.homes := rfl
@[simp] theorem modRing_fabric (n : Nat) (f : Ring → Ring) : (modRing s n f).fabric = s.fabric := rfl
@[simp] theorem modRing_filter (n : Nat) (f : Ring → Ring) : (modRing s n f).filter = s.filter := rfl
@[simp] theorem modRing_hostFilter (n : Nat) (f : Ring → Ring) : (modRing s n f).hostFilter = s.hostFilter := rfl
@[simp] theorem modRing_backinv (n : Nat) (f : Ring → Ring) : (modRing s n f).backinv = s.backinv := rfl
@[simp] theorem modRing_bridges (n : Nat) (f : Ring → Ring) : (modRing s n f).bridges = s.bridges := rfl
@[simp] theorem modRing_obj (n : Nat) (f : Ring → Ring) : (modRing s n f).obj = s.obj := rfl
@[simp] theorem modRing_pt (n : Nat) (f : Ring → Ring) : (modRing s n f).pt = s.pt := rfl
@[simp] theorem modRing_sags (n : Nat) (f : Ring → Ring) : (modRing s n f).sags = s.sags := rfl
@[simp] theorem modRing_sec (n : Nat) (f : Ring → Ring) : (modRing s n f).sec = s.sec := rfl
@[simp] theorem modRing_xl (n : Nat) (f : Ring → Ring) : (modRing s n f).xl = s.xl := rfl
@[simp] theorem modRing_dl (n : Nat) (f : Ring → Ring) : (modRing s n f).dl = s.dl := rfl
@[simp] theorem modRing_ras (n : Nat) (f : Ring → Ring) : (modRing s n f).ras = s.ras := rfl
@[simp] theorem modRing_pwr (n : Nat) (f : Ring → Ring) : (modRing s n f).pwr = s.pwr := rfl
@[simp] theorem modRing_gen (n : Nat) (f : Ring → Ring) : (modRing s n f).gen = s.gen := rfl
@[simp] theorem modRing_fuses (n : Nat) (f : Ring → Ring) : (modRing s n f).fuses = s.fuses := rfl
@[simp] theorem modRing_free (n : Nat) (f : Ring → Ring) : (modRing s n f).free = s.free := rfl
@[simp] theorem modRing_now (n : Nat) (f : Ring → Ring) : (modRing s n f).now = s.now := rfl

-- setSag

@[simp] theorem setSag_pending (k : Nat) (g : Saggar) : (setSag s k g).pending = s.pending := rfl
@[simp] theorem setSag_dram (k : Nat) (g : Saggar) : (setSag s k g).dram = s.dram := rfl
@[simp] theorem setSag_symErrs (k : Nat) (g : Saggar) : (setSag s k g).symErrs = s.symErrs := rfl
@[simp] theorem setSag_icaches (k : Nat) (g : Saggar) : (setSag s k g).icaches = s.icaches := rfl
@[simp] theorem setSag_cores (k : Nat) (g : Saggar) : (setSag s k g).cores = s.cores := rfl
@[simp] theorem setSag_dies (k : Nat) (g : Saggar) : (setSag s k g).dies = s.dies := rfl
@[simp] theorem setSag_chans (k : Nat) (g : Saggar) : (setSag s k g).chans = s.chans := rfl
@[simp] theorem setSag_stacks (k : Nat) (g : Saggar) : (setSag s k g).memStacks = s.memStacks := rfl
@[simp] theorem setSag_nmOps (k : Nat) (g : Saggar) : (setSag s k g).nmOps = s.nmOps := rfl
@[simp] theorem setSag_codecOps (k : Nat) (g : Saggar) : (setSag s k g).codecOps = s.codecOps := rfl
@[simp] theorem setSag_homes (k : Nat) (g : Saggar) : (setSag s k g).homes = s.homes := rfl
@[simp] theorem setSag_fabric (k : Nat) (g : Saggar) : (setSag s k g).fabric = s.fabric := rfl
@[simp] theorem setSag_filter (k : Nat) (g : Saggar) : (setSag s k g).filter = s.filter := rfl
@[simp] theorem setSag_hostFilter (k : Nat) (g : Saggar) : (setSag s k g).hostFilter = s.hostFilter := rfl
@[simp] theorem setSag_backinv (k : Nat) (g : Saggar) : (setSag s k g).backinv = s.backinv := rfl
@[simp] theorem setSag_bridges (k : Nat) (g : Saggar) : (setSag s k g).bridges = s.bridges := rfl
@[simp] theorem setSag_fe (k : Nat) (g : Saggar) : (setSag s k g).fe = s.fe := rfl
@[simp] theorem setSag_obj (k : Nat) (g : Saggar) : (setSag s k g).obj = s.obj := rfl
@[simp] theorem setSag_pt (k : Nat) (g : Saggar) : (setSag s k g).pt = s.pt := rfl
@[simp] theorem setSag_sec (k : Nat) (g : Saggar) : (setSag s k g).sec = s.sec := rfl
@[simp] theorem setSag_xl (k : Nat) (g : Saggar) : (setSag s k g).xl = s.xl := rfl
@[simp] theorem setSag_dl (k : Nat) (g : Saggar) : (setSag s k g).dl = s.dl := rfl
@[simp] theorem setSag_ras (k : Nat) (g : Saggar) : (setSag s k g).ras = s.ras := rfl
@[simp] theorem setSag_pwr (k : Nat) (g : Saggar) : (setSag s k g).pwr = s.pwr := rfl
@[simp] theorem setSag_gen (k : Nat) (g : Saggar) : (setSag s k g).gen = s.gen := rfl
@[simp] theorem setSag_fuses (k : Nat) (g : Saggar) : (setSag s k g).fuses = s.fuses := rfl
@[simp] theorem setSag_free (k : Nat) (g : Saggar) : (setSag s k g).free = s.free := rfl
@[simp] theorem setSag_now (k : Nat) (g : Saggar) : (setSag s k g).now = s.now := rfl

-- modSag

@[simp] theorem modSag_pending (k : Nat) (f : Saggar → Saggar) : (modSag s k f).pending = s.pending := rfl
@[simp] theorem modSag_dram (k : Nat) (f : Saggar → Saggar) : (modSag s k f).dram = s.dram := rfl
@[simp] theorem modSag_symErrs (k : Nat) (f : Saggar → Saggar) : (modSag s k f).symErrs = s.symErrs := rfl
@[simp] theorem modSag_icaches (k : Nat) (f : Saggar → Saggar) : (modSag s k f).icaches = s.icaches := rfl
@[simp] theorem modSag_cores (k : Nat) (f : Saggar → Saggar) : (modSag s k f).cores = s.cores := rfl
@[simp] theorem modSag_dies (k : Nat) (f : Saggar → Saggar) : (modSag s k f).dies = s.dies := rfl
@[simp] theorem modSag_chans (k : Nat) (f : Saggar → Saggar) : (modSag s k f).chans = s.chans := rfl
@[simp] theorem modSag_stacks (k : Nat) (f : Saggar → Saggar) : (modSag s k f).memStacks = s.memStacks := rfl
@[simp] theorem modSag_nmOps (k : Nat) (f : Saggar → Saggar) : (modSag s k f).nmOps = s.nmOps := rfl
@[simp] theorem modSag_codecOps (k : Nat) (f : Saggar → Saggar) : (modSag s k f).codecOps = s.codecOps := rfl
@[simp] theorem modSag_homes (k : Nat) (f : Saggar → Saggar) : (modSag s k f).homes = s.homes := rfl
@[simp] theorem modSag_fabric (k : Nat) (f : Saggar → Saggar) : (modSag s k f).fabric = s.fabric := rfl
@[simp] theorem modSag_filter (k : Nat) (f : Saggar → Saggar) : (modSag s k f).filter = s.filter := rfl
@[simp] theorem modSag_hostFilter (k : Nat) (f : Saggar → Saggar) : (modSag s k f).hostFilter = s.hostFilter := rfl
@[simp] theorem modSag_backinv (k : Nat) (f : Saggar → Saggar) : (modSag s k f).backinv = s.backinv := rfl
@[simp] theorem modSag_bridges (k : Nat) (f : Saggar → Saggar) : (modSag s k f).bridges = s.bridges := rfl
@[simp] theorem modSag_fe (k : Nat) (f : Saggar → Saggar) : (modSag s k f).fe = s.fe := rfl
@[simp] theorem modSag_obj (k : Nat) (f : Saggar → Saggar) : (modSag s k f).obj = s.obj := rfl
@[simp] theorem modSag_pt (k : Nat) (f : Saggar → Saggar) : (modSag s k f).pt = s.pt := rfl
@[simp] theorem modSag_sec (k : Nat) (f : Saggar → Saggar) : (modSag s k f).sec = s.sec := rfl
@[simp] theorem modSag_xl (k : Nat) (f : Saggar → Saggar) : (modSag s k f).xl = s.xl := rfl
@[simp] theorem modSag_dl (k : Nat) (f : Saggar → Saggar) : (modSag s k f).dl = s.dl := rfl
@[simp] theorem modSag_ras (k : Nat) (f : Saggar → Saggar) : (modSag s k f).ras = s.ras := rfl
@[simp] theorem modSag_pwr (k : Nat) (f : Saggar → Saggar) : (modSag s k f).pwr = s.pwr := rfl
@[simp] theorem modSag_gen (k : Nat) (f : Saggar → Saggar) : (modSag s k f).gen = s.gen := rfl
@[simp] theorem modSag_fuses (k : Nat) (f : Saggar → Saggar) : (modSag s k f).fuses = s.fuses := rfl
@[simp] theorem modSag_free (k : Nat) (f : Saggar → Saggar) : (modSag s k f).free = s.free := rfl
@[simp] theorem modSag_now (k : Nat) (f : Saggar → Saggar) : (modSag s k f).now = s.now := rfl

-- setCtx

@[simp] theorem setCtx_pending (i : Nat) (c : Ctx) : (setCtx s i c).pending = s.pending := rfl
@[simp] theorem setCtx_dram (i : Nat) (c : Ctx) : (setCtx s i c).dram = s.dram := rfl
@[simp] theorem setCtx_symErrs (i : Nat) (c : Ctx) : (setCtx s i c).symErrs = s.symErrs := rfl
@[simp] theorem setCtx_icaches (i : Nat) (c : Ctx) : (setCtx s i c).icaches = s.icaches := rfl
@[simp] theorem setCtx_cores (i : Nat) (c : Ctx) : (setCtx s i c).cores = s.cores := rfl
@[simp] theorem setCtx_dies (i : Nat) (c : Ctx) : (setCtx s i c).dies = s.dies := rfl
@[simp] theorem setCtx_chans (i : Nat) (c : Ctx) : (setCtx s i c).chans = s.chans := rfl
@[simp] theorem setCtx_stacks (i : Nat) (c : Ctx) : (setCtx s i c).memStacks = s.memStacks := rfl
@[simp] theorem setCtx_nmOps (i : Nat) (c : Ctx) : (setCtx s i c).nmOps = s.nmOps := rfl
@[simp] theorem setCtx_codecOps (i : Nat) (c : Ctx) : (setCtx s i c).codecOps = s.codecOps := rfl
@[simp] theorem setCtx_homes (i : Nat) (c : Ctx) : (setCtx s i c).homes = s.homes := rfl
@[simp] theorem setCtx_fabric (i : Nat) (c : Ctx) : (setCtx s i c).fabric = s.fabric := rfl
@[simp] theorem setCtx_filter (i : Nat) (c : Ctx) : (setCtx s i c).filter = s.filter := rfl
@[simp] theorem setCtx_hostFilter (i : Nat) (c : Ctx) : (setCtx s i c).hostFilter = s.hostFilter := rfl
@[simp] theorem setCtx_backinv (i : Nat) (c : Ctx) : (setCtx s i c).backinv = s.backinv := rfl
@[simp] theorem setCtx_bridges (i : Nat) (c : Ctx) : (setCtx s i c).bridges = s.bridges := rfl
@[simp] theorem setCtx_fe (i : Nat) (c : Ctx) : (setCtx s i c).fe = s.fe := rfl
@[simp] theorem setCtx_pt (i : Nat) (c : Ctx) : (setCtx s i c).pt = s.pt := rfl
@[simp] theorem setCtx_sags (i : Nat) (c : Ctx) : (setCtx s i c).sags = s.sags := rfl
@[simp] theorem setCtx_sec (i : Nat) (c : Ctx) : (setCtx s i c).sec = s.sec := rfl
@[simp] theorem setCtx_xl (i : Nat) (c : Ctx) : (setCtx s i c).xl = s.xl := rfl
@[simp] theorem setCtx_dl (i : Nat) (c : Ctx) : (setCtx s i c).dl = s.dl := rfl
@[simp] theorem setCtx_ras (i : Nat) (c : Ctx) : (setCtx s i c).ras = s.ras := rfl
@[simp] theorem setCtx_pwr (i : Nat) (c : Ctx) : (setCtx s i c).pwr = s.pwr := rfl
@[simp] theorem setCtx_gen (i : Nat) (c : Ctx) : (setCtx s i c).gen = s.gen := rfl
@[simp] theorem setCtx_fuses (i : Nat) (c : Ctx) : (setCtx s i c).fuses = s.fuses := rfl
@[simp] theorem setCtx_free (i : Nat) (c : Ctx) : (setCtx s i c).free = s.free := rfl
@[simp] theorem setCtx_now (i : Nat) (c : Ctx) : (setCtx s i c).now = s.now := rfl

-- setObj

@[simp] theorem setObj_pending (i : Nat) (o : Obj) : (setObj s i o).pending = s.pending := rfl
@[simp] theorem setObj_dram (i : Nat) (o : Obj) : (setObj s i o).dram = s.dram := rfl
@[simp] theorem setObj_symErrs (i : Nat) (o : Obj) : (setObj s i o).symErrs = s.symErrs := rfl
@[simp] theorem setObj_icaches (i : Nat) (o : Obj) : (setObj s i o).icaches = s.icaches := rfl
@[simp] theorem setObj_cores (i : Nat) (o : Obj) : (setObj s i o).cores = s.cores := rfl
@[simp] theorem setObj_dies (i : Nat) (o : Obj) : (setObj s i o).dies = s.dies := rfl
@[simp] theorem setObj_chans (i : Nat) (o : Obj) : (setObj s i o).chans = s.chans := rfl
@[simp] theorem setObj_stacks (i : Nat) (o : Obj) : (setObj s i o).memStacks = s.memStacks := rfl
@[simp] theorem setObj_nmOps (i : Nat) (o : Obj) : (setObj s i o).nmOps = s.nmOps := rfl
@[simp] theorem setObj_codecOps (i : Nat) (o : Obj) : (setObj s i o).codecOps = s.codecOps := rfl
@[simp] theorem setObj_homes (i : Nat) (o : Obj) : (setObj s i o).homes = s.homes := rfl
@[simp] theorem setObj_fabric (i : Nat) (o : Obj) : (setObj s i o).fabric = s.fabric := rfl
@[simp] theorem setObj_filter (i : Nat) (o : Obj) : (setObj s i o).filter = s.filter := rfl
@[simp] theorem setObj_hostFilter (i : Nat) (o : Obj) : (setObj s i o).hostFilter = s.hostFilter := rfl
@[simp] theorem setObj_backinv (i : Nat) (o : Obj) : (setObj s i o).backinv = s.backinv := rfl
@[simp] theorem setObj_bridges (i : Nat) (o : Obj) : (setObj s i o).bridges = s.bridges := rfl
@[simp] theorem setObj_fe (i : Nat) (o : Obj) : (setObj s i o).fe = s.fe := rfl
@[simp] theorem setObj_pt (i : Nat) (o : Obj) : (setObj s i o).pt = s.pt := rfl
@[simp] theorem setObj_sags (i : Nat) (o : Obj) : (setObj s i o).sags = s.sags := rfl
@[simp] theorem setObj_sec (i : Nat) (o : Obj) : (setObj s i o).sec = s.sec := rfl
@[simp] theorem setObj_xl (i : Nat) (o : Obj) : (setObj s i o).xl = s.xl := rfl
@[simp] theorem setObj_dl (i : Nat) (o : Obj) : (setObj s i o).dl = s.dl := rfl
@[simp] theorem setObj_ras (i : Nat) (o : Obj) : (setObj s i o).ras = s.ras := rfl
@[simp] theorem setObj_pwr (i : Nat) (o : Obj) : (setObj s i o).pwr = s.pwr := rfl
@[simp] theorem setObj_gen (i : Nat) (o : Obj) : (setObj s i o).gen = s.gen := rfl
@[simp] theorem setObj_fuses (i : Nat) (o : Obj) : (setObj s i o).fuses = s.fuses := rfl
@[simp] theorem setObj_free (i : Nat) (o : Obj) : (setObj s i o).free = s.free := rfl
@[simp] theorem setObj_now (i : Nat) (o : Obj) : (setObj s i o).now = s.now := rfl

-- setPage

@[simp] theorem setPage_pending (i : Nat) (p : FencePage) : (setPage s i p).pending = s.pending := rfl
@[simp] theorem setPage_dram (i : Nat) (p : FencePage) : (setPage s i p).dram = s.dram := rfl
@[simp] theorem setPage_symErrs (i : Nat) (p : FencePage) : (setPage s i p).symErrs = s.symErrs := rfl
@[simp] theorem setPage_icaches (i : Nat) (p : FencePage) : (setPage s i p).icaches = s.icaches := rfl
@[simp] theorem setPage_cores (i : Nat) (p : FencePage) : (setPage s i p).cores = s.cores := rfl
@[simp] theorem setPage_dies (i : Nat) (p : FencePage) : (setPage s i p).dies = s.dies := rfl
@[simp] theorem setPage_chans (i : Nat) (p : FencePage) : (setPage s i p).chans = s.chans := rfl
@[simp] theorem setPage_stacks (i : Nat) (p : FencePage) : (setPage s i p).memStacks = s.memStacks := rfl
@[simp] theorem setPage_nmOps (i : Nat) (p : FencePage) : (setPage s i p).nmOps = s.nmOps := rfl
@[simp] theorem setPage_codecOps (i : Nat) (p : FencePage) : (setPage s i p).codecOps = s.codecOps := rfl
@[simp] theorem setPage_homes (i : Nat) (p : FencePage) : (setPage s i p).homes = s.homes := rfl
@[simp] theorem setPage_fabric (i : Nat) (p : FencePage) : (setPage s i p).fabric = s.fabric := rfl
@[simp] theorem setPage_filter (i : Nat) (p : FencePage) : (setPage s i p).filter = s.filter := rfl
@[simp] theorem setPage_hostFilter (i : Nat) (p : FencePage) : (setPage s i p).hostFilter = s.hostFilter := rfl
@[simp] theorem setPage_backinv (i : Nat) (p : FencePage) : (setPage s i p).backinv = s.backinv := rfl
@[simp] theorem setPage_bridges (i : Nat) (p : FencePage) : (setPage s i p).bridges = s.bridges := rfl
@[simp] theorem setPage_fe (i : Nat) (p : FencePage) : (setPage s i p).fe = s.fe := rfl
@[simp] theorem setPage_pt (i : Nat) (p : FencePage) : (setPage s i p).pt = s.pt := rfl
@[simp] theorem setPage_sags (i : Nat) (p : FencePage) : (setPage s i p).sags = s.sags := rfl
@[simp] theorem setPage_sec (i : Nat) (p : FencePage) : (setPage s i p).sec = s.sec := rfl
@[simp] theorem setPage_xl (i : Nat) (p : FencePage) : (setPage s i p).xl = s.xl := rfl
@[simp] theorem setPage_dl (i : Nat) (p : FencePage) : (setPage s i p).dl = s.dl := rfl
@[simp] theorem setPage_ras (i : Nat) (p : FencePage) : (setPage s i p).ras = s.ras := rfl
@[simp] theorem setPage_pwr (i : Nat) (p : FencePage) : (setPage s i p).pwr = s.pwr := rfl
@[simp] theorem setPage_gen (i : Nat) (p : FencePage) : (setPage s i p).gen = s.gen := rfl
@[simp] theorem setPage_fuses (i : Nat) (p : FencePage) : (setPage s i p).fuses = s.fuses := rfl
@[simp] theorem setPage_free (i : Nat) (p : FencePage) : (setPage s i p).free = s.free := rfl
@[simp] theorem setPage_now (i : Nat) (p : FencePage) : (setPage s i p).now = s.now := rfl

-- setFence

@[simp] theorem setFence_pending (i : Nat) (f : Fence) : (setFence s i f).pending = s.pending := rfl
@[simp] theorem setFence_dram (i : Nat) (f : Fence) : (setFence s i f).dram = s.dram := rfl
@[simp] theorem setFence_symErrs (i : Nat) (f : Fence) : (setFence s i f).symErrs = s.symErrs := rfl
@[simp] theorem setFence_icaches (i : Nat) (f : Fence) : (setFence s i f).icaches = s.icaches := rfl
@[simp] theorem setFence_cores (i : Nat) (f : Fence) : (setFence s i f).cores = s.cores := rfl
@[simp] theorem setFence_dies (i : Nat) (f : Fence) : (setFence s i f).dies = s.dies := rfl
@[simp] theorem setFence_chans (i : Nat) (f : Fence) : (setFence s i f).chans = s.chans := rfl
@[simp] theorem setFence_stacks (i : Nat) (f : Fence) : (setFence s i f).memStacks = s.memStacks := rfl
@[simp] theorem setFence_nmOps (i : Nat) (f : Fence) : (setFence s i f).nmOps = s.nmOps := rfl
@[simp] theorem setFence_codecOps (i : Nat) (f : Fence) : (setFence s i f).codecOps = s.codecOps := rfl
@[simp] theorem setFence_homes (i : Nat) (f : Fence) : (setFence s i f).homes = s.homes := rfl
@[simp] theorem setFence_fabric (i : Nat) (f : Fence) : (setFence s i f).fabric = s.fabric := rfl
@[simp] theorem setFence_filter (i : Nat) (f : Fence) : (setFence s i f).filter = s.filter := rfl
@[simp] theorem setFence_hostFilter (i : Nat) (f : Fence) : (setFence s i f).hostFilter = s.hostFilter := rfl
@[simp] theorem setFence_backinv (i : Nat) (f : Fence) : (setFence s i f).backinv = s.backinv := rfl
@[simp] theorem setFence_bridges (i : Nat) (f : Fence) : (setFence s i f).bridges = s.bridges := rfl
@[simp] theorem setFence_fe (i : Nat) (f : Fence) : (setFence s i f).fe = s.fe := rfl
@[simp] theorem setFence_pt (i : Nat) (f : Fence) : (setFence s i f).pt = s.pt := rfl
@[simp] theorem setFence_sags (i : Nat) (f : Fence) : (setFence s i f).sags = s.sags := rfl
@[simp] theorem setFence_sec (i : Nat) (f : Fence) : (setFence s i f).sec = s.sec := rfl
@[simp] theorem setFence_xl (i : Nat) (f : Fence) : (setFence s i f).xl = s.xl := rfl
@[simp] theorem setFence_dl (i : Nat) (f : Fence) : (setFence s i f).dl = s.dl := rfl
@[simp] theorem setFence_ras (i : Nat) (f : Fence) : (setFence s i f).ras = s.ras := rfl
@[simp] theorem setFence_pwr (i : Nat) (f : Fence) : (setFence s i f).pwr = s.pwr := rfl
@[simp] theorem setFence_gen (i : Nat) (f : Fence) : (setFence s i f).gen = s.gen := rfl
@[simp] theorem setFence_fuses (i : Nat) (f : Fence) : (setFence s i f).fuses = s.fuses := rfl
@[simp] theorem setFence_free (i : Nat) (f : Fence) : (setFence s i f).free = s.free := rfl
@[simp] theorem setFence_now (i : Nat) (f : Fence) : (setFence s i f).now = s.now := rfl

-- setGraph

@[simp] theorem setGraph_pending (i : Nat) (g : GraphSlot) : (setGraph s i g).pending = s.pending := rfl
@[simp] theorem setGraph_dram (i : Nat) (g : GraphSlot) : (setGraph s i g).dram = s.dram := rfl
@[simp] theorem setGraph_symErrs (i : Nat) (g : GraphSlot) : (setGraph s i g).symErrs = s.symErrs := rfl
@[simp] theorem setGraph_icaches (i : Nat) (g : GraphSlot) : (setGraph s i g).icaches = s.icaches := rfl
@[simp] theorem setGraph_cores (i : Nat) (g : GraphSlot) : (setGraph s i g).cores = s.cores := rfl
@[simp] theorem setGraph_dies (i : Nat) (g : GraphSlot) : (setGraph s i g).dies = s.dies := rfl
@[simp] theorem setGraph_chans (i : Nat) (g : GraphSlot) : (setGraph s i g).chans = s.chans := rfl
@[simp] theorem setGraph_stacks (i : Nat) (g : GraphSlot) : (setGraph s i g).memStacks = s.memStacks := rfl
@[simp] theorem setGraph_nmOps (i : Nat) (g : GraphSlot) : (setGraph s i g).nmOps = s.nmOps := rfl
@[simp] theorem setGraph_codecOps (i : Nat) (g : GraphSlot) : (setGraph s i g).codecOps = s.codecOps := rfl
@[simp] theorem setGraph_homes (i : Nat) (g : GraphSlot) : (setGraph s i g).homes = s.homes := rfl
@[simp] theorem setGraph_fabric (i : Nat) (g : GraphSlot) : (setGraph s i g).fabric = s.fabric := rfl
@[simp] theorem setGraph_filter (i : Nat) (g : GraphSlot) : (setGraph s i g).filter = s.filter := rfl
@[simp] theorem setGraph_hostFilter (i : Nat) (g : GraphSlot) : (setGraph s i g).hostFilter = s.hostFilter := rfl
@[simp] theorem setGraph_backinv (i : Nat) (g : GraphSlot) : (setGraph s i g).backinv = s.backinv := rfl
@[simp] theorem setGraph_bridges (i : Nat) (g : GraphSlot) : (setGraph s i g).bridges = s.bridges := rfl
@[simp] theorem setGraph_obj (i : Nat) (g : GraphSlot) : (setGraph s i g).obj = s.obj := rfl
@[simp] theorem setGraph_pt (i : Nat) (g : GraphSlot) : (setGraph s i g).pt = s.pt := rfl
@[simp] theorem setGraph_sags (i : Nat) (g : GraphSlot) : (setGraph s i g).sags = s.sags := rfl
@[simp] theorem setGraph_sec (i : Nat) (g : GraphSlot) : (setGraph s i g).sec = s.sec := rfl
@[simp] theorem setGraph_xl (i : Nat) (g : GraphSlot) : (setGraph s i g).xl = s.xl := rfl
@[simp] theorem setGraph_dl (i : Nat) (g : GraphSlot) : (setGraph s i g).dl = s.dl := rfl
@[simp] theorem setGraph_ras (i : Nat) (g : GraphSlot) : (setGraph s i g).ras = s.ras := rfl
@[simp] theorem setGraph_pwr (i : Nat) (g : GraphSlot) : (setGraph s i g).pwr = s.pwr := rfl
@[simp] theorem setGraph_gen (i : Nat) (g : GraphSlot) : (setGraph s i g).gen = s.gen := rfl
@[simp] theorem setGraph_fuses (i : Nat) (g : GraphSlot) : (setGraph s i g).fuses = s.fuses := rfl
@[simp] theorem setGraph_free (i : Nat) (g : GraphSlot) : (setGraph s i g).free = s.free := rfl
@[simp] theorem setGraph_now (i : Nat) (g : GraphSlot) : (setGraph s i g).now = s.now := rfl

-- modPort

@[simp] theorem modPort_pending (i : Nat) (f : XlPort → XlPort) : (modPort s i f).pending = s.pending := rfl
@[simp] theorem modPort_dram (i : Nat) (f : XlPort → XlPort) : (modPort s i f).dram = s.dram := rfl
@[simp] theorem modPort_symErrs (i : Nat) (f : XlPort → XlPort) : (modPort s i f).symErrs = s.symErrs := rfl
@[simp] theorem modPort_icaches (i : Nat) (f : XlPort → XlPort) : (modPort s i f).icaches = s.icaches := rfl
@[simp] theorem modPort_cores (i : Nat) (f : XlPort → XlPort) : (modPort s i f).cores = s.cores := rfl
@[simp] theorem modPort_dies (i : Nat) (f : XlPort → XlPort) : (modPort s i f).dies = s.dies := rfl
@[simp] theorem modPort_chans (i : Nat) (f : XlPort → XlPort) : (modPort s i f).chans = s.chans := rfl
@[simp] theorem modPort_stacks (i : Nat) (f : XlPort → XlPort) : (modPort s i f).memStacks = s.memStacks := rfl
@[simp] theorem modPort_nmOps (i : Nat) (f : XlPort → XlPort) : (modPort s i f).nmOps = s.nmOps := rfl
@[simp] theorem modPort_codecOps (i : Nat) (f : XlPort → XlPort) : (modPort s i f).codecOps = s.codecOps := rfl
@[simp] theorem modPort_homes (i : Nat) (f : XlPort → XlPort) : (modPort s i f).homes = s.homes := rfl
@[simp] theorem modPort_fabric (i : Nat) (f : XlPort → XlPort) : (modPort s i f).fabric = s.fabric := rfl
@[simp] theorem modPort_filter (i : Nat) (f : XlPort → XlPort) : (modPort s i f).filter = s.filter := rfl
@[simp] theorem modPort_hostFilter (i : Nat) (f : XlPort → XlPort) : (modPort s i f).hostFilter = s.hostFilter := rfl
@[simp] theorem modPort_backinv (i : Nat) (f : XlPort → XlPort) : (modPort s i f).backinv = s.backinv := rfl
@[simp] theorem modPort_bridges (i : Nat) (f : XlPort → XlPort) : (modPort s i f).bridges = s.bridges := rfl
@[simp] theorem modPort_fe (i : Nat) (f : XlPort → XlPort) : (modPort s i f).fe = s.fe := rfl
@[simp] theorem modPort_obj (i : Nat) (f : XlPort → XlPort) : (modPort s i f).obj = s.obj := rfl
@[simp] theorem modPort_pt (i : Nat) (f : XlPort → XlPort) : (modPort s i f).pt = s.pt := rfl
@[simp] theorem modPort_sags (i : Nat) (f : XlPort → XlPort) : (modPort s i f).sags = s.sags := rfl
@[simp] theorem modPort_sec (i : Nat) (f : XlPort → XlPort) : (modPort s i f).sec = s.sec := rfl
@[simp] theorem modPort_dl (i : Nat) (f : XlPort → XlPort) : (modPort s i f).dl = s.dl := rfl
@[simp] theorem modPort_ras (i : Nat) (f : XlPort → XlPort) : (modPort s i f).ras = s.ras := rfl
@[simp] theorem modPort_pwr (i : Nat) (f : XlPort → XlPort) : (modPort s i f).pwr = s.pwr := rfl
@[simp] theorem modPort_gen (i : Nat) (f : XlPort → XlPort) : (modPort s i f).gen = s.gen := rfl
@[simp] theorem modPort_fuses (i : Nat) (f : XlPort → XlPort) : (modPort s i f).fuses = s.fuses := rfl
@[simp] theorem modPort_free (i : Nat) (f : XlPort → XlPort) : (modPort s i f).free = s.free := rfl
@[simp] theorem modPort_now (i : Nat) (f : XlPort → XlPort) : (modPort s i f).now = s.now := rfl

-- setSlice

@[simp] theorem setSlice_pending (k : Nat) (r : SliceReg) : (setSlice s k r).pending = s.pending := rfl
@[simp] theorem setSlice_dram (k : Nat) (r : SliceReg) : (setSlice s k r).dram = s.dram := rfl
@[simp] theorem setSlice_symErrs (k : Nat) (r : SliceReg) : (setSlice s k r).symErrs = s.symErrs := rfl
@[simp] theorem setSlice_icaches (k : Nat) (r : SliceReg) : (setSlice s k r).icaches = s.icaches := rfl
@[simp] theorem setSlice_cores (k : Nat) (r : SliceReg) : (setSlice s k r).cores = s.cores := rfl
@[simp] theorem setSlice_dies (k : Nat) (r : SliceReg) : (setSlice s k r).dies = s.dies := rfl
@[simp] theorem setSlice_chans (k : Nat) (r : SliceReg) : (setSlice s k r).chans = s.chans := rfl
@[simp] theorem setSlice_stacks (k : Nat) (r : SliceReg) : (setSlice s k r).memStacks = s.memStacks := rfl
@[simp] theorem setSlice_nmOps (k : Nat) (r : SliceReg) : (setSlice s k r).nmOps = s.nmOps := rfl
@[simp] theorem setSlice_codecOps (k : Nat) (r : SliceReg) : (setSlice s k r).codecOps = s.codecOps := rfl
@[simp] theorem setSlice_homes (k : Nat) (r : SliceReg) : (setSlice s k r).homes = s.homes := rfl
@[simp] theorem setSlice_fabric (k : Nat) (r : SliceReg) : (setSlice s k r).fabric = s.fabric := rfl
@[simp] theorem setSlice_filter (k : Nat) (r : SliceReg) : (setSlice s k r).filter = s.filter := rfl
@[simp] theorem setSlice_hostFilter (k : Nat) (r : SliceReg) : (setSlice s k r).hostFilter = s.hostFilter := rfl
@[simp] theorem setSlice_backinv (k : Nat) (r : SliceReg) : (setSlice s k r).backinv = s.backinv := rfl
@[simp] theorem setSlice_bridges (k : Nat) (r : SliceReg) : (setSlice s k r).bridges = s.bridges := rfl
@[simp] theorem setSlice_fe (k : Nat) (r : SliceReg) : (setSlice s k r).fe = s.fe := rfl
@[simp] theorem setSlice_obj (k : Nat) (r : SliceReg) : (setSlice s k r).obj = s.obj := rfl
@[simp] theorem setSlice_pt (k : Nat) (r : SliceReg) : (setSlice s k r).pt = s.pt := rfl
@[simp] theorem setSlice_sags (k : Nat) (r : SliceReg) : (setSlice s k r).sags = s.sags := rfl
@[simp] theorem setSlice_sec (k : Nat) (r : SliceReg) : (setSlice s k r).sec = s.sec := rfl
@[simp] theorem setSlice_dl (k : Nat) (r : SliceReg) : (setSlice s k r).dl = s.dl := rfl
@[simp] theorem setSlice_ras (k : Nat) (r : SliceReg) : (setSlice s k r).ras = s.ras := rfl
@[simp] theorem setSlice_pwr (k : Nat) (r : SliceReg) : (setSlice s k r).pwr = s.pwr := rfl
@[simp] theorem setSlice_gen (k : Nat) (r : SliceReg) : (setSlice s k r).gen = s.gen := rfl
@[simp] theorem setSlice_fuses (k : Nat) (r : SliceReg) : (setSlice s k r).fuses = s.fuses := rfl
@[simp] theorem setSlice_free (k : Nat) (r : SliceReg) : (setSlice s k r).free = s.free := rfl
@[simp] theorem setSlice_now (k : Nat) (r : SliceReg) : (setSlice s k r).now = s.now := rfl

-- setCone

@[simp] theorem setCone_pending (n : Nat) (c : Cone) : (setCone s n c).pending = s.pending := rfl
@[simp] theorem setCone_dram (n : Nat) (c : Cone) : (setCone s n c).dram = s.dram := rfl
@[simp] theorem setCone_symErrs (n : Nat) (c : Cone) : (setCone s n c).symErrs = s.symErrs := rfl
@[simp] theorem setCone_icaches (n : Nat) (c : Cone) : (setCone s n c).icaches = s.icaches := rfl
@[simp] theorem setCone_cores (n : Nat) (c : Cone) : (setCone s n c).cores = s.cores := rfl
@[simp] theorem setCone_dies (n : Nat) (c : Cone) : (setCone s n c).dies = s.dies := rfl
@[simp] theorem setCone_chans (n : Nat) (c : Cone) : (setCone s n c).chans = s.chans := rfl
@[simp] theorem setCone_stacks (n : Nat) (c : Cone) : (setCone s n c).memStacks = s.memStacks := rfl
@[simp] theorem setCone_nmOps (n : Nat) (c : Cone) : (setCone s n c).nmOps = s.nmOps := rfl
@[simp] theorem setCone_codecOps (n : Nat) (c : Cone) : (setCone s n c).codecOps = s.codecOps := rfl
@[simp] theorem setCone_homes (n : Nat) (c : Cone) : (setCone s n c).homes = s.homes := rfl
@[simp] theorem setCone_fabric (n : Nat) (c : Cone) : (setCone s n c).fabric = s.fabric := rfl
@[simp] theorem setCone_filter (n : Nat) (c : Cone) : (setCone s n c).filter = s.filter := rfl
@[simp] theorem setCone_hostFilter (n : Nat) (c : Cone) : (setCone s n c).hostFilter = s.hostFilter := rfl
@[simp] theorem setCone_backinv (n : Nat) (c : Cone) : (setCone s n c).backinv = s.backinv := rfl
@[simp] theorem setCone_bridges (n : Nat) (c : Cone) : (setCone s n c).bridges = s.bridges := rfl
@[simp] theorem setCone_fe (n : Nat) (c : Cone) : (setCone s n c).fe = s.fe := rfl
@[simp] theorem setCone_obj (n : Nat) (c : Cone) : (setCone s n c).obj = s.obj := rfl
@[simp] theorem setCone_pt (n : Nat) (c : Cone) : (setCone s n c).pt = s.pt := rfl
@[simp] theorem setCone_sags (n : Nat) (c : Cone) : (setCone s n c).sags = s.sags := rfl
@[simp] theorem setCone_sec (n : Nat) (c : Cone) : (setCone s n c).sec = s.sec := rfl
@[simp] theorem setCone_dl (n : Nat) (c : Cone) : (setCone s n c).dl = s.dl := rfl
@[simp] theorem setCone_ras (n : Nat) (c : Cone) : (setCone s n c).ras = s.ras := rfl
@[simp] theorem setCone_pwr (n : Nat) (c : Cone) : (setCone s n c).pwr = s.pwr := rfl
@[simp] theorem setCone_gen (n : Nat) (c : Cone) : (setCone s n c).gen = s.gen := rfl
@[simp] theorem setCone_fuses (n : Nat) (c : Cone) : (setCone s n c).fuses = s.fuses := rfl
@[simp] theorem setCone_free (n : Nat) (c : Cone) : (setCone s n c).free = s.free := rfl
@[simp] theorem setCone_now (n : Nat) (c : Cone) : (setCone s n c).now = s.now := rfl

-- setHome

@[simp] theorem setHome_pending (l : Nat) (h : HomeLine) : (setHome s l h).pending = s.pending := rfl
@[simp] theorem setHome_dram (l : Nat) (h : HomeLine) : (setHome s l h).dram = s.dram := rfl
@[simp] theorem setHome_symErrs (l : Nat) (h : HomeLine) : (setHome s l h).symErrs = s.symErrs := rfl
@[simp] theorem setHome_icaches (l : Nat) (h : HomeLine) : (setHome s l h).icaches = s.icaches := rfl
@[simp] theorem setHome_cores (l : Nat) (h : HomeLine) : (setHome s l h).cores = s.cores := rfl
@[simp] theorem setHome_dies (l : Nat) (h : HomeLine) : (setHome s l h).dies = s.dies := rfl
@[simp] theorem setHome_chans (l : Nat) (h : HomeLine) : (setHome s l h).chans = s.chans := rfl
@[simp] theorem setHome_stacks (l : Nat) (h : HomeLine) : (setHome s l h).memStacks = s.memStacks := rfl
@[simp] theorem setHome_nmOps (l : Nat) (h : HomeLine) : (setHome s l h).nmOps = s.nmOps := rfl
@[simp] theorem setHome_codecOps (l : Nat) (h : HomeLine) : (setHome s l h).codecOps = s.codecOps := rfl
@[simp] theorem setHome_fabric (l : Nat) (h : HomeLine) : (setHome s l h).fabric = s.fabric := rfl
@[simp] theorem setHome_filter (l : Nat) (h : HomeLine) : (setHome s l h).filter = s.filter := rfl
@[simp] theorem setHome_hostFilter (l : Nat) (h : HomeLine) : (setHome s l h).hostFilter = s.hostFilter := rfl
@[simp] theorem setHome_backinv (l : Nat) (h : HomeLine) : (setHome s l h).backinv = s.backinv := rfl
@[simp] theorem setHome_bridges (l : Nat) (h : HomeLine) : (setHome s l h).bridges = s.bridges := rfl
@[simp] theorem setHome_fe (l : Nat) (h : HomeLine) : (setHome s l h).fe = s.fe := rfl
@[simp] theorem setHome_obj (l : Nat) (h : HomeLine) : (setHome s l h).obj = s.obj := rfl
@[simp] theorem setHome_pt (l : Nat) (h : HomeLine) : (setHome s l h).pt = s.pt := rfl
@[simp] theorem setHome_sags (l : Nat) (h : HomeLine) : (setHome s l h).sags = s.sags := rfl
@[simp] theorem setHome_sec (l : Nat) (h : HomeLine) : (setHome s l h).sec = s.sec := rfl
@[simp] theorem setHome_xl (l : Nat) (h : HomeLine) : (setHome s l h).xl = s.xl := rfl
@[simp] theorem setHome_dl (l : Nat) (h : HomeLine) : (setHome s l h).dl = s.dl := rfl
@[simp] theorem setHome_ras (l : Nat) (h : HomeLine) : (setHome s l h).ras = s.ras := rfl
@[simp] theorem setHome_pwr (l : Nat) (h : HomeLine) : (setHome s l h).pwr = s.pwr := rfl
@[simp] theorem setHome_gen (l : Nat) (h : HomeLine) : (setHome s l h).gen = s.gen := rfl
@[simp] theorem setHome_fuses (l : Nat) (h : HomeLine) : (setHome s l h).fuses = s.fuses := rfl
@[simp] theorem setHome_free (l : Nat) (h : HomeLine) : (setHome s l h).free = s.free := rfl
@[simp] theorem setHome_now (l : Nat) (h : HomeLine) : (setHome s l h).now = s.now := rfl

-- What is read back

@[simp] theorem coreOf_setCore (c i : Nat) (k : Core) : coreOf (setCore s c k) i = if i = c then k else coreOf s i := by
  simp [coreOf, setCore]

@[simp] theorem coreOf_modCore (c i : Nat) (f : Core → Core) :
    coreOf (modCore s c f) i = if i = c then f (coreOf s c) else coreOf s i := by
  simp [modCore]

@[simp] theorem chanOf_setChan (p i : Nat) (c : Channel) : chanOf (setChan s p c) i = if i = p then c else chanOf s i := by
  simp [chanOf, setChan]

@[simp] theorem chanOf_modChan (p i : Nat) (f : Channel → Channel) :
    chanOf (modChan s p f) i = if i = p then f (chanOf s p) else chanOf s i := by
  simp [modChan]

@[simp] theorem ringOf_setRing (n i : Nat) (r : Ring) : ringOf (setRing s n r) i = if i = n then r else ringOf s i := by
  simp [ringOf, setRing]

@[simp] theorem ringOf_modRing (n i : Nat) (f : Ring → Ring) :
    ringOf (modRing s n f) i = if i = n then f (ringOf s n) else ringOf s i := by
  simp [modRing]

@[simp] theorem sagOf_setSag (k i : Nat) (g : Saggar) : sagOf (setSag s k g) i = if i = k then g else sagOf s i := by
  simp [sagOf, setSag]

@[simp] theorem sagOf_modSag (k i : Nat) (f : Saggar → Saggar) :
    sagOf (modSag s k f) i = if i = k then f (sagOf s k) else sagOf s i := by
  simp [modSag]

@[simp] theorem ctxOf_setCtx (n i : Nat) (c : Ctx) : ctxOf (setCtx s n c) i = if i = n then c else ctxOf s i := by
  simp [ctxOf, setCtx]

@[simp] theorem objOf_setObj (n i : Nat) (o : Obj) : objOf (setObj s n o) i = if i = n then o else objOf s i := by
  simp [objOf, setObj]

@[simp] theorem pageOf_setPage (n i : Nat) (p : FencePage) : pageOf (setPage s n p) i = if i = n then p else pageOf s i := by
  simp [pageOf, setPage]

@[simp] theorem fenceOf_setFence (n i : Nat) (f : Fence) : fenceOf (setFence s n f) i = if i = n then f else fenceOf s i := by
  simp [fenceOf, setFence]

@[simp] theorem graphOf_setGraph (n i : Nat) (g : GraphSlot) :
    graphOf (setGraph s n g) i = if i = n then g else graphOf s i := by
  simp [graphOf, setGraph]

@[simp] theorem sliceOf_setSlice (k i : Nat) (r : SliceReg) :
    sliceOf (setSlice s k r) i = if i = k then r else sliceOf s i := by
  simp [sliceOf, setSlice]

@[simp] theorem coneOf_setCone (n i : Nat) (c : Cone) : coneOf (setCone s n c) i = if i = n then c else coneOf s i := by
  simp [coneOf, setCone]

@[simp] theorem homeOf_setHome (l i : Nat) (h : HomeLine) : homeOf (setHome s l h) i = if i = l then h else homeOf s i := by
  simp [homeOf, setHome]

theorem portOf_modPort (n i : Nat) (f : XlPort → XlPort) :
    portOf (modPort s n f) i = if i = n ∧ i < s.xl.ports.length then f (portOf s i) else portOf s i := by
  exact listModify_getD f s.xl.ports n i {}

theorem dieOf_modDie (d i : Nat) (f : Die → Die) :
    dieOf (modDie s d f) i = if i = d ∧ i < s.dies.length then f (dieOf s i) else dieOf s i := by
  exact listModify_getD f s.dies d i {}

theorem stackOf_modStack (t i : Nat) (f : Stack → Stack) :
    stackOf (modStack s t f) i = if i = t ∧ i < s.memStacks.length then f (stackOf s i) else stackOf s i := by
  exact listModify_getD f s.memStacks t i {}

theorem subOf_setSub (k : Core) (b i : Nat) (u : Sub) :
    subOf (setSub k b u) i = if i = b ∧ i < k.subs.length then u else subOf k i := by
  exact listSet_getD k.subs b i u {}

theorem slabOf_setSlab (k : Core) (b i : Nat) (u : Slab) :
    slabOf (setSlab k b u) i = if i = b ∧ i < k.slabs.length then u else slabOf k i := by
  exact listSet_getD k.slabs b i u {}

theorem engineOf_setEngine (k : Core) (b i : Nat) (u : AEngine) :
    engineOf (setEngine k b u) i = if i = b ∧ i < k.engines.length then u else engineOf k i := by
  exact listSet_getD k.engines b i u {}

end Sys2Proof.Machine
end

