-- ==== Sys2Proof/Laws/Lanes.lean ====
section
/-!
SUPPORT. The laws of lanes and groups: what a change of some lanes of a group leaves, what registers read back, and what the
scheduler's bookkeeping keeps.
-/
namespace Sys2Proof.Machine

open Sys2Proof

-- Tables whose values alone change

theorem tblFind_map {α : Type} (t : Tbl α) (f : Nat → α → α) (i : Nat) :
    tblFind (t.map (fun p => (p.1, f p.1 p.2))) i = (tblFind t i).map (f i) := by
  induction t with
  | nil => rfl
  | cons p t ih =>
    obtain ⟨k, v⟩ := p
    by_cases h : k = i
    · subst h; simp [tblFind]
    · simp [tblFind, h, ih]

theorem tblGet_map {α : Type} (d : α) (t : Tbl α) (f : Nat → α → α) (i : Nat) (h : f i d = d) :
    tblGet d (t.map (fun p => (p.1, f p.1 p.2))) i = f i (tblGet d t i) := by
  unfold tblGet
  rw [tblFind_map]
  cases tblFind t i <;> simp [h]

-- Lanes

theorem laneOf_lanes (g : Grp) (n : Nat) : laneOf g n = (g.lanes[n]?).getD {} := by simp [laneOf]

/-- A lane after some lanes of its group changed. -/
theorem laneOf_modLanes (g : Grp) (ls : List Nat) (f : Nat → Lane → Lane) (n : Nat) :
    laneOf (modLanes g ls f) n = if n ∈ ls ∧ n < g.lanes.length then f n (laneOf g n) else laneOf g n := by
  simp only [laneOf_lanes, modLanes, List.getElem?_map, List.getElem?_zipIdx]
  by_cases hn : n < g.lanes.length
  · by_cases hm : n ∈ ls <;> simp [hn, hm]
  · simp [hn]

@[simp] theorem modLanes_length (g : Grp) (ls : List Nat) (f : Nat → Lane → Lane) :
    (modLanes g ls f).lanes.length = g.lanes.length := by simp [modLanes]

@[simp] theorem modLanes_u (g : Grp) (ls : List Nat) (f : Nat → Lane → Lane) : (modLanes g ls f).u = g.u := rfl
@[simp] theorem modLanes_idx (g : Grp) (ls : List Nat) (f : Nat → Lane → Lane) : (modLanes g ls f).idx = g.idx := rfl
@[simp] theorem modLanes_blk (g : Grp) (ls : List Nat) (f : Nat → Lane → Lane) : (modLanes g ls f).blk = g.blk := rfl
@[simp] theorem modLanes_held (g : Grp) (ls : List Nat) (f : Nat → Lane → Lane) : (modLanes g ls f).held = g.held := rfl

-- Registers

@[simp] theorem vReg_setV (l : Lane) (n m : Nat) (x : W32) : vReg (setV l n x) m = if m = n then x else vReg l m := by
  simp [vReg, setV]

@[simp] theorem uReg_setU (g : Grp) (n m : Nat) (x : W32) : uReg (setU g n x) m = if m = n then x else uReg g m := by
  simp [uReg, setU]

/-- What `w` registers hold after a write, and that the others keep theirs. -/
theorem vReg_setVs (w : Nat) (l : Lane) (n x m : Nat) :
    vReg (setVs l n w x) m = if n ≤ m ∧ m < n + w then BitVec.ofNat 32 (x / 2 ^ (32 * (m - n))) else vReg l m := by
  induction w generalizing l n x with
  | zero => rw [setVs, if_neg (fun h => Nat.lt_irrefl n (Nat.lt_of_le_of_lt h.1 h.2))]
  | succ w ih =>
    rw [setVs, ih]
    by_cases h1 : n + 1 ≤ m ∧ m < n + 1 + w
    · have h2 : n ≤ m ∧ m < n + (w + 1) := by omega
      rw [if_pos h1, if_pos h2, Nat.div_div_eq_div_mul, ← Nat.pow_add]
      congr 3; omega
    · rw [if_neg h1, vReg_setV]
      by_cases h2 : m = n
      · subst h2; simp
      · have h3 : ¬ (n ≤ m ∧ m < n + (w + 1)) := by omega
        rw [if_neg h2, if_neg h3]

theorem setVs_rest (w : Nat) (l : Lane) (n x : Nat) : setVs l n w x = { l with v := (setVs l n w x).v } := by
  induction w generalizing l n x with
  | zero => rfl
  | succ w ih => rw [setVs, ih]; rfl

theorem uReg_setUs (w : Nat) (g : Grp) (n x m : Nat) :
    uReg (setUs g n w x) m = if n ≤ m ∧ m < n + w then BitVec.ofNat 32 (x / 2 ^ (32 * (m - n))) else uReg g m := by
  induction w generalizing g n x with
  | zero => rw [setUs, if_neg (fun h => Nat.lt_irrefl n (Nat.lt_of_le_of_lt h.1 h.2))]
  | succ w ih =>
    rw [setUs, ih]
    by_cases h1 : n + 1 ≤ m ∧ m < n + 1 + w
    · have h2 : n ≤ m ∧ m < n + (w + 1) := by omega
      rw [if_pos h1, if_pos h2, Nat.div_div_eq_div_mul, ← Nat.pow_add]
      congr 3; omega
    · rw [if_neg h1, uReg_setU]
      by_cases h2 : m = n
      · subst h2; simp
      · have h3 : ¬ (n ≤ m ∧ m < n + (w + 1)) := by omega
        rw [if_neg h2, if_neg h3]

theorem setUs_rest (w : Nat) (g : Grp) (n x : Nat) : setUs g n w x = { g with u := (setUs g n w x).u } := by
  induction w generalizing g n x with
  | zero => rfl
  | succ w ih => rw [setUs, ih]; rfl

/-- A predicate after a write: p7 discards it. -/
theorem pReg_setP (l : Lane) (n m : Nat) (b : Bool) (hn : n < 7) : pReg (setP l n b) m = if m = n then b else pReg l m := by
  have e : (BitVec.ofNat 7 (2 ^ n)).getLsbD m = (decide (m < 7) && decide (n = m)) := by
    rw [BitVec.getLsbD_ofNat, Nat.testBit_two_pow]
  unfold pReg setP
  by_cases hm : m ≥ 7
  · have : m ≠ n := by omega
    simp [hm, this]
  · have h7 : ¬ n ≥ 7 := by omega
    rw [if_neg hm, if_neg h7, if_neg hm]
    have hm' : decide (m < 7) = true := decide_eq_true (by omega)
    cases b
    · show ((l.preds &&& ~~~(BitVec.ofNat 7 (2 ^ n))).getLsbD m) = _
      rw [BitVec.getLsbD_and, BitVec.getLsbD_not, e, hm']
      by_cases hmn : m = n
      · subst hmn; rw [if_pos rfl, decide_eq_true (rfl : m = m)]; exact Bool.and_false _
      · rw [if_neg hmn, decide_eq_false (fun h => hmn h.symm)]; exact Bool.and_true _
    · show ((l.preds ||| BitVec.ofNat 7 (2 ^ n)).getLsbD m) = _
      rw [BitVec.getLsbD_or, e, hm']
      by_cases hmn : m = n
      · subst hmn; rw [if_pos rfl, decide_eq_true (rfl : m = m)]; exact Bool.or_true _
      · rw [if_neg hmn, decide_eq_false (fun h => hmn h.symm)]; exact Bool.or_false _

theorem setP_rest (l : Lane) (n : Nat) (b : Bool) : setP l n b = { l with preds := (setP l n b).preds } := by
  unfold setP; split <;> rfl

-- One result for each lane

/-- Lanes of a list without repeats, each changed once: every lane takes its own change. -/
theorem laneOf_foldl_modLanes {β : Type} (h : β → Lane → Lane) (rs : List (Nat × β)) (g : Grp) (n : Nat)
    (nd : (rs.map (fun r => r.1)).Nodup) :
    laneOf (rs.foldl (fun g r => modLanes g [r.1] (fun _ l => h r.2 l)) g) n =
      match rs.find? (fun r => r.1 == n) with
      | some r => if n < g.lanes.length then h r.2 (laneOf g n) else laneOf g n
      | none => laneOf g n := by
  induction rs generalizing g with
  | nil => rfl
  | cons r rs ih =>
    simp only [List.map_cons, List.nodup_cons] at nd
    rw [List.foldl_cons, ih _ nd.2, List.find?_cons]
    by_cases hr : r.1 = n
    · have hno : rs.find? (fun r => r.1 == n) = none := by
        rw [List.find?_eq_none]
        intro q hq e
        apply nd.1
        rw [hr]
        have : q.1 = n := by simpa using e
        exact List.mem_map.mpr ⟨q, hq, this⟩
      rw [hno]
      simp only [hr, beq_self_eq_true, laneOf_modLanes, List.mem_singleton, true_and]
    · have hb : (r.1 == n) = false := by simpa using hr
      have hm : ¬ n = r.1 := fun e => hr e.symm
      simp only [hb, laneOf_modLanes, modLanes_length, List.mem_singleton, hm, false_and, if_false]

theorem foldl_modLanes_rest {β : Type} (h : β → Lane → Lane) (rs : List (Nat × β)) (g : Grp) :
    rs.foldl (fun g r => modLanes g [r.1] (fun _ l => h r.2 l)) g =
      { g with lanes := (rs.foldl (fun g r => modLanes g [r.1] (fun _ l => h r.2 l)) g).lanes } := by
  induction rs generalizing g with
  | nil => rfl
  | cons r rs ih => rw [List.foldl_cons, ih]; rfl

theorem foldl_modLanes_length {β : Type} (h : β → Lane → Lane) (rs : List (Nat × β)) (g : Grp) :
    (rs.foldl (fun g r => modLanes g [r.1] (fun _ l => h r.2 l)) g).lanes.length = g.lanes.length := by
  induction rs generalizing g with
  | nil => rfl
  | cons r rs ih => rw [List.foldl_cons, ih, modLanes_length]

end Sys2Proof.Machine
end

