-- ==== Sys2Proof/Laws/Issue.lean ====
section
/-!
SUPPORT. What one issue does whatever the instruction: whom the scheduler selects, what the counting and the settling keep,
and where the group of the issue is afterwards.
-/
namespace Sys2Proof.Machine

open Sys2Proof

-- Selection

theorem grpOf_nil (slot : Nat) : grpOf {} slot = noGrp := rfl

theorem subOf_out {k : Core} {b : Nat} (h : ¬ b < k.subs.length) : subOf k b = {} := by
  simp [subOf, List.getElem?_eq_none (Nat.not_lt.mp h)]

theorem pickGroup_empty : pickGroup {} = none := by decide

/-- What a selected issue says of the sub-core. -/
theorem pickIssue_spec {k : Core} {c b : Nat} {i : Issue} (h : pickIssue k c b = some i) :
    i.core = c ∧ i.sub = b ∧ b < k.subs.length ∧ pickGroup (subOf k b) = some i.slot ∧
    i.lanes = ((readyLanes (grpOf (subOf k b) i.slot)).filter (fun p => p.2.pc == i.pc)).map (fun p => p.1) := by
  unfold pickIssue at h
  dsimp only at h
  by_cases hb : b < k.subs.length
  · split at h
    · cases h
    · rename_i slot hs
      split at h
      · cases h
      · rename_i pc hp
        cases h
        exact ⟨rfl, rfl, hb, hs, rfl⟩
  · rw [subOf_out hb, pickGroup_empty] at h
    cases h

theorem grpReady_noGrp : grpReady noGrp = false := rfl

theorem pickGroup_spec {u : Sub} {n : Nat} (h : pickGroup u = some n) :
    u.active.any (fun a => a.val == n) = true ∧ grpReady (grpOf u n) = true ∧ n < 16 := by
  unfold pickGroup at h
  simp only [Option.map_eq_some_iff] at h
  obtain ⟨a, h0, rfl⟩ := h
  have h1 := List.find?_some h0
  have h2 := List.mem_of_find?_eq_some h0
  refine ⟨?_, h1, a.isLt⟩
  simp only [ringOrder, List.mem_append, List.mem_filter, List.contains_iff_mem] at h2
  rw [List.any_eq_true]
  rcases h2 with ⟨-, h⟩ | ⟨h, -⟩
  · exact ⟨a, by simpa using h, by simp⟩
  · exact ⟨a, h, by simp⟩

/-- The group of a selected issue stands in its slot. -/
theorem pickGroup_found {u : Sub} {n : Nat} (h : pickGroup u = some n) : ∃ g, tblFind u.slots n = some g := by
  obtain ⟨-, h2, -⟩ := pickGroup_spec h
  cases e : tblFind u.slots n with
  | some g => exact ⟨g, rfl⟩
  | none =>
    exfalso
    have : grpOf u n = noGrp := by simp [grpOf, tblGet, e]
    rw [this, grpReady_noGrp] at h2
    cases h2

theorem readyLanes_mem {g : Grp} {n : Nat} {l : Lane} (h : (n, l) ∈ readyLanes g) :
    n < g.lanes.length ∧ laneOf g n = l ∧ laneReady l = true := by
  simp only [readyLanes, List.mem_map, List.mem_filter] at h
  obtain ⟨⟨l', n'⟩, ⟨h1, h2⟩, h3⟩ := h
  simp only [Prod.mk.injEq] at h3
  obtain ⟨rfl, rfl⟩ := h3
  have h4 := List.mem_zipIdx' h1
  refine ⟨h4.1, ?_, h2⟩
  simp only [laneOf_lanes, List.getElem?_eq_getElem h4.1]
  exact h4.2.symm

theorem readyLanes_nodup (g : Grp) : ((readyLanes g).map (fun p => p.1)).Nodup := by
  have h : ((readyLanes g).map (fun p => p.1)) = (g.lanes.zipIdx.filter (fun p => laneReady p.1)).map (fun p => p.2) := by
    simp [readyLanes, List.map_map, Function.comp_def]
  rw [h]
  have hs : List.Sublist ((g.lanes.zipIdx.filter (fun p => laneReady p.1)).map (fun p => p.2)) (g.lanes.zipIdx.map (fun p => p.2)) :=
    List.Sublist.map _ List.filter_sublist
  refine List.Nodup.sublist hs ?_
  have : g.lanes.zipIdx.map (fun p => p.2) = List.range' 0 g.lanes.length := by
    simp
  rw [this]
  exact List.nodup_range'

/-- The lanes of an issue are ready lanes of its group at its pc, each once. -/
theorem pickIssue_lanes {k : Core} {c b : Nat} {i : Issue} (h : pickIssue k c b = some i) :
    i.lanes.Nodup ∧ ∀ n ∈ i.lanes, n < (grpOf (subOf k b) i.slot).lanes.length ∧
      laneReady (laneOf (grpOf (subOf k b) i.slot) n) = true ∧ (laneOf (grpOf (subOf k b) i.slot) n).pc = i.pc := by
  obtain ⟨-, -, -, -, hl⟩ := pickIssue_spec h
  constructor
  · rw [hl]
    exact List.Nodup.sublist (List.Sublist.map _ List.filter_sublist) (readyLanes_nodup _)
  · intro n hn
    rw [hl] at hn
    simp only [List.mem_map, List.mem_filter] at hn
    obtain ⟨⟨n', l⟩, ⟨h1, h2⟩, rfl⟩ := hn
    obtain ⟨h3, h4, h5⟩ := readyLanes_mem h1
    refine ⟨h3, ?_, ?_⟩
    · rw [h4]; exact h5
    · rw [h4]; simpa using h2

-- Counting

theorem countIssue_slot (u : Sub) (i : Issue) (n : Nat) :
    grpOf (countIssue u i) n =
      if u.active.any (fun a => a.val == n) then countGrp (if n == i.slot then i.lanes else []) (grpOf u n) else grpOf u n := by
  refine tblGet_map noGrp u.slots
    (fun k g => if u.active.any (fun a => a.val == k) then countGrp (if k == i.slot then i.lanes else []) g else g) n ?_
  split <;> rfl

@[simp] theorem countIssue_buffer (u : Sub) (i : Issue) : (countIssue u i).buffer = u.buffer := rfl
@[simp] theorem countIssue_active (u : Sub) (i : Issue) : (countIssue u i).active = u.active := rfl
@[simp] theorem countIssue_ready (u : Sub) (i : Issue) : (countIssue u i).ready = u.ready := rfl

theorem laneOf_countGrp {g : Grp} {lanes : List Nat} {n : Nat} (h : n < g.lanes.length) :
    laneOf (countGrp lanes g) n = countLane lanes (laneOf g n) n := by
  simp [laneOf_lanes, countGrp, h]

@[simp] theorem countGrp_length (g : Grp) (lanes : List Nat) : (countGrp lanes g).lanes.length = g.lanes.length := by
  simp [countGrp]
@[simp] theorem countGrp_u (g : Grp) (lanes : List Nat) : (countGrp lanes g).u = g.u := rfl
@[simp] theorem countGrp_idx (g : Grp) (lanes : List Nat) : (countGrp lanes g).idx = g.idx := rfl
@[simp] theorem countGrp_blk (g : Grp) (lanes : List Nat) : (countGrp lanes g).blk = g.blk := rfl
@[simp] theorem countGrp_held (g : Grp) (lanes : List Nat) : (countGrp lanes g).held = g.held := rfl

/-- The counting changes nothing of a lane but its wait. -/
theorem countLane_eq (ls : List Nat) (l : Lane) (n : Nat) :
    countLane ls l n = { l with waited := (countLane ls l n).waited, starving := (countLane ls l n).starving } := by
  unfold countLane
  split
  · rfl
  · split <;> rfl

variable {s : State} {p : Place} {i : Issue}

theorem counted_eq (s : State) (i : Issue) :
    counted s i = { s with cores := (counted s i).cores, sags := (counted s i).sags } := rfl

theorem coreOf_counted (s : State) (i : Issue) (c : Nat) :
    coreOf (counted s i) c =
      if c = i.core then setSub (coreOf s i.core) i.sub (countIssue (subOf (coreOf s i.core) i.sub) i) else coreOf s c := by
  have : coreOf (counted s i) c = coreOf (modCore s i.core (fun k => setSub k i.sub (countIssue (subOf k i.sub) i))) c := rfl
  rw [this, coreOf_modCore]

theorem sagOf_counted (s : State) (i : Issue) (k : Nat) :
    sagOf (counted s i) k = { sagOf s k with perfTrue := (sagOf (counted s i) k).perfTrue } := by
  unfold counted perf
  simp only [sagOf_modSag]
  split
  · rename_i h; subst h; rfl
  · rfl

@[simp] theorem dieOf_counted (s : State) (i : Issue) (d : Nat) : dieOf (counted s i) d = dieOf s d := rfl

/-- The group of a selected issue after the counting. -/
theorem issueGrp_counted (h : pickIssue (coreOf s p.core.val) p.core.val p.sub.val = some i) :
    issueGrp (counted s i) i = countGrp i.lanes (issueGrp s i) := by
  obtain ⟨hc, hb, hlen, hg, -⟩ := pickIssue_spec h
  have ha := (pickGroup_spec hg).1
  unfold issueGrp
  rw [coreOf_counted, if_pos rfl, subOf_setSub]
  have hlen' : i.sub < (coreOf s i.core).subs.length := by rw [hc, hb]; exact hlen
  rw [if_pos ⟨rfl, hlen'⟩, countIssue_slot]
  have ha' : (subOf (coreOf s i.core) i.sub).active.any (fun a => a.val == i.slot) = true := by rw [hc, hb]; exact ha
  rw [if_pos ha']
  simp

theorem blockOf_setSub (k : Core) (b : Nat) (u : Sub) (n : Nat) : blockOf (setSub k b u) n = blockOf k n := rfl

theorem issueBlock_counted (h : pickIssue (coreOf s p.core.val) p.core.val p.sub.val = some i) :
    issueBlock (counted s i) i = issueBlock s i := by
  unfold issueBlock
  rw [issueGrp_counted h, coreOf_counted, if_pos rfl]
  rfl

theorem issueInfo_counted (h : pickIssue (coreOf s p.core.val) p.core.val p.sub.val = some i) :
    issueInfo (counted s i) i = issueInfo s i := by
  unfold issueInfo
  rw [issueBlock_counted h]

-- Settling

theorem settleSub_slots (u : Sub) : (settleSub u).slots = u.slots := rfl
theorem settleSub_buffer (u : Sub) : (settleSub u).buffer = u.buffer := rfl
theorem settleSub_ring (u : Sub) : (settleSub u).ring = u.ring := rfl

theorem settleCore_eq (k : Core) : settleCore k = { k with subs := k.subs.map settleSub } := rfl

theorem subOf_settleCore (k : Core) (b : Nat) : subOf (settleCore k) b = settleSub (subOf k b) := by
  simp only [subOf, settleCore, List.getD_eq_getElem?_getD, List.getElem?_map]
  cases k.subs[b]? <;> rfl

theorem coreOf_settle (s : State) (c d : Nat) :
    coreOf (settle s c) d = if d = c then settleCore (coreOf s c) else coreOf s d := by
  simp [settle]

theorem settle_eq (s : State) (c : Nat) : settle s c = { s with cores := (settle s c).cores } := rfl

theorem grpOf_settle (s : State) (c d b n : Nat) : grpOf (subOf (coreOf (settle s c) d) b) n = grpOf (subOf (coreOf s d) b) n := by
  rw [coreOf_settle]
  split
  · rename_i h; subst h; rw [subOf_settleCore]; rfl
  · rfl

@[simp] theorem issueGrp_settle (s : State) (c : Nat) (i : Issue) : issueGrp (settle s c) i = issueGrp s i :=
  grpOf_settle s c i.core i.sub i.slot

theorem blockOf_settle (s : State) (c d n : Nat) : blockOf (coreOf (settle s c) d) n = blockOf (coreOf s d) n := by
  rw [coreOf_settle]; split
  · rename_i h; subst h; rfl
  · rfl

-- Changing the group of the issue

theorem grpOf_setGrp (u : Sub) (n m : Nat) (g : Grp) : grpOf (setGrp u n g) m = if m = n then g else grpOf u m := by
  by_cases h : m = n <;> simp [grpOf, setGrp, tblGet, tblFind_tblPut, h]

theorem modIssueGrp_eq (s : State) (i : Issue) (f : Grp → Grp) :
    modIssueGrp s i f = { s with cores := (modIssueGrp s i f).cores } := rfl

theorem coreOf_modIssueGrp (s : State) (i : Issue) (f : Grp → Grp) (c : Nat) :
    coreOf (modIssueGrp s i f) c =
      if c = i.core then setSub (coreOf s i.core) i.sub (setGrp (subOf (coreOf s i.core) i.sub) i.slot (f (issueGrp s i)))
      else coreOf s c := by
  simp [modIssueGrp, modGrp, issueGrp]

theorem issueGrp_modIssueGrp {s : State} {i : Issue} (f : Grp → Grp) (h : i.sub < (coreOf s i.core).subs.length) :
    issueGrp (modIssueGrp s i f) i = f (issueGrp s i) := by
  unfold issueGrp
  rw [coreOf_modIssueGrp, if_pos rfl, subOf_setSub, if_pos ⟨rfl, h⟩, grpOf_setGrp, if_pos rfl]
  rfl

/-- The other groups stay. -/
theorem grpOf_modIssueGrp {s : State} {i : Issue} (f : Grp → Grp) (c b n : Nat)
    (h : ¬ (c = i.core ∧ b = i.sub ∧ n = i.slot)) :
    grpOf (subOf (coreOf (modIssueGrp s i f) c) b) n = grpOf (subOf (coreOf s c) b) n := by
  rw [coreOf_modIssueGrp]
  by_cases hc : c = i.core
  · subst hc
    rw [if_pos rfl, subOf_setSub]
    by_cases hb : b = i.sub ∧ b < (coreOf s i.core).subs.length
    · rw [if_pos hb, grpOf_setGrp]
      obtain ⟨rfl, -⟩ := hb
      rw [if_neg (fun e => h ⟨rfl, rfl, e⟩)]
    · rw [if_neg hb]
  · rw [if_neg hc]

theorem blockOf_modIssueGrp (s : State) (i : Issue) (f : Grp → Grp) (c n : Nat) :
    blockOf (coreOf (modIssueGrp s i f) c) n = blockOf (coreOf s c) n := by
  rw [coreOf_modIssueGrp]; split
  · rename_i h; subst h; rfl
  · rfl

/-- The block and the launch of an issue whose group keeps its block. -/
theorem issueInfo_modIssueGrp {s : State} {i : Issue} (f : Grp → Grp) (h : i.sub < (coreOf s i.core).subs.length)
    (hf : (f (issueGrp s i)).blk = (issueGrp s i).blk) : issueInfo (modIssueGrp s i f) i = issueInfo s i := by
  unfold issueInfo issueBlock
  rw [issueGrp_modIssueGrp f h, blockOf_modIssueGrp, hf]

-- One issue

/-- An issue whose fetch lies in the code does what its instruction says, between the counting and the settling. -/
theorem issue_eq {body : State → Issue → State} (h : pickIssue (coreOf s p.core.val) p.core.val p.sub.val = some i)
    (hf : fetchOk s i = true) : issue s p body = settle (body (counted s i) i) i.core := by
  unfold issue
  rw [h]
  simp [hf]

end Sys2Proof.Machine
end

