-- ==== Sys2Proof/Laws/Alu.lean ====
section
/-!
SUPPORT. What a general instruction of the ALU does, once for all of them: `alu_done`.
-/
namespace Sys2Proof.Machine

open Sys2Proof

-- Reading depends on registers alone

theorem readSpecial_waits (x x' : LaneCtx) (n : Nat) (l : Lane) (w : Nat) (st : Bool) (k : Nat)
    (hx : x' = { x with grp := x'.grp }) (hi : x'.grp.idx = x.grp.idx) :
    readSpecial x' n { l with waited := w, starving := st } k =
      ((readSpecial x n l k).1, { (readSpecial x n l k).2 with waited := w, starving := st }) := by
  rw [hx]
  unfold readSpecial
  dsimp only
  rw [hi]
  split <;> rfl

theorem regsValue_congr {f g : Nat → W32} (h : ∀ n, f n = g n) (n w : Nat) : regsValue f n w = regsValue g n w := by
  have : f = g := funext h
  rw [this]

theorem readOpd_waits (x x' : LaneCtx) (n : Nat) (l : Lane) (w : Nat) (st : Bool) (o : Opd) (k : Nat) (flt : Bool)
    (hx : x' = { x with grp := x'.grp }) (hi : x'.grp.idx = x.grp.idx) (hu : x'.grp.u = x.grp.u) :
    readOpd x' n { l with waited := w, starving := st } o k flt =
      ((readOpd x n l o k flt).1, { (readOpd x n l o k flt).2 with waited := w, starving := st }) := by
  unfold readOpd
  cases o with
  | special m => simp [readSpecial_waits x x' n l w st m hx hi]
  | u m =>
    have : uReg x'.grp = uReg x.grp := by funext j; simp [uReg, hu]
    simp [this]
  | v m => rfl
  | p m => rfl
  | none => rfl
  | reserved => rfl
  | imm m => rfl

theorem readSrcs_waits (m : GForm) (f : FmtG) (x x' : LaneCtx) (n : Nat) (l : Lane) (w : Nat) (st : Bool)
    (hx : x' = { x with grp := x'.grp }) (hi : x'.grp.idx = x.grp.idx) (hu : x'.grp.u = x.grp.u) :
    readSrcs m f x' n { l with waited := w, starving := st } =
      ((readSrcs m f x n l).1, { (readSrcs m f x n l).2 with waited := w, starving := st }) := by
  unfold readSrcs
  simp only [readOpd_waits x x' n _ w st _ _ _ hx hi hu]
  split <;> simp only [readOpd_waits x x' n _ w st _ _ _ hx hi hu]

theorem readOpd_latch (x : LaneCtx) (n : Nat) (l : Lane) (o : Opd) (k : Nat) (flt : Bool) :
    (readOpd x n l o k flt).2 = { l with clkHi := (readOpd x n l o k flt).2.clkHi } := by
  unfold readOpd
  cases o with
  | special m => dsimp only; unfold readSpecial; dsimp only; split <;> rfl
  | v m => rfl
  | u m => rfl
  | p m => rfl
  | none => rfl
  | reserved => rfl
  | imm m => rfl

/-- Reading the sources changes nothing of a lane but its latch of CLOCK_HI. -/
theorem readSrcs_latch (m : GForm) (f : FmtG) (x : LaneCtx) (n : Nat) (l : Lane) :
    (readSrcs m f x n l).2 = { l with clkHi := (readSrcs m f x n l).2.clkHi } := by
  unfold readSrcs
  dsimp only
  split
  · rw [readOpd_latch, readOpd_latch]
  · rw [readOpd_latch, readOpd_latch, readOpd_latch]

-- The lanes of an issue before and after the counting

section
variable {s : State} {p : Place} {i : Issue}

theorem guardedLanes_nodup (h : pickIssue (coreOf s p.core.val) p.core.val p.sub.val = some i) (pg : Fin 8) (pn : Bool) :
    (guardedLanes s i pg pn).Nodup :=
  List.Nodup.sublist List.filter_sublist (pickIssue_lanes h).1

theorem guardedLanes_lanes {pg : Fin 8} {pn : Bool} {n : Nat} (hn : n ∈ guardedLanes s i pg pn) : n ∈ i.lanes :=
  (List.mem_filter.mp hn).1

theorem issue_lane_lt (h : pickIssue (coreOf s p.core.val) p.core.val p.sub.val = some i) {n : Nat} (hn : n ∈ i.lanes) :
    n < (issueGrp s i).lanes.length := by
  obtain ⟨hc, hb, -, -, -⟩ := pickIssue_spec h
  have := ((pickIssue_lanes h).2 n hn).1
  unfold issueGrp
  rw [hc, hb]
  exact this

theorem guardedLanes_counted (h : pickIssue (coreOf s p.core.val) p.core.val p.sub.val = some i) (pg : Fin 8) (pn : Bool) :
    guardedLanes (counted s i) i pg pn = guardedLanes s i pg pn := by
  unfold guardedLanes
  rw [issueGrp_counted h]
  apply List.filter_congr
  intro n hn
  have h1 := issue_lane_lt h hn
  have h2 := laneOf_countGrp (lanes := i.lanes) h1
  unfold laneOf at h2
  rw [h2]
  unfold guardTrue pReg
  rw [countLane_eq]

theorem issue_sub_lt (h : pickIssue (coreOf s p.core.val) p.core.val p.sub.val = some i) :
    i.sub < (coreOf s i.core).subs.length := by
  obtain ⟨hc, hb, hl, -, -⟩ := pickIssue_spec h
  rw [hc, hb]; exact hl

theorem counted_sub_lt (h : pickIssue (coreOf s p.core.val) p.core.val p.sub.val = some i) :
    i.sub < (coreOf (counted s i) i.core).subs.length := by
  rw [coreOf_counted, if_pos rfl]
  simpa [setSub] using issue_sub_lt h

end

-- The frame of an issue

/-- `t` differs from `u` in the group of the issue alone. -/
structure OnlyGrp (u t : State) (i : Issue) : Prop where
  units : t = { u with cores := t.cores }
  cores : ∀ c, c ≠ i.core → coreOf t c = coreOf u c
  core : coreOf t i.core = { coreOf u i.core with subs := (coreOf t i.core).subs }
  subs : (coreOf t i.core).subs.length = (coreOf u i.core).subs.length
  buffers : ∀ b, (subOf (coreOf t i.core) b).buffer = (subOf (coreOf u i.core) b).buffer
  groups : ∀ b k, ¬ (b = i.sub ∧ k = i.slot) →
    grpOf (subOf (coreOf t i.core) b) k = grpOf (subOf (coreOf u i.core) b) k

theorem onlyGrp_refl (u : State) (i : Issue) : OnlyGrp u u i :=
  ⟨rfl, fun _ _ => rfl, rfl, rfl, fun _ => rfl, fun _ _ _ => rfl⟩

theorem onlyGrp_trans {u v t : State} {i : Issue} (h : OnlyGrp u v i) (g : OnlyGrp v t i) : OnlyGrp u t i := by
  refine ⟨?_, ?_, ?_, ?_, ?_, ?_⟩
  · rw [g.units, h.units]
  · intro c hc; rw [g.cores c hc, h.cores c hc]
  · rw [g.core, h.core]
  · rw [g.subs, h.subs]
  · intro b; rw [g.buffers, h.buffers]
  · intro b k hn; rw [g.groups b k hn, h.groups b k hn]

theorem onlyGrp_mod (u : State) (i : Issue) (f : Grp → Grp) : OnlyGrp u (modIssueGrp u i f) i := by
  refine ⟨rfl, ?_, ?_, ?_, ?_, ?_⟩
  · intro c hc; rw [coreOf_modIssueGrp, if_neg hc]
  · rw [coreOf_modIssueGrp, if_pos rfl]; rfl
  · rw [coreOf_modIssueGrp, if_pos rfl]; simp [setSub]
  · intro b
    rw [coreOf_modIssueGrp, if_pos rfl, subOf_setSub]
    split
    · rename_i h; rw [h.1]; rfl
    · rfl
  · intro b k hn
    exact grpOf_modIssueGrp f _ _ _ (by simpa using hn)

/-- Counting, changes of the issue's own group, settling: nothing else changes. -/
theorem issueFrame_of {s : State} {i : Issue}
    {u v : State} (hu : u = { counted s i with dies := u.dies, free := u.free })
    (hd : ∀ d, dieOf u d = { dieOf s d with clock := (dieOf u d).clock }) (hv : OnlyGrp u v i) :
    CoreKept s (settle v i.core) i (coreOf s i.core) ∧ IssueFrame s (settle v i.core) i := by
  have hc : ∀ c, coreOf u c = coreOf (counted s i) c := by intro c; rw [hu]; rfl
  have hcount : ∀ b k, ¬ (b = i.sub ∧ k = i.slot) →
      grpOf (subOf (coreOf (settle v i.core) i.core) b) k = grpOf (subOf (coreOf (counted s i) i.core) b) k := by
    intro b k hne
    rw [grpOf_settle, hv.groups b k hne, hc]
  have hgrp : ∀ b k, ¬ (b = i.sub ∧ k = i.slot) →
      grpOf (subOf (coreOf (counted s i) i.core) b) k = grpOf (subOf (coreOf s i.core) b) k ∨
      grpOf (subOf (coreOf (counted s i) i.core) b) k = countGrp [] (grpOf (subOf (coreOf s i.core) b) k) := by
    intro b k hne
    rw [coreOf_counted, if_pos rfl, subOf_setSub]
    by_cases hb : b = i.sub ∧ b < (coreOf s i.core).subs.length
    · obtain ⟨rfl, hb2⟩ := hb
      have hk : (k == i.slot) = false := by simpa using fun e => hne ⟨rfl, e⟩
      rw [if_pos ⟨rfl, hb2⟩, countIssue_slot, hk]
      by_cases ha : (subOf (coreOf s i.core) i.sub).active.any (fun a => a.val == k) = true
      · right; rw [if_pos ha]; rfl
      · left; rw [if_neg ha]
    · left; rw [if_neg hb]
  refine ⟨⟨?_, ?_⟩, ?_, ?_, ?_, ?_, ?_, ?_⟩
  · rw [coreOf_settle, if_pos rfl, settleCore_eq, hv.core, hc, coreOf_counted, if_pos rfl]
    rfl
  · intro b
    rw [coreOf_settle, if_pos rfl, subOf_settleCore, settleSub_buffer, hv.buffers, hc, coreOf_counted, if_pos rfl, subOf_setSub]
    by_cases hb : b = i.sub ∧ b < (coreOf s i.core).subs.length
    · rw [if_pos hb, hb.1]; rfl
    · rw [if_neg hb]
  · rw [settle_eq, hv.units, hu, counted_eq]
  · intro c hne
    rw [coreOf_settle, if_neg hne, hv.cores c hne, hc, coreOf_counted, if_neg hne]
  · intro b k hne
    rw [hcount b k hne]
    rcases hgrp b k hne with e | e
    · rw [e]
    · rw [e]; rfl
  · intro b k n hne
    rw [hcount b k hne]
    rcases hgrp b k hne with e | e
    · rw [e]
    · rw [e]
      by_cases hn : n < (grpOf (subOf (coreOf s i.core) b) k).lanes.length
      · rw [laneOf_countGrp hn, countLane_eq]
      · have hn' : ¬ n < (countGrp [] (grpOf (subOf (coreOf s i.core) b) k)).lanes.length := by simpa using hn
        simp only [laneOf_lanes]
        rw [List.getElem?_eq_none (Nat.not_lt.mp hn), List.getElem?_eq_none (Nat.not_lt.mp hn')]
  · intro k
    have e : sagOf (settle v i.core) k = sagOf (counted s i) k := by
      rw [settle_eq, hv.units, hu]; rfl
    rw [e, sagOf_counted]
  · intro d
    have e : dieOf (settle v i.core) d = dieOf u d := by rw [settle_eq, hv.units]; rfl
    rw [e]; exact hd d

-- The instruction

/-- One result each: the group after the results are written and the subset has gone on. -/
theorem find_map_pair {β : Type} (ls : List Nat) (f : Nat → β) (n : Nat) :
    (ls.map (fun k => (k, f k))).find? (fun r => r.1 == n) = if n ∈ ls then some (n, f n) else none := by
  induction ls with
  | nil => rfl
  | cons x xs ih =>
    rw [List.map_cons, List.find?_cons]
    by_cases h : x = n
    · subst h; simp
    · have hb : (x == n) = false := by simpa using h
      have hm : ¬ n = x := fun e => h e.symm
      simp [hb, ih, hm]

theorem laneOf_advance (i : Issue) (len : Nat) (g : Grp) (n : Nat) :
    laneOf (advance i len g) n =
      if n ∈ i.lanes ∧ n < g.lanes.length then { laneOf g n with pc := (laneOf g n).pc + BitVec.ofNat 32 len } else laneOf g n :=
  laneOf_modLanes g i.lanes _ n

/-- The lanes after their sources have been read, and the results written to `d`. -/
theorem laneOf_results {g : Grp} {ls : List Nat} (nd : ls.Nodup) (src : Nat → Lane) (d : Opd) (w : Nat) (val : Nat → Nat) (n : Nat) :
    laneOf (writeResults ((ls.map (fun k => (k, src k))).foldl (fun g r => modLanes g [r.1] (fun _ _ => r.2)) g) d w
        (ls.map (fun k => (k, val k)))) n =
      if n ∈ ls ∧ n < g.lanes.length then
        (match d with
          | .v k => setVs (src n) k w (val n)
          | .p k => setP (src n) k (val n % 2 == 1)
          | _ => src n)
      else laneOf g n := by
  have nd1 : ((ls.map (fun k => (k, src k))).map (fun r => r.1)).Nodup := by
    simpa [List.map_map, Function.comp_def] using nd
  have nd2 : ((ls.map (fun k => (k, val k))).map (fun r => r.1)).Nodup := by
    simpa [List.map_map, Function.comp_def] using nd
  have base : laneOf ((ls.map (fun k => (k, src k))).foldl (fun g r => modLanes g [r.1] (fun _ _ => r.2)) g) n =
      if n ∈ ls ∧ n < g.lanes.length then src n else laneOf g n := by
    rw [laneOf_foldl_modLanes (fun (x : Lane) (_ : Lane) => x) _ g n nd1, find_map_pair]
    by_cases hn : n ∈ ls
    · by_cases hl : n < g.lanes.length <;> simp [hn, hl]
    · simp [hn]
  have len : ((ls.map (fun k => (k, src k))).foldl (fun g r => modLanes g [r.1] (fun _ _ => r.2)) g).lanes.length = g.lanes.length :=
    foldl_modLanes_length (fun (x : Lane) (_ : Lane) => x) _ g
  unfold writeResults
  cases d with
  | v k =>
    dsimp only
    rw [laneOf_foldl_modLanes (fun (x : Nat) (l : Lane) => setVs l k w x) _ _ n nd2, find_map_pair, base, len]
    by_cases hn : n ∈ ls
    · by_cases hl : n < g.lanes.length <;> simp [hn, hl]
    · simp [hn]
  | p k =>
    dsimp only
    rw [laneOf_foldl_modLanes (fun (x : Nat) (l : Lane) => setP l k (x % 2 == 1)) _ _ n nd2, find_map_pair, base, len]
    by_cases hn : n ∈ ls
    · by_cases hl : n < g.lanes.length <;> simp [hn, hl]
    · simp [hn]
  | u k =>
    dsimp only
    cases ls with
    | nil => exact base
    | cons x xs =>
      show laneOf (setUs _ k w (val x)) n = _
      rw [setUs_rest]
      exact base
  | special k => exact base
  | none => exact base
  | reserved => exact base
  | imm k => exact base

theorem results_length (g : Grp) (ls : List Nat) (src : Nat → Lane) (d : Opd) (w : Nat) (val : Nat → Nat) :
    (writeResults ((ls.map (fun k => (k, src k))).foldl (fun g r => modLanes g [r.1] (fun _ _ => r.2)) g) d w
        (ls.map (fun k => (k, val k)))).lanes.length = g.lanes.length := by
  have len : ((ls.map (fun k => (k, src k))).foldl (fun g r => modLanes g [r.1] (fun _ _ => r.2)) g).lanes.length = g.lanes.length :=
    foldl_modLanes_length (fun (x : Lane) (_ : Lane) => x) _ g
  unfold writeResults
  cases d with
  | v k => exact (foldl_modLanes_length (fun (x : Nat) (l : Lane) => setVs l k w x) _ _).trans len
  | p k => exact (foldl_modLanes_length (fun (x : Nat) (l : Lane) => setP l k (x % 2 == 1)) _ _).trans len
  | u k =>
    cases ls with
    | nil => exact len
    | cons x xs =>
      show (setUs _ k w (val x)).lanes.length = _
      rw [setUs_rest]
      exact len
  | special k => exact len
  | none => exact len
  | reserved => exact len
  | imm k => exact len

theorem setUs_u_congr {y g : Grp} (h : y.u = g.u) (k w q : Nat) : (setUs y k w q).u = (setUs g k w q).u := by
  induction w generalizing y g k q with
  | zero => exact h
  | succ w ih => exact ih (by simp [setU, h]) (k + 1) _

theorem setUs_eq {y g : Grp} (h : y = { g with lanes := y.lanes }) (k w q : Nat) :
    setUs y k w q = { g with lanes := (setUs y k w q).lanes, u := (setUs g k w q).u } := by
  have h1 := setUs_rest w y k q
  have h2 := setUs_u_congr (y := y) (g := g) (by rw [h]) k w q
  rw [← h2]
  generalize setUs y k w q = z at h1
  cases z; cases y; cases g
  simp_all

/-- The group keeps all but its lanes and its u registers, and of those only a U destination changes. -/
theorem results_group (g : Grp) (ls : List Nat) (src : Nat → Lane) (d : Opd) (w : Nat) (val : Nat → Nat) :
    writeResults ((ls.map (fun k => (k, src k))).foldl (fun g r => modLanes g [r.1] (fun _ _ => r.2)) g) d w
        (ls.map (fun k => (k, val k))) =
      { g with
        lanes := (writeResults ((ls.map (fun k => (k, src k))).foldl (fun g r => modLanes g [r.1] (fun _ _ => r.2)) g) d w
          (ls.map (fun k => (k, val k)))).lanes
        u := match d, ls with
          | .u k, n :: _ => (setUs g k w (val n)).u
          | _, _ => g.u
        uOwner := uOwnerAfter g ls d w } := by
  have e := foldl_modLanes_rest (fun (x : Lane) (_ : Lane) => x) (ls.map (fun k => (k, src k))) g
  unfold writeResults
  cases d with
  | v k => dsimp only [uOwnerAfter]; rw [foldl_modLanes_rest (fun (x : Nat) (l : Lane) => setVs l k w x), e]
  | p k => dsimp only [uOwnerAfter]; rw [foldl_modLanes_rest (fun (x : Nat) (l : Lane) => setP l k (x % 2 == 1)), e]
  | u k =>
    cases ls with
    | nil => exact e
    | cons x xs =>
      exact congrArg (fun y => freeU y k w) (setUs_eq e k w (val x))
  | special k => exact e
  | none => exact e
  | reserved => exact e
  | imm k => exact e

/-- A general ALU instruction whose word is legal does what its table says, lane by lane. -/
theorem alu_done {s : State} {p : Place} {i : Issue} (m : GForm) (f : FmtG) (wide extra : Bool)
    (res : Nat → List (Nat × Srcs) → List (Nat × Nat)) (val : Nat → Nat) (hi : Issues s p i) (hl : GLegal m f wide extra s i)
    (hv : res (clockTick s (i.core / 64) (gClock f && !(guardedLanes s i f.pg f.pn).isEmpty)).1.free
        ((guardedLanes s i f.pg f.pn).map (fun n => (n, aluSrcs m f s i n))) =
      (guardedLanes s i f.pg f.pn).map (fun n => (n, val n))) :
    ∃ t, alu p m f wide extra res s = .next t ∧
      AluDone s t i (coreOf s i.core) (gLen m f) (guardedLanes s i f.pg f.pn) (opdOf f.d) (dstWidth m.d) val := by
  obtain ⟨h, hf, _⟩ := hi
  refine ⟨_, rfl, ?_⟩
  have hcl := issue_sub_lt h
  rw [issue_eq h hf]
  unfold gIssue
  rw [show longFits m f (counted s i) i = true by unfold longFits; rw [issueInfo_counted h]; exact hl.2]
  rw [if_neg (by simp), guardedLanes_counted h, issueInfo_counted h]
  rw [show gFault m f wide extra (issueInfo s i).regs = none from hl.1]
  dsimp only
  generalize hls : guardedLanes s i f.pg f.pn = ls at hv ⊢
  have nd : ls.Nodup := by rw [← hls]; exact guardedLanes_nodup h _ _
  have hmem : ∀ n ∈ ls, n ∈ i.lanes := by rw [← hls]; exact fun n hn => guardedLanes_lanes hn
  -- the state in which the sources are read
  generalize hb : (gClock f && !ls.isEmpty) = rd at hv ⊢
  have hclk : (clockTick (counted s i) (i.core / 64) rd).2 = (clockTick s (i.core / 64) rd).2 := by
    unfold clockTick; split <;> rfl
  have hfree : (clockTick (counted s i) (i.core / 64) rd).1.free = (clockTick s (i.core / 64) rd).1.free := by
    unfold clockTick; split <;> rfl
  have hst : (clockTick (counted s i) (i.core / 64) rd).1 =
      { counted s i with dies := (clockTick (counted s i) (i.core / 64) rd).1.dies, free := (clockTick (counted s i) (i.core / 64) rd).1.free } := by
    unfold clockTick; split <;> rfl
  have hdie : ∀ d, dieOf (clockTick (counted s i) (i.core / 64) rd).1 d =
      { dieOf s d with clock := (dieOf (clockTick (counted s i) (i.core / 64) rd).1 d).clock } := by
    intro d
    unfold clockTick
    split
    · dsimp only
      rw [dieOf_modDie]
      split <;> rfl
    · rfl
  generalize hs1 : (clockTick (counted s i) (i.core / 64) rd).1 = s1 at hst hdie hfree ⊢
  generalize hs2 : (clockTick (counted s i) (i.core / 64) rd).2 = clk at hclk ⊢
  have hcore : ∀ c, coreOf s1 c = coreOf (counted s i) c := by intro c; rw [hst]; rfl
  have hgrp : issueGrp s1 i = countGrp i.lanes (issueGrp s i) := by
    rw [← issueGrp_counted h]; unfold issueGrp; rw [hcore]
  -- the sources
  have hsrc : ∀ n ∈ ls, readSrcs m f (ctxOfIssue s1 i clk) n (laneOf (issueGrp s1 i) n) =
      (aluSrcs m f s i n, { (readSrcs m f (ctxOfIssue s i (aluClock s i f)) n (laneAt s i n)).2 with
        waited := (countLane i.lanes (laneAt s i n) n).waited, starving := (countLane i.lanes (laneAt s i n) n).starving }) := by
    intro n hn
    have hlt := issue_lane_lt h (hmem n hn)
    rw [hgrp, laneOf_countGrp hlt, countLane_eq]
    have hx : ctxOfIssue s1 i clk = { ctxOfIssue s i (aluClock s i f) with grp := (ctxOfIssue s1 i clk).grp } := by
      unfold ctxOfIssue
      have e1 : issueBlock s1 i = issueBlock s i := by
        rw [← issueBlock_counted h]; unfold issueBlock
        rw [hgrp, issueGrp_counted h, hcore]
      have e2 : issueInfo s1 i = issueInfo s i := by unfold issueInfo; rw [e1]
      have e3 : clk = aluClock s i f := by
        unfold aluClock
        rw [hls, hb]; exact hclk
      rw [e1, e2, e3]
    exact readSrcs_waits m f _ _ n _ _ _ hx (by show (issueGrp s1 i).idx = _; rw [hgrp]; rfl)
      (by show (issueGrp s1 i).u = _; rw [hgrp]; rfl)
  have hrd : (ls.map (fun n => (n, readSrcs m f (ctxOfIssue s1 i clk) n (laneOf (ctxOfIssue s1 i clk).grp n)))).map
      (fun r => (r.1, r.2.1)) = ls.map (fun n => (n, aluSrcs m f s i n)) := by
    rw [List.map_map]
    apply List.map_congr_left
    intro n hn
    have := hsrc n hn
    simp only [Function.comp_def]
    rw [show (ctxOfIssue s1 i clk).grp = issueGrp s1 i from rfl, this]
  rw [hrd, hfree, hv]
  -- the lanes read
  have hfold : ∀ g : Grp, (ls.map (fun n => (n, readSrcs m f (ctxOfIssue s1 i clk) n (laneOf (ctxOfIssue s1 i clk).grp n)))).foldl
      (fun g r => modLanes g [r.1] (fun _ _ => r.2.2)) g =
      (ls.map (fun n => (n, (readSrcs m f (ctxOfIssue s1 i clk) n (laneOf (ctxOfIssue s1 i clk).grp n)).2))).foldl
        (fun g r => modLanes g [r.1] (fun _ _ => r.2)) g := by
    intro g
    rw [List.foldl_map, List.foldl_map]
  simp only [hfold]
  generalize hsl : (fun n => (readSrcs m f (ctxOfIssue s1 i clk) n (laneOf (ctxOfIssue s1 i clk).grp n)).2) = src
  have hsrcl : ∀ n ∈ ls, ∃ w st ck, src n = { laneAt s i n with waited := w, starving := st, clkHi := ck } := by
    intro n hn
    have := hsrc n hn
    rw [← hsl]
    dsimp only
    rw [show (ctxOfIssue s1 i clk).grp = issueGrp s1 i from rfl, this]
    refine ⟨(countLane i.lanes (laneAt s i n) n).waited, (countLane i.lanes (laneAt s i n) n).starving,
      (readSrcs m f (ctxOfIssue s i (aluClock s i f)) n (laneAt s i n)).2.clkHi, ?_⟩
    dsimp only
    rw [readSrcs_latch]
  have hfold2 : ∀ g : Grp, (ls.map (fun n => (n, (readSrcs m f (ctxOfIssue s1 i clk) n (laneOf (ctxOfIssue s1 i clk).grp n)).2))).foldl
        (fun g r => modLanes g [r.1] (fun _ _ => r.2)) g =
      (ls.map (fun n => (n, src n))).foldl (fun g r => modLanes g [r.1] (fun _ _ => r.2)) g := by
    intro g; rw [← hsl]
  simp only [hfold2]
  -- the group afterwards
  have hu2 : ({ s1 with free := (clockTick s (i.core / 64) rd).1.free + 1 } : State) =
      { counted s i with dies := s1.dies, free := (clockTick s (i.core / 64) rd).1.free + 1 } := by rw [hst]
  have hfree2 : ({ s1 with free := (clockTick s (i.core / 64) rd).1.free + 1 } : State).free = (clockTick s (i.core / 64) rd).1.free + 1 := rfl
  generalize hs3 : ({ s1 with free := (clockTick s (i.core / 64) rd).1.free + 1 } : State) = s2 at hu2 ⊢
  have hs2d : s2.dies = s1.dies := by rw [← hs3]
  have hcore2 : ∀ c, coreOf s2 c = coreOf (counted s i) c := by intro c; rw [hu2]; rfl
  have hgrp2 : issueGrp s2 i = countGrp i.lanes (issueGrp s i) := by
    rw [← issueGrp_counted h]; unfold issueGrp; rw [hcore2]
  have hsub2 : i.sub < (coreOf s2 i.core).subs.length := by rw [hcore2]; exact counted_sub_lt h
  have hframe := issueFrame_of (u := s2) (by rw [hu2]) (by
        intro d
        have e : dieOf s2 d = dieOf s1 d := by unfold dieOf; rw [hs2d]
        rw [e]; exact hdie d) (onlyGrp_mod s2 i (fun g => advance i (gLen m f)
    (writeResults ((ls.map (fun n => (n, src n))).foldl (fun g r => modLanes g [r.1] (fun _ _ => r.2)) g) (opdOf f.d) (dstWidth m.d)
      (ls.map (fun n => (n, val n))))))
  have hres : issueGrp (settle (modIssueGrp s2 i (fun g => advance i (gLen m f)
      (writeResults ((ls.map (fun n => (n, src n))).foldl (fun g r => modLanes g [r.1] (fun _ _ => r.2)) g) (opdOf f.d) (dstWidth m.d)
        (ls.map (fun n => (n, val n)))))) i.core) i =
      advance i (gLen m f) (writeResults ((ls.map (fun n => (n, src n))).foldl (fun g r => modLanes g [r.1] (fun _ _ => r.2))
        (countGrp i.lanes (issueGrp s i))) (opdOf f.d) (dstWidth m.d) (ls.map (fun n => (n, val n)))) := by
    rw [issueGrp_settle, issueGrp_modIssueGrp _ hsub2, hgrp2]
  generalize (settle (modIssueGrp s2 i (fun g => advance i (gLen m f)
      (writeResults ((ls.map (fun n => (n, src n))).foldl (fun g r => modLanes g [r.1] (fun _ _ => r.2)) g) (opdOf f.d) (dstWidth m.d)
        (ls.map (fun n => (n, val n)))))) i.core) = t at hframe hres ⊢
  have hlane : ∀ n, laneAt t i n =
      if n ∈ i.lanes then
        { (if n ∈ ls then (match opdOf f.d with
            | .v k => setVs (src n) k (dstWidth m.d) (val n)
            | .p k => setP (src n) k (val n % 2 == 1)
            | _ => src n) else countLane i.lanes (laneAt s i n) n) with
          pc := (laneAt s i n).pc + BitVec.ofNat 32 (gLen m f) }
      else laneOf (countGrp i.lanes (issueGrp s i)) n := by
    intro n
    unfold laneAt
    rw [hres, laneOf_advance, results_length, laneOf_results nd, countGrp_length]
    by_cases hn : n ∈ i.lanes
    · have hlt := issue_lane_lt h hn
      rw [if_pos ⟨hn, hlt⟩, if_pos hn]
      by_cases hg : n ∈ ls
      · rw [if_pos ⟨hg, hlt⟩, if_pos hg]
        obtain ⟨w, st, ck, e⟩ := hsrcl n hg
        have hpc : (match opdOf f.d with
            | .v k => setVs (src n) k (dstWidth m.d) (val n)
            | .p k => setP (src n) k (val n % 2 == 1)
            | _ => src n).pc = (laneAt s i n).pc := by
          cases opdOf f.d <;> dsimp only
          case v k => rw [setVs_rest, e]
          case p k => rw [setP_rest, e]
          all_goals rw [e]
        rw [hpc]; rfl
      · rw [if_neg (fun e => hg e.1), if_neg hg, laneOf_countGrp hlt]
        rw [countLane_eq]
    · rw [if_neg (fun e => hn e.1), if_neg hn, if_neg (fun e => hn (hmem n e.1))]
  have hout : ∀ n, n ∉ i.lanes → ∃ w st, laneAt t i n = { laneAt s i n with waited := w, starving := st } := by
    intro n hn
    rw [hlane n, if_neg hn]
    by_cases hlt : n < (issueGrp s i).lanes.length
    · rw [laneOf_countGrp hlt, countLane_eq]
      exact ⟨_, _, rfl⟩
    · have hlt' : ¬ n < (countGrp i.lanes (issueGrp s i)).lanes.length := by simpa using hlt
      refine ⟨(laneAt s i n).waited, (laneAt s i n).starving, ?_⟩
      simp only [laneAt, laneOf_lanes]
      rw [List.getElem?_eq_none (Nat.not_lt.mp hlt), List.getElem?_eq_none (Nat.not_lt.mp hlt')]
  have hpass : ∀ n, n ∈ i.lanes → n ∉ ls → ∃ w st, laneAt t i n =
      { laneAt s i n with waited := w, starving := st, pc := (laneAt s i n).pc + BitVec.ofNat 32 (gLen m f) } := by
    intro n hn hg
    rw [hlane n, if_pos hn, if_neg hg, countLane_eq]
    exact ⟨_, _, rfl⟩
  have hgrpT : issueGrp t i = { issueGrp s i with
      lanes := (issueGrp t i).lanes, u := (issueGrp t i).u
      uOwner := uOwnerAfter (issueGrp s i) ls (opdOf f.d) (dstWidth m.d) } := by
    rw [hres, results_group]; rfl
  have huT : (issueGrp t i).u = match opdOf f.d, ls with
          | .u k, n :: _ => (setUs (countGrp i.lanes (issueGrp s i)) k (dstWidth m.d) (val n)).u
          | _, _ => (issueGrp s i).u := by
    rw [hres]
    have : ∀ g, (advance i (gLen m f) g).u = g.u := fun g => rfl
    rw [this, results_group]; rfl
  refine ⟨?_, ?_, ?_, ?_, ?_, ?_, ?_, ?_, hgrpT, hframe.1, hframe.2⟩
  · intro n hn k j hd hj
    rw [hlane n, if_pos (hmem n hn), if_pos hn, hd]
    show vReg (setVs (src n) k (dstWidth m.d) (val n)) (k + j) = _
    rw [vReg_setVs, if_pos ⟨by omega, by omega⟩]
    congr 3; omega
  · intro n k j hn hd hj
    cases hls' : ls with
    | nil => rw [hls'] at hn; cases hn
    | cons x xs =>
      rw [hls'] at hn
      simp only [List.head?_cons, Option.some.injEq] at hn
      subst hn
      rw [hd, hls'] at huT
      have e : uReg (issueGrp t i) (k + j) = uReg (setUs (countGrp i.lanes (issueGrp s i)) k (dstWidth m.d) (val x)) (k + j) := by
        unfold uReg; rw [huT]
      rw [e, uReg_setUs, if_pos ⟨by omega, by omega⟩]
      congr 3; omega
  · intro n hn k hd hk
    rw [hlane n, if_pos (hmem n hn), if_pos hn, hd]
    show pReg (setP (src n) k (val n % 2 == 1)) k = _
    rw [pReg_setP _ _ _ _ hk, if_pos rfl]
  · intro n
    by_cases hn : n ∈ i.lanes
    · rw [if_pos hn, hlane n, if_pos hn]
    · rw [if_neg hn]
      obtain ⟨w, st, e⟩ := hout n hn
      rw [e]
  · intro n j hk
    by_cases hn : n ∈ i.lanes
    · by_cases hg : n ∈ ls
      · rw [hlane n, if_pos hn, if_pos hg]
        obtain ⟨w, st, ck, e⟩ := hsrcl n hg
        cases hd : opdOf f.d with
        | v k =>
          show vReg (setVs (src n) k (dstWidth m.d) (val n)) j = _
          rw [vReg_setVs, if_neg (hk hg k hd), e]; rfl
        | p k =>
          show vReg (setP (src n) k (val n % 2 == 1)) j = _
          rw [setP_rest, e]; rfl
        | u k => show vReg (src n) j = _; rw [e]; rfl
        | special k => show vReg (src n) j = _; rw [e]; rfl
        | none => show vReg (src n) j = _; rw [e]; rfl
        | reserved => show vReg (src n) j = _; rw [e]; rfl
        | imm k => show vReg (src n) j = _; rw [e]; rfl
      · obtain ⟨w, st, e⟩ := hpass n hn hg; rw [e]; rfl
    · obtain ⟨w, st, e⟩ := hout n hn; rw [e]; rfl
  · intro j hk
    have e : uReg (issueGrp t i) j = tblGet 0 (issueGrp t i).u j := rfl
    rw [e, huT]
    cases hd : opdOf f.d with
    | u k =>
      cases hls' : ls with
      | nil => rfl
      | cons x xs =>
        have := hk (by rw [hls']; exact List.cons_ne_nil _ _) k hd
        show uReg (setUs (countGrp i.lanes (issueGrp s i)) k (dstWidth m.d) (val x)) j = _
        rw [uReg_setUs, if_neg this]; rfl
    | v k => rfl
    | p k => rfl
    | special k => rfl
    | none => rfl
    | reserved => rfl
    | imm k => rfl
  · intro n j hk
    by_cases hn : n ∈ i.lanes
    · by_cases hg : n ∈ ls
      · rw [hlane n, if_pos hn, if_pos hg]
        obtain ⟨w, st, ck, e⟩ := hsrcl n hg
        cases hd : opdOf f.d with
        | v k =>
          show pReg (setVs (src n) k (dstWidth m.d) (val n)) j = _
          rw [setVs_rest, e]; rfl
        | p k =>
          show pReg (setP (src n) k (val n % 2 == 1)) j = _
          have hne : j ≠ k := by
            intro e'; subst e'; exact hk hg hd
          by_cases h7 : k < 7
          · rw [pReg_setP _ _ _ _ h7, if_neg hne, e]; rfl
          · have : setP (src n) k (val n % 2 == 1) = src n := by unfold setP; rw [if_pos (by omega)]
            rw [this, e]; rfl
        | u k => show pReg (src n) j = _; rw [e]; rfl
        | special k => show pReg (src n) j = _; rw [e]; rfl
        | none => show pReg (src n) j = _; rw [e]; rfl
        | reserved => show pReg (src n) j = _; rw [e]; rfl
        | imm k => show pReg (src n) j = _; rw [e]; rfl
      · obtain ⟨w, st, e⟩ := hpass n hn hg; rw [e]; rfl
    · obtain ⟨w, st, e⟩ := hout n hn; rw [e]; rfl
  · intro n
    by_cases hn : n ∈ i.lanes
    · by_cases hg : n ∈ ls
      · rw [hlane n, if_pos hn, if_pos hg]
        obtain ⟨w, st, ck, e⟩ := hsrcl n hg
        cases hd : opdOf f.d with
        | v k => dsimp only; rw [setVs_rest, e]
        | p k => dsimp only; rw [setP_rest, e]
        | u k => dsimp only; rw [e]
        | special k => dsimp only; rw [e]
        | none => dsimp only; rw [e]
        | reserved => dsimp only; rw [e]
        | imm k => dsimp only; rw [e]
      · obtain ⟨w, st, e⟩ := hpass n hn hg; rw [e]
    · obtain ⟨w, st, e⟩ := hout n hn; rw [e]

end Sys2Proof.Machine
end

