-- ==== Sys2Proof/Laws/Group.lean ====
section
/-!
SUPPORT. An issue that changes its own group alone: the lemma that every such instruction rests on, and the lanes that hold
and pass.
-/
namespace Sys2Proof.Machine

open Sys2Proof

variable {s : State} {p : Place} {i : Issue}

/-- A body that changes the issuing group alone, into `g`, does what `g` says of its lanes and its held operations. -/
theorem group_done {body : State → Issue → State} {v : State} {g : Grp} {lane : Nat → Lane → Lane} {u : Tbl W32}
    {held : List HeldOp} (hi : Issues s p i) (hv : body (counted s i) i = v) (hb : OnlyGrp (counted s i) v i)
    (hg : issueGrp v i = g)
    (hl : ∀ n, ∃ w st, laneOf g n = { lane n (laneAt s i n) with waited := w, starving := st })
    (hr : g = { issueGrp s i with lanes := g.lanes, u := u, held := held }) :
    GroupDone s (issue s p body) i lane u held := by
  obtain ⟨h, hf, _⟩ := hi
  rw [issue_eq h hf, hv]
  have hgrp : issueGrp (settle v i.core) i = g := by rw [issueGrp_settle, hg]
  have hfr := issueFrame_of (s := s) (u := counted s i) (v := v) (i := i) rfl (fun _ => rfl) hb
  refine ⟨?_, ?_, hfr.1, hfr.2⟩
  · intro n
    obtain ⟨w, st, e⟩ := hl n
    have e' : laneAt (settle v i.core) i n = laneOf g n := by unfold laneAt; rw [hgrp]
    rw [e', e]
  · rw [hgrp]; exact hr

/-- One change of the group. -/
theorem onlyGrp_one (F : Grp → Grp) : OnlyGrp (counted s i) (modIssueGrp (counted s i) i F) i := onlyGrp_mod _ _ _

theorem issueGrp_one (h : pickIssue (coreOf s p.core.val) p.core.val p.sub.val = some i) (F : Grp → Grp) :
    issueGrp (modIssueGrp (counted s i) i F) i = F (countGrp i.lanes (issueGrp s i)) := by
  rw [issueGrp_modIssueGrp _ (counted_sub_lt h), issueGrp_counted h]

/-- Two changes of the group. -/
theorem onlyGrp_two (F G : Grp → Grp) : OnlyGrp (counted s i) (modIssueGrp (modIssueGrp (counted s i) i F) i G) i :=
  onlyGrp_trans (onlyGrp_mod _ _ _) (onlyGrp_mod _ _ _)

theorem issueGrp_two (h : pickIssue (coreOf s p.core.val) p.core.val p.sub.val = some i) (F G : Grp → Grp) :
    issueGrp (modIssueGrp (modIssueGrp (counted s i) i F) i G) i = G (F (countGrp i.lanes (issueGrp s i))) := by
  rw [issueGrp_modIssueGrp _ (by rw [(onlyGrp_mod (counted s i) i F).subs]; exact counted_sub_lt h), issueGrp_one h]

/-- A lane of a counted group is the lane it was, but for its count of waits. -/
theorem laneOf_counted_group (ls : List Nat) (g : Grp) (n : Nat) :
    ∃ w st, laneOf (countGrp ls g) n = { laneOf g n with waited := w, starving := st } := by
  by_cases hn : n < g.lanes.length
  · rw [laneOf_countGrp hn, countLane_eq]
    exact ⟨_, _, rfl⟩
  · have hn' : ¬ n < (countGrp ls g).lanes.length := by simpa using hn
    refine ⟨(laneOf g n).waited, (laneOf g n).starving, ?_⟩
    simp only [laneOf_lanes]
    rw [List.getElem?_eq_none (Nat.not_lt.mp hn), List.getElem?_eq_none (Nat.not_lt.mp hn')]

/-- A ready lane of the issue has no wait. -/
theorem issued_ready (h : pickIssue (coreOf s p.core.val) p.core.val p.sub.val = some i) {n : Nat} (hn : n ∈ i.lanes) :
    (laneAt s i n).wait = .ready ∧ (laneAt s i n).exited = false := by
  obtain ⟨hc, hb, -⟩ := pickIssue_spec h
  have := ((pickIssue_lanes h).2 n hn).2.1
  unfold laneReady at this
  unfold laneAt issueGrp
  rw [hc, hb]
  simp only [Bool.and_eq_true, Bool.not_eq_true', beq_iff_eq] at this
  exact ⟨this.2, this.1⟩

/-- Lanes that hold behind lanes that pass. -/
theorem laneOf_hold (h : pickIssue (coreOf s p.core.val) p.core.val p.sub.val = some i) (ls : List Nat) (hs : ∀ n ∈ ls, n ∈ i.lanes)
    (w : Wait) (pc : W32) (op : Held) (n : Nat) :
    ∃ k st, laneOf (holdLanes (passLanes (countGrp i.lanes (issueGrp s i)) (i.lanes.filter (fun l => !(ls.contains l))) 8) ls w pc op) n =
      { holds i ls w n (laneAt s i n) with waited := k, starving := st } := by
  have hh : ∀ g : Grp, laneOf (holdLanes g ls w pc op) n = laneOf (modLanes g ls (fun _ l => { l with wait := w })) n := fun _ => rfl
  rw [hh, laneOf_modLanes]
  unfold passLanes
  rw [laneOf_modLanes, modLanes_length, countGrp_length]
  obtain ⟨k, st, e⟩ := laneOf_counted_group i.lanes (issueGrp s i) n
  rw [e]
  unfold holds
  by_cases hn : n ∈ ls
  · have hlt := issue_lane_lt h (hs n hn)
    have hm : ¬ n ∈ i.lanes.filter (fun l => !(ls.contains l)) := by simp [hn]
    rw [if_pos ⟨hn, hlt⟩, if_neg (fun e => hm e.1), if_pos hn]
    exact ⟨k, st, rfl⟩
  · rw [if_neg (fun e => hn e.1), if_neg hn]
    by_cases hi : n ∈ i.lanes
    · have hlt := issue_lane_lt h hi
      have hm : n ∈ i.lanes.filter (fun l => !(ls.contains l)) := by simp [hn, hi]
      rw [if_pos ⟨hm, hlt⟩, if_pos hi]
      have hw := (issued_ready h hi).1
      exact ⟨k, st, by rw [show laneOf (issueGrp s i) n = laneAt s i n from rfl, ← hw]; rfl⟩
    · have hm : ¬ n ∈ i.lanes.filter (fun l => !(ls.contains l)) := by simp [hi]
      rw [if_neg (fun e => hm e.1), if_neg hi]
      exact ⟨k, st, rfl⟩

/-- What a lane reads of an operand that is no clock does not depend on the count of the issue. -/
theorem readOpd_counted (h : pickIssue (coreOf s p.core.val) p.core.val p.sub.val = some i)
    (n : Nat) (o : Opd) (k : Nat) (flt : Bool) :
    (readOpd (ctxOfIssue (counted s i) i 0) n (laneOf (ctxOfIssue (counted s i) i 0).grp n) o k flt).1 =
      (readOpd (ctxOfIssue s i 0) n (laneAt s i n) o k flt).1 := by
  have hg := issueGrp_counted h
  have hx : ctxOfIssue (counted s i) i 0 = { ctxOfIssue s i 0 with grp := (ctxOfIssue (counted s i) i 0).grp } := by
    unfold ctxOfIssue
    rw [issueBlock_counted h, issueInfo_counted h]
  have e1 : (ctxOfIssue (counted s i) i 0).grp = countGrp i.lanes (issueGrp s i) := hg
  obtain ⟨w, st, e⟩ := laneOf_counted_group i.lanes (issueGrp s i) n
  rw [e1, e]
  have := readOpd_waits (ctxOfIssue s i 0) (ctxOfIssue (counted s i) i 0) n (laneAt s i n) w st o k flt hx
    (by rw [e1]; rfl) (by rw [e1]; rfl)
  rw [show laneOf (issueGrp s i) n = laneAt s i n from rfl, this]

end Sys2Proof.Machine
end

