-- ==== Sys2Proof/Tests/Slice0.lean ====
section
/-!
SUPPORT. Small tests of single commands, with expected values worked out from the manual, and for every statement of
Certificates/Slice0/Obligations.lean states and operands that meet its hypotheses.
-/

open Sys2Proof Sys2Proof.Machine

section Tests

set_option maxRecDepth 20000

-- Small states

def demoPlace : Place := { core := 0, sub := 0 }

/-- A thread that has not exited, with these v registers and predicates. -/
def demoLane (v : Tbl W32) (preds : BitVec 7 := 0) : Lane := { exited := false, v, preds }

/-- Core 0 of saggar 0 with one block of one group, whose threads are at code address 0. -/
def demoCore (ls : List Lane) (held : List HeldOp := []) (u : Tbl W32 := []) : Core :=
  { partition := some 0
    blocks := [(0, { info := { codeLen := 64, lsBytes := 1024 }, lin := 0, groups := [(0, 0)], ls := [(4, 0x11), (5, 0x22), (6, 0x83)] })]
    subs := [{ slots := [(0, { blk := 0, idx := 0, lanes := ls, u, held })], active := [0] }, {}, {}, {}] }

/-- A running device with that core, whose cluster's instruction cache holds its code; saggar 0 is OPEN and owns channels 0 and 16; context 0 has object 1,
the first 64 KiB, and fence page 0. -/
def demoOn (k : Core) : State :=
  { State.reset with
    sags := [(0, { st := .open, chans := [0x10001, 0, 0, 0] })]
    chans := [(0, { st := .owned }), (16, { st := .owned })]
    ras := { State.reset.ras with phase := 8 }
    obj := { State.reset.obj with
      ctxs := [(0, { st := .open })], objs := [(1, { st := .live, len := 0x10000 })], pages := [(0, { st := .live })] }
    fuses := { State.reset.fuses with certArea := [] }
    icaches := [(0, [⟨0, 2, List.replicate 64 0⟩])]
    cores := [(0, k)] }

/-- Two threads: v1 is 5 and 7, v2 is 0xFFFFFFFF and 3, v6 and v7 the address 0x100. -/
def demoLanes : List Lane := [demoLane [(1, 5), (2, 0xFFFFFFFF), (6, 0x100)] 1, demoLane [(1, 7), (2, 3), (6, 0x180)]]

def demoState : State := demoOn (demoCore demoLanes)

def demoIssue : Issue := { core := 0, sub := 0, slot := 0, pc := 0, lanes := [0, 1] }

def opdV (n : Nat) : BitVec 9 := BitVec.ofNat 9 n
def opdP (n : Nat) : BitVec 9 := BitVec.ofNat 9 (0x180 + n)
def opdNone : BitVec 9 := 0x188
def opdImm (n : Nat) : BitVec 9 := BitVec.ofNat 9 (0x1C0 + n)

/-- A format G word of three sources without a guard. -/
def wordG (d a b c : BitVec 9) (mod : BitVec 16 := 0) : FmtG := { pn := false, pg := 7, d, a, b, c, mod, ext := 0 }
def wordM (d a b : BitVec 9) (sz : BitVec 3) (ofs : BitVec 15 := 0) (aop : BitVec 4 := 0) : FmtM :=
  { pn := false, pg := 7, d, a, b, sz, sx := false, hint := 0, aop, ofs }
def wordJ (d a : BitVec 9) (t : Bool) (ofs : BitVec 32) : FmtJ := { pn := false, pg := 7, d, a, t, rsv := false, ofs }

/-- The state that a command leaves. -/
def demoAfter (c : Instr) (s : State) : State := leaves s (exec c s)

def demoV (c : Instr) (lane n : Nat) : W32 := vReg (laneAt (demoAfter c demoState) demoIssue lane) n
def demoP (c : Instr) (lane n : Nat) : Bool := pReg (laneAt (demoAfter c demoState) demoIssue lane) n


-- Well-formed commands

def demoMsg : HostMsg := { tag := 0, addr := 0, malformed := false }
def demoPacket (payload : List Byte) : Packet :=
  { ptype := 1, partition := 0, epoch := 0, dst := 0, src := 0, lenM1 := 0, ctr := 0, accEtype := 0, vc := 0, reason := 0, tracker := 0
    dstAddr := 0, seq := 0, payload, tag := List.replicate 16 0, resBad := false }

/-- A term that each check of `wellFormed` refuses, beside the same command whole. -/
theorem test_wellFormed_refuses :
    wellFormed (.writeNa (.die 0) 0 0 [1] noErr) = false ∧ wellFormed (.atomFar 0 0 ⟨.add, 2, false, [(1, 0)]⟩ noErr) = false ∧
    wellFormed (.atomFar 0 0 ⟨.add, 4, false, []⟩ noErr) = false ∧ wellFormed (.ldxFar 0 0 4 true noErr) = false ∧
    wellFormed (.stxFar 0 0 6 false 0 noErr) = false ∧ wellFormed (.cWrBack demoMsg [1] noErr) = false ∧ wellFormed (.cWrNa demoMsg [] noErr) = false ∧
    wellFormed (.cSnpData 0 0 []) = false ∧ wellFormed (.junctionSample [0]) = false ∧ wellFormed (.stackSensorSample 0 [0]) = false ∧
    wellFormed (.atomicPerform demoPlace 0 0 [1, 1] noErr) = false ∧ wellFormed (.nmPartComplete 0 0 0 [2, 3, 2] noErr) = false := by decide

theorem test_wellFormed_accepts :
    wellFormed (.writeNa (.die 0) 0 0 (List.replicate 128 0) noErr) = true ∧ wellFormed (.atomFar 0 0 ⟨.add, 4, false, [(1, 0)]⟩ noErr) = true ∧
    wellFormed (.ldxFar 0 0 8 true noErr) = true ∧ wellFormed (.cWrBack demoMsg (List.replicate 64 0) noErr) = true ∧
    wellFormed (.junctionSample (List.replicate 76 0)) = true ∧ wellFormed (.stackSensorSample 0 (List.replicate 17 0)) = true ∧
    wellFormed (.nmPartComplete 0 0 0 [2, 3] noErr) = true ∧ wellFormed (.ack 0 (demoPacket [])) = true := by decide

theorem test_packet_too_long : payloadFits (demoPacket (List.replicate 2049 0)) = false := by
  show decide ((List.replicate 2049 (0 : Byte)).length ≤ 2048) = false
  rw [List.length_replicate]; rfl

-- Instruction words, field by field from Tables 08-4, 08-5 and 08-11

def readWord (w : W64) : Option Instr := decodeTvedfit demoPlace noErr w 0

/-- An opcode and the guard p7. -/
def wordHead (o : BitVec 8) : BitVec 12 := o ++ (0 : BitVec 1) ++ (7 : BitVec 3)
def bitsG (o : BitVec 8) (d a b c : BitVec 9) (mod : BitVec 16) : W64 := wordHead o ++ d ++ a ++ b ++ c ++ mod

theorem test_words_g :
    readWord (bitsG 0x01 3 1 0x142 0x188 0) = some (.iadd demoPlace (wordG 3 1 0x142 0x188)) ∧
    readWord (bitsG 0x11 0x180 1 2 0x188 0x4002) = some (.isetp demoPlace (wordG 0x180 1 2 0x188 0x4002)) ∧
    readWord (bitsG 0x22 3 1 2 3 0x1000) = some (.ffma demoPlace (wordG 3 1 2 3 0x1000)) ∧
    readWord (bitsG 0x30 3 1 0x188 0x188 0x24) = some (.cvt demoPlace (wordG 3 1 0x188 0x188 0x24)) ∧
    readWord (bitsG 0x52 0x188 0x188 0x188 0x188 0) = some (.fenceSys demoPlace (wordG 0x188 0x188 0x188 0x188)) ∧
    readWord (bitsG 0x58 3 0x181 0x188 0x188 3) = some (.voteCount demoPlace (wordG 3 0x181 0x188 0x188 3)) ∧
    readWord (bitsG 0x69 0x188 0x104 0x188 0x188 0x1B) = some (.tokPostArm demoPlace (wordG 0x188 0x104 0x188 0x188 0x1B) noErr) ∧
    readWord (bitsG 0x6A 0x188 0x104 0x106 0x188 0) = some (.coneWait demoPlace (wordG 0x188 0x104 0x106 0x188)) ∧
    readWord (bitsG 0x69 0x188 0x188 0x188 0x188 0x30) = none ∧ readWord (bitsG 0x12 3 1 2 0x188 0) = none := by decide

theorem test_words_m_j :
    readWord (wordHead 0x48 ++ (4 : BitVec 9) ++ (6 : BitVec 9) ++ (0x188 : BitVec 9) ++ (3 : BitVec 3) ++ (1 : BitVec 1) ++ (2 : BitVec 2) ++
      (0 : BitVec 4) ++ (0x7FFF : BitVec 15)) =
      some (.ldG demoPlace { wordM 4 6 0x188 3 0x7FFF with sx := true, hint := 2 } noErr) ∧
    readWord (wordHead 0x4C ++ (3 : BitVec 9) ++ (6 : BitVec 9) ++ (1 : BitVec 9) ++ (2 : BitVec 3) ++ (0 : BitVec 1) ++ (0 : BitVec 2) ++
      (9 : BitVec 4) ++ (16 : BitVec 15)) = some (.atomExch demoPlace (wordM 3 6 1 2 16 9)) ∧
    readWord (wordHead 0x71 ++ (5 : BitVec 9) ++ (0x188 : BitVec 9) ++ (0 : BitVec 2) ++ (0xFFFFFFFE : BitVec 32)) =
      some (.call demoPlace (wordJ 5 0x188 false 0xFFFFFFFE)) := by decide

/-- The worked example of spec/08: SLAB.MMA of slab s1, and its word with Z = 0. -/
theorem test_words_s :
    let f : FmtS := { s := 1, ac := 0, ua := 4, ub := 2, usa := 0, usb := 0, umeta := 0, fa := 0, fb := 0, kd := 7, z := true, crv := true
                      cre := 1, crq := 0, rsv := false }
    readWord 0x60410200000003E8 = some (.slabMma demoPlace f) ∧ readWord 0x60410200000003A8 = some (.slabMma demoPlace { f with z := false }) := by
  decide

-- The ALU

theorem demo_issues : Issues demoState demoPlace demoIssue := by unfold Issues; decide

/-- The value of each integer operation on 5 and 0xFFFFFFFF (lane 0), and on 7 and 3 (lane 1). -/
theorem test_integer :
    [demoV (.iadd demoPlace (wordG 3 1 2 0x188)) 0 3, demoV (.isub demoPlace (wordG 3 1 2 0x188)) 1 3,
     demoV (.imul demoPlace (wordG 3 1 2 0x188)) 0 3, demoV (.imulhi demoPlace (wordG 3 1 2 0x188)) 0 3,
     demoV (.imulhi demoPlace (wordG 3 1 2 0x188 0x4000)) 0 3, demoV (.imad demoPlace (wordG 3 1 2 1)) 1 3,
     demoV (.imin demoPlace (wordG 3 1 2 0x188)) 0 3, demoV (.imin demoPlace (wordG 3 1 2 0x188 0x4000)) 0 3,
     demoV (.imax demoPlace (wordG 3 1 2 0x188)) 0 3] =
    [4, 4, 0xFFFFFFFB, 0xFFFFFFFF, 4, 28, 0xFFFFFFFF, 5, 5] := by decide

theorem test_bits :
    [demoV (.and demoPlace (wordG 3 1 2 0x188)) 1 3, demoV (.or demoPlace (wordG 3 1 2 0x188)) 1 3, demoV (.xor demoPlace (wordG 3 1 2 0x188)) 1 3,
     demoV (.shl demoPlace (wordG 3 1 2 0x188)) 0 3, demoV (.shr demoPlace (wordG 3 2 1 0x188)) 0 3,
     demoV (.shr demoPlace (wordG 3 2 1 0x188 0x4000)) 0 3, demoV (.popc demoPlace (wordG 3 2 0x188 0x188)) 0 3,
     demoV (.clz demoPlace (wordG 3 1 0x188 0x188)) 0 3, demoV (.brev demoPlace (wordG 3 1 0x188 0x188)) 0 3] =
    [3, 7, 4, 0x80000000, 0xFFFFFFFF, 0x07FFFFFF, 32, 29, 0xA0000000] := by decide

theorem test_moves :
    [demoV (.mov demoPlace (wordG 3 (opdImm 63) 0x188 0x188)) 0 3, demoV (.mov demoPlace (wordG 3 (opdP 7) 0x188 0x188)) 0 3,
     demoV (.sel demoPlace (wordG 3 1 2 (opdP 0))) 0 3, demoV (.sel demoPlace (wordG 3 1 2 (opdP 0))) 1 3,
     demoV (.iaddW demoPlace (wordG 4 6 2 0x188)) 0 4, demoV (.iaddW demoPlace (wordG 4 6 2 0x188)) 0 5,
     demoV (.iaddW demoPlace (wordG 4 6 2 0x188 0x4000)) 0 5] = [0xFFFFFFFF, 1, 5, 3, 0xFF, 0, 1] := by decide

def demoFloat : State := demoOn (demoCore [demoLane [(1, 0x3F800000), (2, 0x40000000), (3, 0xC0400000)]])
def floatV (c : Instr) : W32 := vReg (laneAt (demoAfter c demoFloat) demoIssue 0) 4

/-- 1 + 2, 1 × 2, 2 × -3 + 1, 1 - 2, min and max of 2 and -3, in binary32. -/
theorem test_float :
    [floatV (.fadd demoPlace (wordG 4 1 2 0x188)), floatV (.fmul demoPlace (wordG 4 1 2 0x188)), floatV (.ffma demoPlace (wordG 4 2 3 1)),
     floatV (.fadd demoPlace (wordG 4 1 2 0x188 0x2000)), floatV (.fmin demoPlace (wordG 4 2 3 0x188)),
     floatV (.fmax demoPlace (wordG 4 2 3 0x188)), floatV (.fadd demoPlace (wordG 4 3 3 0x188 0x800))] =
    [0x40400000, 0x40000000, 0xC0A00000, 0xBF800000, 0xC0400000, 0x40000000, 0] := by decide

theorem test_predicates :
    [demoP (.isetp demoPlace (wordG (opdP 1) 2 1 0x188 2)) 0 1, demoP (.isetp demoPlace (wordG (opdP 1) 2 1 0x188 0x4002)) 0 1,
     demoP (.isetp demoPlace (wordG (opdP 1) 1 1 0x188 5)) 1 1, demoP (.plop demoPlace (wordG (opdP 1) (opdP 0) (opdP 7) (opdP 7) 0x80)) 0 1,
     demoP (.plop demoPlace (wordG (opdP 1) (opdP 0) (opdP 7) (opdP 7) 0x80)) 1 1,
     pReg (laneAt (demoAfter (.fsetp demoPlace (wordG (opdP 1) 3 1 0x188 2)) demoFloat) demoIssue 0) 1] =
    [true, false, true, true, false, true] := by decide

/-- 1.0 in binary32 is 0x3C00 in FP16, and -3 converts to INT32 as 0xFFFFFFFD. -/
theorem test_convert :
    convert .fp32 .fp16 .rn false 0x3F800000 = 0x3C00 ∧ convert .fp32 .bf16 .rn false 0x3F800001 = 0x3F80 ∧
    convert .fp32 .int32 .rz true 0xC0400000 = 0xFFFFFFFD ∧ convert .e8m0 .fp32 .rn false 127 = 0x3F800000 := by decide

theorem test_collectives :
    [demoV (.voteBallot demoPlace (wordG 3 (opdP 0) 0x188 0x188 2)) 1 3, demoV (.voteCount demoPlace (wordG 3 (opdP 7) 0x188 0x188 3)) 0 3,
     demoV (.shflDown demoPlace (wordG 3 1 (opdImm 1) 0x188 2)) 0 3, demoV (.shflDown demoPlace (wordG 3 1 (opdImm 1) 0x188 2)) 1 3,
     demoV (.shflUp demoPlace (wordG 3 1 (opdImm 1) 0x188 1)) 1 3, demoV (.shflXor demoPlace (wordG 3 1 (opdImm 1) 0x188 3)) 0 3,
     demoV (.shflIdx demoPlace (wordG 3 1 (opdImm 1) 0x188 0)) 0 3] = [1, 2, 7, 7, 5, 7, 7] ∧
    demoP (.voteAll demoPlace (wordG (opdP 1) (opdP 0) 0x188 0x188 0)) 0 1 = false ∧
    demoP (.voteAny demoPlace (wordG (opdP 1) (opdP 0) 0x188 0x188 1)) 1 1 = true := by decide

/-- The words of the statements on the ALU are legal: what a next state needs beside an issue. -/
theorem witness_IntegerOperations_MoveOperations :
    Issues demoState demoPlace demoIssue ∧
    (∀ m ∈ [formBin 0, formBin modU], GLegal m (wordG 3 1 2 0x188) false true demoState demoIssue) ∧
    GLegal (formTri 0) (wordG 3 1 2 1) false true demoState demoIssue ∧ GLegal (formUn 0) (wordG 3 1 0x188 0x188) false true demoState demoIssue ∧
    GLegal { d := .reg 1, a := .any } (wordG 3 1 0x188 0x188) false true demoState demoIssue ∧
    GLegal { d := .reg 1, a := .word, b := .word, c := .pred } (wordG 3 1 2 (opdP 0)) false true demoState demoIssue ∧
    GLegal { d := .reg 2, a := .reg 2, b := .word, mods := modU } (wordG 4 6 2 0x188) true true demoState demoIssue ∧
    GLegal { d := .unused, long := false } (wordG 0x188 0x188 0x188 0x188) false true demoState demoIssue := by
  unfold Issues GLegal; decide

theorem witness_FloatOperations_FloatFunctions :
    GLegal fltBin (wordG 3 1 2 0x188 0x7C00) false true demoState demoIssue ∧ GLegal fltUn (wordG 3 1 0x188 0x188) false true demoState demoIssue ∧
    GLegal { d := .reg 1, a := .word, b := .word, c := .word, mods := modF, flt := true } (wordG 3 1 2 1 0x7C00) false true demoState demoIssue := by
  unfold GLegal; decide

theorem witness_PredicateOperations_Conversion :
    GLegal { d := .pred, a := .word, b := .word, mods := modU + 15 } (wordG (opdP 1) 1 2 0x188 5) false true demoState demoIssue ∧
    GLegal { d := .pred, a := .word, b := .word, mods := modF + 15, flt := true } (wordG (opdP 1) 1 2 0x188 5) false true demoState demoIssue ∧
    GLegal { d := .pred, a := .pred, b := .pred, c := .pred, mods := 0xFF } (wordG (opdP 1) (opdP 0) (opdP 7) (opdP 7) 0x80) false true demoState demoIssue ∧
    (etypeOf 0 = some .fp32 ∧ etypeOf 1 = some .bf16 ∧ cvtLegal .fp32 .bf16 2 = true) ∧
    GLegal { d := .reg 1, a := .word, mods := 0x7FFC, flt := true } (wordG 3 1 0x188 0x188 0x30) false (cvtLegal .fp32 .bf16 2) demoState demoIssue := by
  unfold GLegal; decide

theorem witness_VotesAndShuffles :
    (∀ mode : Fin 2, GLegal { d := .pred, a := .pred, mods := 3, long := false } (wordG (opdP 1) (opdP 0) 0x188 0x188 (BitVec.ofNat 16 mode.val)) false true demoState demoIssue) ∧
    (∀ mode : Fin 2, GLegal { d := .reg 1, a := .pred, mods := 3, long := false } (wordG 3 (opdP 0) 0x188 0x188 (BitVec.ofNat 16 (2 + mode.val))) false true demoState demoIssue) ∧
    ∀ mode : Fin 4, GLegal { d := .reg 1, a := .word, b := .word, mods := 3, long := false } (wordG 3 1 2 0x188 (BitVec.ofNat 16 mode.val)) false true demoState demoIssue := by
  unfold GLegal; decide

/-- A word with a reserved operand, and one that names a register beyond the 16 allocated. -/
theorem witness_IllegalWords :
    gFault (formBin 0) (wordG 3 1 0x18A 0x188) false true 16 = some .illegal ∧
    gFault (formBin 0) (wordG 3 1 16 0x188) false true 16 = some .registerRange ∧ guardedLanes demoState demoIssue 7 false ≠ [] ∧
    guardedLanes demoState demoIssue 7 true = [] ∧ longFits (formBin 0) (wordG 3 1 0x18A 0x188) demoState demoIssue = true := by decide

/-- The same core with 8 bytes of code left: a long form at address 0 ends beyond it. -/
def demoShort : State :=
  demoOn { demoCore demoLanes with blocks := [(0, { info := { codeLen := 8, lsBytes := 1024 }, lin := 0, groups := [(0, 0)] })] }

theorem witness_IllegalWords_Long :
    longFits (formBin 0) (wordG 3 1 opdNone 0x188 0x8000) demoShort demoIssue = false ∧
    longFits (formBin 0) (wordG 3 1 opdNone 0x188) demoShort demoIssue = true := by decide

def demoLaunch : LaunchInfo := { codeLen := 64, lsBytes := 1024 }

/-- Both kinds of fault record meet their clauses of ThreadFaultEffects. -/
theorem witness_ThreadFaults :
    (ctxOf demoState 0).fault.valid = false ∧
    (ctxOf (threadFault demoState demoLaunch .address { core := 0, lin := 0, thread := 1, pc := 8 } 4) 0).fault.valid = true ∧
    (ctxOf (threadFault demoState demoLaunch .address { core := 0, lin := 0, thread := 1, pc := 8 } 4) 0).fault.pc = 8 := by decide

-- Control flow, fences, atomics, local store, global memory

def demoPc (c : Instr) (lane : Nat) : W32 := (laneAt (demoAfter c demoState) demoIssue lane).pc

/-- BRA to 16 bytes on, and with a guard that is false in lane 1; CALL through v1 = 0x20 leaves 8 in v3; EXIT. -/
theorem test_jumps :
    demoPc (.bra demoPlace (wordJ opdNone opdNone false 2)) 0 = 16 ∧
    demoPc (.bra demoPlace { wordJ opdNone opdNone false 2 with pg := 0 }) 1 = 8 ∧
    demoPc (.ret demoPlace (wordJ opdNone (opdImm 16) true 0)) 1 = 16 ∧
    demoPc (.call demoPlace (wordJ 3 (opdImm 16) true 0)) 0 = 16 ∧ demoV (.call demoPlace (wordJ 3 (opdImm 16) true 0)) 0 3 = 8 ∧
    (laneAt (demoAfter (.exit demoPlace (wordJ opdNone opdNone false 0)) demoState) demoIssue 0).exited = true := by decide

def jumpTarget (f : FmtJ) (n : Nat) : W32 :=
  if f.t then BitVec.ofNat 32 (readOpd (ctxOfIssue demoState demoIssue 0) n (laneAt demoState demoIssue n) (opdOf f.a) 1 false).1
  else demoIssue.pc + BitVec.ofInt 32 (8 * f.ofs.toInt)

theorem witness_Jumps :
    (∀ f ∈ [wordJ opdNone opdNone false 2, wordJ opdNone (opdImm 16) true 0, wordJ 3 (opdImm 16) true 0, wordJ 0x103 opdNone false 0xFFFFFFFF],
      f.rsv = false ∧ (f.t = true → targetOk (opdOf f.a) = true ∧ f.ofs = 0) ∧ (f.t = false → opdOf f.a = .none) ∧
      outOfRange (issueInfo demoState demoIssue).regs 1 (opdOf f.a) = false ∧ outOfRange (issueInfo demoState demoIssue).regs 1 (opdOf f.d) = false ∧
      ∀ n ∈ guardedLanes demoState demoIssue f.pg f.pn, (jumpTarget f n).toNat % 8 = 0) ∧
    opdOf 3 = .v 3 ∧ opdOf 0x103 = .u 3 ∧ opdOf opdNone = .none := by decide

theorem witness_Fences :
    GLegal fenceForm (wordG opdNone opdNone opdNone opdNone) false true demoState demoIssue ∧ guardedLanes demoState demoIssue 7 false ≠ [] := by
  unfold GLegal; decide

theorem test_fence_blocks :
    (laneAt (demoAfter (.fenceSys demoPlace (wordG opdNone opdNone opdNone opdNone)) demoState) demoIssue 1).wait = .fenceSys := by decide

/-- What AtomicIssue asks of a word and of the addresses that its lanes form. -/
def demoWordOk (f : FmtM) (atom write : Bool) : Bool :=
  mFields f false atom && (f.sz == 2 || f.sz == 3) && srcOk (.reg 2) (opdOf f.a) && !outOfRange 16 2 (opdOf f.a) &&
  !outOfRange 16 (szRegs (szBytes f)) (opdOf f.d) && !readsClock (opdOf f.b) && !readsClock (opdOf f.d) &&
  (guardedLanes demoState demoIssue f.pg f.pn).all (fun l =>
    let x := lowBits 64 (globalAddr (ctxOfIssue demoState demoIssue 0) l (laneAt demoState demoIssue l) f)
    decide (x < 2 ^ 48) && x % szBytes f == 0 && !isHostAddr x &&
    accessFault demoState (issueInfo demoState demoIssue) x (szBytes f) write == none)

theorem witness_AtomicIssue :
    (issueInfo demoState demoIssue).regs = 16 ∧ guardedLanes demoState demoIssue 7 false ≠ [] ∧
    ([(0 : BitVec 4), 1, 2, 3, 4, 5, 6, 7, 8, 9, 10].all (fun aop => demoWordOk (wordM 3 6 1 2 0x10 aop) true true) = true ∧
      srcOk (dataKind 4) (opdOf 1) = true ∧ outOfRange 16 1 (opdOf 1) = false ∧ dstOk (.regOrNone 1) (opdOf 3) = true ∧ dstOk (.reg 1) (opdOf 3) = true) ∧
    (demoWordOk (wordM 4 6 2 3 0x10 0) true true = true ∧ srcOk (dataKind 8) (opdOf 2) = true ∧ outOfRange 16 2 (opdOf 2) = false ∧
      dstOk (.regOrNone 2) (opdOf 4) = true ∧ dstOk (.reg 2) (opdOf 4) = true) ∧
    (demoWordOk (wordM 3 6 opdNone 2) false false = true ∧ opdOf opdNone = .none) ∧
    (demoWordOk (wordM 1 6 (opdP 6) 2) false true = true ∧ opdOf (opdP 6) = .p 6) := by decide

theorem test_atomics_block :
    (laneAt (demoAfter (.atomAdd demoPlace (wordM 3 6 1 2)) demoState) demoIssue 1).wait = .atomic ∧
    (laneAt (demoAfter (.ldx demoPlace (wordM 3 6 opdNone 2)) demoState) demoIssue 1).wait = .atomic ∧
    (laneAt (demoAfter (.stx demoPlace (wordM 1 6 (opdP 6) 2)) demoState) demoIssue 1).wait = .atomic := by decide

/-- Bytes 4 to 6 of local store hold 0x11, 0x22 and 0x83: a word, a half word, and a byte with its sign. -/
theorem test_local :
    demoV (.ldL demoPlace (wordM 3 (opdImm 4) opdNone 2) noErr) 0 3 = 0x00832211 ∧
    demoV (.ldL demoPlace (wordM 3 (opdImm 4) opdNone 1) noErr) 1 3 = 0x2211 ∧
    demoV (.ldL demoPlace { wordM 3 (opdImm 6) opdNone 0 with sx := true } noErr) 1 3 = 0xFFFFFF83 ∧
    -- both lanes store at address 8: lane 1's value stays
    lsRead (issueBlock (demoAfter (.stL demoPlace (wordM 1 (opdImm 8) opdNone 2)) demoState) demoIssue) 8 4 = [7, 0, 0, 0] := by decide

/-- What the statements on local store ask of a word and of the addresses that its lanes form. -/
def demoLocalOk (s : State) (f : FmtM) : Bool :=
  mFields f false false && srcOk (.regImm 1) (opdOf f.a) && opdOf f.b == .none && !outOfRange 16 1 (opdOf f.a) &&
  !outOfRange 16 (szRegs (szBytes f)) (opdOf f.d) && dstOk (.reg (szRegs (szBytes f))) (opdOf f.d) &&
  srcOk (dataKind (szBytes f)) (opdOf f.d) && !readsClock (opdOf f.d) &&
  (guardedLanes s demoIssue f.pg f.pn).all (fun k =>
    let x := localAddr (ctxOfIssue s demoIssue 0) k (laneAt s demoIssue k) f
    decide (0 ≤ x) && decide (x + szBytes f ≤ (issueInfo s demoIssue).lsBytes))

/-- The core of `demoState` with a SLAB.ST of its group at work. -/
def demoStoring : State :=
  demoOn { demoCore demoLanes with
    slabs := [{ queue := [{ blk := 0, sub := 0, grp := 0, launch := 0, lane := 0, pc := 0
                            form := .store ⟨0, 0, none, 0, false, 1, false, false, false, false⟩ }] }, {}, {}, {}] }

theorem witness_LocalAccesses :
    [wordM 3 (opdImm 4) opdNone 2, wordM 4 1 opdNone 3 0x3F1, wordM 8 (opdImm 0) opdNone 4].all (demoLocalOk demoState) = true ∧
    slabStoreHolds demoState 0 0 0 = false ∧ demoLocalOk demoStoring (wordM 3 (opdImm 4) opdNone 2) = true ∧ slabStoreHolds demoStoring 0 0 0 = true ∧
    guardedLanes demoStoring demoIssue 7 false = [0, 1] ∧ Issues demoStoring demoPlace demoIssue ∧ noErr.sramFixed = 0 ∧ noErr.sramBad = false := by
  unfold Issues; decide

/-- The lines 2 and 3 stand in the L1; byte j of line 2 holds j. -/
def demoCached : State :=
  demoOn { demoCore demoLanes with
    l1 := [(16, ⟨2, (List.range 128).map (BitVec.ofNat 8), 0, 5⟩), (24, ⟨3, List.replicate 128 7, 0, 5⟩)] }

theorem witness_GlobalLoadHit :
    let f := wordM 3 6 opdNone 2 4
    Issues demoCached demoPlace demoIssue ∧ guardedLanes demoCached demoIssue 7 false ≠ [] ∧ mFields f true false = true ∧
    srcOk (.reg 2) (opdOf f.a) = true ∧ dstOk (.reg 1) (opdOf f.d) = true ∧ outOfRange 16 2 (opdOf f.a) = false ∧ outOfRange 16 1 (opdOf f.d) = false ∧
    (∀ k ∈ guardedLanes demoCached demoIssue 7 false,
      let x := lowBits 64 (globalAddr (ctxOfIssue demoCached demoIssue 0) k (laneAt demoCached demoIssue k) f)
      x < apertureBase ∧ accessFault demoCached (issueInfo demoCached demoIssue) x 4 false = none ∧
      ∀ j, j < 4 → (l1Byte (coreOf demoCached 0) (x + j) (laneAt demoCached demoIssue k).ordPt).isSome = true) ∧
    (subOf (coreOf demoCached 0) 0).buffer = [] ∧ heldOps (coreOf demoCached 0) = [] := by
  unfold Issues; decide

theorem test_global_load :
    vReg (laneAt (demoAfter (.ldG demoPlace (wordM 3 6 opdNone 2 4) noErr) demoCached) demoIssue 0) 3 = 0x07060504 := by decide

theorem test_global_store :
    ((subOf (coreOf (demoAfter (.stG demoPlace (wordM 1 6 opdNone 2)) demoState) 0) 0).buffer.map (fun e => (e.line, e.bytes.map (fun b => (b.1, b.2.v))))) =
      [(2, [(0, 5), (1, 0), (2, 0), (3, 0)]), (3, [(0, 7), (1, 0), (2, 0), (3, 0)])] := by decide

theorem witness_GlobalStore :
    let f := wordM 1 6 opdNone 2
    mFields f true false = true ∧ srcOk (.reg 2) (opdOf f.a) = true ∧ srcOk (dataKind 4) (opdOf f.d) = true ∧ readsClock (opdOf f.d) = false ∧
    opdOf f.b = .none ∧ outOfRange 16 2 (opdOf f.a) = false ∧ outOfRange 16 1 (opdOf f.d) = false ∧
    (∀ k ∈ guardedLanes demoState demoIssue f.pg f.pn,
      let x := lowBits 64 (globalAddr (ctxOfIssue demoState demoIssue 0) k (laneAt demoState demoIssue k) f)
      x < 2 ^ 48 ∧ accessFault demoState (issueInfo demoState demoIssue) x 4 true = none) ∧
    (∀ h ∈ (issueGrp demoState demoIssue).held, h.lanes ≠ laneMask [0, 1]) := by decide

/-- A barrier that waits: a second thread of the group, at address 8, has not arrived. -/
def demoTwoPcs : State := demoOn (demoCore [demoLane [], { demoLane [] with pc := 8 }])
def demoIssue0 : Issue := { core := 0, sub := 0, slot := 0, pc := 0, lanes := [0] }

theorem witness_BarrierExitYield :
    Issues demoTwoPcs demoPlace demoIssue0 ∧ (∀ n, (laneAt demoTwoPcs demoIssue0 n).exited = true ∨ (laneAt demoTwoPcs demoIssue0 n).wait ≠ .slab) ∧
    GLegal fenceForm (wordG opdNone opdNone opdNone opdNone) false true demoTwoPcs demoIssue0 ∧ guardedLanes demoTwoPcs demoIssue0 7 false = [0] ∧
    (coreOf demoTwoPcs 0).blocks.map (fun b => (b.1, b.2.groups)) = [(0, [(0, 0)])] ∧
    (laneOf (grpOf (subOf (coreOf demoTwoPcs 0) 0) 0) 1).exited = false ∧ (laneOf (grpOf (subOf (coreOf demoTwoPcs 0) 0) 0) 1).wait ≠ .bar ∧
    opdOf (wordJ opdNone opdNone false 0).d = .none := by
  refine ⟨by unfold Issues; decide, fun n => ?_, by unfold GLegal; decide, by decide, by decide, by decide, by decide, by decide⟩
  match n with
  | 0 => exact .inr (by decide)
  | 1 => exact .inr (by decide)
  | n + 2 => exact .inl rfl

/-- A guard other than PG 7 faults a barrier: the launch ends. -/
theorem test_guarded_barrier :
    (ctxOf (demoAfter (.barBlock demoPlace { wordG opdNone opdNone opdNone opdNone with pg := 0 }) demoTwoPcs) 0).fault.valid = true := by decide

theorem test_barrier :
    (laneAt (demoAfter (.barBlock demoPlace (wordG opdNone opdNone opdNone opdNone)) demoTwoPcs) demoIssue0 0).wait = .bar ∧
    (subOf (coreOf (demoAfter (.yield demoPlace (wordJ opdNone opdNone false 0)) demoTwoPcs) 0) 0).active = [] := by decide

-- The scheduler and the slabs

theorem reset_lanes : ∀ c ∈ State.reset.cores, ∀ u ∈ c.2.subs, ∀ g ∈ u.slots, g.2.lanes.length ≤ 32 := by decide

/-- A state with a single entry in its table of cores is sound where the rest is as after reset. -/
theorem sound_of_one (s : State) (n : Nat) (k : Core) (h : s.cores = [(n, k)]) (hm : Memory.wf s.dram) (hd : s.dies.length = 4)
    (ht : s.memStacks.length = 16) (hb : s.bridges.length = 14) (hp : s.xl.ports.length = 6) (he : s.xl.engines.length = 12)
    (h1 : k.subs.length = 4) (h2 : k.slabs.length = 4) (h3 : k.engines.length = 4)
    (hl : ∀ u ∈ k.subs, ∀ g ∈ u.slots, g.2.lanes.length ≤ 32) : Sound s := by
  have hc : ∀ c, coreOf s c = k ∨ coreOf s c = {} := by
    intro c
    unfold coreOf tblGet
    rw [h, tblFind, tblFind]
    split
    · exact .inl rfl
    · exact .inr rfl
  refine ⟨hm, hd, ht, hb, hp, he, ?_, ?_, ?_, ?_⟩
  · intro c; rcases hc c with e | e <;> rw [e]; · exact h1
    · rfl
  · intro c; rcases hc c with e | e <;> rw [e]; · exact h2
    · rfl
  · intro c; rcases hc c with e | e <;> rw [e]; · exact h3
    · rfl
  · intro c hcm u hu g hg
    rw [h] at hcm
    have : c = (n, k) := by simpa using hcm
    subst this
    exact hl u hu g hg

theorem demo_sound : Sound demoState :=
  sound_of_one demoState 0 (demoCore demoLanes) rfl (by decide) rfl rfl rfl rfl rfl rfl rfl rfl (by decide)

def demoGroup (n : Nat) (ls : List Lane) : Grp := { blk := 0, idx := n, lanes := ls }
/-- A sub-core with a full active set, one group in the ready queue, and a thread that has waited 60 opportunities. -/
def demoSub (full : Bool) (ready0 : Bool) : Sub :=
  { slots := [(0, demoGroup 0 [{ demoLane [] with waited := 60, wait := if ready0 then .ready else .load }]), (1, demoGroup 1 [demoLane []]),
              (2, demoGroup 2 [demoLane []]), (3, demoGroup 3 [demoLane []]), (4, demoGroup 4 [demoLane []])]
    active := if full then [0, 1, 2, 3] else [0, 1, 2], ready := [4] }
def demoSched (full ready0 : Bool) : State := demoOn { demoCore [] with subs := [demoSub full ready0, {}, {}, {}] }

theorem test_scheduler :
    (subOf (coreOf (demoAfter (.groupPromotion demoPlace) (demoSched false true)) 0) 0).active = [0, 1, 2, 4] ∧
    (subOf (coreOf (demoAfter (.rotation demoPlace) (demoSched true true)) 0) 0).active = [1, 2, 3, 4] ∧
    (subOf (coreOf (demoAfter (.rotation demoPlace) (demoSched true true)) 0) 0).ready = [0] ∧
    (subOf (coreOf (demoAfter (.rotation demoPlace) (demoSched true false)) 0) 0).ready = [] ∧
    (laneOf (grpOf (subOf (coreOf (demoAfter (.starvingSubset demoPlace) (demoSched true true)) 0) 0) 0) 0).starving = true ∧
    (laneOf (grpOf (subOf (coreOf (demoAfter (.starvingSubset demoPlace) (demoSched true false)) 0) 0) 0) 0).starving = false := by decide

theorem witness_SchedulerEvents :
    Sound (demoSched true true) ∧ Sound (demoSched true false) ∧ Sound (demoSched false true) ∧
    (subOf (coreOf (demoSched false true) 0) 0).ready = 4 :: [] ∧ (subOf (coreOf (demoSched false true) 0) 0).active.length < 4 ∧
    (subOf (coreOf (demoSched true true) 0) 0).active = 0 :: [1, 2, 3] ∧
    (∃ l ∈ (grpOf (subOf (coreOf (demoSched true true) 0) 0) 0).lanes, l.exited = false ∧ l.wait = .ready) ∧
    (∀ l ∈ (grpOf (subOf (coreOf (demoSched true false) 0) 0) 0).lanes, ¬ (l.exited = false ∧ l.wait = .ready)) ∧
    60 ≤ (laneOf (grpOf (subOf (coreOf (demoSched true true) 0) 0) 0) 0).waited := by
  refine ⟨sound_of_one _ 0 _ rfl (by decide) rfl rfl rfl rfl rfl rfl rfl rfl (by decide), sound_of_one _ 0 _ rfl (by decide) rfl rfl rfl rfl rfl rfl rfl rfl (by decide),
    sound_of_one _ 0 _ rfl (by decide) rfl rfl rfl rfl rfl rfl rfl rfl (by decide), ?_⟩
  decide

def wordS (ua ub : Fin 64) (fmt : BitVec 4) : FmtS :=
  { s := 1, ac := 0, ua, ub, usa := 0, usb := 0, umeta := 0, fa := fmt, fb := fmt, kd := 0, z := true, crv := false, cre := 0, crq := 0, rsv := false }
def wordZero : FmtS := { wordS 0 0 0 with ac := 1, z := false }
def wordT : FmtT := { s := 1, ac := 0, ud := 0, uscale := 0, scl := false, ofmt := 0, itype := false, rows := 1, sat := false, sr := false
                      clr := true, rel := true, rsv := 0 }

/-- Arrival of a part of the group, of the last part, and of a part that meets a thread at another SLAB instruction. -/
def demoGather (second : Lane) : State := demoOn (demoCore [demoLane [], second])

theorem witness_SlabArrivalAndFaults :
    Issues demoTwoPcs demoPlace demoIssue0 ∧
    (∀ n, (laneAt demoTwoPcs demoIssue0 n).exited = true ∨ n ∈ demoIssue0.lanes ∨
      ((laneAt demoTwoPcs demoIssue0 n).wait ≠ .bar ∧ ((laneAt demoTwoPcs demoIssue0 n).wait = .slab → (laneAt demoTwoPcs demoIssue0 n).pc = demoIssue0.pc))) ∧
    (∃ n, (laneAt demoTwoPcs demoIssue0 n).exited = false ∧ n ∉ demoIssue0.lanes ∧ (laneAt demoTwoPcs demoIssue0 n).wait ≠ .slab) ∧
    (∀ l ∈ [{ demoLane [] with wait := .bar }, { demoLane [] with pc := 8, wait := .slab }],
      Issues (demoGather l) demoPlace demoIssue0 ∧ ∃ n, (laneAt (demoGather l) demoIssue0 n).exited = false ∧ n ∉ demoIssue0.lanes ∧
        ((laneAt (demoGather l) demoIssue0 n).wait = .bar ∨
          ((laneAt (demoGather l) demoIssue0 n).wait = .slab ∧ (laneAt (demoGather l) demoIssue0 n).pc ≠ demoIssue0.pc))) ∧
    ((∀ n, (laneAt demoState demoIssue n).exited = true ∨ n ∈ demoIssue.lanes) ∧ (issueGrp demoState demoIssue).held = [] ∧
      [0x60, 0x61, 0x62, 0x63, 0x64].all (fun o => !legalS o { wordS 0 0 0 with rsv := true }) = true ∧ legalT { wordT with rsv := 1 } = false) := by
  refine ⟨by unfold Issues; decide, ?_, ⟨1, by decide⟩, ?_, ?_, by decide, by decide, by decide⟩
  · intro n
    match n with
    | 0 => exact .inr (.inl (by decide))
    | 1 => exact .inr (.inr (by decide))
    | n + 2 => exact .inl rfl
  · intro l hl
    simp only [List.mem_cons, List.not_mem_nil, or_false] at hl
    rcases hl with rfl | rfl
    · exact ⟨by unfold Issues; decide, 1, by decide⟩
    · exact ⟨by unfold Issues; decide, 1, by decide⟩
  · intro n
    match n with
    | 0 => exact .inr (by decide)
    | 1 => exact .inr (by decide)
    | n + 2 => exact .inl rfl

theorem test_slab_divergent :
    (coreOf (demoAfter (.slabMma demoPlace (wordS 0 0 0)) (demoGather { demoLane [] with wait := .bar })) 0).blocks = [] ∧
    (coreOf (demoAfter (.slabMma demoPlace { wordS 0 0 0 with rsv := true }) demoState) 0).faultCount = 1 ∧
    (laneAt (demoAfter (.slabMma demoPlace (wordS 0 0 0)) demoTwoPcs) demoIssue0 0).wait = .slab := by decide

/-- A block with 64 KiB of local store; the extents of the instruction lie inside it. -/
def demoBig : State :=
  demoOn { demoCore demoLanes with blocks := [(0, { info := { codeLen := 64, lsBytes := 65536 }, lin := 0, groups := [(0, 0)] })] }

theorem witness_SlabIssue :
    Issues demoBig demoPlace demoIssue ∧ Sound demoBig ∧
    (∀ n, (laneAt demoBig demoIssue n).exited = true ∨ (n < 32 ∧ (n ∈ demoIssue.lanes ∨
      ((laneAt demoBig demoIssue n).wait = .slab ∧ (laneAt demoBig demoIssue n).pc = demoIssue.pc)))) ∧
    (coreOf demoBig 0).lease = none ∧ (issueGrp demoBig demoIssue).held = [] ∧ (slabOf (coreOf demoBig 0) 1).queue.length < 8 ∧
    legalS 0x60 (wordS 0 0 4) = true ∧ legalS 0x61 (wordS 0 0 4) = true ∧ legalS 0x62 (wordS 0 0 0) = true ∧ legalS 0x63 (wordS 0 0 0) = true ∧
    legalS 0x64 wordZero = true ∧ legalT wordT = true ∧ (wordS 0 0 4).crv = false ∧
    [(0x60, wordS 0 0 4), (0x61, wordS 0 0 4), (0x62, wordS 0 0 0), (0x63, wordS 0 0 0), (0x64, wordZero)].all (fun o =>
      (formExtents (formS o.1 o.2 (issueGrp demoBig demoIssue) false)).all (fun x => decide (x.1 + x.2 ≤ 65536))) = true ∧
    (formExtents (formT wordT (issueGrp demoBig demoIssue))).all (fun x => decide (x.1 + x.2 ≤ 65536)) = true := by
  refine ⟨by unfold Issues; decide, sound_of_one _ 0 _ rfl (by decide) rfl rfl rfl rfl rfl rfl rfl rfl (by decide), ?_, by decide⟩
  intro n
  match n with
  | 0 => exact .inr (by decide)
  | 1 => exact .inr (by decide)
  | n + 2 => exact .inl rfl

theorem test_slab_issue :
    (slabOf (coreOf (demoAfter (.slabMma demoPlace (wordS 0 0 4)) demoBig) 0) 1).queue.map (fun e => (e.pc, e.seq, e.phase)) = [(0, 0, .queued)] ∧
    (coreOf (demoAfter (.slabZero demoPlace wordZero) demoBig) 0).lease = some 0 ∧
    (laneAt (demoAfter (.slabSt demoPlace wordT) demoBig) demoIssue 1).pc = 8 := by decide

def demoProduct : ProductForm :=
  { set := 0, sparse := false, square := none, baseA := 0, baseB := 0, baseSa := 0, baseSb := 0, baseMeta := 0, fa := 4, fb := 4, depth := 32
    zero := true, credit := none, ftz := false }

/-- A dense INT8 product of rows (2, -3) and columns (5, 7): 2 × 5 - 3 × 7 = -11; on an old value of 100 it gives 89. -/
theorem test_int8_cell :
    let a : List Byte := [2] ++ List.replicate 255 0 ++ [0xFD]
    let b : List Byte := [5] ++ List.replicate 31 0 ++ [7]
    cell demoProduct ⟨a, b, [], [], []⟩ 100 0 0 = 0xFFFFFFF5 ∧ cell { demoProduct with zero := false } ⟨a, b, [], [], []⟩ 100 0 0 = 89 := by
  decide

/-- Elements of 6 bits are packed from bit 0 on: bits 11:6 of C0 0F are all ones. -/
theorem test_six_bit_element : bitsAt [0xC0, 0x0F] 6 6 = 0x3F ∧ bitsAt [0x3F, 0] 0 6 = 0x3F ∧ bitsAt [0x3F, 0] 6 6 = 0 := by decide

def demoEntry (form : SlabForm) (phase : SlabPhase) : SlabEntry :=
  { blk := 0, sub := 0, grp := 0, launch := 0, lane := 0, pc := 0, form, phase }
def demoSlab (sl : Slab) (lease : Option SlotId := some 0) (held : List HeldOp := []) : State :=
  demoOn { demoCore demoLanes held with lease, leaseQueue := if lease = none then [0] else [], slabs := [sl, {}, {}, {}] }

def demoHeldSlab : HeldOp := { lanes := 3, guarded := 3, pc := 0, op := .slab 0 (.zero 1) }

theorem demo_slab_sound (sl : Slab) (lease : Option SlotId) (held : List HeldOp) : Sound (demoSlab sl lease held) :=
  sound_of_one _ 0 _ rfl rfl rfl rfl rfl rfl rfl rfl rfl rfl (by
    intro u hu g hg
    simp only [demoCore, List.mem_cons, List.not_mem_nil, or_false] at hu
    rcases hu with rfl | rfl | rfl | rfl
    · simp only [List.mem_cons, List.not_mem_nil, or_false] at hg
      subst hg; exact (by decide : demoLanes.length ≤ 32)
    · simp at hg
    · simp at hg
    · simp at hg)

theorem witness_SlabArithmetic :
    ((coreOf (demoSlab {} none []) 0).lease = none ∧ (coreOf (demoSlab {} none []) 0).leaseQueue = 0 :: []) ∧
    (let k := coreOf (demoSlab {} (some 0) [demoHeldSlab]) 0;
      heldOps k = [(0, 0, demoHeldSlab)] ∧ (grpOf (subOf k 0) 0).held = [demoHeldSlab] ∧ demoHeldSlab.op = .slab 0 (.zero 1) ∧
      k.lease = some (grpOf (subOf k 0) 0).blk ∧ (slabOf k 0).queue.length < 8) ∧
    ([SlabForm.product demoProduct, .zero 1].all (fun form =>
      let e := demoEntry form .queued
      let k := coreOf (demoSlab { queue := [e] }) 0;
      (slabOf k 0).queue.find? (fun x => !(isStore x.form) && entryQueued x) == some e && (slabOf k 0).queue.all (fun x => !entryWorking x) &&
      k.slabs.all (fun v => v.queue.all (fun y => !isStore y.form || decide (e.seq ≤ y.seq)))) = true) ∧
    ([SlabForm.product demoProduct, .product { demoProduct with square := some (16, 7), fa := 0, fb := 0 }, .zero 1].all (fun form =>
      (slabOf (coreOf (demoSlab { queue := [demoEntry form (.running 0 ⟨[], [], [], [], []⟩)] }) 0) 0).queue ==
        [demoEntry form (.running 0 ⟨[], [], [], [], []⟩)]) = true) := by decide

theorem test_slab_events :
    (coreOf (demoAfter (.slabLeaseGrant 0) (demoSlab {} none [])) 0).lease = some 0 ∧
    (slabOf (coreOf (demoAfter (.slabQueueEnter 0 0) (demoSlab {} (some 0) [demoHeldSlab])) 0) 0).queue.map (fun e => e.form) = [.zero 1] ∧
    (slabOf (coreOf (demoAfter (.slabComputeStart 0 0 noErr) (demoSlab { queue := [demoEntry (.zero 1) .queued] })) 0) 0).queue.map (fun e => e.phase) =
      [.running 0 ⟨[], [], [], [], []⟩] := by decide

def demoStore : StoreForm := { set := 0, dst := 0, scale := none, ofmt := 5, itype := true, rows := 8, sat := false, sr := false, clr := true, rel := true }

theorem witness_SlabStoresAndRamp :
    (let e := demoEntry (.store demoStore) .queued
      let k := coreOf (demoSlab { queue := [e] }) 0;
      (slabOf k 0).queue = e :: [] ∧ demoStore.rows ≤ 8 ∧ demoStore.ofmt ≤ 5) ∧
    (let e := demoEntry (.store { demoStore with rows := 0, ofmt := 0 }) (.storing [1, 2])
      let k := coreOf (demoSlab { queue := [e] }) 0;
      (slabOf k 0).queue = e :: [] ∧ heldOps k = [] ∧ k.lease = some e.blk) ∧
    (∀ b j l, (laneOf (grpOf (subOf (coreOf (demoSlab {}) 0) b) j) l).exited = true ∨ (laneOf (grpOf (subOf (coreOf (demoSlab {}) 0) b) j) l).wait ≠ .bar) ∧
    (let e := demoEntry (.product demoProduct) (.running 5 ⟨[], [], [], [], []⟩);
      entryWorking e = true ∧ (0 : Nat) + min (5 * 7) (2 * 20) < 40 ∧ 40 ≤ (39 : Nat) + min (5 * 8) (2 * 20)) := by
  refine ⟨by decide, by decide, ?_, by decide⟩
  intro b j l
  refine .inr ?_
  match b, j, l with
  | 0, 0, 0 => decide
  | 0, 0, 1 => decide
  | 0, 0, l + 2 => exact (by decide : (({} : Lane).wait ≠ .bar))
  | 0, j + 1, l => exact (by decide : (({} : Lane).wait ≠ .bar))
  | 1, j, l => exact (by decide : (({} : Lane).wait ≠ .bar))
  | 2, j, l => exact (by decide : (({} : Lane).wait ≠ .bar))
  | 3, j, l => exact (by decide : (({} : Lane).wait ≠ .bar))
  | b + 4, j, l => exact (by decide : (({} : Lane).wait ≠ .bar))

theorem test_slab_store :
    let e := demoEntry (.store { demoStore with dst := 4 }) (.storing [1, 2]);
    let t := demoAfter (.slabStComplete 0 0) (demoSlab { queue := [e] })
    lsRead (blockOf (coreOf t 0) 0) 3 4 = [0, 1, 2, 0x83] ∧ (coreOf t 0).lease = none ∧ (slabOf (coreOf t 0) 0).queue = [] := by decide

/-- At level 7 of 8 a full D-unit is done when 40 fortieths are, under the cap of 17/20; after 16 idle cycles the level falls. -/
theorem test_ramp :
    let e := demoEntry (.product demoProduct) (.running 5 ⟨[], [], [], [], []⟩);
    let busy : Slab := { queue := [e], level := 7, wasWorking := true, progress := 10, j := 2 }
    (slabOf (coreOf (demoAfter (.activityRamp 0 0) (demoSlab busy)) 0) 0).progress = 4 ∧
    (slabOf (coreOf (demoAfter (.activityRamp 0 0) (demoSlab busy)) 0) 0).queue.map (fun e => e.phase) = [.running 4 ⟨[], [], [], [], []⟩] ∧
    (slabOf (coreOf (demoAfter (.activityRamp 0 0) (demoSlab { level := 7, idle := 15 })) 0) 0).level = 6 := by decide

-- Tokens, cone counters, near-memory issue

/-- The core of `demoState` with u1 = 1 and u2 = 2, a stream of engine 0, and descriptors at 128 (a LOAD walk of one slot of 16 B) and 256 (CLEAN). -/
def demoStreaming (x : Stream) : State :=
  demoOn { demoCore demoLanes [] [(1, 1), (2, 2)] with
    blocks := [(0, { info := { codeLen := 64, lsBytes := 1024 }, lin := 0, groups := [(0, 0)], ls := [(134, 0x40), (256, 5)] })]
    engines := [{ streams := [(0, x)] }, {}, {}, {}] }

def demoWalk : Walk := { slots := 2, ndim := 2, counts := [3], strides := [16] }
def demoStream (taken posted grp : Nat) : Stream := { st := .running, walk := demoWalk, taken, posted, groupCount := grp }
def wordWait : FmtG := wordG 0x103 opdNone opdNone (opdP 1)
def wordPost (kind : Nat) : FmtG := wordG opdNone (if kind = 1 then 0x101 else opdNone) opdNone opdNone (BitVec.ofNat 16 (16 * kind))

theorem demoStreaming_sound (x : Stream) : Sound (demoStreaming x) :=
  sound_of_one _ 0 _ rfl rfl rfl rfl rfl rfl rfl rfl rfl rfl (by
    intro u hu g hg
    simp only [demoCore, List.mem_cons, List.not_mem_nil, or_false] at hu
    rcases hu with rfl | rfl | rfl | rfl
    · simp only [List.mem_cons, List.not_mem_nil, or_false] at hg
      subst hg; exact (by decide : demoLanes.length ≤ 32)
    · simp at hg
    · simp at hg
    · simp at hg)

theorem witness_TokensAndWalks :
    (∀ x ∈ [demoStream 1 0 1, demoStream 3 0 0, demoStream 1 0 0, demoStream 1 1 0, {}],
      Issues (demoStreaming x) demoPlace demoIssue ∧ guardedLanes (demoStreaming x) demoIssue 7 false = [0, 1] ∧
      slabStoreHolds (demoStreaming x) 0 0 0 = false ∧ (issueGrp (demoStreaming x) demoIssue).held = [] ∧
      GLegal tokWaitForm wordWait false true (demoStreaming x) demoIssue) ∧
    (∀ m ∈ demoIssue.lanes, m < 32) ∧ opdOf wordWait.d = .u 3 ∧ opdOf wordWait.c = .p 1 ∧ walkSlots demoWalk = 3 ∧ streamHeld (demoStream 1 0 1) = true ∧
    GLegal { d := .unused, mods := 0x3F, long := false } (wordPost 0) false true (demoStreaming {}) demoIssue ∧
    GLegal { d := .unused, mods := 0x3F, long := false } (wordPost 2) false true (demoStreaming {}) demoIssue ∧
    GLegal { d := .unused, a := .uniform 1, mods := 0x3F, long := false } (wordPost 1) false true (demoStreaming {}) demoIssue ∧
    opdOf (wordPost 1).a = .u 1 ∧
    (let ws := wordsOf 8 (lsRead (issueBlock (demoStreaming {}) demoIssue) 128 64);
      walkFieldsOk ws = true ∧ walkFits (walkOf ws) 1024 = true) := by
  unfold GLegal Issues; decide

theorem test_tokens :
    uReg (issueGrp (demoAfter (.tokWait demoPlace wordWait) (demoStreaming (demoStream 1 0 1))) demoIssue) 3 = 0 ∧
    (streamAt (demoAfter (.tokWait demoPlace wordWait) (demoStreaming (demoStream 1 0 1))) 0 0 0).taken = 2 ∧
    pReg (laneAt (demoAfter (.tokWait demoPlace wordWait) (demoStreaming (demoStream 3 0 0))) demoIssue 0) 1 = false ∧
    (laneAt (demoAfter (.tokWait demoPlace wordWait) (demoStreaming (demoStream 1 0 0))) demoIssue 0).wait = .tok ∧
    (streamAt (demoAfter (.tokPost demoPlace (wordPost 0)) (demoStreaming (demoStream 1 0 0))) 0 0 0).engineCount = 1 ∧
    (engineOf (coreOf (demoAfter (.tokPost demoPlace (wordPost 0)) (demoStreaming (demoStream 1 1 0))) 0) 0).excess = 1 ∧
    (streamAt (demoAfter (.tokPostStop demoPlace (wordPost 2)) (demoStreaming (demoStream 1 1 0))) 0 0 0).stopping = true := by decide

theorem test_arm :
    let x := streamAt (demoAfter (.tokPostArm demoPlace (wordPost 1) noErr) (demoStreaming {})) 0 0 0
    x.st = .running ∧ x.walk.run = 16 ∧ x.walk.slots = 1 ∧ x.engineCount = 1 ∧ x.gen = 1 := by decide

def wordCone : FmtG := wordG opdNone 0x100 0x104 opdNone
def wordNm : FmtG := wordG opdNone 0x102 0x100 opdNone
def demoCone (v : BitVec 48) : State :=
  { demoStreaming {} with xl := { State.reset.xl with cones := [(0, { assigned := true, value := v })] } }

theorem witness_ConeAndNearMemory :
    (∀ n ∈ [0, 0x7FFFFFFFFFFF, 0xFFFFFFFFFFFF],
      let s := demoCone (BitVec.ofNat 48 n)
      Issues s demoPlace demoIssue ∧ GLegal coneForm wordCone false true s demoIssue ∧ (coneOf s 0).assigned = true ∧
      (coneOf s 0).partition = (issueInfo s demoIssue).sag ∧ (issueGrp s demoIssue).held = []) ∧
    uValue (issueGrp (demoCone 0) demoIssue) wordCone.a 1 = 0 ∧ uValue (issueGrp (demoCone 0) demoIssue) wordCone.b 2 = 0 ∧
    ((0x7FFFFFFFFFFF : BitVec 48) - 0).toNat < 2 ^ 47 ∧ 2 ^ 47 ≤ ((0xFFFFFFFFFFFF : BitVec 48) - 0).toNat ∧
    GLegal nmForm wordNm false true (demoCone 0) demoIssue ∧ uValue (issueGrp (demoCone 0) demoIssue) wordNm.a 1 = 2 ∧
    (let ws := wordsOf 8 (lsRead (issueBlock (demoCone 0) demoIssue) 256 64); nmCheck (demoCone 0) 0 ws true 1024 = 0) ∧ nmHeld (demoCone 0) 0 < 16 := by
  unfold GLegal Issues; decide

def demoOp (id : Nat) : NmOp := { id, sag := 0, ctx := 0, issuer := .block 0 0 {} 0 0 0 0, words := [5], shares := [] }

theorem witness_ConeAndNearMemory_full : 16 ≤ nmHeld { demoCone 0 with nmOps := (List.range 16).map demoOp } 0 := by decide

theorem test_cone :
    (laneAt (demoAfter (.coneWait demoPlace wordCone) (demoCone 5)) demoIssue 0).ordPt = 1 ∧
    (laneAt (demoAfter (.coneWait demoPlace wordCone) (demoCone 0xFFFFFFFFFFFF)) demoIssue 1).wait = .cone ∧
    (demoAfter (.nmIssue demoPlace wordNm) (demoCone 0)).nmOps.map (fun o => (o.id, o.shares.map (fun x => x.stack))) = [(1, [0, 1])] := by decide

-- The L1, the access engines, the store buffers, the fences and the atomics

/-- Line 2 of channel 0 (partition-relative byte 256): byte j holds j. -/
def demoLine : NearLine := { line := 2, st := .hc, age := 0, data := (List.range 128).map (BitVec.ofNat 8) }

/-- `demoOn` with line 2 as a home copy in way 3 of its set. -/
def demoHome (k : Core) : State := { demoOn k with dies := [{ near := [(nearKey 2 3, demoLine)] }, {}, {}, {}] }

theorem demo_stands_at (s : State) (x : NearLine) (hl : x.line = 2) (hv : x.st ≠ .bad) (hd : s.dies = [{ near := [(nearKey 2 3, x)] }, {}, {}, {}]) (hh : s.homes = []) (hf : s.fabric = [])
    (ho : s.hostFilter = []) (hx : s.filter = []) (hr : s.ras.domain = .running) : StandsHome s 0 2 x := by
  have near : ∀ w y, w < 15 → tblFind (dieOf s 0).near (nearKey 2 w) = some y → w = 3 := by
    have e : (dieOf s 0).near = [(nearKey 2 3, x)] := by unfold dieOf; rw [hd]; rfl
    have hk : ∀ w : Fin 15, w.val ≠ 3 → (nearKey 2 3 == nearKey 2 w.val) = false := by decide
    have h : ∀ w : Fin 15, w.val ≠ 3 → tblFind [(nearKey 2 3, x)] (nearKey 2 w.val) = none := fun w hw => by simp [tblFind, hk w hw]
    intro w y hw hy
    rw [e] at hy
    by_cases h3 : w = 3
    · exact h3
    · rw [h ⟨w, hw⟩ h3] at hy; cases hy
  have hc : homeCopy s 2 = some x := by
    have e : dieOf s (lineDie 2) = { near := [(nearKey 2 3, x)] } := by unfold dieOf; rw [hd]; rfl
    have hw : nearWay { near := [(nearKey 2 3, x)] } 2 = some 3 := by
      have h0 : nearKey 2 3 ≠ nearKey 2 0 := by decide
      have h1 : nearKey 2 3 ≠ nearKey 2 1 := by decide
      have h2 : nearKey 2 3 ≠ nearKey 2 2 := by decide
      simp [nearWay, List.range, List.range.loop, List.find?, tblFind, h0, h1, h2, hl]
    unfold homeCopy; rw [e, hw]; simp [tblFind]
  refine ⟨by decide, hc, ?_, hv, ?_, ?_, ?_, ?_, ?_, ?_, ?_⟩
  · intro w w' y y' hw hw' hy hy' _ _
    rw [near w y hw hy, near w' y' hw' hy']
  · have e : (dieOf s 0).far = [] := by unfold dieOf; rw [hd]; rfl
    rw [e]; rfl
  · unfold homeOf tblGet; rw [hh]; rfl
  · rw [hf]; intro m hm; cases hm
  · unfold hostEntry; rw [ho]; rfl
  · intro e; unfold filtOf; rw [hx]; rfl
  · have e : (dieOf s 0).rsvArray = [] := by unfold dieOf; rw [hd]; rfl
    rw [e]; intro x hx'; cases hx'
  · unfold running; rw [hr]; rfl

theorem demo_stands (s : State) (hd : s.dies = [{ near := [(nearKey 2 3, demoLine)] }, {}, {}, {}]) (hh : s.homes = []) (hf : s.fabric = [])
    (ho : s.hostFilter = []) (hx : s.filter = []) (hr : s.ras.domain = .running) : StandsHome s 0 2 demoLine :=
  demo_stands_at s demoLine rfl (by decide) hd hh hf ho hx hr

theorem demoHome_stands (k : Core) : StandsHome (demoHome k) 0 2 demoLine := demo_stands _ rfl rfl rfl rfl rfl rfl

/-- Bytes of local store, a stream with its spans, a waiting store and the like are all put on the core of `demoState`. -/
def demoMissing (hint : Nat) : Core := { demoCore demoLanes with misses := [{ sub := 0, line := 2, hint }] }

theorem witness_L1Fill :
    (∀ h ∈ [0, 1, 2], (coreOf (demoHome (demoMissing h)) 0).misses[0]? = some { sub := 0, line := 2, hint := h }) ∧
    (coreOf (demoHome (demoMissing 0)) 0).partition = some 0 ∧ mapLine (demoHome (demoMissing 0)) 0 (2 * 128) = some 2 ∧
    StandsHome (demoHome (demoMissing 0)) (0 / 64) 2 demoLine ∧ heldOps (coreOf (demoHome (demoMissing 0)) 0) = [] ∧ cleanEnv noErr :=
  ⟨by decide, by decide, by decide, demoHome_stands _, by decide, rfl⟩

theorem test_l1_fill :
    let t := demoAfter (.l1Fill 0 0 noErr) (demoHome (demoMissing 0))
    (l1Line (coreOf t 0) 2).map (fun x => (x.data.getD 5 0, x.stamp)) = some (5, 1) ∧ (coreOf t 0).misses = [] := by decide

def demoLoad : Walk := { base := 256, run := 32, slots := 1, slotBase := 128 }
def demoRunning (x : Stream) (spans : List Span) : Core :=
  { demoCore demoLanes with engines := [{ streams := [(0, { x with walk := demoLoad, st := .running })], spans }, {}, {}, {}] }
def demoSpan (at_ len : Nat) : Span := { ctx := 0, slot := 0, gaddr := 256 + at_, vaddr := 256 + at_, laddr := 128 + at_, len, id := 0 }

theorem witness_Streams :
    (let k := demoRunning { engineCount := 1 } [];
      (engineOf k 0).spans.length < 96 ∧ spanCount k < 384 ∧ k.misses.length + spanCount k < 512 ∧ pickStream (engineOf k 0) = some 0 ∧
      (streamOf (engineOf k 0) 0).started = 0 ∧ lowBits 64 (walkGlobal demoLoad 0 0) = 256 ∧ 256 < apertureBase ∧
      accessFault (demoHome k) (blockOf k 0).info 256 32 false = none) ∧
    (let k := demoRunning { started := 1, issued := 16 } [demoSpan 0 16];
      pickStream (engineOf k 0) = some 0 ∧ 0 < (streamOf (engineOf k 0) 0).started ∧ (streamOf (engineOf k 0) 0).issued < slotBytes demoLoad) ∧
    (let k := demoRunning { started := 1, issued := 32, moved := [(0, 16)] } [demoSpan 16 16];
      (engineOf k 0).spans[0]? = some (demoSpan 16 16) ∧ demoLoad.store = false ∧ 272 < hostBase ∧ 272 % 128 + 16 ≤ 128 ∧ demoLine.data.length = 128 ∧
      mapLine (demoHome k) 0 256 = some 2 ∧ tblGet 0 (tblSet 0 [(0, 16)] 0 32) 0 = slotBytes demoLoad ∧ tblGet 0 (tblSet 0 [(0, 16)] 0 32) 1 ≠ slotBytes demoLoad) ∧
    (let k := demoRunning { started := 1, issued := 32 } [demoSpan 0 16, demoSpan 16 16];
      (engineOf k 0).spans[1]? = some (demoSpan 16 16) ∧ tblGet 0 (tblSet 0 [] 0 16) 0 ≠ slotBytes demoLoad) ∧
    (let k := demoRunning { stopping := true } [];
      (streamOf (engineOf k 0) 0).stopping = true ∧ (engineOf k 0).spans = [] ∧ (streamOf (engineOf k 0) 0).waiters = []) ∧
    Sound (demoHome (demoRunning {} [])) :=
  ⟨by decide, by decide, by decide, by decide, by decide, sound_of_one _ 0 _ rfl (by decide) rfl rfl rfl rfl rfl rfl rfl rfl (by decide)⟩

theorem test_spans :
    (engineOf (coreOf (demoAfter (.aeSpanIssue 0 0 noErr) (demoHome (demoRunning { engineCount := 1 } []))) 0) 0).spans = [demoSpan 0 32] ∧
    (let t := demoAfter (.aeSpanComplete 0 0 0 noErr) (demoHome (demoRunning { started := 1, issued := 32, moved := [(0, 16)] } [demoSpan 16 16]));
      lsRead (blockOf (coreOf t 0) 0) 144 2 = [16, 17] ∧ (streamAt t 0 0 0).st = .done ∧ (streamAt t 0 0 0).groupCount = 1) ∧
    (streamAt (demoAfter (.streamStopComplete 0 0 0) (demoHome (demoRunning { stopping := true, gen := 4 } []))) 0 0 0) = { gen := 4 } := by decide

def demoPiece : LaneReq := { lane := 0, addr := 256, val := [0xAA] }
def demoStoring1 : HeldOp := { lanes := 1, guarded := 1, pc := 0, op := .storeG 0 [demoPiece] }
def demoStoreWaits : Core := demoCore [{ demoLane [] with wait := .buffer }] [demoStoring1]
def demoBuffered : SbEntry := { sag := 0, line := 2, hint := 0, bytes := [(3, { v := 0xAA, launch := 0, grp := 0, lane := 0 })] }
def demoDraining : Core :=
  { demoCore demoLanes with subs := [{ slots := [(0, demoGroup 0 demoLanes)], active := [0], buffer := [demoBuffered] }, {}, {}, {}] }

theorem witness_StoresAndFencesComplete :
    (heldOps demoStoreWaits = [(0, 0, demoStoring1)] ∧ (grpOf (subOf demoStoreWaits 0) 0).held = [demoStoring1]) ∧
    ((subOf demoDraining 0).buffer = demoBuffered :: [] ∧ 2 * 128 < hostBase ∧ mapLine (demoHome demoDraining) 0 (2 * 128) = some 2 ∧ heldOps demoDraining = []) ∧
    StandsHome (demoHome demoDraining) (0 / 64) 2 demoLine ∧
    Sound (demoHome demoStoreWaits) ∧ Sound (demoHome demoDraining) :=
  ⟨by decide, by decide, demoHome_stands _, sound_of_one _ 0 _ rfl (by decide) rfl rfl rfl rfl rfl rfl rfl rfl (by decide),
    sound_of_one _ 0 _ rfl (by decide) rfl rfl rfl rfl rfl rfl rfl rfl (by decide)⟩

theorem test_store_buffers :
    (subOf (coreOf (demoAfter (.storeBufferAllocate demoPlace) (demoHome demoStoreWaits)) 0) 0).buffer.map (fun e => e.line) = [2] ∧
    (homeCopy (demoAfter (.storeBufferDrain demoPlace noErr) (demoHome demoDraining)) 2).map (fun x => (x.st, x.data.getD 2 0, x.data.getD 3 0)) =
      some (.hd, 2, 0xAA) := by decide

def demoFence (w : Wait) : Core := demoCore [{ demoLane [] with wait := w }] [{ lanes := 1, guarded := 1, pc := 0, op := .fence [(0, 0, 0, 1)] }]

theorem witness_FenceComplete :
    ∀ w ∈ [Wait.fenceBlock, .fenceDevice, .fenceSys],
      let k := demoFence w
      (grpOf (subOf k 0) 0).held = [{ lanes := 1, guarded := 1, pc := 0, op := .fence [(0, 0, 0, 1)] }] ∧ (1 : BitVec 32).getLsbD 0 = true ∧
      0 < (grpOf (subOf k 0) 0).lanes.length ∧ (laneOf (grpOf (subOf k 0) 0) 0).wait = w ∧ (subOf k 0).buffer = [] ∧
      slotVisible k 0 (0, 0, 0, 1) = true ∧ (demoHome k).dl.tags = [] ∧ (1 : BitVec 32) = BitVec.ofNat 32 (2 ^ 0) := by decide

theorem test_fence :
    (laneOf (grpOf (subOf (coreOf (demoAfter (.fenceComplete demoPlace 0 0) (demoHome (demoFence .fenceSys))) 0) 0) 0) 0).ordPt = 1 ∧
    (laneOf (grpOf (subOf (coreOf (demoAfter (.fenceComplete demoPlace 0 0) (demoHome (demoFence .fenceBlock))) 0) 0) 0) 0).ordPt = 0 ∧
    (laneOf (grpOf (subOf (coreOf (demoAfter (.fenceComplete demoPlace 0 0) (demoHome (demoFence .fenceBlock))) 0) 0) 0) 0).pc = 8 := by decide

/-- A thread blocked at an operation on byte 256, whose word is 0x03020100. -/
def demoAtomic (op : Held) (rsv : Option Rsv) : Core :=
  demoCore [{ demoLane [] with wait := .atomic, rsv }] [{ lanes := 1, guarded := 1, pc := 0, op }]
def demoReq : AtomReq := { lane := 0, addr := 256, opnd := 0xFF, cmp := 0x03020100 }
def demoRsv : Option Rsv := some { line := 2, far := false }
def demoPerform (op : Held) (rsv : Option Rsv) : State := demoAfter (.atomicPerform demoPlace 0 0 [] noErr) (demoHome (demoAtomic op rsv))

theorem witness_Atomics :
    (∀ x ∈ [(Held.atom .cas false 3 [demoReq], none), (.ldx false 3 [demoReq], none), (.stx false 2 [demoReq], demoRsv), (.stx false 2 [demoReq], none)],
      let k := demoAtomic x.1 x.2
      (grpOf (subOf k 0) 0).held = [{ lanes := 1, guarded := 1, pc := 0, op := x.1 }] ∧ (laneOf (grpOf (subOf k 0) 0) 0).rsv = x.2 ∧ (subOf k 0).buffer = []) ∧
    mapLine (demoHome (demoAtomic (.ldx false 3 [demoReq]) none)) 0 256 = some 2 ∧ 256 % 128 + 8 ≤ 128 ∧ opdOf 3 = .v 3 ∧
    (demoHome (demoAtomic (.ldx false 3 [demoReq]) none)).ras.serviceOrdering = false ∧
    Sound (demoHome (demoAtomic (.ldx false 3 [demoReq]) none)) :=
  ⟨by decide, by decide, by decide, by decide, by decide, sound_of_one _ 0 _ rfl (by decide) rfl rfl rfl rfl rfl rfl rfl rfl (by decide)⟩

def wordAt (s : State) : Nat := leNat (((homeCopy s 2).getD demoLine).data.take 4)

theorem test_atomics :
    wordAt (demoPerform (.atom .add false 3 [demoReq]) none) = 0x030201FF ∧ wordAt (demoPerform (.atom .cas false 3 [demoReq]) none) = 0xFF ∧
    vReg (laneAt (demoPerform (.atom .cas false 3 [demoReq]) none) demoIssue 0) 3 = 0x03020100 ∧
    vReg (laneAt (demoPerform (.ldx false 3 [demoReq]) none) demoIssue 0) 3 = 0x03020100 ∧
    (laneAt (demoPerform (.ldx false 3 [demoReq]) none) demoIssue 0).rsv = demoRsv ∧
    wordAt (demoPerform (.stx false 2 [demoReq]) demoRsv) = 0xFF ∧ pReg (laneAt (demoPerform (.stx false 2 [demoReq]) demoRsv) demoIssue 0) 2 = true ∧
    wordAt (demoPerform (.stx false 2 [demoReq]) none) = 0x03020100 ∧ pReg (laneAt (demoPerform (.stx false 2 [demoReq]) none) demoIssue 0) 2 = false := by
  decide

/-- The example of spec/08: 32 adds of 1 to a word of 100 make 132; here one of them, and the signed and unsigned minima of -1 and 2. -/
theorem test_atomic_values :
    atomNew .add false 100 1 0 = 101 ∧ atomNew .smin false 0xFFFFFFFF 2 0 = 0xFFFFFFFF ∧ atomNew .umin false 0xFFFFFFFF 2 0 = 2 ∧
    atomNew .fadd false 0x3F800000 0x40000000 0 = 0x40400000 ∧ atomNew .smax true (2 ^ 64 - 1) 2 0 = 2 := by decide

/-- A STORE slot whose bytes have all been read from local store gives its credit back before its writes end (R122). -/
theorem test_store_credit :
    let x := creditSlot { started := 1, issued := 32, walk := { demoLoad with store := true }, drained := [(0, 16)] } 0 16
    x.groupCount = 1 ∧ x.drained = [] ∧ x.ended = 0 := by decide

-- Dispatch and the rings

def demoDispatched : Launch :=
  { info := { id := 3, bx := 40, regs := 16, lsBytes := 1024, codeLen := 64, entryPc := 16, args := [7, 8], split := 1 }, node := ⟨5, 0, none⟩, blocks := 1 }

/-- A launch of one block of 40 threads, with ACTIVE cores 0 and 16, whose splits are `a` and `b`. -/
def demoQueue (a b : Nat) : State :=
  { demoState with
    sags := [(0, { st := .open, clusters := 15 })]
    cores := [(0, { partition := some 0, split := a }), (16, { partition := some 0, split := b })]
    fe := { demoState.fe with launches := [demoDispatched], bulkQueue := [3] } }
def demoHanded : State :=
  { demoQueue 1 1 with fe := { (demoQueue 1 1).fe with bulkQueue := [], handed := [{ launch := 3, lin := 0, cluster := 1 }] } }

theorem sound_two (s : State) (k l : Core) (n m : Nat) (h : s.cores = [(n, k), (m, l)]) (hm : Memory.wf s.dram) (hd : s.dies.length = 4)
    (ht : s.memStacks.length = 16) (hb : s.bridges.length = 14) (hp : s.xl.ports.length = 6) (he : s.xl.engines.length = 12)
    (hk : k.subs = List.replicate 4 {}) (hl : l.subs = List.replicate 4 {}) (h2 : k.slabs.length = 4 ∧ l.slabs.length = 4)
    (h3 : k.engines.length = 4 ∧ l.engines.length = 4) : Sound s := by
  have hc : ∀ c, coreOf s c = k ∨ coreOf s c = l ∨ coreOf s c = {} := by
    intro c
    unfold coreOf tblGet
    rw [h, tblFind, tblFind, tblFind]
    split
    · exact .inl rfl
    · split
      · exact .inr (.inl rfl)
      · exact .inr (.inr rfl)
  refine ⟨hm, hd, ht, hb, hp, he, ?_, ?_, ?_, ?_⟩
  · intro c; rcases hc c with e | e | e <;> rw [e]; · rw [hk]; rfl
    · rw [hl]; rfl
    · rfl
  · intro c; rcases hc c with e | e | e <;> rw [e]; · exact h2.1
    · exact h2.2
    · rfl
  · intro c; rcases hc c with e | e | e <;> rw [e]; · exact h3.1
    · exact h3.2
    · rfl
  · intro c hcm u hu g hg
    have e : u = {} := by
      rw [h] at hcm
      have hcm : c = (n, k) ∨ c = (m, l) := by simpa using hcm
      rcases hcm with e | e <;> subst e <;> dsimp only at hu
      · rw [hk] at hu; exact List.eq_of_mem_replicate hu
      · rw [hl] at hu; exact List.eq_of_mem_replicate hu
    subst e; cases hg

theorem witness_Dispatch :
    (newWork (demoQueue 1 1) = true ∧ (demoQueue 1 1).fe.rtQueue = [] ∧ (demoQueue 1 1).fe.bulkQueue = [3] ∧ (demoQueue 1 1).fe.handed = [] ∧
      launchOf (demoQueue 1 1) 3 = some demoDispatched ∧ claimOf (demoQueue 1 1) 0 = none ∧
      ((sagRooms (demoQueue 1 1) 0).filter (coreTakes (demoQueue 1 1) demoDispatched.info none)).length = 2) ∧
    (newWork demoHanded = true ∧ demoHanded.fe.handed = [{ launch := 3, lin := 0, cluster := 1 }] ∧ launchOf demoHanded 3 = some demoDispatched ∧
      demoHanded.fe.bulkQueue = [] ∧ handedPlace demoHanded demoDispatched { launch := 3, lin := 0, cluster := 1 } = some (16, 0)) ∧
    Sound demoHanded :=
  ⟨by decide, by decide, sound_two _ _ _ 0 16 rfl (by decide) rfl rfl rfl rfl rfl rfl rfl ⟨rfl, rfl⟩ ⟨rfl, rfl⟩⟩

theorem test_dispatch :
    (demoAfter .blockDispatch (demoQueue 1 1)).fe.handed = [{ launch := 3, lin := 0, cluster := 0 }] ∧
    (demoAfter .blockDispatch (demoQueue 0 1)).fe.handed = [{ launch := 3, lin := 0, cluster := 1 }] ∧
    (let t := coreOf (demoAfter (.blockAdmission 1) demoHanded) 16;
      (blockOf t 0).groups = [(0, 0), (1, 0)] ∧ (laneOf (grpOf (subOf t 1) 0) 7).exited = false ∧ (laneOf (grpOf (subOf t 1) 0) 8).exited = true ∧
      (laneOf (grpOf (subOf t 0) 0) 31).pc = 16 ∧ uReg (grpOf (subOf t 0) 0) 1 = 8) := by decide

/-- `demoState` with its block's threads through, and the lease with the block. -/
def demoThrough : State := demoOn { demoCore [{}, {}] with lease := some 0, engines := [{ streams := [(1, { st := .running })] }, {}, {}, {}] }

def demoReserving : Ring := { st := .active, rt := true, cores := [2], engine := some 1 }
def demoReserved : State :=
  { State.reset with ras := { State.reset.ras with phase := 8 }, cores := [(2, { partition := some 0 })], fe := { State.reset.fe with rings := [(5, demoReserving)] } }

theorem witness_BlocksLeave :
    ((tblFind (coreOf demoThrough 0).blocks 0).isSome = true ∧
      (∀ p ∈ (blockOf (coreOf demoThrough 0) 0).groups, ∀ l ∈ (grpOf (subOf (coreOf demoThrough 0) p.1.val) p.2.val).lanes, l.exited = true) ∧
      (∀ u ∈ (coreOf demoThrough 0).subs, u.buffer = []) ∧ demoThrough.dl.waiting = [] ∧ demoThrough.dl.tags = []) ∧
    (∀ e q, q < 4 → (streamOf (engineOf (coreOf demoThrough 0) e) (4 * 0 + q)).stopping = false ∧
      ((streamOf (engineOf (coreOf demoThrough 0) e) (4 * 0 + q)).walk.store = true →
        (streamOf (engineOf (coreOf demoThrough 0) e) (4 * 0 + q)).posted ≤ (streamOf (engineOf (coreOf demoThrough 0) e) (4 * 0 + q)).ended)) ∧
    ((coreOf (demoQueue 0 0) 0).partition = some 0 ∧ claimOf (demoQueue 0 0) 0 = some (0, 3)) ∧
    (ringOfCore demoReserved 2 = some 5 ∧ (∀ b ∈ (coreOf demoReserved 2).blocks, b.2.info.rt = true) ∧ demoReserved.fe.rtQueue = [] ∧
      demoReserved.fe.bulkQueue = [] ∧ ringOfEngine demoReserved 1 = some 5 ∧ ∀ j ∈ demoReserved.fe.copies, j.engine = 1 → (ringOf demoReserved j.node.ring).rt = true) := by
  refine ⟨by decide, ?_, by decide, by decide⟩
  intro e q hq
  have h : ∀ q : Fin 4, ∀ e : Fin 5, (streamOf (engineOf (coreOf demoThrough 0) e.val) (4 * 0 + q.val)).stopping = false ∧
      (streamOf (engineOf (coreOf demoThrough 0) e.val) (4 * 0 + q.val)).walk.store = false := by decide
  have he : engineOf (coreOf demoThrough 0) e = engineOf (coreOf demoThrough 0) (min e 4) := by
    match e with
    | 0 | 1 | 2 | 3 | 4 => rfl
    | n + 5 => have : min (n + 5) 4 = 4 := by omega
               rw [this]; rfl
  have hm := h ⟨q, hq⟩ ⟨min e 4, by omega⟩
  rw [he]
  exact ⟨hm.1, fun w => by rw [hm.2] at w; cases w⟩

theorem test_blocks_leave :
    (let t := coreOf (demoAfter (.blockRetire 0 0) demoThrough) 0;
      t.blocks = [] ∧ t.lease = none ∧ (subOf t 0).slots = [] ∧ (streamOf (engineOf t 0) 1).st = .idle) ∧
    (coreOf (demoAfter (.coreSplitChange 0 1) (demoQueue 0 0)) 0).split = 1 ∧
    (ringOf (demoAfter (.rtReservationEffect (.core 2)) demoReserved) 5).coresIn = [2] ∧
    (ringOf (demoAfter (.rtReservationEffect (.copy 1)) demoReserved) 5).engineIn = true := by decide

def demoRings (r : Ring) : State :=
  { demoState with
    sags := [(0, { st := .open, qRings := 1 })], fe := { demoState.fe with rings := [(5, { r with context := 0, qfence := 3 })] } }
def demoRingEntry (n : Nat) (st : NodeSt) : Node := { seq := BitVec.ofNat 64 n, st }

theorem witness_Rings :
    (∀ z ∈ [6, 16], let s := demoRings { sizeLog2 := BitVec.ofNat 5 z };
      (ringOf s 5).st = .disabled ∧ (sagOf s 0).st = .open ∧ (sagOf s 0).sealing = false ∧ tagCurrent s 0 = true ∧ (ctxOf s 0).sag = 0 ∧
      fenceUsable s 0 3 = true ∧ (ringOf s 5).rt = false ∧ (ringOf s 5).rtCores = 0 ∧ (ringOf s 5).rtCopy = false ∧
      (ringsOf s 0).length < (sagOf s 0).qRings.toNat) ∧
    (∀ z ∈ [5, 17], let s := demoRings { sizeLog2 := BitVec.ofNat 5 z };
      (ringOf s 5).st = .disabled ∧ ((ringOf s 5).sizeLog2.toNat < 6 ∨ 16 < (ringOf s 5).sizeLog2.toNat)) ∧
    (let s := demoRings { st := .active, tail := 10, retired := 8, next := 8 };
      accepting s = true ∧ newWork s = true ∧ (ringOf s 5).st = .active ∧ ((72 : W64) - 10).toNat < 2 ^ 63 ∧
      ((72 : W64) - 8).toNat ≤ 2 ^ (ringOf s 5).sizeLog2.toNat ∧ 2 ^ 63 ≤ ((9 : W64) - 10).toNat ∧ ringEligible (ringOf s 5) = true) ∧
    (let r := ringOf (demoRings { st := .active, tail := 10, retired := 8, next := 10, entries := [demoRingEntry 8 .completed, demoRingEntry 9 .started] }) 5;
      r.entries = [demoRingEntry 8 .completed] ++ demoRingEntry 9 .started :: []) ∧
    (let r := ringOf (demoRings { st := .faulted, retired := 8, entries := [demoRingEntry 8 .failed, demoRingEntry 9 .skipped] }) 5;
      r.st = .faulted ∧ r.entries ≠ [] ∧ ∀ x ∈ r.entries, x.st = .completed ∨ x.st = .failed ∨ x.st = .skipped) := by decide

theorem witness_RingFetch (m : Nat) (h : m ≠ 5) : ringEligible (ringOf (demoRings { st := .active, tail := 10, retired := 8, next := 8 }) m) = false := by
  have e : ringOf (demoRings { st := .active, tail := 10, retired := 8, next := 8 }) m = {} := by
    have h' : ¬ (5 = m) := fun e => h e.symm
    simp [ringOf, demoRings, tblGet, tblFind, h']
  rw [e]; rfl

theorem test_rings :
    (let t := demoAfter (.dbTailWrite 5 0xFF 72) (demoRings { st := .active, tail := 10, retired := 8, next := 8 });
      (ringOf t 5).tail = 72 ∧ (ringOf t 5).dbReject = false) ∧
    (let t := demoAfter (.dbTailWrite 5 0xFF 73) (demoRings { st := .active, tail := 10, retired := 8, next := 8 });
      (ringOf t 5).tail = 10 ∧ (ringOf t 5).rejectCount = 1 ∧ t.dl.pending = 1) ∧
    (let t := demoAfter .fetchTurn (demoRings { st := .active, base := 1, tail := 10, retired := 8, next := 8 });
      t.dl.waiting.map (fun x => (x.addr, x.len)) = [(0x1200, 128)] ∧ (ringOf t 5).next = 10) ∧
    (let t := demoAfter (.retiredAdvance 5)
        (demoRings { st := .active, tail := 10, retired := 8, next := 10, entries := [demoRingEntry 8 .completed, demoRingEntry 9 .started] });
      (ringOf t 5).retired = 9 ∧ (fenceOf t 3).value = 9) ∧
    (let t := demoAfter (.resume 5) (demoRings { st := .faulted, retired := 8, entries := [demoRingEntry 8 .failed, demoRingEntry 9 .skipped] });
      (ringOf t 5).st = .active ∧ (fenceOf t 3).value = 10) := by decide

def demoDestroying (over_ : Bool) (st : NodeSt) : State :=
  demoRings { st := .destroying, tail := 10, retired := 8, next := 9, graceOver := over_, entries := [demoRingEntry 8 st] }

theorem witness_RingDestruction :
    (let s := demoRings { st := .active, tail := 10, retired := 8, next := 9, entries := [demoRingEntry 8 .ready] };
      (ringOf s 5).st = .active ∧ s.fe.waits = [] ∧ s.fe.runs = [] ∧ pageActs s 3 = true ∧ ∃ x ∈ (ringOf s 5).entries, x.st == .ready) ∧
    (let s := demoDestroying false .started; (ringOf s 5).st = .destroying ∧ (ringOf s 5).graceOver = false ∧ ringIdle s 5 = false) ∧
    (let s := demoDestroying true .skipped; (ringOf s 5).st = .destroying ∧ ringIdle s 5 = true ∧ ∀ x ∈ s.fe.runs, x.node.ring ≠ 5) := by decide

theorem test_ring_destruction :
    (let t := demoAfter (.queueDestruction 5) (demoRings { st := .active, tail := 10, retired := 8, next := 9, entries := [demoRingEntry 8 .ready] });
      (ringOf t 5).entries = [demoRingEntry 8 .skipped] ∧ (fenceOf t 3).abandoned = true ∧ (fenceOf t 3).value = 0) ∧
    (ringOf (demoAfter (.graceExpiry 5) (demoDestroying false .started)) 5).graceOver = true ∧
    (let t := demoAfter (.destructionComplete 5) (demoDestroying true .skipped); (ringOf t 5).st = .disabled ∧ (fenceOf t 3).value = 10) := by decide

-- Entries, waits, graphs, launches as they end

/-- Ring 5 of context 0 with one entry; object 2 is host memory, saggar 0 has copy engine 1, and a slice of two modules. -/
def demoOffer (ws : List W64) : State :=
  { demoRings { st := .active, tail := 1, next := 1, entries := [{ words := ws }] } with
    sags := [(0, { st := .open, chans := [0x10001, 0, 0, 0], copy := 2, qGraphs := 1 })]
    obj := { demoState.obj with objs := [(1, { st := .live, len := 0x10000 }), (2, { st := .live, host := true, len := 0x10000 })] }
    xl := { State.reset.xl with slices := [(0, { valid := true, exM1 := 1 })] } }
def demoRef : NodeRef := { ring := 5, seq := 0, graph := none }

def demoPasses (ws : List W64) : Bool := match checkNode (demoOffer ws) demoRef (stripOrd ws) noHost noErr with
  | some (t, .pass _ none) => t == demoOffer ws
  | _ => false

theorem demoOffer_heads (ws : List W64) : EntryHeads (demoOffer ws) 5 { words := ws } [] :=
  ⟨(by decide : newWork (demoOffer []) = true), rfl, rfl, rfl, fun _ h => by cases h⟩

def demoCopy : List W64 := [0x100010041, 0, 0, 64]
def demoLink : List W64 := [0x10042, 0, 0, 64, 1]
def demoRemote : List W64 := [0x143, 7, 1]
def demoSignal : List W64 := [0x30043, 7]

/-- A NOP; a MATVEC of one tile; a GATHER, a SCATTER, a REDUCE and a CLEAN of nothing; the codec operations of no homes and an INSTALL; copies and a fill; a LINK, signals and waits. -/
def demoPlain : List (List W64) :=
  [[0], [0x212901], [2], [3], [4], [5], [0x121], [0x22], [0x23], [0x24], [0x125], [0x26],
   demoCopy, [0x100000141, 0, 0, 8], [0x100010041], demoLink, demoSignal, demoRemote, [0x30044, 1], [0x40044, 1, 50]]

def demoLoadKey : List W64 := [0x100010A41, 0, 0, 64]
/-- The same with a SEALED saggar that holds weight key 0. -/
def demoSealed (ws : List W64) : State :=
  { demoOffer ws with sags := [(0, { st := .sealed, chans := [0x10001, 0, 0, 0], copy := 2, weightKeys := [(0, List.replicate 32 1)] })] }

/-- A code object of one kernel at 8 with 16 registers, read from host memory, its entry and its argument area. -/
def demoCode : List Byte :=
  leBytes 4 0x54465654 ++ leBytes 4 1 ++ leBytes 4 256 ++ leBytes 4 128 ++ leBytes 4 64 ++ leBytes 4 192 ++ leBytes 4 1 ++ List.replicate 96 0 ++
  leBytes 4 4074716624 ++ leBytes 4 8 ++ leBytes 4 16 ++ List.replicate 24 0 ++ leBytes 4 7 ++ leBytes 4 9 ++ List.replicate 56 0
def demoRun : List W64 := [0x200000040, 0x200000000, 0x100000000, 0x1_0028_0001_0001, 0x20001]

theorem witness_EntriesStart :
    demoPlain.all demoPasses = true ∧ demoPlain.map kindOf = [0, 1, 2, 3, 4, 5, 0x21, 0x22, 0x23, 0x24, 0x25, 0x26, 0x41, 0x41, 0x41, 0x42, 0x43, 0x43, 0x44, 0x44] ∧
    pickEngine (demoOffer demoCopy) 0 false = some 1 ∧ copyLen demoCopy ≠ 0 ∧ copyLen [0x100010041] = 0 ∧ linkLen demoLink ≠ 0 ∧
    isRemote demoRemote = true ∧ isRemote demoSignal = false ∧ nmEmpty [0x212901] = false ∧
    (match checkNode (demoSealed demoLoadKey) demoRef (stripOrd demoLoadKey) noHost noErr with
      | some (t, .pass _ none) => t == demoSealed demoLoadKey
      | _ => false) = true ∧
    (match checkNode (demoOffer demoRun) demoRef (stripOrd demoRun) ⟨demoCode, false⟩ noErr with
      | some (u, .pass _ (some i)) => newWork u && u.fe.rings == (demoOffer demoRun).fe.rings && u.fe.launches.isEmpty && u.fe.rtQueue.isEmpty &&
          u.fe.bulkQueue.isEmpty && !i.coRes && i.bx == 40 && i.gx == 1 && i.bY == 1 && i.bz == 1 && i.gy == 1 && i.gz == 1
      | _ => false) = true ∧
    (match checkNode (demoOffer [0x200000040, 0x200000000, 0, 0, 0x20000]) demoRef [0x200000040, 0x200000000, 0, 0, 0x20000] ⟨demoCode, false⟩ noErr with
      | some (_, .pass _ (some i)) => !i.coRes && i.gx == 0 && i.bx == 0
      | _ => false) = true := by decide

theorem test_entries :
    ((ringOf (demoAfter (.nopEntry 5) (demoOffer [0])) 5).entries.map (fun e => e.st)) = [.completed] ∧
    ((demoAfter (.matvec 5) (demoOffer [0x212901])).nmOps.map (fun o => o.shares.map (fun h => (h.stack, h.parts)))) = [[(0, [0]), (1, [])]] ∧
    ((demoAfter (.copy 5) (demoOffer demoCopy)).fe.copies.map (fun j => j.engine)) = [1] ∧
    (fenceOf (demoAfter (.signal 5) (demoOffer demoSignal)) 3).value = 7 ∧
    ((demoAfter (.launch 5 ⟨demoCode, false⟩ noErr) (demoOffer demoRun)).fe.launches.map (fun l => (l.blocks, l.info.entryPc, l.info.args.take 3))) =
      [(1, 8, [7, 9, 0])] := by decide

/-- A descriptor of each KIND that fails its check, and the code. -/
def demoBad : List (List W64 × Nat) :=
  [([0x100], 1), ([1], 1), ([0x800002], 1), ([0x800003], 1), ([0xB04], 1), ([5, 1], 1), ([0x21, 0, 0, 0, 0, 0, 1], 1), ([0x122], 1), ([0x123], 1), ([0x124], 1),
   ([0x25, 1], 1), ([0x126], 1), ([0x10042, 0, 0, 64], 1), ([0x800043], 6), ([0x800044], 6)]

def demoRejects (x : List W64 × Nat) : Bool := match checkNode (demoOffer x.1) demoRef (stripOrd x.1) noHost noErr with
  | some (t, .reject c _) => c == x.2 && t == demoOffer x.1
  | _ => false

def demoWaiting (w : WaitJob) (f : Fence) (v : BitVec 48) : State :=
  { demoRings { st := .active, tail := 1, next := 1, entries := [{ words := [0x30044, 1], st := .started }] } with
    fe := { (demoRings { st := .active, tail := 1, next := 1, entries := [{ words := [0x30044, 1], st := .started }] }).fe with waits := [w] }
    obj := { demoState.obj with fences := [(3, f)] }
    xl := { State.reset.xl with cones := [(4, { assigned := true, value := v })] } }
def demoWait (cone timed : Bool) : WaitJob :=
  { id := 2, node := demoRef, sag := 0, ctx := 0, cone, num := if cone then 4 else 3, target := 5, ignoreErr := false, timed }

theorem witness_EntriesFailAndWaits :
    demoBad.map (fun x => kindOf x.1) = [0, 1, 2, 3, 4, 5, 0x21, 0x22, 0x23, 0x24, 0x25, 0x26, 0x42, 0x43, 0x44] ∧
    (demoBad.filter (fun x => !(isNmKind (kindOf x.1)))).all demoRejects = true ∧
    (let s := demoOffer [0x100];
      (ringOf s 5).failHeld = false ∧ s.fe.runs = [] ∧ (ringOf s 5).fetches = [] ∧ pageActs s (ringOf s 5).qfence.toNat = true ∧
      (ctxOf s 0).fault.valid = false) ∧
    (∀ v ∈ [5, 0x7FFFFFFF], (demoWaiting (demoWait false false) { value := BitVec.ofNat 64 v } 0).fe.waits = [demoWait false false] ∧
      ((fenceOf (demoWaiting (demoWait false false) { value := BitVec.ofNat 64 v } 0) 3).value - 5).toNat < 2 ^ 63 ∧
      ((coneOf (demoWaiting (demoWait true false) {} (BitVec.ofNat 48 v)) 4).value - (5 : W64).setWidth 48).toNat < 2 ^ 47) ∧
    (ringOf (demoWaiting (demoWait false true) { error := true } 0) 5).st = .active ∧
    ¬ (((fenceOf (demoWaiting (demoWait false true) { value := 4 } 0) 3).value - 5).toNat < 2 ^ 63) := by decide

theorem test_fails_and_waits :
    (let t := demoAfter (.nopEntry 5) (demoOffer [0x100]);
      (ringOf t 5).st = .faulted ∧ (ringOf t 5).failCode = 1 ∧ (fenceOf t 3).error = true ∧ t.dl.pending = 1 ∧ (ctxOf t 0).fault.source = 6) ∧
    ((ringOf (demoAfter (.waitEvaluation 2) (demoWaiting (demoWait false false) { value := 5 } 0)) 5).entries.map (fun e => e.st)) = [.completed] ∧
    ((demoAfter (.waitEvaluation 2) (demoWaiting (demoWait false false) { value := 4 } 0)).fe.waits.length) = 1 ∧
    (ringOf (demoAfter (.waitEvaluation 2) (demoWaiting (demoWait false false) { error := true } 0)) 5).st = .faulted ∧
    (ringOf (demoAfter (.waitTimeout 2) (demoWaiting (demoWait true true) {} 4)) 5).failed = true := by decide

def demoVersion : GraphVersion := { num := 0, nodes := [[0, 0, 0, 0, 0, 0, 0, 0]] }
/-- Slot 1 bound with one NOP, whose store is host memory; the objects 2 and 3 are host memory. -/
def demoGraph (ws : List W64) (g : GraphSlot) : State :=
  { demoOffer ws with
    fe := { (demoOffer ws).fe with graphs := [(1, g)] }
    obj := { demoState.obj with objs := [(2, { st := .live, host := true, len := 0x10000 }), (3, { st := .live, host := true, len := 0x10000 })] } }
def demoSlot : GraphSlot := { st := .bound, storeObj := 3, storeLen := 4384, versions := [demoVersion] }

def demoImage : List Byte :=
  leBytes 4 0x48464752 ++ leBytes 4 1 ++ leBytes 4 0 ++ leBytes 4 64 ++ leBytes 4 128 ++ List.replicate 40 0 ++ leBytes 4 2495311168 ++ List.replicate 64 0

theorem witness_GraphEntries :
    (let s := demoGraph [0x1004B] demoSlot;
      s.fe.runs = [] ∧ unbindFields [0x1004B] = true ∧ (graphOf s 1).st = .bound ∧ (graphOf s 1).sag = 0 ∧ (objOf s (graphOf s 1).storeObj).host = true) ∧
    (let s := demoGraph [0x10048, 3, 9] demoSlot;
      graphFields [0x10048, 3, 9] = true ∧ (graphOf s 1).versions.getLast? = some demoVersion ∧ fenceUsable s 0 3 = true) ∧
    (let ws := [0x10049, 0, 2, 0];
      let s := demoGraph ws demoSlot;
      patchFields ws = true ∧ (graphOf s 1).versions = [] ++ [demoVersion] ∧ (objOf s 2).st = .live ∧ (objOf s 2).host = true ∧ isGraphStore s 2 = false ∧
      64 ≤ (objOf s 2).len.toNat ∧ nodeFieldsOk s 0 (wordsOf 8 (leBytes 64 0)) = true ∧ 0 < demoVersion.nodes.length) ∧
    (let ws := [0x1004A, 2, 0, 3, 0];
      let s := demoGraph ws {};
      bindFields ws = true ∧ (graphOf s 1).st = .free ∧ slotsUsed s 0 < (sagOf s 0).qGraphs.toNat ∧ isGraphStore s 2 = false ∧ isGraphStore s 3 = false ∧
      (objOf s 3).ro = false ∧ imageHeaderOk (demoImage.take 64) = true ∧ demoImage.length = 64 + 64 * rd32 demoImage 4 + 4 * rd32 demoImage 8 ∧
      rd32 demoImage 12 + 64 ≤ (objOf s 2).len.toNat ∧ rd32 demoImage 16 ≤ (objOf s 2).len.toNat ∧ storeSize 1 0 ≤ (objOf s 3).len.toNat ∧
      imageOk s 0 ((pieces 64 1 (demoImage.drop 64)).map (wordsOf 8)) [] = true) := by decide

theorem test_graph_entries :
    (graphOf (demoAfter (.unbind 5) (demoGraph [0x1004B] demoSlot)) 1) = {} ∧
    ((demoAfter (.graph 5) (demoGraph [0x10048, 3, 9] demoSlot)).fe.runs.map (fun r => (r.fence, r.value, r.started))) = [(3, 9, true)] ∧
    (graphOf (demoAfter (.patch 5 ⟨leBytes 64 0, false⟩ noErr) (demoGraph [0x10049, 0, 2, 0] demoSlot)) 1).versions = [demoVersion] ∧
    (graphOf (demoAfter (.bind 5 ⟨demoImage, false⟩ noErr) (demoGraph [0x1004A, 2, 0, 3, 0] {})) 1) = demoSlot := by decide

def demoGoing (node : NodeSt) (entry : Option NodeSt) : State :=
  { demoGraph [] demoSlot with
    fe := { (demoGraph [] demoSlot).fe with
      rings := [(5, { st := .active, entries := match entry with | some st => [{ st }] | none => [] })]
      launches := [{ demoDispatched with retired := 1, node := demoRef }]
      runs := [{ id := 4, node := demoRef, slot := 1, version := 0, nodes := [{ words := [0], st := node }], fence := 3, value := 9, started := true }] } }

theorem witness_LaunchesEnd :
    (let s := demoGoing .waiting (some .started);
      launchOf s 3 = some { demoDispatched with retired := 1, node := demoRef } ∧ storesGone s 3 = true ∧ newWork s = true ∧ (ringOf s 5).st = .active ∧
      (∃ r, runOf s 4 = some r ∧ r.started = true ∧ r.failed = false ∧ predsDone s r 0 = true ∧ r.nodes[0]? = some { words := [0], st := .waiting } ∧
        r.node.graph = none) ∧ nopFields [0] = true ∧ kindOf [0] = 0) ∧
    (let s := demoGoing .completed (some .started);
      ringEntry s 5 0 = some { st := .started } ∧ ∀ r ∈ s.fe.runs, ∀ x ∈ r.nodes, x.st = .completed) ∧
    (let s := demoGoing .completed none;
      ringEntry s 5 0 = none ∧ s.fe.runs.length = 1 ∧ (graphOf s 1).st = .bound ∧ (graphOf s 1).versions.getLast? = some demoVersion) := by
  refine ⟨⟨by decide, by decide, by decide, by decide, ⟨_, rfl, by decide⟩, by decide, by decide⟩, by decide, by decide⟩

theorem test_launches_end :
    (let t := demoAfter (.launchComplete 3) (demoGoing .waiting (some .started)); t.fe.launches = [] ∧ (ringOf t 5).entries.map (fun e => e.st) = [.completed]) ∧
    ((demoAfter (.graphNodeFetch 4 0 noHost noErr) (demoGoing .waiting (some .started))).fe.runs.map (fun r => r.nodes.map (fun x => x.st))) = [[.completed]] ∧
    (let t := demoAfter (.graphLaunchComplete 4) (demoGoing .completed (some .started)); (fenceOf t 3).value = 9 ∧ (ringOf t 5).entries.map (fun e => e.st) = [.completed]) ∧
    (demoAfter (.graphPinRelease 4) (demoGoing .completed none)).fe.runs = [] := by decide

-- Memory stacks, near-memory operations, codecs

def demoChans (c : Channel) : State := { demoState with chans := [(0, c), (16, { st := .owned })] }
def demoOwned : Channel := { st := .owned, candidates := [(3, 9)], retrainThresh := 2, laneErrs := [(5, 0), (5, 0)] }
/-- Lane `n` of the first codewords of a line is wrong in its lowest bit, in the bank. -/
def demoErrs (lanes : List (Fin 152)) : MemEnv := { noErr with line := { noErr.line with bank := lanes.map (fun n => ⟨n, 1⟩) } }
def demoTg (busy : Bool) (last : BitVec 21) : State :=
  demoChans { st := .free, tg := { busy, first := 0, last, runPattern := 0, runFirst := 0, runLast := 0 } }

theorem sound_chans (c : Channel) : Sound (demoChans c) :=
  sound_of_one (demoChans c) 0 (demoCore demoLanes) rfl rfl rfl rfl rfl rfl rfl rfl rfl rfl (by decide)

def demoReadings (hot : Int) : List (BitVec 16) := BitVec.ofInt 16 hot :: List.replicate 16 640

theorem witness_MemoryStacks :
    (let s := demoChans demoOwned;
      (chanOf s 0).st = .owned ∧ (chanOf s 0).retrainThresh ≠ 0 ∧
      (chanOf s 0).retrainThresh.toNat ≤ laneCount (chanOf s 0) s.ras.craze.poweredS.toNat 5 ∧ dqMapped (chanOf s 0) (dqGroup 5) = false ∧ recoveries s = [] ∧
      (3, 9) ∈ (chanOf s 0).candidates ∧ bankRemaps (chanOf s 0) 3 < 16 ∧ (chanOf s 0).remapped < 1024 ∧ s.ras.repair.length < 327680 ∧
      (chanOf s 0).patrol = true ∧ chanServes s 0 = true ∧ burstErrs s 7 = [] ∧ (chanOf s 0).uncErrs = [] ∧ (chanOf s 0).strong = false) ∧
    (noErr.line.bank = [] ∧ (demoErrs [3]).line.bank = [⟨3, 1⟩] ∧ (demoErrs [3]).line.bus = [] ∧ (demoErrs [3, 4, 5]).line.bank = [⟨3, 1⟩, ⟨4, 1⟩, ⟨5, 1⟩]) ∧
    (∀ h ∈ [Throttle.none, .stop], (stackOf { demoChans { st := .free } with memStacks := listSet (List.replicate 16 {}) 0 { throttle := h } } 0).throttle = h) ∧
    (let c := chanOf (demoChans { st := .free }) 0; c.st = .free ∧ c.strong ≠ ((1 : Nat) == 1)) ∧
    [1439, 1440, 1472, 1568, 1600, 1680].all (fun h => (demoReadings h).length == 17 && ((demoReadings h).take 16).contains (BitVec.ofInt 16 h) &&
      (demoReadings h).all (fun r => decide (-640 ≤ r.toInt) && decide (r.toInt ≤ h))) = true ∧
    (stackOf demoState 0).readings = [] ∧ (∀ i : Fin 16, (chanOf demoState i.val).zeroDue = false) ∧
    (∀ b ∈ [false, true], (chanOf (demoTg b 0x1FFFFF) 0).tg.busy = b) ∧
    (let g := (chanOf (demoTg false 0x1FFFFF) 0).tg; testWindow (demoTg false 0x1FFFFF) 0 = false ∧ g.first.toNat ≤ g.last.toNat ∧
      (g.last.toNat + 1) * 2048 ≤ chanCap (chanOf (demoTg false 0x1FFFFF) 0) ∧ g.pattern.toNat < 6) ∧
    ((chanOf (demoTg true 0) 0).tg.runPasses ≠ 0 ∧ (chanOf (demoTg true 0) 0).tg.runPattern = 0 ∧ (chanOf (demoTg true 0) 0).addrPattern = false ∧
      (chanOf (demoTg true 0) 0).st = .free ∧ (stackOf (demoTg true 0) 0).throttle ≠ .stop) ∧
    (let g := (chanOf (demoChans { st := .free, tg := { busy := true, runPattern := 5, runFirst := 0, runLast := 0 } }) 0).tg; g.busy = true ∧ g.runPattern = 5) := by
  decide

theorem test_stacks :
    (let t := demoAfter (.rowRemap 0 3 9) (demoChans demoOwned); (chanOf t 0).st = .retrain ∧ t.ras.running = some (.row 0 3 9)) ∧
    (let t := demoAfter (.patrolScrub 7 (demoErrs [3, 4, 5])) (demoChans demoOwned); (chanOf t 0).uncorrectedCount = 1 ∧ burstErrs t 7 = [⟨3, 1⟩, ⟨4, 1⟩, ⟨5, 1⟩]) ∧
    (let t := demoAfter (.patrolScrub 7 (demoErrs [3, 4])) (demoChans demoOwned); (chanOf t 0).corrected = 1 ∧ burstErrs t 7 = []) ∧
    (let t := demoAfter (.msChCfgWrite 0 0xFF 0x2001) { demoChans { st := .free } with dram := [(5, 9), (2 ^ 32, 4)] };
      (chanOf t 0).strong = true ∧ (chanOf t 0).retrainThresh = 0x20 ∧ (chanOf t 0).patrol = false ∧ t.dram = [(2 ^ 32, 4)]) := by decide

/-- Table 05-4: the throttle of a stack by its hottest layer, in sixteenths of a degree. -/
theorem test_throttle :
    [1439, 1440, 1471, 1472, 1599, 1600, 1679, 1680].map (fun h => (stackOf (demoAfter (.stackSensorSample 0 (demoReadings h)) demoState) 0).throttle) =
      [.none, .none, .none, .actCap, .actCap, .half, .half, .stop] := by decide

theorem test_traffic_generator :
    (let t := demoAfter (.tgStart 0) (demoTg false 0x1FFFFF); (chanOf t 0).tg.busy = true ∧ (chanOf t 0).tg.rejectCount = 0) ∧
    (let t := demoAfter (.tgStart 16) (demoTg false 0x1FFFFF); (chanOf t 16).tg.busy = false ∧ (chanOf t 16).tg.rejectCount = 1) := by decide

/-- A line with no copy, in a state whose units are at rest. -/
theorem rests_of_bare (s : State) (l : Nat) (hd : s.dies = List.replicate 4 {}) (hh : s.homes = []) (hf : s.fabric = []) (ho : s.hostFilter = [])
    (hx : s.filter = []) (hr : ∀ c ∈ s.cores, ∀ u ∈ c.2.subs, ∀ g ∈ u.slots, ∀ n ∈ g.2.lanes, n.rsv = none) (hc : chanServes s (lineChan l) = true)
    (hb : tblFind s.symErrs l = none) (hu : running s = true) (q : Option Nat) (ht : tagRefused s (lineChan l) q false = false) : RestsInDram s l q := by
  have e : ∀ d, dieOf s d = {} := by
    intro d
    unfold dieOf
    rw [hd]
    match d with
    | 0 | 1 | 2 | 3 | n + 4 => rfl
  refine ⟨?_, ?_, ?_, ?_, ?_, ?_, ?_, hc, hb, ht, hu⟩
  · unfold homeCopy
    rw [e]
    simp [nearWay, tblFind]
    decide
  · unfold homeOf; rw [hh]; rfl
  · rw [hf]; intro m hm; cases hm
  · unfold hostEntry; rw [ho]; rfl
  · intro d; unfold filtOf; rw [hx]; rfl
  · rw [e]; intro x hm; cases hm
  · intro c hcm u hum g hg n hn r hnr
    rw [hr c hcm u hum g hg n hn] at hnr; cases hnr

def demoNm (ws : List W64) (h : NmShare) (issuer : NmIssuer) : NmOp := { id := 9, sag := 0, ctx := 0, issuer, words := ws, shares := [h] }
def byBlock : NmIssuer := .block 0 0 { codeLen := 64, lsBytes := 1024 } 0 0 0 64
/-- An operation of a block that is no longer resident. -/
def byRetired : NmIssuer := .block 0 0 { id := 8 } 0 0 0 64
def demoWithOp (s : State) (o : NmOp) : State := { s with nmOps := [o] }

/-- MATVEC of one INT8 tile of 64 rows of 32 elements at 2048, the vector at 256; and GATHER of one row of 16 B of a table at 2048, the index at 256, to 512. -/
def demoMatvec : List W64 := [0x212901, 2048, 0, 0, 256]
def demoRows : List W64 := [0x1000002, 2048, 256, 0x100000001, 0, 512]
def demoSet : Vset := { tag := nmTag (demoNm demoMatvec { stack := 0 } byBlock), data := (List.range 32).map (BitVec.ofNat 8), op := 9 }
def demoAcc : AccUpdate := { sag := 0, addr := 260, etype := 8, vals := [5], src := .op 9 0 }
def demoStacks (k : Stack) (o : NmOp) : State := { demoOn (demoCore demoLanes) with nmOps := [o], memStacks := listSet (List.replicate 16 {}) 0 k }
def demoDone (n : NmIssuer) : NmOp := demoNm [5, 0, 0, 0, 0, 0, 0, 0x1122334455667788] { stack := 0, phase := .done } n

theorem demoStacks_sound (k : Stack) (o : NmOp) : Sound (demoStacks k o) :=
  sound_of_one (demoStacks k o) 0 (demoCore demoLanes) rfl rfl rfl rfl rfl rfl rfl rfl rfl rfl (by decide)

theorem demo_bare (k : Stack) (h : k.throttle = .none) (o : NmOp) (l : Nat) (hl : lineChan l = 0) : RestsInDram (demoStacks k o) l (some 0) := by
  refine rests_of_bare (demoStacks k o) l rfl rfl rfl rfl rfl (by decide : ∀ c ∈ demoState.cores, _) ?_ rfl rfl (some 0) (by rw [hl]; rfl)
  rw [hl]
  have e : (stackOf (demoStacks k o) 0).throttle = .none := h
  show (_ && ((stackOf (demoStacks k o) 0).throttle != .stop)) = true
  rw [e]; rfl

theorem witness_NearMemory :
    (let o := demoNm demoMatvec { stack := 0, parts := [0] } byBlock;
      let s := demoStacks {} o;
      s.nmOps = [o] ∧ newWork s = true ∧ ∀ p ∈ [(0 : ChanId)], p.val / 16 = 0) ∧
    (let o := demoNm demoMatvec { stack := 0, phase := .running } byBlock;
      let s := demoWithOp (demoHome (demoCore demoLanes)) o;
      nmBarrier demoMatvec = false ∧ nmStoresDrained s o = true ∧ (stackOf s 0).vset = none ∧ (stackOf s 0).staging = none ∧ nmVecs demoMatvec = 1 ∧
      nmVbase demoMatvec % 128 + nmVecBytes demoMatvec ≤ 128 ∧ nmVecBytes demoMatvec = 32 ∧ mapLine s 0 (nmVbase demoMatvec / 128 * 128) = some 2) ∧
    StandsHome (demoWithOp (demoHome (demoCore demoLanes)) (demoNm demoMatvec { stack := 0, phase := .running } byBlock)) (lineDie 2) 2 demoLine ∧
    (let s := demoStacks { staging := some demoSet } (demoNm demoMatvec { stack := 0, phase := .running } byBlock);
      (stackOf s 0).vset = none ∧ (stackOf s 0).staging = some demoSet ∧ demoSet.op = 9) ∧
    ((stackOf (demoStacks { accQueue := [demoAcc] } (demoDone byBlock)) 0).accQueue = [demoAcc] ∧ demoAcc.addr % 4 = 0 ∧
      mapLine (demoStacks { accQueue := [demoAcc] } (demoDone byBlock)) 0 260 = some 2) ∧
    RestsInDram (demoStacks { accQueue := [demoAcc] } (demoDone byBlock)) 2 (some 0) ∧
    (∀ n ∈ [byBlock, .node demoRef], (∀ x ∈ (demoDone n).shares, x.phase = .done) ∧ nmStride (demoDone n).words ≤ 0 ∧
      (∀ y ∈ (demoStacks {} (demoDone n)).memStacks, ∀ u ∈ y.accQueue, ∀ x, u.src ≠ .op 9 x) ∧ heldOps (coreOf (demoStacks {} (demoDone n)) 0) = []) ∧
    (issuerBlock (demoStacks {} (demoDone byBlock)) (demoDone byBlock) = some (0, 0) ∧
      issuerBlock (demoStacks {} (demoDone byRetired)) (demoDone byRetired) = none ∧ demoAcc.src = .op 9 0) :=
  ⟨by decide, by decide, demo_stands _ rfl rfl rfl rfl rfl rfl, by decide, by decide, demo_bare _ rfl _ _ (by decide), by decide, by decide⟩

def demoRun1 (ws : List W64) (issuer : NmIssuer) : NmOp := demoNm ws { stack := 0, phase := .running, loaded := true, left := [0, 16] } issuer

theorem witness_NearMemoryParts :
    (let o := demoRun1 demoMatvec byBlock;
      let s := demoStacks { vset := some demoSet } o;
      nmBarrier demoMatvec = false ∧ nmStoresDrained s o = true ∧ running s = true ∧ kindOf demoMatvec = 1 ∧ nmCodec demoMatvec = false ∧
      ([0, 16] : List ChanId).filter (fun p => p != 16) ≠ [] ∧ nmEtA demoMatvec = 9 ∧ nmEtV demoMatvec = 9 ∧ nmRowTiles demoMatvec = 1 ∧ nmKTiles demoMatvec = 1 ∧
      nmBase demoMatvec % 2048 = 0 ∧ nmBase demoMatvec / 2048 % (ownedChannels (sagOf s 0)).length = (ownedChannels (sagOf s 0)).idxOf 16) ∧
    (∀ i : Fin 16, mapLine (demoStacks { vset := some demoSet } (demoRun1 demoMatvec byBlock)) 0 ((2048 + 128 * i.val) / 128 * 128) =
      some (16 * 2 ^ 25 + i.val)) ∧
    (let s := demoStacks { vset := some demoSet } (demoRun1 demoMatvec byBlock);
      chanServes s 16 = true ∧ s.symErrs = [] ∧ tagRefused s 16 (some 0) false = false) ∧
    (let o := demoRun1 demoRows byBlock;
      let s := demoWithOp (demoHome (demoCore demoLanes)) o;
      kindOf demoRows = 2 ∧ nmCount demoRows = 1 ∧ nmDmode demoRows = 2 ∧ nmIbase demoRows % 4 = 0 ∧ mapLine s 0 (nmIbase demoRows / 128 * 128) = some 2 ∧
      demoLine.data.length = 128 ∧ nmRow demoRows = 16 ∧ nmPitch demoRows = 16 ∧ issuerBlock s o = some (0, 0) ∧ updatesLeft s 9 0 = false ∧
      nmBase demoRows + leNat ((demoLine.data.drop 0).take 4) * 16 = 0x30201800 ∧ 0x30201810 ≤ carveSize s 0 ∧ 0x30201800 % 2048 + 16 ≤ 2048 ∧
      mapAddr s 0 0x30201800 = some (16, 0x18100800) ∧ chanServes s 16 = true ∧ s.symErrs = [] ∧ tagRefused s 0 (some 0) false = false ∧ tagRefused s 16 (some 0) false = false) := by decide

/-- A tile of 64 rows by 32 elements that is 1 in each place and the vector 0 to 31: each row gives 496. -/
theorem test_matvec :
    let s := { demoStacks { vset := some demoSet } (demoNm [0x212901, 0, 0, 0, 256] { stack := 0, phase := .running, loaded := true, left := [0, 1] } byBlock) with
      dram := (List.range 64).map (fun i => (i, 1)) }
    ((demoAfter (.nmPartComplete 0 9 0 [] noErr) s).nmOps.map (fun o => o.shares.map (fun h => (h.left, (h.partials.take 3).map (fun p => p.2.2.2.toNat))))) =
      [[([1], [496, 496, 0])]] := by decide

theorem test_near_memory :
    ((demoAfter (.nmAdmission 0) (demoStacks {} (demoNm demoMatvec { stack := 0, parts := [0] } byBlock))).nmOps.map (fun o => o.shares.map (fun h => h.phase))) =
      [[.running]] ∧
    (memRead (demoAfter (.accumulateUpdate 0 noErr) { demoStacks { accQueue := [demoAcc] } (demoDone byBlock) with dram := [(260, 0xFE), (261, 1)] }).dram 260 4 =
      [3, 2, 0, 0]) ∧
    (let t := demoAfter (.nmOpComplete 9) (demoStacks {} (demoDone byBlock));
      lsRead (blockOf (coreOf t 0) 0) 64 2 = [0x88, 0x77] ∧ (laneAt t demoIssue 1).ordPt = 1 ∧ t.nmOps = []) := by decide

def demoCodec (kind : W64) (book : W64) : CodecOp := { id := 9, sag := 0, ctx := 0, node := demoRef, words := [kind + book * 8192, 128, 0, 0, 0, 256, 0, 7] }
/-- A valid length table: two codes of one bit. -/
def demoBook : List Byte := 0x11 :: List.replicate 127 0
def demoCodecs (o : CodecOp) : State :=
  { demoStacks {} (demoDone byBlock) with nmOps := [], codecOps := [o], dram := [(128, 0x11)] }

theorem witness_CodecOperations :
    (∀ k ∈ [0x21, 0x22, 0x23, 0x24, 0x25, 0x26], let o := demoCodec (BitVec.ofNat 64 k) 0;
      let s := demoCodecs o;
      kindOf o.words = k ∧ cdCount o.words = 0 ∧ mapLine s 0 (cdRbase o.words / 128 * 128) = some 2 ∧ cdRbase o.words % 128 + 24 ≤ 128 ∧ s.nmOps = [] ∧
      s.codecOps = [o]) ∧
    RestsInDram (demoCodecs (demoCodec 0x26 0)) 2 (some 0) ∧
    (let o := demoCodec 0x26 3;
      let s := demoCodecs o;
      codecAbsent s o = false ∧ o.stop = none ∧ o.done = 0 ∧ s.symErrs = [] ∧ tagRefused s 0 (some 0) false = false ∧ mapLine s 0 (cdSbase o.words) = some 1 ∧ chanServes s 0 = true ∧ bookValid (memRead s.dram (lineKey 1) 128) = true) :=
  ⟨by decide, rests_of_bare _ _ rfl rfl rfl rfl rfl (by decide) (by decide) (by decide) rfl _ (by decide), by decide⟩

theorem test_codec_operations :
    (let t := demoAfter (.codecOpComplete 9 0 noErr) (demoCodecs (demoCodec 0x22 0)); memGet t.dram 264 = 7 ∧ memGet t.dram 256 = 0 ∧ t.codecOps = []) ∧
    (tblFind (sagOf (demoAfter (.codecOpComplete 9 0 noErr) (demoCodecs (demoCodec 0x26 3))) 0).books 3) = some demoBook := by decide

theorem witness_CodecIsLossless :
    (List.replicate 4096 (0 : Byte)).length = 4096 ∧ (splitOf 1).isSome = true ∧ bookValid demoBook = true ∧ tblFind [(63, demoBook)] 63 = some demoBook := by
  refine ⟨List.length_replicate .., by decide, by decide, by decide⟩

/-- R188 to R190 on a block of 64 zero bytes: the pieces that one codeword of the table costs. -/
theorem test_book : bookValid (List.replicate 128 0) = false ∧ bookValid (0x11 :: 0x01 :: List.replicate 126 0) = false := by decide

-- Homes, dies and bridges

def demoBytes : List Byte := (List.range 128).map (BitVec.ofNat 8)
def demoDie1 (y : List (Nat × FarLine)) : List Die := [{}, { far := y }, {}, {}]
def demoFarLine (st : FarSt) : FarLine := { line := 2, st, data := demoBytes }
/-- Die 1 holds line 2 of channel 0 as a far copy, which the filter names; messages and the home's line as given. -/
def demoFar (st : FarSt) (fab : List FabMsg) (h : List (Nat × HomeLine)) : State :=
  { demoState with
    dies := demoDie1 [(lineSlot 2, demoFarLine st)], filter := [(filtKey 1 2, { line := 2, unique := st != .fs })], fabric := fab, homes := h }

theorem sound_demo (s : State) (h : s.cores = [(0, demoCore demoLanes)]) (hm : s.dram = []) (hd : s.dies.length = 4) (ht : s.memStacks.length = 16)
    (hb : s.bridges.length = 14) (hp : s.xl.ports.length = 6) (he : s.xl.engines.length = 12) : Sound s :=
  sound_of_one s 0 _ h (by rw [hm]; decide) hd ht hb hp he rfl rfl rfl (by decide)

theorem unreserved_demo (s : State) (h : s.cores = [(0, demoCore demoLanes)]) (l : Nat) : Unreserved s l := by
  intro c hc u hu g hg n hn r hr
  rw [h] at hc
  have := (by decide : ∀ c ∈ [(0, demoCore demoLanes)], ∀ u ∈ c.2.subs, ∀ g ∈ u.slots, ∀ n ∈ g.2.lanes, n.rsv = none) c hc u hu g hg n hn
  rw [this] at hr; cases hr

def demoAdd : FarAtom := { op := .add, ofs := 4, wide := false, operands := [(1, 0), (2, 0)] }

def demoReserve (e : List RsvEntry) (st : NearSt) : State :=
  { demoState with dies := [{ near := [(nearKey 2 3, { demoLine with st })], rsvArray := e }, {}, {}, {}] }

theorem witness_HomeReads_HomeWrites_HomeFarOperations :
    Sound (demoHome (demoCore demoLanes)) ∧ StandsHome (demoHome (demoCore demoLanes)) 0 2 demoLine ∧ Unreserved (demoHome (demoCore demoLanes)) 2 ∧
    (∀ n, homeUsed (demoHome (demoCore demoLanes)) 2 n < 32) ∧ tblFind (dieOf (demoHome (demoCore demoLanes)) 1).far (lineSlot 2) = none ∧
    demoAdd.ofs.val % opBytes demoAdd.wide = 0 ∧ (dieOf (demoHome (demoCore demoLanes)) 0).rsvArray = [] ∧ RestsInDram demoState 2 none ∧ slotOpen (demoHome (demoCore demoLanes)) 1 2 = false ∧
    (let s := demoFar .fs [] [];
      farCopy s 1 2 = some (demoFarLine .fs) ∧ filtOf s 1 2 = some { line := 2, unique := false } ∧ homeCopy s 2 = none ∧ homeOf s 2 = {} ∧
      hostEntry s 2 = none ∧ running s = true ∧ slotOpen s 1 2 = false) ∧
    (∀ e, e ≠ 1 → filtOf (demoFar .fs [] []) e 2 = none) := by
  refine ⟨sound_demo _ rfl rfl rfl rfl rfl rfl rfl, demoHome_stands _, unreserved_demo _ rfl _, fun n => by show 0 < 32; decide, by decide, by decide, by decide,
    rests_of_bare demoState 2 rfl rfl rfl rfl rfl (by decide) (by decide) (by decide) rfl none (by decide), by decide, by decide, ?_⟩
  intro e he
  have : filtKey 1 2 ≠ filtKey e 2 := by simp only [filtKey]; omega
  simp [filtOf, demoFar, tblFind, this]

theorem test_home_requests :
    (demoAfter (.readUnique 1 2 .core 0 noErr) (demoHome (demoCore demoLanes))).fabric = [.dataE 1 2 demoLine.data false] ∧
    (let t := demoAfter (.atomFar 1 2 demoAdd noErr) (demoHome (demoCore demoLanes)); t.fabric = [.result 1 2 [0x07060504, 0x07060505]] ∧
      (homeCopy t 2).map (fun x => (x.st, x.data.getD 4 0)) = some (.hd, 7)) ∧
    (let t := demoAfter (.upgrade 1 2 noErr) (demoFar .fs [] []); filtOf t 1 2 = some { line := 2, unique := true } ∧ (homeOf t 2).hold = some (.die 1)) ∧
    (memRead (demoAfter (.writeNa .hub 2 0b110 [1, 2, 3, 4] noErr) demoState).dram 256 4) = [0, 2, 3, 0] := by decide

def demoClean : NmOp := { id := 9, sag := 0, ctx := 0, issuer := .node demoRef, words := [5, 256, 128], shares := [{ stack := 0, phase := .done }] }

theorem witness_HomeWork :
    StandsHome { demoReserve [] .hd with nmOps := [demoClean] } 0 2 { demoLine with st := .hd } ∧
    (let s := { demoReserve [] .hd with nmOps := [demoClean] };
      kindOf demoClean.words = 5 ∧ nmStoresDrained s demoClean = true ∧ demoClean.cleaned < nmStride demoClean.words / 128 ∧
      mapLine s 0 (nmBase demoClean.words + 128 * demoClean.cleaned) = some 2 ∧ chanServes s (lineChan 2) = true) ∧
    (let s := demoReserve [{ slice := lineSlice 2, pair := 1, mask := 2 }] .hc;
      homeCopy s 2 = some demoLine ∧ homeOf s 2 = {} ∧ hostEntry s 2 = none ∧ running s = true ∧ pairOf 2 = 1 ∧ BitVec.ofNat 4 (2 ^ 1) = 2 ∧
      (∀ c ∈ s.cores, ∀ u ∈ c.2.subs, ∀ g ∈ u.slots, ∀ n ∈ g.2.lanes, n.rsv = none)) ∧
    Sound (demoReserve [{ slice := lineSlice 2, pair := 1, mask := 2 }] .hc) := by
  refine ⟨?_, by decide, by decide, sound_demo _ rfl rfl rfl rfl rfl rfl rfl⟩
  have near : ∀ w y, w < 15 → tblFind (dieOf { demoReserve [] .hd with nmOps := [demoClean] } 0).near (nearKey 2 w) = some y → w = 3 := by
    have h : ∀ w : Fin 15, w.val ≠ 3 → tblFind (dieOf { demoReserve [] .hd with nmOps := [demoClean] } 0).near (nearKey 2 w.val) = none := by decide
    intro w y hw hy
    by_cases h3 : w = 3
    · exact h3
    · rw [h ⟨w, hw⟩ h3] at hy; cases hy
  exact ⟨by decide, by decide, fun w w' y y' hw hw' hy hy' _ _ => by rw [near w y hw hy, near w' y' hw' hy'], by decide, by decide, by decide,
    (fun m hm => by cases hm), by decide, fun e => rfl, (fun x hx => by cases hx), rfl⟩

theorem test_home_work :
    (let t := demoAfter (.homeClean 9 1 noErr) { demoReserve [] .hd with nmOps := [demoClean] };
      memGet t.dram 261 = 5 ∧ (homeCopy t 2).map (fun x => x.st) = some .hc ∧ t.nmOps.map (fun o => o.cleaned) = [1]) ∧
    (let t := demoAfter (.stxFar 1 2 8 false 0xAABBCCDD noErr) (demoReserve [{ slice := lineSlice 2, pair := 1, mask := 2 }] .hc);
      (homeCopy t 2).map (fun x => x.data.getD 8 0) = some 0xDD ∧ (dieOf t 0).rsvArray = []) ∧
    (homeCopy (demoAfter (.stxFar 1 2 8 false 0xAABBCCDD noErr) (demoReserve [] .hc)) 2).map (fun x => x.data.getD 8 0) = some 8 := by decide

def demoWaits (r : HomeReq) : List (Nat × HomeLine) := [(2, { txn := some { req := r, waiting := [.die 1], snooped := true, hit := false } })]
/-- The same with die 2 as a second holder in the filter. -/
def demoUpgrading (m : FabMsg) : State :=
  { demoFar .fs [m] (demoWaits (.upgrade 2)) with
    dies := List.replicate 4 {}, filter := [(filtKey 1 2, { line := 2, unique := false }), (filtKey 2 2, { line := 2, unique := false })] }

/-- A request of die 1 to H's cone is on its way over a bridge, and bridge 0 waits for a replay. -/
theorem witness_HomeReplies_bridges :
    ((List.finRange 14).filter (fun b => bridgePending { demoState with fabric := [.snpShared 1 2] } b 1)).isEmpty = false ∧
    (∀ c, bridgePending { demoState with bridges := listSet (List.replicate 14 {}) 0 { resend := true } } 0 c = true) ∧
    (∀ c, bridgePending demoState 0 c = false) := by decide

theorem witness_DieSnoops_DieReplies_HomeReplies :
    (∀ m ∈ [FabMsg.snpShared 1 2, .snpInvalidate 1 2, .snpClean 1 2], ∀ st ∈ [FarSt.fs, .fe, .fm],
      grantOnWay (demoFar st [m] []) 1 2 = false ∧ farCopy (demoFar st [m] []) 1 2 = some (demoFarLine st)) ∧
    Unreserved (demoFar .fm [] []) 2 ∧ Sound (demoFar .fm [] []) ∧
    (farCopy demoState 1 2 = none ∧ lineDie 2 ≠ 1 ∧ tblFind (dieOf demoState 1).far (lineSlot 2) = none) ∧
    (filtOf { demoState with filter := [(filtKey 1 2, { line := 2, unique := false })] } 1 2).isSome = true ∧
    (let s := demoFar .fs [.snpData (.die 1) 2 true demoBytes] (demoWaits (.readNa (.die 3)));
      running s = true ∧ homeOf s 2 = { txn := some { req := .readNa (.die 3), waiting := [.die 1], snooped := true, hit := false } } ∧ homeCopy s 2 = none ∧
      demoBytes.length = 128 ∧ chanServes s (lineChan 2) = true ∧ tagRefused s (lineChan 2) none false = false) ∧
    (∀ m ∈ [FabMsg.snpAck (.die 1) 2 false, .notPresent (.die 1) 2], (filtOf (demoUpgrading m) 1 2).isSome = true ∧ (filtOf (demoUpgrading m) 2 2).isSome = true ∧
      homeCopy (demoUpgrading m) 2 = none) ∧
    (let s := demoFar .fm [] []; farCopy s 1 2 = some (demoFarLine .fm) ∧ writeBacks s 1 2 < 16 ∧ lineDie 2 ≠ 1 ∧ homeCopy s 2 = none ∧ farCopy demoState 1 2 = none ∧ (wayMask s 2 .core).getLsbD 0 = true ∧
      tblFind (dieOf s (lineDie 2)).near (nearKey 2 0) = none) :=
  ⟨by decide, unreserved_demo _ rfl _, sound_demo _ rfl rfl rfl rfl rfl rfl rfl, by decide, by decide, by decide, by decide, by decide⟩

theorem test_replies :
    (let t := demoAfter (.snpInvalidate 1 2 noErr) (demoFar .fm [.snpInvalidate 1 2] []); (match t.fabric with | [.snpData (.die 1) 2 false d] => d.getD 9 0 == 9 | _ => false) = true ∧ farCopy t 1 2 = none) ∧
    (demoAfter (.snpShared 1 2 noErr) { demoState with fabric := [.snpShared 1 2] }).fabric = [.notPresent (.die 1) 2] ∧
    (let t := demoAfter (.snpData (.die 1) 2 noErr) (demoFar .fs [.snpData (.die 1) 2 true demoBytes] (demoWaits (.readNa (.die 3))));
      memGet t.dram 263 = 7 ∧
      (match t.fabric with | [.dataS (.die 3) 2 d false] => d.getD 9 0 == 9 | _ => false) = true) ∧
    (let t := demoAfter (.notPresent (.die 1) 2 noErr) (demoUpgrading (.notPresent (.die 1) 2)); t.fabric = [.grant (.die 2) 2 true true] ∧ (dieOf t 0).stale = 1) := by decide

theorem test_write_back :
    (demoAfter (.writeBack 1 2 noErr) (demoFar .fm [] [])).fabric = [.writeBack 1 2 demoBytes] ∧
    (homeCopy (demoAfter (.writeBack 1 2 noErr) { demoState with fabric := [.writeBack 1 2 demoBytes] }) 2).map (fun x => x.st) = some .hd ∧
    ((demoAfter (.bridgeFlit 3 ⟨true, 0, 0, false⟩) demoState).bridges.getD 3 {}).rxSeq = 1 := by decide

theorem test_snoop_timeout :
    (let t := demoAfter (.snoopTimeout 2) (demoFar .fs [] (demoWaits (.readNa (.die 3)))); t.ras.domain = .stopped ∧ t.ras.lastStop = 6 ∧ t.dl.pending.getLsbD 17 = true) := by
  decide

-- Contexts, objects, fence pages, copies

/-- The object port with operands; context 0 is OPEN with tag 0, objects 1 (device memory) and 2 (host memory), fence page 0. -/
def demoPort (a0 a1 a2 : Nat) : State :=
  { demoOffer [] with
    fe := State.reset.fe
    sags := [(0, { st := .open, chans := [0x10001, 0, 0, 0], qContexts := 2, qObjects := 3, qPages := 2 })]
    obj := { (demoOffer []).obj with arg0 := BitVec.ofNat 64 a0, arg1 := BitVec.ofNat 64 a1, arg2 := BitVec.ofNat 64 a2 } }
def demoBareCtx : State := { demoPort 0 0 0 with obj := { (demoPort 0 0 0).obj with objs := [], pages := [] } }

theorem witness_Objects :
    (accepting (demoPort 0 0 0) = true ∧ (demoPort 0 0 0).obj.port.busy = false ∧ exists_ (sagOf (demoPort 0 0 0) 0) = true ∧
      (ctxOf (demoPort 0 0 0) 1).st = .free ∧ (ctxOf (demoPort 0 0 0) 0).st ≠ .free ∧ ctxCount (demoPort 0 0 0) 0 < (sagOf (demoPort 0 0 0) 0).qContexts.toNat) ∧
    (tagCurrent demoBareCtx 0 = true ∧ demoBareCtx.fe.rings = [] ∧ demoBareCtx.obj.objs = [] ∧ demoBareCtx.obj.pages = []) ∧
    (∀ a ∈ [(0, 1), (128, 2 ^ 33 - 128)], a.1 % 128 = 0 ∧ 0 < a.2 ∧ a.1 + a.2 ≤ carveSize (demoPort a.1 a.2 2) 0 ∧
      objCount (demoPort a.1 a.2 2) 0 < (sagOf (demoPort a.1 a.2 2) 0).qObjects.toNat ∧ tblFind (demoPort a.1 a.2 2).obj.objs 0 = none) ∧
    (let s := demoPort 65537 0 0; (objOf s 1).st = .live ∧ (objOf s 1).tag = 0 ∧ isGraphStore s 1 = false ∧ liveNodes s = [] ∧ ctxLaunches s 0 = []) ∧
    (let s := demoOffer [] ; (liveNodes { s with fe := { s.fe with rings := [(5, { entries := [{ st := .started, objs := [1] }] })] } }).any (fun z => z.objs.contains 1) = true) ∧
    (pageCount (demoPort 1 0 0) 0 < (sagOf (demoPort 1 0 0) 0).qPages.toNat ∧ tblFind (demoPort 1 0 0).obj.pages 1 = none ∧
      tblFind (demoPort 1 0 0).obj.pages 0 ≠ none) ∧
    (let s := demoPort 0 0 0; (pageOf s 0).st = .live ∧ (pageOf s 0).owner = 0 ∧ pageHeld s 0 = false ∧ (ctxOf s 0).st = .open) := by decide

def demoObjs (x : Obj) (p : FencePage) : State :=
  { demoPort 0 0 0 with obj := { (demoPort 0 0 0).obj with objs := [(1, x)], pages := [(0, p)] } }

theorem witness_ObjectEvents :
    (let s := { demoPort 0 0 0 with obj := { (demoPort 0 0 0).obj with port := { busy := true } } }; s.obj.port.busy = true) ∧
    tagCurrent (demoPort 0 0 0) 0x1000 = false ∧
    (let s := demoObjs { st := .draining } {}; (objOf s 1).st = .draining ∧ holdCount s 1 = 0 ∧ (ctxOf s 0).st ≠ .closing) ∧
    (let s := demoObjs { st := .scrubbing, base := 256, len := 128 } {};
      (objOf s 1).st = .scrubbing ∧ (objOf s 1).len.toNat % 128 = 0 ∧ s.homes = [] ∧ s.fabric = [] ∧
      unmapKey (ownedChannels (sagOf s 0)) (lineKey 2) = some 256) ∧
    (let s := demoObjs {} { st := .draining }; (pageOf s 0).st = .draining ∧ pageHeld s 0 = false) := by decide

theorem test_objects :
    (demoAfter (.ctxOpen 0 .ended) (demoPort 0 0 0)).obj.port.result = 0x1001 ∧
    (let t := demoAfter (.objCreate 0 .ended) (demoPort 256 640 2); t.obj.port.result = 0 ∧ (objOf t 0).ro = true ∧ (objOf t 0).len = 640) ∧
    (demoAfter (.objCreate 0 .ended) (demoPort 100 640 2)).obj.port.status ≠ 0 ∧
    (objOf (demoAfter (.objFree 0 .ended) (demoPort 65537 0 0)) 1).st = .scrubbing ∧
    (pageOf (demoAfter (.fenceAlloc 0 .ended) (demoPort 1 0 0)) 1) = { st := .live, remote := true } ∧
    (demoAfter (.objQuery 0x10000000 .ended) (demoPort 0 0 0)).obj.port.status = 3 ∧
    (fenceOf (demoAfter (.fncSignal 3 0xFF 5) (demoPort 0 0 0)) 3).value = 5 ∧ (fenceOf (demoAfter (.fncSignal 3 0x0F 5) (demoPort 0 0 0)) 3).value = 0 := by decide

theorem test_scrub :
    (let t := demoAfter (.objectScrubComplete 1) { demoObjs { st := .scrubbing, base := 256, len := 128 } {} with dram := [(255, 1), (256, 2), (383, 3), (384, 4)] };
      t.dram = [(255, 1), (384, 4)] ∧
      (objOf t 1).st = .free) := by decide

def demoJob (ws : List W64) (key : Option (List Byte)) : CopyJob := { id := 7, node := demoRef, words := ws, sag := 0, ctx := 0, engine := 1, key }
/-- The job on engine 1: object 1 is the first 64 KiB of device memory, object 2 is host memory; line 2 stands as a home copy. -/
def demoCopying (ws : List W64) (key : Option (List Byte)) : State :=
  { demoHome (demoCore demoLanes) with
    obj := (demoOffer []).obj, fe := { State.reset.fe with copies := [demoJob ws key] }, sags := (demoOffer []).sags }
/-- COPY of 8 bytes within object 1 from 260 to 520; FILL of 16 bytes at 512; SEALED_LOAD of 16 bytes from object 1 at 256 to 512; COPY of 8 bytes from object 2 to 520. -/
def demoMove : List W64 := [0x100010041, 260, 520, 8]
def demoFill : List W64 := [0x100000141, 0, 512, 16, 0x0807060504030201]
def demoLoadSealed : List W64 := [0x100010A41, 256, 512, 16]
def demoMoveHost : List W64 := [0x100020041, 0, 520, 8]

theorem demoCopying_rests (ws : List W64) (key : Option (List Byte)) : RestsInDram (demoCopying ws key) 4 (some 0) := by
  have near : ∀ w : Fin 15, tblFind [(nearKey 2 3, demoLine)] (nearKey 4 w.val) = none := by decide
  refine ⟨?_, rfl, (fun m h => by cases h), rfl, fun _ => rfl, (fun e h => by cases h), unreserved_demo _ rfl _, ?_, rfl, rfl, rfl⟩
  · show homeCopy (demoHome (demoCore demoLanes)) 4 = none
    decide
  · show chanServes (demoHome (demoCore demoLanes)) (lineChan 4) = true
    decide

theorem witness_CopyEngines :
    (∀ ws ∈ [demoMove, demoFill, demoLoadSealed, demoMoveHost], let s := demoCopying ws none;
      let b := (objOf s (field (word ws 0) 32 16)).base.toNat + copyDstOfs ws;
      (objOf s (field (word ws 0) 32 16)).host = false ∧ 0 < copyLen ws ∧ b % 128 + copyLen ws ≤ 128 ∧ mapLine s 0 (b / 128 * 128) = some 4 ∧ s.fe.copies = [demoJob ws none]) ∧
    RestsInDram (demoCopying demoMove none) 4 (some 0) ∧ StandsHome (demoCopying demoMove none) 0 2 demoLine ∧
    (copyMode demoMove = 0 ∧ (objOf (demoCopying demoMove none) 1).host = false ∧ mapLine (demoCopying demoMove none) 0 (260 / 128 * 128) = some 2) ∧
    copyMode demoFill = 1 ∧ copyMode demoLoadSealed = 2 ∧ copyMode demoMoveHost = 0 ∧ (objOf (demoCopying demoMoveHost none) 2).host = true ∧
    ((demoCopying demoMoveHost none).dl.waiting = [] ∧ (demoCopying demoMoveHost none).dl.tags = []) :=
  ⟨by decide, demoCopying_rests _ _, demo_stands _ rfl rfl rfl rfl rfl rfl, by decide, by decide, by decide, by decide, by decide, by decide⟩

def demoHeader : List Byte := leBytes 4 0x57535848 ++ leBytes 4 1 ++ leBytes 4 16 ++ List.replicate 48 0 ++ leBytes 4 2138092716
def demoCipher : List Byte := [191, 52, 154, 223, 113, 62, 5, 184, 155, 112, 152, 78, 125, 41, 207, 78]
def demoSeal : List Byte := [177, 105, 5, 207, 102, 0, 206, 54, 155, 250, 144, 91, 92, 13, 38, 37]

/-- The image that a SEALED_LOAD of 16 bytes reads, which lies in one line; and the published example of AES-256-GCM with a key, a nonce and a block of zeros. -/
theorem witness_CopyEngines_sealed :
    (demoHeader ++ demoCipher ++ demoSeal).length = 80 + 16 ∧ sealedHeaderOk demoHeader 16 = true ∧
    gcmOpen (List.replicate 32 1) ((demoHeader.drop 16).take 8 ++ leBytes 4 0) demoHeader demoCipher demoSeal = some ((List.range 16).map (BitVec.ofNat 8)) ∧
    gcmOpen (List.replicate 32 0) (List.replicate 12 0) []
      [0xCE, 0xA7, 0x40, 0x3D, 0x4D, 0x60, 0x6B, 0x6E, 0x07, 0x4E, 0xC5, 0xD3, 0xBA, 0xF3, 0x9D, 0x18]
      [0xD0, 0xD1, 0xC8, 0xA7, 0x99, 0x99, 0x6B, 0xF0, 0x26, 0x5B, 0x98, 0xB5, 0xD4, 0x8A, 0xB9, 0x19] = some (List.replicate 16 0) := by decide +kernel

theorem test_copies :
    memRead (demoAfter (.copyComplete 1 noErr) (demoCopying demoMove none)).dram 520 4 = [4, 5, 6, 7] ∧
    memRead (demoAfter (.copyComplete 1 noErr) (demoCopying demoFill none)).dram 518 4 = [7, 8, 1, 2] ∧
    ((demoAfter (.copyComplete 1 noErr) (demoCopying demoMoveHost none)).dl.waiting.map (fun q => (q.addr, q.len))) = [(0, 16)] ∧
    memRead (demoAfter (.copyComplete 1 noErr) { demoCopying demoMoveHost none with
      fe := { State.reset.fe with copies := [{ demoJob demoMoveHost none with asked := 8, got := [(0, [1, 2, 3, 4, 5, 6, 7, 8])] }] } }).dram 520 2 = [1, 2] := by
  decide

-- Xator

def demoUp : XlPort := { st := .up }
/-- A slice of the modules (0,0,0), this one, and (1,0,0) beyond port 0, which is UP, as is port 1; counter 4 is saggar 0's; page 0 takes remote signals. -/
def demoTorus (p : XlPort) : State :=
  { demoState with
    sags := [(0, { st := .open, chans := [0x10001, 0, 0, 0], qGraphs := 1, qRings := 1, linkKey := some (List.replicate 32 0) })]
    fe := { State.reset.fe with rings := [(5, { st := .active, tail := 1, next := 1, entries := [{ words := demoLink, st := .started }] })] }
    obj := { (demoOffer []).obj with pages := [(0, { st := .live, remote := true })] }
    xl := { State.reset.xl with
      ports := [p, demoUp, {}, {}, {}, {}], slices := [(0, { valid := true, exM1 := 1, sliceId := 7 })], cones := [(4, { assigned := true, value := 100 })] } }

theorem demoTorus_sound (p : XlPort) : Sound (demoTorus p) := sound_demo _ rfl rfl rfl rfl rfl rfl rfl

def demoPeer : PeerId := { vendor := 0x4E47, part := 0x0940, rack := 9, slot := 1, port := 1, coord := 1 }
def demoPlan : PlanReg := { mode := 1, port := 1, slot := 1, rack := 9 }
/-- No slice is configured. -/
def demoAlone (p : XlPort) : State := { demoTorus p with xl := { (demoTorus p).xl with slices := [] } }

theorem witness_XatorPortsAndSlices :
    (∀ st ∈ [PortSt.up, .swap, .test], (portOf (demoTorus { st }) 0).st = st) ∧
    (let s := demoTorus { st := .up }; (portOf s 0).swapThresh ≠ 0 ∧ recoveries s = [] ∧ (portOf s 0).sparesUsed < 2) ∧
    (let s := demoAlone { st := .up, sparesUsed := 2 }; 2 ≤ (portOf s 0).sparesUsed ∧ ∀ k : Fin 16, (sliceOf s k.val).valid = false) ∧
    (let s := demoTorus { plan := demoPlan }; ready s = true ∧ (portOf s 0).plan.mode = 1 ∧ demoPeer.rack = (portOf s 0).plan.rack ∧ demoPeer.slot = demoPlan.slot ∧
      demoPeer.port = demoPlan.port ∧ wireNeighbour s 0 = some demoPeer.coord ∧ demoPeer.coord ≠ s.xl.coord) ∧
    (portOf (demoTorus { st := .training }) 0).st = .training ∧ (demoAlone {}).ras.repair.length < 327680 ∧
    (∀ v ∈ [0, 0x30C3, 0x100007], v % 64 < 4 * (v / 2 ^ 20 % 16 + 1) ∧ v / 64 % 64 < 4 ∧ v / 4096 % 64 < 4) ∧
    (∀ x ∈ (demoTorus {}).xl.ports, x.st ≠ .training) ∧ State.reset.xl.ports.all (fun x => x.st == .unused) = true ∧
    (let s := demoTorus {}; (sagOf s 0).st ≠ .sealed ∧ (sagOf s 0).slice = none ∧ (sliceOf s 0).valid = true ∧ (sliceOf s 0).stopped = false ∧
      sliceOk s { (sliceOf s 0) with exM1 := 9 } = false ∧ sliceOk s (sliceOf s 0) = true ∧ exists_ (sagOf s 0) = true ∧
      (s.xl.cones.map (fun x => x.1)).Nodup ∧ s.fe.waits = [] ∧ waitedCones s = [] ∧ s.xl.seen = [] ∧ portServes (portOf s 1) = true ∧
      (∀ q ∈ s.xl.ports, q.st = .up → q.ctl = [] ∧ q.rsp = [] ∧ q.req = [] ∧ q.stopped = false ∧ (∀ x ∈ q.owed, x = 0) ∧ hasCredit q 4 1 = true ∧ unacked q + 7 ≤ 2047) ∧
      inInput { demoUp with input := [.sliceStop 7 1 0] } (.sliceStop 7 1 0) = true ∧
      (∀ e ∈ s.xl.engines, e.jobs = [])) ∧
    (isSealed (demoSealed []) 0 = true) := by decide

theorem witness_ConeWake :
    let h : HeldOp := { lanes := 1, guarded := 1, pc := 0, op := .cone 4 100 }
    let s := { demoTorus {} with cores := [(0, demoCore (List.replicate 32 (demoLane [])) [h])] }
    (s.cores.map (fun x => x.1)).Nodup ∧ (∀ x ∈ s.cores, heldOps x.2 = if x.1 = 0 then [(0, 0, h)] else []) ∧ (coneOf s 4).assigned = true ∧
      ((coneOf s 4).value - 100).toNat < 2 ^ 47 ∧ (grpOf (subOf (coreOf s 0) 0) 0).held = [h] ∧ (grpOf (subOf (coreOf s 0) 0) 0).lanes.length = 32 ∧
      (laneOf (grpOf (subOf (coreOf (demoAfter (.coneWaitWake 4) s) 0) 0) 0) 0).pc = 8 := by decide

theorem test_ports :
    (portOf (demoAfter (.xlFlitReceive 0 []) (demoTorus { st := .up, rxSeq := 5 })) 0).tx = [{ seq := 0, acked := 4, credits := [], body := .replay 5 }] ∧
    (portOf (demoAfter (.xlPortTrain 0 ⟨none, 2, some demoPeer⟩) (demoTorus { plan := demoPlan })) 0).st = .up ∧
    (portOf (demoAfter (.xlPortTrain 0 ⟨none, 3, none⟩) (demoTorus { plan := demoPlan })) 0).st = .trainFail ∧
    (portOf (demoAfter (.xlPortTrain 0 ⟨none, 0, some { demoPeer with port := 2 }⟩) (demoTorus { plan := demoPlan })) 0).st = .checkFail ∧
    (portOf (demoAfter (.xlLaneSwap 0 3 .threshold) (demoAlone { st := .up, sparesUsed := 2 })) 0).st = .down := by decide

def demoFlit (body : XlBody) : List Byte := flitBytes { seq := 5, acked := 3, credits := [(1, 4)], body }

/-- A flit is read from the bytes that it is written as, one whose last byte has changed is none, and a port takes the next one and its credits. -/
theorem test_flits :
    parseFlit (demoFlit (.units (List.replicate 16 7))) = some { seq := 5, acked := 3, credits := [(1, 4)], body := .units (List.replicate 16 7) } ∧
    parseFlit (demoFlit (.replay 4)) = some { seq := 5, acked := 3, credits := [(1, 4)], body := .replay 4 } ∧
    parseFlit (listSet (demoFlit (.replay 4)) 20 1) = none ∧
    (let p := portOf (demoAfter (.xlFlitReceive 0 (demoFlit (.units []))) (demoTorus { st := .up, rxSeq := 5, used := [0, 9, 0, 0, 0] })) 0;
      p.rxSeq = 6 ∧ p.acked = 3 ∧ p.used = [0, 5, 0, 0, 0]) := by decide +kernel

theorem test_slices :
    (let t := demoAfter (.xlSliceStatusStop 0) (demoTorus {}); (sliceOf t 0).stopped = true ∧ (coneOf t 4).assigned = false ∧
      t.xl.seen = [(7, 0)] ∧ (portOf t 0).tx = []) ∧
    (let t := demoAfter (.xlSliceStatusStop 0) (demoTorus demoUp); (portOf t 0).tx.map (fun f => f.body) = [.sliceStop 7 0 2] ∧ (portOf t 1).tx = []) ∧
    (sliceOf (demoAfter (.xlSliceWrite 0 0xFF 0x8024000000) (demoTorus {})) 0).rejectCount = 1 ∧
    (coneOf (demoAfter (.xlConeWrite 4 0xFF 0x10000000000007) (demoTorus {})) 4) = { assigned := true, value := 7 } := by decide

def demoLinkPacket (ptype : BitVec 8) (lenM1 : BitVec 11) (addr : BitVec 48) (payload : List Byte) : Packet :=
  { ptype, partition := 0, epoch := 0, dst := 0, src := 1, lenM1, ctr := 4, accEtype := if ptype = 2 then 8 else 0, vc := 0, reason := 0, tracker := 0
    dstAddr := addr, seq := 0, payload, tag := [], resBad := false }
/-- The packet has come in at port 1. -/
def demoArrives (pk : Packet) (s : State) : State := modPort s 1 (fun p => { p with input := [.packet pk] })
def demoWrite : Packet := demoLinkPacket 1 3 260 [1, 2, 3, 4]
def demoSignalIn : Packet := demoLinkPacket 3 15 0 ([3, 0] ++ List.replicate 6 0 ++ [9] ++ List.replicate 7 0)

-- The packets sealed under the link key of saggar 0: AES-256-GCM with a key of zeros and the nonce 1, 0

def demoWriteIn : Packet := { demoWrite with payload := beBytes 4 0xA78AA03E, tag := beBytes 16 0x962839D23D20C0F8D25C7A6E7116797B }
def demoAccIn : Packet := { demoLinkPacket 2 3 260 [] with payload := beBytes 4 0xA78AA03E, tag := beBytes 16 0xD0250F2CFB20453A6D17B55AE39B4B27 }
def demoRemoteIn : Packet := { demoSignalIn with payload := beBytes 16 0xA588A33A6F63C32708EC8D6356366DEF, tag := beBytes 16 0x4B476FDD5BA829F7411C74D8F3DD2E5C }
def demoAckIn : Packet := { demoLinkPacket 4 0 0 [] with tag := beBytes 16 0xB6CA35DB780D211656B56C4706A7BD5A }
def demoNackIn : Packet := { demoLinkPacket 5 0 0 [] with reason := 7, tag := beBytes 16 0xC23099CC116EBB298C7885EF9D7E66A0 }

theorem demoTorus_rests (p : XlPort) : RestsInDram (demoTorus p) 2 (some 0) :=
  rests_of_bare (demoTorus p) 2 rfl rfl rfl rfl rfl (by decide : ∀ c ∈ demoState.cores, _) (by show chanServes (demoTorus {}) (lineChan 2) = true; decide)
    rfl rfl _ rfl

def demoLinkJob (open_ cut : Nat) : LinkJob :=
  { id := 6, graph := none, ring := 5, seq := 0, sag := 0, ctx := 0, words := [0x20042, 0, 0, 64, 1], signal := false, cut, open_ }
def demoLinking (open_ cut : Nat) (tr : Tbl Tracker) : State :=
  { demoTorus demoUp with
    xl := { (demoTorus demoUp).xl with engines := { jobs := [demoLinkJob open_ cut], trackers := tr } :: List.replicate 11 {} } }
def demoTracker : Tracker := { job := 6, sag := 0, addr := 0 }

theorem witness_XatorPackets :
    (let s := demoArrives demoWriteIn (demoTorus demoUp);
      portServes (portOf s 1) = true ∧ inInput (portOf s 1) (.packet demoWriteIn) = true ∧ demoWriteIn.dst = s.xl.coord ∧ routePort s (sliceOf s 0) 1 = some 0 ∧
      260 % 128 + 4 ≤ 128 ∧ mapLine s 0 (260 / 128 * 128) = some 2 ∧ mapAddr s 0 (260 / 128 * 128) = some (0, 256)) ∧
    (∀ ty ∈ [1, 2, 3, 4, 5], pkReason (demoTorus demoUp) { demoLinkPacket (BitVec.ofNat 8 ty) 3 0 [] with resBad := true } ≠ 0) ∧
    Sound (demoTorus demoUp) := ⟨by decide, by decide, demoTorus_sound _⟩

theorem witness_XatorPackets_open :
    (∀ pk ∈ [demoWriteIn, demoAccIn, demoRemoteIn, demoAckIn, demoNackIn], pkReason (demoTorus demoUp) pk = 0) ∧
    openPacket (demoTorus demoUp) demoWriteIn = some [1, 2, 3, 4] := by decide +kernel

theorem witness_XatorPackets_rest :
    RestsInDram (demoTorus demoUp) 2 (some 0) ∧
    (∀ o ∈ [1, 2], let s := demoLinking o 64 [(0, demoTracker)]; (s.xl.engines.getD 0 {}).jobs.length = 1 ∧ tblFind (s.xl.engines.getD 0 {}).trackers 0 = some demoTracker ∧
      (ringOf s 5).st = .active) ∧
    (let s := demoTorus demoUp; let pk := { demoWrite with dst := 1, src := 0, tag := List.replicate 16 0 };
      pk.dst ≠ s.xl.coord ∧ headerBad pk = false ∧ payloadBad pk = false ∧ headerBad { pk with resBad := true } = true ∧ routePort s (sliceOf s 0) pk.dst = some 0 ∧ routerCut s 1 0 = false ∧
      inSlice (sliceOf s 0) pk.src = true ∧ inSlice (sliceOf s 0) pk.dst = true) ∧
    (let s := demoLinking 0 0 []; let ws : List W64 := [0x20042, 0, 0, 64, 1];
      (s.xl.engines.getD 0 {}).trackers = [] ∧ linkOp ws = 0 ∧ 0 < linkLen ws ∧ routePort s (sliceOf s 0) (jobDst ws) = some 0 ∧ (portOf s 0).st = .up ∧
      (portOf s 0).stopped = false ∧ (objOf s (field (word ws 0) 16 16)).host = true ∧ nextPayload (demoLinkJob 0 0) ≤ 64) :=
  ⟨demoTorus_rests _, by decide, by decide, by decide⟩

theorem witness_XlOutput_XlEncoding :
    (∀ st ∈ [PortSt.swap, .up], (portOf (demoTorus { st }) 0).st = st) ∧ (portOf (demoTorus { st := .up, stopped := true }) 0).stopped = true ∧
    (let pk := { demoLinkPacket 4 0 0 [] with tag := List.replicate 16 0 };
      hasCredit { demoUp with used := [127744, 1024, 1024, 1024, 256] } pk.vc.toNat (packetUnits pk) = false ∧ hasCredit demoUp pk.vc.toNat (packetUnits pk) = true ∧
      unacked demoUp + 7 ≤ 2047 ∧ demoUp.ctl = [] ∧ demoUp.rsp = [] ∧ demoUp.req = [] ∧ (∀ x ∈ demoUp.owed, x = 0) ∧ payloadBad pk = false ∧ pk.resBad = false) := by
  decide

/-- Table 13-4: the 48 B of a WRITE's header and its payload in whole units, and the packet again. -/
theorem test_packet_bytes :
    let pk := { demoWrite with tag := List.replicate 16 9 }
    (packetBytes pk).take 32 = [1, 0, 0, 0, 0, 1, 0, 0, 3, 0, 4, 0, 0, 0, 0, 0, 4, 1, 0, 0, 0, 0, 0, 0, 0, 0, 0, 0, 0, 0, 0, 0] ∧
    (packetBytes pk).drop 48 = [1, 2, 3, 4] ++ List.replicate 12 0 ∧ takePackets 1 (packetBytes pk ++ [5]) = ([pk], [5]) := by decide

def demoPacketIn (pk : Packet) (c : Packet → Instr) : State := demoAfter (c pk) (demoArrives pk (demoTorus demoUp))

theorem test_write :
    let t := demoPacketIn demoWriteIn (fun pk => .write 1 pk noErr)
    memRead t.dram 260 4 = [1, 2, 3, 4] ∧ (coneOf t 4).value = 104 ∧ (portOf t 0).tx.length = 1 ∧ (portOf t 1).input = [] := by decide +kernel

/-- A packet of another epoch is discarded unopened, and so is one whose tag is not the one of its bytes (R351, R352). -/
theorem test_packets_discarded :
    (let t := demoAfter (.ack 1 { demoAckIn with epoch := 1 }) (demoArrives { demoAckIn with epoch := 1 } (demoTorus demoUp));
      t.xl.discardCount = 1 ∧ t.xl.epochCount = 1 ∧ t.xl.lastReason = 4) ∧
    pkReason (demoTorus demoUp) { demoWriteIn with seq := 1 } = 5 := by decide +kernel

theorem test_acc_and_signal :
    ((stackOf (demoPacketIn demoAccIn (fun pk => .writeAcc 1 pk noErr)) 0).accQueue.map (fun u => u.vals)) = [[0x04030201]] ∧
    (fenceOf (demoPacketIn demoRemoteIn (fun pk => .remoteSignalPacket 1 pk)) 3).value = 9 := by decide +kernel

def demoSettle (pk : Packet) (c : Packet → Instr) : Ring :=
  ringOf (demoAfter (c pk) (demoArrives pk (demoLinking 1 64 [(0, demoTracker)]))) 5

theorem test_answers :
    ((demoSettle demoAckIn (fun pk => .ack 1 pk)).entries.map (fun e => e.st)) = [.completed] ∧
    (demoSettle demoNackIn (fun pk => .nack 1 pk)).st = .faulted := by decide +kernel

theorem test_link_nodes :
    (ringOf (demoAfter (.linkPacketTimeout 0 0) (demoLinking 1 64 [(0, demoTracker)])) 5).st = .faulted ∧
    (let t := demoAfter (.linkPacketSend 0 ⟨leBytes 64 5, false⟩ noErr) (demoLinking 0 0 []);
      ((t.xl.engines.getD 0 {}).jobs.map (fun j => (j.cut, j.open_))) = [(64, 1)] ∧ (sagOf t 0).sent = 1) := by decide +kernel

/-- Between the edge dies a dead bridge of theirs to H cuts the through-traffic of a stopped device; on one edge die it does not. -/
theorem test_router_cut :
    (let s := { demoTorus {} with ras := { (demoTorus {}).ras with domain := .stopped, deadBridges := [8] } };
      routerCut s 2 3 = true ∧ routerCut s 0 2 = false ∧ routerCut s 4 5 = false) ∧
    routerCut (demoTorus {}) 2 3 = false := by decide

-- Saggars, the mailbox, the Derset link

/-- Saggar 0 with cluster 0 and channels 0 and 16, in a state; its channels are free or owned with key tags. -/
def demoSagOf (st : SagSt) : Saggar := { st, clusters := 1, chans := [0x10001, 0, 0, 0], coneFirst := 4, coneCount := 1 }
def demoPart (st : SagSt) : State :=
  { State.reset with
    cores := [(0, { partition := if st = .none then none else some 0 })]
    ras := { State.reset.ras with phase := 8 }
    sags := [(0, demoSagOf st)]
    chans := [(0, { st := if st = .none then .free else .owned, partition := if st = .none then none else some 0 }), (16, { st := if st = .none then .free else .owned })]
    dl := { State.reset.dl with st := .up }
    dram := [(5, 1), (2 ^ 32, 9)] }
def demoWaitRemove : State := { demoPart .resetting with sags := [(0, { demoSagOf .resetting with destroyWaits := true })] }

theorem demoPart_sound (st : SagSt) : Sound (demoPart st) :=
  sound_of_one _ 0 { partition := if st = .none then none else some 0 } rfl
    (by show memSortedFrom 0 [(5, 1), (2 ^ 32, 9)] = true; decide) rfl rfl rfl rfl rfl rfl rfl rfl (fun u hu g hg => by
      rw [List.eq_of_mem_replicate hu] at hg; cases hg)

theorem witness_PartitionCommands :
    (∀ st ∈ [SagSt.none, .open, .sealed, .resetting], let s := demoPart st;
      s.pt.port.busy = false ∧ roleFails s 0 = false ∧ accepting s = true ∧ (sagOf s 0).st = st ∧ (sagOf s 0).reserved = [] ∧ (sagOf s 0).sealing = false ∧
      (sagOf s 0).destroyWaits = false ∧ ringsOf s 0 = [] ∧ s.fe.copies = [] ∧ s.fe.graphs = [] ∧ s.fabric = [] ∧ sagWaits s 0 = false ∧ s.memStacks.all (fun k => k.accQueue.isEmpty) = true ∧
      (∀ q ∈ ownedChannels (sagOf s 0), (chanOf s q).tg.busy = false) ∧ (s.cores.map (fun c => c.1)).Nodup ∧ (s.chans.map (fun c => c.1)).Nodup ∧
      (coreOf s 0).st ≠ .retiring ∧ s.obj.objs = [] ∧ (sliceOf s 0).valid = false ∧ 16 ∈ ownedChannels (sagOf s 0)) ∧
    (let s := demoPart .none; geometryOk (sagOf s 0) = true ∧ claimedByOther s 0 = false ∧ present s (sagOf s 0) = true ∧ oneEcc s (sagOf s 0) = true) ∧
    exists_ (demoSagOf .open) = true ∧ exists_ (demoSagOf .sealed) = true ∧
    (let s := demoWaitRemove; running s = true ∧ (sagOf s 0).st = .resetting ∧ (sagOf s 0).destroyWaits = true ∧ (sagOf s 0).wasSealed = false ∧ sagWaits s 0 = false) ∧
    roleFails { demoPart .open with ras := { (demoPart .open).ras with running := some (.failover 0) } } 0 = true := by decide

theorem witness_Partitions_sound : Sound (demoPart .none) ∧ Sound (demoPart .open) ∧ Sound (demoPart .sealed) :=
  ⟨demoPart_sound _, demoPart_sound _, demoPart_sound _⟩

theorem test_partitions :
    (let t := demoAfter (.create 0 .ended) (demoPart .none);
      (sagOf t 0).st = .open ∧ (chanOf t 0).tag = some ⟨0, 0⟩ ∧ t.dram = [(2 ^ 32, 9)] ∧ (coneOf t 4).assigned = true ∧ (coreOf t 0).partition = some 0 ∧ (coreOf t 16).partition = none) ∧
    (demoAfter (.create 0 .ended) (demoPart .open)).pt.port.status = 2 ∧
    (let t := demoAfter (.sealCmd 0 .ended) (demoPart .open); (sagOf t 0).st = .sealed ∧ (sagOf t 0).epoch = 1 ∧ (chanOf t 16).tag = some ⟨0, 1⟩) ∧
    (let t := demoAfter (.destroy 0 .ended) (demoPart .open); (sagOf t 0).st = .none ∧ (chanOf t 0).st = .free ∧ t.dram = [(2 ^ 32, 9)]) ∧
    (let t := demoAfter (.destroy 0 .ended) (demoPart .sealed); t.sec.removals = 1 ∧ (sagOf t 0).epoch = 1) ∧
    (sagOf (demoAfter (.destroyAfterReset 0 .ended) demoWaitRemove) 0).st = .none ∧
    testWindow (demoAfter (.testOpen 0x100000 .ended) (demoPart .open)) 16 = true := by decide

def demoBlob (kind slot : Byte) : List Byte := leBytes 4 0x524B5848 ++ [kind, slot, 0, 0] ++ List.replicate 200 0
def demoMail (st : SagSt) (bs : List Byte) : State :=
  { demoPart st with
    sags := [(0, { demoSagOf st with weightKeys := [(3, List.replicate 32 7)], reports := [List.replicate 48 0] })]
    sec := { State.reset.sec with buf := (bs.zipIdx.map (fun p => (p.2, p.1))).filter (fun p => p.2 != 0), certs := [1, 2, 3] } }

theorem witness_MailboxCommands :
    (let s := demoMail .open []; s.sec.port.busy = false ∧ s.sec.certs.length ≤ 131072 ∧ accepting s = true ∧ (sagOf s 0).sealing = false ∧
      (sagOf s 0).log.length ≤ 1024 ∧ (tblFind (sagOf s 0).weightKeys 3).isSome = true ∧ (tblFind (sagOf s 0).weightKeys 4).isNone = true ∧
      s.sec.slots.length = 2 ∧ s.sec.updated.length = 2 ∧ (sagOf s 0).removal = none ∧ (bootImage s).svn.toNat ≤ s.sec.fusedSvn.toNat) ∧
    accepting State.reset = false ∧
    (∀ k ∈ [(1, 0), (1, 3), (1, 64), (2, 0)], let s := demoMail .sealed (demoBlob (BitVec.ofNat 8 k.1) (BitVec.ofNat 8 k.2));
      (sagOf s 0).st = .sealed ∧ blobForm (bufRead s 0 208) = true ∧ ((bufRead s 0 208).getD 4 0).toNat = k.1 ∧ ((bufRead s 0 208).getD 5 0).toNat = k.2 ∧
      ((bufRead s 0 208).drop 8).take 48 ∈ (sagOf s 0).reports) ∧
    blobForm (demoBlob 3 0) = false ∧
    (∀ y ∈ [0, 1], (sagOf (demoMail .open []) y).perfTrue.length = 8) := by decide

theorem test_mailbox :
    (let t := demoAfter (.getCerts 0 .ended) (demoMail .open []); bufRead t 0 4 = [1, 2, 3, 0] ∧ t.sec.port.result = 3) ∧
    (demoAfter (.keyRelease 0 .ended) (demoMail .open (demoBlob 1 0))).sec.port.status = 2 ∧
    (demoAfter (.keyRelease 0 .ended) (demoMail .sealed (demoBlob 1 3))).sec.port.status = 5 ∧
    (demoAfter (.keyRelease 0 .ended) (demoMail .sealed (demoBlob 3 0))).sec.port.status = 1 ∧
    (tblFind (sagOf (demoAfter (.keyDiscard 0x30000 .ended) (demoMail .open [])) 0).weightKeys 3) = none ∧
    (demoAfter (.keyDiscard 0x40000 .ended) (demoMail .open [])).sec.port.status = 5 ∧
    (demoAfter (.fwWrite (0xE00000 * 0x100000000) .ended) (demoMail .open [])).sec.port.status = 6 ∧
    (demoAfter (.fwWrite 0x100000000 .ended) (demoMail .open [])).sec.port.status = 1 ∧
    (demoAfter (.fwCommitSvn 0 .ended) (demoMail .open [])).sec.port.status = 6 := by decide

theorem test_perf_counters :
    let s := { demoPart .open with sags := [(0, { demoSagOf .open with perfTrue := [4095, 4096, 8200, 5, 0, 0, 0, 0], perfRestart := 4 })] }
    ((sagOf (demoAfter .perfCounterUpdate s) 0).perf.take 4) = [0, 4096, 0, 0] := by decide

/-- The link is UP with a running fetch of ring 5 under tag 9. -/
def demoFetching : State :=
  { demoRings { st := .active, tail := 2, next := 2, fetches := [⟨0, 2, .pending⟩] } with
    dl := { State.reset.dl with st := .up, tags := [(9, { owner := .fetch 5 0 2, write := false, order := 0, addr := 0x1000 })], ints := [(3, 0)]
                                pending := 8, mask := 8 } }
def demoHostMsg (a : BitVec 52) : HostMsg := { tag := 1, addr := a, malformed := false }
/-- A message of the host has come in. -/
def demoIn (op : BitVec 8) (a : BitVec 52) (be : BitVec 8) (data : List Byte) : DlIn :=
  { op, status := 0, tag := 1, be, addr := a, malformed := false, data }
def demoGets (x : DlIn) (s : State) : State := { s with dl := { s.dl with input := [x] } }

theorem witness_HostLink :
    (let s := demoFetching; s.dl.st = .up ∧ recoveries s = [] ∧ running s = true ∧ s.dl.sparesTx < 2 ∧ s.dl.swapThresh ≠ 0 ∧
      (demoHostMsg 0x600028).addr.toNat < 2 ^ 26 ∧ (demoHostMsg 0x600028).addr.toNat % 8 = 0 ∧ regAt 0x3FFFFF8 = none ∧ 0x3FFFFF8 < 2 ^ 26 ∧
      s.dl.ints = (3, 0) :: [] ∧ s.dl.stopped = false ∧ (∀ x ∈ s.dl.tags, x.2.write = true → 0 ≤ x.2.order) ∧
      tblFind s.dl.tags 9 = some { owner := .fetch 5 0 2, write := false, order := 0, addr := 0x1000 } ∧ (ringOf s 5).fetches = [⟨0, 2, .pending⟩] ∧ unsent s 9 = false ∧
      (ringOf s 5).st = .active ∧ (ringOf s 5).failHeld = false ∧ (ringOf s 5).entries = []) ∧
    (let s := { demoFetching with homes := [(2, { txn := some { req := .backInv, waiting := [.host 0], snooped := true, hit := false } })] };
      ∃ x, (homeOf s 2).txn = some x ∧ SnoopTarget.host 0 ∈ x.waiting) ∧
    (2 ^ 26 - 8) % 8 = 0 ∧ replayRun (some (0, 15)) 0 = 16 := by
  refine ⟨by decide, ⟨_, rfl, by decide⟩, by decide, by decide⟩

/-- A set-up read and write, an unreadable flit, an idle flit and a replay request; what waits for credits and what holds them. -/
theorem witness_HostLink_messages :
    (∀ op ∈ [0x42, 0x43], let x := demoIn (BitVec.ofNat 8 op) 0x600028 0xFF (if op = 0x43 then leBytes 16 7 else []);
      (demoGets x demoFetching).dl.input.find? (fun y => hostClass y.op.toNat == some 3) = some x ∧ x.op.toNat = op ∧ x.tag = (demoHostMsg 0x600028).tag) ∧
    (∀ x ∈ demoFetching.dl.input, hostClass x.op.toNat ≠ some 3) ∧ dlParseFlit [] = none ∧
    (let m : DlMsg := .int 3; dlCredit demoFetching.dl m = true ∧ dlCredit { demoFetching.dl with used := [0, 0, 0, 0, 0, 4] } m = false ∧
      (dlBytes m).length = 16 * dlUnits m ∧ 0 < dlUnits m ∧ 16 * dlUnits m ≤ 244 * (1023 - dlUnacked demoFetching.dl) ∧ demoFetching.dl.out = [] ∧
      (∀ x ∈ demoFetching.dl.owed, x = 0) ∧
      [m].find? (fun y => dlClass y == 5) = some m ∧ ([] : List DlMsg).find? (fun y => dlClass y == 5) = none) ∧
    (dlUnacked demoFetching.dl = 0 ∧ dlUnacked { demoFetching.dl with txSeq := 1 } ≠ 0) := by decide

/-- R398 and Table 16-3: a flit is read from the bytes that it is written as, and holds an INT, whose OP is 60H; a changed byte spoils it. -/
theorem test_derset_flits :
    let f : XlFlit := { seq := 0, acked := 4, credits := [(3, 2)], body := .units (dlBytes (.int 3)) }
    dlBytes (.int 3) = [0x60, 0, 3, 0, 0, 0, 0, 0, 0, 0, 0, 0, 0, 0, 0, 0] ∧
    dlParseFlit (dlFlitBytes f) = some { f with body := .units (dlBytes (.int 3) ++ List.replicate 228 0) } ∧
    dlParseFlit (dlFlitBytes { f with body := .replay 9 }) = some { f with body := .replay 9 } ∧
    dlParseFlit (listSet (dlFlitBytes f) 30 1) = none ∧
    (let t := demoAfter (.dlFlitReceive (dlFlitBytes { f with body := .units (dlHeader 0x42 0 1 0 0x600028) })) demoFetching;
      t.dl.rxSeq = 1 ∧ t.dl.input = [demoIn 0x42 0x600028 0 []]) ∧
    (demoAfter (.dlFlitReceive (dlFlitBytes { f with body := .replay 5 })) { demoFetching with dl := { demoFetching.dl with replayed := some (5, 15), acked := 4 } }).dl.st =
      .down := by decide +kernel

theorem test_host_link :
    (demoAfter (.dlFlitReceive []) demoFetching).dl.flits = [{ seq := 0, acked := 0xFFF, credits := [], body := .replay 0 }] ∧
    (demoAfter (.cfgRd (demoHostMsg 0x4000000) 0xFF) (demoGets (demoIn 0x42 0x4000000 0xFF []) demoFetching)).dl.tx = [.ioData 1 3 []] ∧
    (demoAfter (.cfgRd (demoHostMsg 0x3005000) 0xFF) (demoGets (demoIn 0x42 0x3005000 0xFF []) demoFetching)).dl.tx = [.ioData 1 0 [2, 0, 0, 0, 0, 0, 0, 0]] ∧
    (demoAfter (.cfgWr (demoHostMsg 0x600028) 0xFF 7) (demoGets (demoIn 0x43 0x600028 0xFF (leBytes 16 7)) demoFetching)).obj.ctxSel = 7 ∧
    (demoAfter (.int 3) demoFetching).dl.tx = [.int 3] ∧ (demoAfter (.int 3) demoFetching).dl.flits.length = 1 ∧
    (demoAfter (.dlIntAck 1 3) demoFetching).dl.pending = 0 ∧
    (demoAfter (.dlIntMaskWrite 0xFF 0) { demoFetching with dl := { demoFetching.dl with ints := [] } }).dl.ints.map (fun x => x.1) = [3] := by decide

theorem test_request_timeout :
    (let t := demoAfter (.dlRequestTimeout 9) demoFetching; t.dl.stale = [9] ∧ (ringOf t 5).st = .faulted ∧ t.dl.timeoutCount = 1) := by decide

/-- The lines of the saggar are mapped for the host. -/
def demoMapped (hs : List HostEntry) (k : Bool) : State :=
  { (if k then demoHome (demoCore demoLanes) else demoState) with
    obj := { demoState.obj with objs := [(1, { st := .live, hostMap := true, len := 0x10000 })] }, hostFilter := hs, dl := { State.reset.dl with st := .up } }

theorem witness_HostRequests :
    (let s := demoMapped [] true; (demoHostMsg 0x100).malformed = false ∧ hostMapped s 0 0x100 = true ∧ hostMapped s 0 0x10000 = false ∧ mapLine s 0 0x100 = some 2 ∧
      homeUsed s 2 4 < 64 ∧ demoLine.data.length = 128 ∧ hostFull s 2 = false) ∧
    StandsHome (demoMapped [] true) 0 2 demoLine ∧ Unreserved (demoMapped [] true) 2 ∧ Sound (demoMapped [] true) ∧ RestsInDram (demoMapped [] false) 2 none ∧
    (∀ st ∈ [SectorSt.shared, .unique], let s := demoMapped [{ line := 2, s0 := st }] false;
      s.hostFilter = [{ line := 2, s0 := st }] ∧ homeCopy s 2 = none ∧ homeOf s 2 = {} ∧ chanServes s (lineChan 2) = true ∧ tblFind s.symErrs 2 = none ∧
      tagRefused s (lineChan 2) none false = false) ∧
    (hostSnooped { demoState with homes := [(2, { txn := some { req := .backInv, waiting := [.host 0], snooped := true, hit := false } })] } 2 0 = true ∧
      hostSnooped demoState 2 0 = false) ∧
    (let q : IoReq := { owner := .fetch 5 0 2, who := 0, write := false, addr := 0x1000, len := 128 };
      let s := { demoFetching with dl := { demoFetching.dl with waiting := [q] } };
      s.dl.waiting = q :: [] ∧ freeTag s = some 0 ∧ tagFree s 0 = true) ∧
    tblFind demoFetching.dl.tags 10 = none :=
  ⟨by decide, demo_stands _ rfl rfl rfl rfl rfl rfl, unreserved_demo _ rfl _, sound_demo _ rfl rfl rfl rfl rfl rfl rfl,
    rests_of_bare (demoMapped [] false) 2 rfl rfl rfl rfl rfl (by decide : ∀ c ∈ demoState.cores, _) (by decide) (by decide) rfl none (by decide), by decide, by decide, by decide,
    by decide⟩

/-- The messages of the host at the head of their receive spaces: the six requests, the three answers to snoops, the two answers to the device's requests. -/
theorem witness_HostRequests_messages :
    (∀ op ∈ [1, 2, 3, 4, 5, 6], let x := demoIn (BitVec.ofNat 8 op) 0x100 0 (if op = 4 ∨ op = 6 then List.replicate 64 1 else []);
      (demoGets x demoState).dl.input.find? (fun y => hostClass y.op.toNat == some 0) = some x ∧ x.op.toNat = op) ∧
    (∀ op ∈ [0x24, 0x25, 0x26], let x := demoIn (BitVec.ofNat 8 op) 0x100 0 [];
      (demoGets x demoState).dl.input.find? (fun y => hostClass y.op.toNat == some 2) = some x ∧ dersetSector (demoMapped [] true) x.addr = some (2, 0)) ∧
    dersetSector (demoMapped [] true) 0xFFFFFFFFFFFFF = none ∧
    (∀ op ∈ [0x50, 0x51], let x := { demoIn (BitVec.ofNat 8 op) 0 0 [] with tag := 9 };
      (demoGets x demoFetching).dl.input.find? (fun y => hostClass y.op.toNat == some 4) = some x ∧ x.status = 0) := by decide

/-- What the device answers to a request of the host for the line that stands at its home. -/
def demoAnswer (op : BitVec 8) (a : BitVec 52) (c : HostMsg → Instr) : Option (BitVec 11 × Byte) :=
  match (demoAfter (c (demoHostMsg a)) (demoGets (demoIn op a 0 []) (demoMapped [] true))).dl.tx with
  | [.dataS t d] => some (t, d.getD 3 0)
  | [.refusal t n] => some (t, n.setWidth 8)
  | _ => none

theorem test_host_requests :
    demoAnswer 1 0x140 (fun m => .cRdShared m noErr) = some (1, 67) ∧
    demoAnswer 1 0x10000 (fun m => .cRdShared m noErr) = some (1, 1) ∧
    demoAnswer 1 0x101 (fun m => .cRdShared m noErr) = some (1, 3) ∧
    (demoAfter (.cUpgrade (demoHostMsg 0x100) noErr) (demoGets (demoIn 3 0x100 0 []) (demoMapped [{ line := 2, s0 := .shared }] false))).hostFilter =
      [{ line := 2, s0 := .unique }] ∧
    (demoAfter (.cSnpAck 2 0) (demoGets (demoIn 0x25 0x100 0 []) demoState)).ras.lastStop = 5 := by decide

theorem test_io :
    (demoAfter .ioRequestGrant { demoFetching with dl := { demoFetching.dl with
      waiting := [{ owner := .fetch 5 0 2, who := 0, write := false, addr := 0x1000, len := 128 }] } }).dl.tx = [.ioRd 0 0x1000 128] ∧
    (let bs := List.replicate 64 0 ++ 1 :: List.replicate 63 0;
      ((ringOf (demoAfter (.ioData 9 0 bs) (demoGets { demoIn 0x50 0 0 bs with tag := 9 } demoFetching)) 5).entries.map (fun e => (e.seq, kindOf e.words))) = [(0, 0), (1, 1)]) ∧
    (ringOf (demoAfter (.ioData 9 2 []) (demoGets { demoIn 0x50 0 0 [] with tag := 9, status := 2 } demoFetching)) 5).st = .faulted := by decide

-- Service firmware, power, start-up

/-- The module as a start-up that met nothing leaves it, in short: READY and running. -/
def demoReady (d : DomainSt) : State :=
  { State.reset with
    ras := { State.reset.ras with phase := 8, domain := d }
    cores := [(0, {}), (3, { st := .test }), (15, { st := .spare })], chans := [(0, { st := .free }), (1, { st := .owned }), (2, { st := .retired })] }

theorem witness_ServiceAndRecovery :
    (∀ d ∈ [DomainSt.running, .stopped], let s := demoReady d;
      recoveries s = [] ∧ s.ras.port.busy = false ∧ ready s = true ∧ (coreOf s 0).st = .active ∧ (coreOf s 0).partition = none ∧ (coreOf s 15).st ≠ .active ∧
      (chanOf s 0).st = .free ∧ (chanOf s 0).tg.busy = false ∧ s.ras.craze.channelsRetired.length = 4 ∧ s.ras.repair.length < 327680 ∧ (chanOf s 2).st = .retired ∧
      clusterOwned s 0 = false ∧ rowSpare (chanOf s 1) 5 = true ∧ s.ras.stopByLink = false ∧ 3 ∈ clusterCores 0) ∧
    rowSpare { remapped := 1024 } 5 = false ∧ ready State.reset = false ∧
    (∀ x ∈ (demoReady .stopped).cores, x.2.st ≠ .retiring) ∧ (∀ x ∈ (demoReady .stopped).chans, x.2.tg.busy = false) ∧
    (∀ r ∈ [Recovery.dqLane 0 143, .caLane 0 17, .row 0 63 32767], let s := { demoChans { st := .retrain } with ras := { demoState.ras with running := some r } };
      s.ras.running = some r ∧ s.ras.queue = [] ∧ (chanOf s 0).st = .retrain ∧ (chanOf s 0).dqSpare.length = 4) ∧
    (demoState.ras.sccs.length = 4 ∧ (demoState.ras.sccs.getD 3 {}) = ⟨false, none⟩ ∧ (demoState.ras.sccs.getD 1 {}) = ⟨false, some 1⟩ ∧ demoState.ras.standby = true ∧
      ∀ y : Fin 3, (demoState.ras.sccs.getD y.val {}).role ≠ none) ∧
    (coreOf (demoReady .running) 15).st = .spare ∧ (coreOf (demoReady .running) 3).st = .test ∧ State.reset.ras.craze.coreMap.length = 4 := by decide

theorem witness_Recoveries_sound : Sound { demoChans { st := .retrain } with ras := { demoState.ras with running := some (.row 0 63 32767) } } :=
  sound_demo _ rfl rfl rfl rfl rfl rfl rfl

theorem test_service :
    (coreOf (demoAfter (.markCore 0 .ended) (demoReady .running)) 0).st = .retiring ∧
    (demoAfter (.markCore 0xF0000 .ended) (demoReady .running)).ras.port.status = 2 ∧
    (demoAfter (.markCore 256 .ended) (demoReady .running)).ras.port.status = 1 ∧
    (chanOf (demoAfter (.retireChannel 0 .ended) (demoReady .running)) 0).st = .retired ∧
    (coreOf (demoAfter (.testCluster 0 .ended) (demoReady .running)) 0).st = .test ∧
    (coreOf (demoAfter (.endTest 0 .ended) (demoReady .running)) 3).st = .active ∧
    (demoAfter (.remapRow 0x5_0002_0000 .ended) (demoReady .running)).ras.port.status = 2 := by decide

theorem test_domain_reset :
    (let s := { demoReady .stopped with dram := [(5, 9)], sags := [(2, { st := .sealed, chans := [2, 0, 0, 0], epoch := 3 })], homes := [(1, { hold := some (.die 2) })] };
      let t := demoAfter (.domainReset 0 .ended) s;
      t.ras.domain = .running ∧ t.dram = [(5, 9)] ∧ t.homes = [] ∧ (sagOf t 2).st = .none ∧ (chanOf t 1).st = .free ∧
      (sagOf t 2).removal.map (fun r => (r.oldEpoch, r.channels)) = some (3, [0, 0, 0, 0])) := by decide

/-- A retrain of DQ lane 143 whose verification reads meet an error of the lane named. -/
def demoLaneBad (lane : Fin 152) : State :=
  { demoChans { st := .retrain } with ras := { demoState.ras with running := some (.dqLane 0 143) }, symErrs := [(7, [⟨lane, 1⟩])] }

theorem witness_Recoveries_waits :
    (let s := demoLaneBad 143; (stackOf s 0).throttle ≠ .stop ∧ recoveryWaits s (.dqLane 0 143) = false ∧ recoverySound s (.dqLane 0 143) = false ∧ running s = true ∧
      lineChan 7 = 0 ∧ lineOfs 7 < 65536 ∧ burstErrs s 7 = [⟨143, 1⟩]) ∧
    recoverySound { demoLaneBad 143 with symErrs := [] } (.dqLane 0 143) = true ∧
    recoveryWaits { demoLaneBad 143 with memStacks := listSet (List.replicate 16 {}) 0 { throttle := .stop } } (.dqLane 0 143) = true ∧
    (let s := demoTorus { st := .swap }; (portOf s 0).st = .swap ∧ (portOf s 0).ctl = [] ∧ (portOf s 0).rsp = [] ∧ (portOf s 0).req = [] ∧ ∀ x ∈ (portOf s 0).owed, x = 0) := by
  decide

theorem test_recoveries :
    (let t := demoAfter (.recoveryStart true) { demoChans { st := .retrain, partition := some 0 } with ras := { demoState.ras with running := some (.row 0 63 32767) } };
      (chanOf t 0).st = .owned ∧ (chanOf t 0).remaps = [(63, 32767)] ∧ t.ras.repair = [0x201FFFFF]) ∧
    (let t := demoAfter (.inServiceRetrain 0 (.dq 143)) (demoChans { st := .owned, partition := some 0, retrainThresh := 1, laneErrs := [(143, 0)] });
      (chanOf t 0).dqSpare = [0, 0, 0, 128 + 35] ∧ (chanOf t 0).st = .retrain ∧ (chanOf (demoAfter (.recoveryStart true) t) 0).retrainCount = 1) ∧
    (demoAfter (.recoveryStart true) (demoLaneBad 3)).ras.domain = .running ∧ (demoAfter (.recoveryStart true) (demoLaneBad 143)).ras.domain = .stopped ∧
    (demoAfter (.recoveryStart false) { demoChans { st := .retrain } with ras := { demoState.ras with running := some (.dqLane 0 143) } }).ras.domain = .stopped ∧
    (demoAfter (.sccFailover 1) demoState).ras.running = some (.failover 1) ∧
    (coreOf (demoAfter (.selfTestPass 15 false) (demoReady .running)) 15).st = .retired := by decide

def demoQuiet (q : BitVec 4) (busy : Bool) : State :=
  { demoReady .running with
    ras := { (demoReady .running).ras with qstate := q }, fe := { State.reset.fe with rings := [(5, { st := .active, entries := if busy then [{ st := .started }] else [] })] } }

theorem witness_RecordsAndQuiesce :
    (State.reset.ras.craze.dieBins.length = 14 ∧ State.reset.ras.craze.stackBins.length = 16 ∧ State.reset.memStacks.length = 16 ∧
      (∀ b ∈ State.reset.ras.craze.stackBins, b.length = 14) ∧ State.reset.ras.craze.channelsRetired.length = 4 ∧ State.reset.ras.craze.coreMap.length = 4 ∧
      State.reset.ras.craze.errors.length = 8 ∧ State.reset.ras.craze.lo = none) ∧
    (1704067200 : W64).toNat < 2 ^ 64 ∧
    (let s := demoQuiet 0 false; s.ras.qstate = 0 ∧ s.ras.phase = 8 ∧ s.ras.domain ≠ .resetting ∧ s.ras.fail = 0 ∧ busyRings s = [] ∧ running s = true ∧ allQuiet s = true ∧
      ∀ c ∈ s.cores, ∀ u ∈ c.2.subs, u.buffer = []) ∧
    allQuiet { demoQuiet 0 false with nmOps := [demoClean] } = false ∧
    busyRings (demoQuiet 1 true) = [5] ∧ busyRings (demoQuiet 1 false) = [] ∧ running (demoReady .stopped) = false ∧
    (let s := { State.reset with ras := { State.reset.ras with fail := 7 }, dl := { State.reset.dl with st := .up } }; s.ras.fail ≠ 0 ∧ s.dl.st = .up) := by decide

def demoBins (t : State) : List Nat := t.ras.craze.dieBins

/-- R429: a rise of 40 °C counts a cycle at the next fall of 40 °C; the bins end at 45 °C and begin at 105 °C. -/
theorem test_record :
    demoBins (demoAfter (.poweredSecond (some (16 * 45 - 1)) 900) State.reset) = [1] ++ List.replicate 13 0 ∧
    demoBins (demoAfter (.poweredSecond (some (16 * 45)) 900) State.reset) = [0, 1] ++ List.replicate 12 0 ∧
    demoBins (demoAfter (.poweredSecond (some (16 * 105)) 900) State.reset) = List.replicate 13 0 ++ [1] ∧
    (let s (x : BitVec 16) (u : State) : State := demoAfter (.poweredSecond (some x) 900) u;
      (s (16 * 50) (s (16 * 90) (s (16 * 40) State.reset))).ras.craze.thermalCycles = 1 ∧
      (s (16 * 51) (s (16 * 90) (s (16 * 40) State.reset))).ras.craze.thermalCycles = 0) ∧
    (demoAfter (.rasCalWrite 0xFF 1704067200) State.reset).ras.craze.stampFirst = some (1704067200, 0) ∧
    (demoAfter (.rasCalWrite 0xFF 1704067199) State.reset).ras.calRejectCount = 1 := by decide

theorem test_quiesce :
    (demoAfter (.orderlyQuiesce 0xFF 201 .running) (demoQuiet 0 false)).ras.qstate = 1 ∧
    (demoAfter (.orderlyQuiesce 0xFF 200 .running) (demoQuiet 0 false)).ras.qstate = 0 ∧
    (demoAfter (.orderlyQuiesce 0xFF 20001 .running) (demoQuiet 0 false)).ras.qstate = 1 ∧
    (demoAfter (.orderlyQuiesce 0xFF 20003 .running) (demoQuiet 0 false)).ras.qstate = 0 ∧
    (let t := demoAfter .quiesceDrainTimeout (demoQuiet 1 true); t.ras.quiesceAborted = true ∧ (ringOf t 5).st = .disabled) := by decide

/-- The main rails are on; the reference clock is accepted. -/
def demoPower (x : InputSt) (rails : Bool) : State :=
  { State.reset with pwr := { State.reset.pwr with input := x, mainRails := rails, pwrEn := rails } }

theorem witness_PowerUpAndStartUp :
    (∀ x ∈ [InputSt.off, .standby, .operating, .brownout, .overvolt], (demoPower x (x == .operating)).pwr.input = x ∧ (demoPower x false).pwr.ovShutdown = false) ∧
    (let p := (demoPower .standby false).pwr; p.mainRails = false ∧ p.railsHeld = false ∧ p.pwrEn = false) ∧
    ({ (demoPower .standby false).pwr with railsHeld := true, pwrEn := true } : Power).railsHeld = true ∧
    (let s := demoPower .operating true; s.pwr.mainRails = true ∧ s.ras.phase = 0 ∧ s.ras.fail = 0 ∧ s.ras.qstate = 0 ∧ s.pwr.refclkOk = true ∧
      s.pwr.input = .operating ∧ s.pwr.holdover = false ∧ s.ras.repair = [] ∧ s.dies.length = 4 ∧ (s.cores.map (fun x => x.1)).Nodup ∧
      builtState s.fuses 0 = .active ∧ s.chans = [] ∧ (s.sec.slots.getD 0 {}).valid = true ∧ (s.sec.slots.getD 1 {}).erased = false ∧
      s.sec.fusedSvn.toNat ≤ (s.sec.slots.getD 0 {}).svn.toNat) ∧
    (∀ c : Fin 256, coreOf (demoPower .operating true) c.val = { st := builtState (demoPower .operating true).fuses c.val }) := by decide

def demoStart : StartEnv :=
  { slotFault0 := 0, slotFault1 := 0, headerBad0 := false, headerBad1 := false, sccDead := 0, bridgeDead := none, repairReads := true
    coreFails := [], chans := [], dersetFail := none, dersetBad := (0, 0), dersetGrant := [0, 256, 4096, 257, 8192, 4] }

theorem test_power :
    (demoAfter .brownout (demoPower .operating true)).pwr.brownoutCount = 1 ∧
    (let t := demoAfter (.pwrEnRise false) (demoPower .standby false); t.pwr.pwrgd = true ∧ t.pwr.resetCause = 2 ∧ t.pwr.input = .operating) ∧
    (demoAfter (.pwrEnRise true) (demoPower .standby false)).pwr.resetCause = 7 ∧
    (demoAfter (.resetNAssert 9999 true) (demoPower .operating true)).pwr.resetCause = 0 ∧
    (demoAfter (.resetNAssert 12000 false) (demoPower .operating true)).pwr.resetCause = 1 ∧
    (demoAfter .uvlo (demoPower .operating true)).pwr.resetCause = 3 := by decide

/-- R149, R150: one failing lane of a group is mapped to the group's spare, a second one is not. -/
theorem test_channel_training :
    (let r := trainChannel { st := .training } ⟨3, none, [], [(143, 1)]⟩; r.2 = 0 ∧ r.1.dqSpare = [0, 0, 0, 128 + 35]) ∧
    (trainChannel { st := .training } ⟨4, none, [], [(142, 1), (143, 2)]⟩).2 = 4 ∧ (trainChannel { st := .training } ⟨4, none, [(0, 1), (1, 1)], []⟩).2 = 2 ∧
    (trainChannel { st := .training } ⟨4, some 4, [], []⟩).2 = 5 := by decide

theorem test_start_up :
    (let t := demoAfter (.startUp demoStart .ended) (demoPower .operating true); t.ras.phase = 8 ∧ t.dl.st = .up ∧ (chanOf t 255).st = .free ∧ (coreOf t 15).st = .spare) ∧
    (let t := demoAfter (.startUp { demoStart with bridgeDead := some 9 } .ended) (demoPower .operating true); t.ras.phase = 4 ∧ t.ras.fail = 4 ∧ t.ras.failDetail = 9) ∧
    (demoAfter (.startUp demoStart .checking) (demoPower .operating true)).ras.phase = 1 := by decide +kernel

def demoLoop (p : Power) : State := { demoPower .operating true with pwr := { (demoPower .operating true).pwr with caps := p.caps, below := p.below, profile := p.profile } }
def capsAfter (c : Instr) (p : Power) : Nat × Nat × Nat := (fun c : Caps => (c.slab, c.nm, c.mem)) (demoAfter c (demoLoop p)).pwr.caps
def demoTemps (t : Int) : List (BitVec 16) := (List.replicate 63 (640 : BitVec 16)) ++ [BitVec.ofInt 16 t] ++ List.replicate 12 640

theorem witness_ClocksPowerSensors :
    (let p := (demoPower .operating true).pwr; p.input ≠ .off ∧ p.mainRails = true ∧ p.ampsLost = false ∧ p.jthrottle = false ∧ p.holdover = false ∧ p.refclkOk = true ∧
      p.profile = 0 ∧ p.limit = 0 ∧ p.hotSensors = [] ∧ p.junctions = [] ∧ (demoPower .operating true).ras.phase.toNat < 3) ∧
    (demoTemps 1760).length = 76 ∧ (demoTemps 1760).all (fun x => decide (-640 ≤ x.toInt) && decide (x.toInt ≤ 2400)) = true ∧
    (∀ v ∈ [(54000, 55500), (54000, 55501)], (40000 : Int) ≤ v.1 ∧ v.2 ≤ (80000 : Int)) := by decide

/-- R446, R447: above the limit the larger of slab and nm falls; within 100 W nothing changes; the second millisecond below raises a cap. -/
theorem test_power_loop :
    capsAfter (.powerLoopTick 2401) {} = (16, 4, 20) ∧ capsAfter (.powerLoopTick 2400) {} = (17, 4, 20) ∧ capsAfter (.powerLoopTick 2401) { caps := ⟨1, 1, 20, 20, 20⟩ } = (1, 1, 19) ∧
    capsAfter (.powerLoopTick 2299) { caps := ⟨10, 4, 20, 20, 20⟩ } = (10, 4, 20) ∧ capsAfter (.powerLoopTick 2299) { caps := ⟨10, 4, 20, 20, 20⟩, below := 1 } = (11, 4, 20) ∧
    capsAfter (.powerLoopTick 2300) { caps := ⟨10, 4, 20, 20, 20⟩, below := 1 } = (10, 4, 20) ∧ capsAfter (.powerLoopTick 0) { profile := 3 } = (5, 4, 5) := by decide

theorem test_sensors :
    (let t := demoAfter (.junctionSample (demoTemps 1600)) (demoPower .operating true); t.pwr.junctionC = 1600 ∧ t.pwr.jthrottle = true) ∧
    (demoAfter (.junctionSample (demoTemps 1599)) (demoPower .operating true)).pwr.jthrottle = false ∧
    (let t := demoAfter (.junctionSample (demoTemps 1760)) (demoPower .operating true); t.pwr.hotSensors = [63] ∧ t.pwr.thermtrip = false ∧
      (demoAfter (.junctionSample (demoTemps 1760)) t).pwr.thermtrip = true) ∧
    (demoAfter (.junctionSample (demoTemps 2401)) (demoPower .operating true)).pwr.sensorCount = 1 ∧
    (demoAfter (.inputSensorSample 54000 55501 100 200) (demoPower .operating true)).pwr.volts = [54000] ∧
    (demoAfter (.inputSensorSample 0 0 100 200) (demoPower .operating true)).pwr.input = .brownout ∧
    (demoAfter (.pwrCtrlWrite true 0xFF 0x3B00000001) (demoPower .operating true)).pwr.limitRejectCount = 1 ∧
    (demoAfter (.pwrCtrlWrite true 0xFF 0x3C00000001) (demoPower .operating true)).pwr.limit = 60 := by decide

-- The sideband, JTAG, set-up writes, and the machine

theorem witness_SidebandAndJtag :
    (State.reset.pwr.input ≠ .off ∧ State.reset.pwr.dynamicAddr = none ∧ State.reset.pwr.pwrEn = false) ∧ (demoPower .operating true).pwr.pwrEn = true ∧
    (demoPower .off false).pwr.input = .off ∧
    (demoAfter (.setdasa 9) State.reset).pwr.dynamicAddr = some 9 := by decide

theorem test_sideband :
    (demoAfter (.sidebandRead 0) State.reset).pwr.sbAnswer = some [0x47, 0x4E, 0x40, 0x09, 0xA0, 0, 0, 0] ∧
    (demoAfter (.sidebandRead 0xA00000) State.reset).pwr.sbNack = true ∧
    (demoAfter (.sidebandRead 0xA00000) (demoPower .operating true)).pwr.sbAnswer = some [0, 0x80, 0, 0, 0, 0, 0, 0] ∧
    (demoAfter (.sidebandWrite 0x100000 0x6400000000) State.reset).pwr.limit = 100 ∧
    (demoAfter (.sidebandWrite 0x200000 1) State.reset).pwr.sbNack = true ∧
    (demoAfter .idcode State.reset).pwr.jtagReg = 0x009409CF ∧
    (demoAfter .highz State.reset).pwr.outputsOff = true ∧ (demoAfter .highz (demoPower .operating true)).pwr.jtag = 0 := by decide

theorem witness_SetupWrites :
    regAt 0x3FFFFF8 = none ∧ (ringOf State.reset 1023).st = .disabled ∧ (ringOf (demoRings { st := .active }) 5).st ≠ .disabled ∧
    (sagOf State.reset 15).st = .none ∧ (sagOf demoState 0).st ≠ .none ∧ State.reset.dies.length = 4 ∧ bitsOf 100000 0 17 ≤ 100000 ∧ 100000 < bitsOf 100001 0 17 := by
  decide

theorem test_setup_writes :
    (ringOf (demoAfter (.registerWrite 0x200020 0xFF 0x123000) State.reset) 1).base = 0x123 ∧ (ringOf (demoAfter (.registerWrite 0x2000A0 0xFF 0x123000) (demoRings { st := .active })) 5).base = 0 ∧
    (demoAfter (.registerWrite 0x210000 0xFF 100000) State.reset).fe.grace = 100000 ∧ (demoAfter (.registerWrite 0x210000 0xFF 100001) State.reset).fe.grace = 1000 ∧
    (demoAfter (.registerWrite 0xB00000 0xFF 0x3E70055) State.reset).dl.snpTimeout = 2000 ∧ (demoAfter (.registerWrite 0xB00000 0xFF 0x3E80155) State.reset).dl.snpTimeout = 1000 ∧
    (demoAfter (.registerWrite 0x600008 0x0F 0x1122334455667788) State.reset).obj.arg0 = 0x55667788 ∧
    (dieOf (demoAfter (.registerWrite 0x2400000 0xFF 2) State.reset) 1).ramp = 2 ∧ (dieOf (demoAfter (.registerWrite 0x2400000 0xFF 3) State.reset) 1).ramp = 1 := by decide

theorem witness_AddressMap :
    ownedChannels (sagOf demoState 0) = [0, 16] ∧ (∀ p ∈ ownedChannels (sagOf demoState 0), chanCap (chanOf demoState p) = 2 ^ 32) ∧
    mapAddr demoState 0 0 = some (0, 0) ∧ mapAddr demoState 0 2048 = some (16, 0) ∧ mapAddr demoState 0 4097 = some (0, 2049) ∧
    mapAddr demoState 0 (2 ^ 33 - 1) = some (16, 2 ^ 32 - 1) ∧ mapAddr demoState 0 (2 ^ 33) = none := by decide

/-- The launch of `demoRun` on `demoCode`, which `demoHanded` hands on, and its argument area. -/
def demoArea : List Byte := (demoCode.drop 160).take 64
def demoMade : LaunchInfo := mkLaunch (demoOffer demoRun) 3 demoRef demoRun (demoCode.take 128) ((demoCode.drop 128).take 32) demoArea
def demoStarting : State :=
  { demoHanded with fe := { demoHanded.fe with launches := [{ demoDispatched with info := demoMade }] }, cores := [(16, { partition := some 0 }), (0, {})] }

theorem witness_BlockRegisters :
    newWork demoStarting = true ∧ demoStarting.fe.handed = [{ launch := 3, lin := 0, cluster := 1 }] ∧
    launchOf demoStarting 3 = some { demoDispatched with info := demoMade } ∧ demoStarting.fe.bulkQueue = [] ∧ demoArea.length = 64 ∧
    (handedPlace demoStarting { demoDispatched with info := demoMade } { launch := 3, lin := 0, cluster := 1 }).isSome = true := by decide

theorem test_block_registers :
    (let g := grpOf (subOf (coreOf (demoAfter (.blockAdmission 1) demoStarting) 16) 0) 0; uReg g 0 = 7 ∧ uReg g 1 = 9 ∧ uReg g 2 = 0 ∧ vReg (laneOf g 0) 0 = 0) := by decide

theorem reset_sound : Sound State.reset := by
  have hc : ∀ c, ∃ t, coreOf State.reset c = { st := t } := by
    intro c
    unfold coreOf tblGet
    cases h : tblFind State.reset.cores c with
    | none => exact ⟨.active, rfl⟩
    | some k =>
      have key : ∀ (l : Tbl Core), (∀ x ∈ l, x.2 = { st := .spare }) → ∀ k, tblFind l c = some k → k = { st := .spare } := by
        intro l
        induction l with
        | nil => intro _ k h; cases h
        | cons x t ih =>
          intro hl k h
          obtain ⟨a, b⟩ := x
          rw [tblFind] at h
          split at h
          · cases h; exact hl (a, k) (List.mem_cons_self ..)
          · exact ih (fun y hy => hl y (List.mem_cons_of_mem _ hy)) k h
      have e := key _ (by decide) k h
      exact ⟨.spare, e⟩
  refine ⟨by decide, rfl, rfl, rfl, rfl, rfl, ?_, ?_, ?_, reset_lanes⟩ <;>
    · intro c
      obtain ⟨t, e⟩ := hc c
      rw [e]
      rfl

/-- Every command that is the first after reset leaves a sound machine where its step answers: the hypothesis of EveryStepKeeps holds after reset. -/
theorem witness_EveryStepKeeps : Sound { State.reset with pending := [.brownout] } :=
  ⟨reset_sound.mem, reset_sound.dies, reset_sound.memStacks, reset_sound.bridges, reset_sound.ports, reset_sound.links, reset_sound.subs, reset_sound.slabs,
    reset_sound.engines, reset_sound.lanes⟩

theorem witness_LockedFields :
    (sagOf (demoSealed []) 0).st = .sealed ∧ (sagOf demoState 0).st ≠ .sealed ∧ (demoSealed []).dies.length = 4 ∧ (coneOf (demoTorus {}) 4).assigned = true ∧
    (coneOf (demoTorus {}) 4).partition = 0 ∧ (coneOf demoState 4).assigned = false ∧ sliceOk (demoTorus {}) (sliceOf (demoTorus {}) 0) = true := by decide

theorem test_locked :
    (tblGet {} (dieOf (demoAfter (.registerWrite 0x2000100 0xFF 0x1) (demoSealed [])) 0).masks 0).core = 0x7FFF ∧ (tblGet {} (dieOf (demoAfter (.registerWrite 0x2000100 0xFF 0x1) demoState) 0).masks 0).core = 1 := by decide

theorem test_step :
    (match step { State.reset with pending := [.brownoutExit, .brownout] } with
      | .next t => t.pending.length == 1
      | _ => false) = true := by decide

/-- A retired channel makes the module DEGRADED once its maps are final (R463). -/
theorem test_degraded :
    isDegraded { State.reset with gen := { State.reset.gen with mapped := true }, chans := [(77, { st := .retired })] } = true ∧
    isDegraded { State.reset with chans := [(77, { st := .retired })] } = false := by decide

-- Fetching an instruction, and the turn of an entry

/-- Threads at another code address, a code object at 2^47 in host memory, another content of the instruction cache, and the home copy of line 2 as zeros. -/
def demoFetch (pc addr : Nat) (cache : Tbl (List CodeLine)) : State :=
  { demoHome { demoCore [{ demoLane [] with pc := BitVec.ofNat 32 pc }] with
      blocks := [(0, { info := { codeLen := 512, objAddr := BitVec.ofNat 64 addr, lsBytes := 1024 }, lin := 0, groups := [(0, 0)] })] } with
    dies := [{ near := [(nearKey 2 3, { demoLine with data := List.replicate 128 0 })] }, {}, {}, {}]
    icaches := cache }

def demoFetchIssue (pc : Nat) : Issue := { core := 0, sub := 0, slot := 0, pc := BitVec.ofNat 32 pc, lanes := [0] }

/-- Code beyond its length; a word of major opcode 0xFF; a line that host memory gives; and one whose home copy gives it. -/
theorem witness_CodeFetch :
    (let s := demoFetch 512 0 [];
      pickIssue (coreOf s 0) 0 0 = some (demoFetchIssue 512) ∧ (issueInfo s (demoFetchIssue 512)).codeLen ≤ 512) ∧
    (let s := demoFetch 0 0 [(0, [⟨0, 2, List.replicate 64 0xFF⟩])];
      pickIssue (coreOf s 0) 0 0 = some (demoFetchIssue 0) ∧ codeAddr (issueInfo s (demoFetchIssue 0)) 0 / 64 = 2 ∧
      codeLine s 0 0 2 = some ⟨0, 2, List.replicate 64 0xFF⟩ ∧ opcKnown 0xFF = false ∧ longWord (BitVec.allOnes 64) = false) ∧
    (let s := demoFetch 0 hostBase [];
      pickIssue (coreOf s 0) 0 0 = some (demoFetchIssue 0) ∧ codeLine s 0 0 ((hostBase + 128) / 64) = none ∧ isHostAddr (hostBase + 128) = true ∧
      opcKnown 0 = true ∧ longWord 0 = false) ∧
    (let s := demoFetch 128 0 [];
      pickIssue (coreOf s 0) 0 0 = some (demoFetchIssue 128) ∧ codeLine s 0 0 4 = none ∧ isHostAddr 256 = false ∧ mapLine s 0 256 = some 2) ∧
    StandsHome (demoFetch 128 0 []) (0 / 64) 2 { demoLine with data := List.replicate 128 0 } := by
  exact ⟨by decide, by decide, by decide, by decide, demo_stands_at _ _ rfl (by decide) rfl rfl rfl rfl rfl rfl⟩

/-- What the NOP at 128 leaves: its line of 64 bytes in the cache, and the thread behind it. -/
theorem test_fetch :
    (let t := demoAfter (.nop demoPlace (wordG opdNone opdNone opdNone opdNone)) (demoFetch 128 0 []);
      (codeLine t 0 0 4).map (fun x => x.data.length) = some 64 ∧ (laneAt t (demoFetchIssue 128) 0).pc = 136) := by decide

/-- A ring with one entry that may start, of each of the kinds; a later entry with MODE FIFO behind an entry that runs may not. -/
theorem witness_EntryTurn :
    (∀ ws ∈ [[0], demoSignal, [0x30044, 1], [0x121]],
      newWork (demoOffer ws) = true ∧ (ringOf (demoOffer ws) 5).entries.map (fun e => mayStart (ringOf (demoOffer ws) 5) { e with st := .ready }) = [true]) ∧
    [[0], demoSignal, [0x30044, 1], [0x121]].map kindOf = [0, 0x43, 0x44, 0x21] ∧ isRemote demoSignal = false ∧ isCodecKind 0x21 = true ∧
    (let r : Ring := { entries := [{ seq := 0, words := [0], st := .started }, { seq := 1, words := [0x80000000], st := .ready }] };
      ∀ x ∈ r.entries, x.st = .ready → mayStart r x = false) := by decide

/-- A failover of the core that holds the firing log, with one entry that H has buffered. -/
def demoFailing : State :=
  let s := { demoState with ras := { demoState.ras with running := some (.failover 0), sccs := [⟨true, some 0⟩, ⟨false, some 1⟩, ⟨false, some 2⟩, ⟨false, none⟩] } }
  logEvent s 0x18 7 noPart unitDevice 0 0

/-- The entry waits during the failover; at its end it stands behind FAILOVER. -/
theorem test_log_buffered :
    demoFailing.ras.log.length = 0 ∧ demoFailing.ras.nextSeq = 0 ∧ demoFailing.ras.logHeld.map (fun e => e.code) = [0x18] ∧
    (let t := demoAfter (.recoveryStart true) demoFailing;
      t.ras.log.map (fun e => (e.seq, e.code)) = [(1, 0x05), (0, 0x18)] ∧ t.ras.logHeld.length = 0) := by decide

end Tests
end

/-!
PROOFS. VOTE and SHFL (R25, R228, R229): what a vote counts and what a shuffle takes, as functions of the guarded lanes and
their sources, and with `alu_done` the commands themselves.
-/
namespace Sys2Proof.Machine

open Sys2Proof

theorem boolNat_eq_toNat (b : Bool) : boolNat b = b.toNat := by cases b <;> rfl

theorem modeIs_eq_extract (f : FmtG) (k : Nat) : modeIs f k = ((f.mod.extractLsb' 0 2).toNat == k) := by
  rw [modeIs, bitsOf, BitVec.extractLsb'_toNat, Nat.shiftRight_eq_div_pow]

-- Votes

/-- Every lane receives what `op` makes of the lanes and their predicates. -/
theorem vote_map (op : List (Nat × Bool) → Nat) (draw : Nat) (ls : List Nat) (src : Nat → Srcs) :
    vote op draw (ls.map (fun n => (n, src n))) =
      ls.map (fun n => (n, op (ls.map (fun n => (n, (src n).a == 1))))) := by
  simp only [vote, List.map_map, Function.comp_def]

theorem voteAllOf_map (ls : List Nat) (yes : Nat → Bool) : voteAllOf (ls.map (fun n => (n, yes n))) = (ls.all yes).toNat := by
  simp only [voteAllOf, boolNat_eq_toNat, List.all_map, Function.comp_def]

theorem voteAnyOf_map (ls : List Nat) (yes : Nat → Bool) : voteAnyOf (ls.map (fun n => (n, yes n))) = (ls.any yes).toNat := by
  simp only [voteAnyOf, boolNat_eq_toNat, List.any_map, Function.comp_def]

/-- A weighted count of the lanes that say yes is the sum of their weights. -/
theorem foldl_boolNat_mul (yes : Nat → Bool) (weight : Nat → Nat) (ls : List Nat) (m : Nat) :
    (ls.map (fun n => (n, yes n))).foldl (fun m v => m + boolNat v.2 * weight v.1) m =
      m + ((ls.filter yes).map weight).sum := by
  induction ls generalizing m with
  | nil => rfl
  | cons n ls ih =>
    rw [List.map_cons, List.foldl_cons, ih]
    cases h : yes n with
    | false => simp only [List.filter_cons, h, boolNat_eq_toNat, Bool.toNat_false, Nat.zero_mul, Nat.add_zero,
        Bool.false_eq_true, if_false]
    | true => simp only [List.filter_cons, h, boolNat_eq_toNat, Bool.toNat_true, Nat.one_mul, if_true,
        List.map_cons, List.sum_cons, Nat.add_assoc]

theorem voteBallotOf_map (ls : List Nat) (yes : Nat → Bool) :
    voteBallotOf (ls.map (fun n => (n, yes n))) = ((ls.filter yes).map (fun n => 2 ^ n)).sum := by
  rw [voteBallotOf, foldl_boolNat_mul yes (fun n => 2 ^ n), Nat.zero_add]

theorem voteCountOf_map (ls : List Nat) (yes : Nat → Bool) :
    voteCountOf (ls.map (fun n => (n, yes n))) = (ls.filter yes).length := by
  have h := foldl_boolNat_mul yes (fun _ => 1) ls 0
  simp only [Nat.mul_one] at h
  rw [voteCountOf, h, Nat.zero_add, List.map_const', List.sum_replicate_nat, Nat.mul_one]

-- Shuffles

/-- What lane `n` takes from the lane that `from_` names: its A where that is one of `ls`, else the lane's own A (R25). -/
def takesFrom (from_ : Nat → Nat → Option Nat) (ls : List Nat) (src : Nat → Srcs) (n : Nat) : Nat :=
  match from_ n (src n).b with
  | some k => if k ∈ ls then (src k).a else (src n).a
  | none => (src n).a

theorem shuffle_map (from_ : Nat → Nat → Option Nat) (draw : Nat) (ls : List Nat) (src : Nat → Srcs) :
    shuffle from_ draw (ls.map (fun n => (n, src n))) = ls.map (fun n => (n, takesFrom from_ ls src n)) := by
  unfold shuffle
  rw [List.map_map]
  refine List.map_congr_left fun n _ => ?_
  dsimp only [Function.comp_apply, takesFrom]
  cases from_ n (src n).b with
  | none => rfl
  | some k =>
    dsimp only [Option.bind_some]
    rw [find_map_pair]
    by_cases hk : k ∈ ls
    · rw [if_pos hk, if_pos hk]
    · rw [if_neg hk, if_neg hk]

theorem takesFrom_some {from_ : Nat → Nat → Option Nat} {ls : List Nat} {src : Nat → Srcs} {n k : Nat}
    (h : from_ n (src n).b = some k) : takesFrom from_ ls src n = if k ∈ ls then (src k).a else (src n).a := by
  rw [takesFrom, h]

theorem takesFrom_none {from_ : Nat → Nat → Option Nat} {ls : List Nat} {src : Nat → Srcs} {n : Nat}
    (h : from_ n (src n).b = none) : takesFrom from_ ls src n = (src n).a := by
  rw [takesFrom, h]

/-- UP names a lane only where B does not go below lane 0. -/
theorem takesFrom_up (ls : List Nat) (src : Nat → Srcs) (n : Nat) :
    takesFrom shflUpFrom ls src n = if (src n).b ≤ n ∧ n - (src n).b ∈ ls then (src (n - (src n).b)).a else (src n).a := by
  by_cases hb : (src n).b ≤ n
  · rw [takesFrom_some (if_pos hb)]
    simp only [hb, true_and]
  · rw [takesFrom_none (if_neg hb), if_neg fun h => hb h.1]

-- The commands

section
variable {s : State} {p : Place} {f : FmtG} {i : Issue} {c : Instr} {m : GForm} {k : Nat}

/-- A command of the ALU with a mode computes `val`, where its results on the guarded lanes are those of `val`. -/
theorem computes_of_mode {res : Nat → List (Nat × Srcs) → List (Nat × Nat)} {val : Nat → Nat} (hi : Issues s p i)
    (hc : exec c s = alu p m f false (modeIs f k) res s)
    (hv : ∀ draw, res draw ((guardedLanes s i f.pg f.pn).map (fun n => (n, aluSrcs m f s i n))) =
      (guardedLanes s i f.pg f.pn).map (fun n => (n, val n))) :
    Computes c m f false ((f.mod.extractLsb' 0 2).toNat == k) s i val := by
  intro hl
  rw [← modeIs_eq_extract] at hl
  obtain ⟨t, ht, hd⟩ := alu_done m f false (modeIs f k) res val hi hl (hv _)
  exact ⟨t, hc.trans ht, hd⟩

/-- A vote gives every guarded lane what `op` makes of the predicates of all of them. -/
theorem computes_vote {op : List (Nat × Bool) → Nat} {r : Nat} (hi : Issues s p i)
    (hc : exec c s = alu p m f false (modeIs f k) (vote op) s)
    (hr : op ((guardedLanes s i f.pg f.pn).map (fun n => (n, (aluSrcs m f s i n).a == 1))) = r) :
    Computes c m f false ((f.mod.extractLsb' 0 2).toNat == k) s i (fun _ => r) :=
  computes_of_mode hi hc fun draw => by rw [vote_map, hr]

/-- A shuffle gives each guarded lane A of the lane that `from_` names, or its own. -/
theorem computes_shuffle {from_ : Nat → Nat → Option Nat} {val : Nat → Nat} (hi : Issues s p i)
    (hc : exec c s = alu p m f false (modeIs f k) (shuffle from_) s)
    (hv : ∀ n, takesFrom from_ (guardedLanes s i f.pg f.pn) (aluSrcs m f s i) n = val n) :
    Computes c m f false ((f.mod.extractLsb' 0 2).toNat == k) s i val :=
  computes_of_mode hi hc fun draw => by rw [shuffle_map, funext hv]

end

theorem votes : Claims.Votes := by
  intro s p f i hi
  refine ⟨?all, ?any, ?ballot, ?count⟩
  case all => exact computes_vote hi rfl (voteAllOf_map _ _)
  case any => exact computes_vote hi rfl (voteAnyOf_map _ _)
  case ballot => exact computes_vote hi rfl (voteBallotOf_map _ _)
  case count => exact computes_vote hi rfl (voteCountOf_map _ _)

/-- IDX, DOWN and XOR always name a lane, which may be none of the guarded ones. -/
theorem shuffles : Claims.Shuffles := by
  intro s p f i hi
  refine ⟨?idx, ?up, ?down, ?xor⟩
  case up => exact computes_shuffle hi rfl fun n => takesFrom_up _ _ n
  case idx | down | xor => exact computes_shuffle hi rfl fun _ => takesFrom_some rfl

/-- Settles O5: the results are functions of the guarded lanes of the issuing subset and their sources alone (`vote_map`,
`shuffle_map`), and `alu_done` gives each command its frame. -/
theorem votesAndShuffles : Obligations.VotesAndShuffles := ⟨votes, shuffles⟩

end Sys2Proof.Machine

/-!
PROOFS. The address map (R135, R136): the owned channels in the order of their ranks, the place of a partition-relative
address, and how the address comes back from its place.
-/
namespace Sys2Proof.Machine

open Sys2Proof

-- The owned channels (R135)

/-- The key 16 c + s by which R135 ranks channel `p`; on the channels it is its own inverse. -/
def rankKey (p : Nat) : Nat := 16 * (p % 16) + p / 16

/-- PT_CHAN of the saggar names channel `p`. -/
def namesChan (g : Saggar) (p : Nat) : Bool := (g.chans.getD (p / 64) 0).getLsbD (p % 64)

theorem rankKey_lt {p : Nat} (h : p < 256) : rankKey p < 256 := by
  unfold rankKey
  omega

theorem rankKey_rankKey {p : Nat} (h : p < 256) : rankKey (rankKey p) = p := by
  unfold rankKey
  omega

theorem ownedChannels_eq_filter (g : Saggar) :
    ownedChannels g = ((List.range 256).map rankKey).filter (namesChan g) := by
  rw [← List.filterMap_eq_filter, List.filterMap_map]
  rfl

theorem mem_ownedChannels (g : Saggar) (p : Nat) : p ∈ ownedChannels g ↔ p < 256 ∧ namesChan g p = true := by
  have ranked : p ∈ (List.range 256).map rankKey ↔ p < 256 := by
    constructor
    · intro h
      obtain ⟨r, hr, rfl⟩ := List.mem_map.1 h
      exact rankKey_lt (List.mem_range.1 hr)
    · intro h
      exact List.mem_map.2 ⟨rankKey p, List.mem_range.2 (rankKey_lt h), rankKey_rankKey h⟩
  rw [ownedChannels_eq_filter, List.mem_filter, ranked]

theorem ownedChannels_ranked (g : Saggar) : (ownedChannels g).Pairwise (fun p q => rankKey p < rankKey q) := by
  rw [ownedChannels_eq_filter]
  refine List.Pairwise.filter _ (List.pairwise_map.2 ?_)
  refine List.pairwise_lt_range.imp_of_mem fun hp hq hlt => ?_
  rwa [rankKey_rankKey (List.mem_range.1 hp), rankKey_rankKey (List.mem_range.1 hq)]

theorem ownedChannels_nodup (g : Saggar) : (ownedChannels g).Nodup :=
  (ownedChannels_ranked g).imp fun hlt heq => Nat.ne_of_lt hlt (congrArg rankKey heq)

-- The place of an address (R136)

/-- The channel offset of address `a` over `n` channels. -/
def placeOfs (n a : Nat) : Nat := a / 2048 / n * 2048 + a % 2048

/-- The block index comes back from the offset and the channel's rank, as `unmapKey` computes it. -/
theorem address_of_place (n a : Nat) :
    (placeOfs n a / 2048 * n + a / 2048 % n) * 2048 + placeOfs n a % 2048 = a := by
  have hblock : placeOfs n a / 2048 = a / 2048 / n := by
    unfold placeOfs
    omega
  have hbyte : placeOfs n a % 2048 = a % 2048 := by
    unfold placeOfs
    omega
  rw [hblock, hbyte, Nat.div_add_mod', Nat.div_add_mod']

theorem placeOfs_lt {n cap a : Nat} (hcap : 2048 ∣ cap) (h : a < n * cap) : placeOfs n a < cap := by
  obtain ⟨blocks, rfl⟩ := hcap
  have hrow : a / 2048 / n < blocks := by
    rw [Nat.div_div_eq_div_mul]
    refine Nat.div_lt_of_lt_mul ?_
    rwa [Nat.mul_comm 2048 n, Nat.mul_assoc]
  unfold placeOfs
  omega

theorem dvd_chanCap (c : Channel) : 2048 ∣ chanCap c := by
  unfold chanCap
  split <;> decide

section
variable {s : State} {k cap : Nat}

/-- N × C, where the owned channels have one capacity. -/
theorem carveSize_eq_mul (hcap : ∀ p ∈ ownedChannels (sagOf s k), chanCap (chanOf s p) = cap) :
    carveSize s k = (ownedChannels (sagOf s k)).length * cap := by
  unfold carveSize
  cases hown : ownedChannels (sagOf s k) with
  | nil => rw [List.length_nil, Nat.zero_mul]
  | cons p ps => rw [List.length_cons, ← hcap p (hown ▸ List.mem_cons_self)]

/-- The map inside the carve-out: the channel whose rank is the block modulo N, which exists, and the offset. -/
theorem mapAddr_of_lt {a : Nat} (h : a < carveSize s k) (hn : 0 < (ownedChannels (sagOf s k)).length) :
    ∃ chan, (ownedChannels (sagOf s k))[a / 2048 % (ownedChannels (sagOf s k)).length]? = some chan ∧
      mapAddr s k a = some (chan, placeOfs (ownedChannels (sagOf s k)).length a) := by
  refine ⟨_, List.getElem?_eq_getElem (Nat.mod_lt _ hn), ?_⟩
  rw [mapAddr, if_pos h, List.getD_eq_getElem?_getD, List.getElem?_eq_getElem (Nat.mod_lt _ hn), Option.getD_some, placeOfs]

theorem mapAddr_of_ge {a : Nat} (h : carveSize s k ≤ a) : mapAddr s k a = none :=
  if_neg (Nat.not_lt.2 h)

/-- Two addresses in one place have the same rank, for no channel has two ranks, and the same offset. -/
theorem mapAddr_inj {a b : Nat} (ha : a < carveSize s k) (hb : b < carveSize s k)
    (hn : 0 < (ownedChannels (sagOf s k)).length) (h : mapAddr s k a = mapAddr s k b) : a = b := by
  obtain ⟨chan, hrankA, hmapA⟩ := mapAddr_of_lt ha hn
  obtain ⟨_, hrankB, hmapB⟩ := mapAddr_of_lt hb hn
  obtain ⟨rfl, hofs⟩ := Prod.mk.inj (Option.some.inj (hmapA.symm.trans (h.trans hmapB)))
  have hrank := (List.getElem?_inj (Nat.mod_lt _ hn) (ownedChannels_nodup _)).1 (hrankA.trans hrankB.symm)
  rw [← address_of_place (ownedChannels (sagOf s k)).length a, hofs, hrank, address_of_place]

end

/-- Settles O54: every channel has one rank (`ownedChannels_ranked`), and an address comes back from the rank and the
offset of its place (`address_of_place`). -/
theorem addressMap : Obligations.AddressMap := by
  intro s k
  refine ⟨mem_ownedChannels _, ownedChannels_ranked _, fun cap hcap => ?_⟩
  rw [← carveSize_eq_mul hcap]
  have owns {a : Nat} (ha : a < carveSize s k) : 0 < (ownedChannels (sagOf s k)).length :=
    Nat.pos_of_mul_pos_right (Nat.zero_lt_of_lt (carveSize_eq_mul hcap ▸ ha))
  refine ⟨fun a ha => ?place, fun a b ha hb => mapAddr_inj ha hb (owns ha), fun a => mapAddr_of_ge⟩
  case place =>
    obtain ⟨chan, hrank, hmap⟩ := mapAddr_of_lt ha (owns ha)
    have huniform : 2048 ∣ cap := by
      rw [← hcap chan (List.mem_of_getElem? hrank)]
      exact dvd_chanCap _
    exact ⟨chan, hrank, hmap, placeOfs_lt huniform (carveSize_eq_mul hcap ▸ ha)⟩

end Sys2Proof.Machine

/-!
PROOFS. The registers of a block at its start (R206): the place of an admitted block has room for it, each of its groups takes
a slot that no later group takes, and what a new group holds in its registers.
-/
namespace Sys2Proof.Machine

open Sys2Proof

-- Free slots of a table

section
variable {α : Type}

/-- The lowest of the 16 slots that a table leaves free: the one that a group (R20) or a block takes. -/
def freeSlot (t : Tbl α) : SlotId :=
  BitVec.toFin (BitVec.ofNat 4 (((List.range 16).find? (fun i => (tblFind t i).isNone)).getD 0))

theorem mem_keys_of_tblFind {t : Tbl α} {i : Nat} (h : (tblFind t i).isSome) : i ∈ t.map Prod.fst := by
  induction t with
  | nil => cases h
  | cons p t ih =>
    rw [tblFind] at h
    by_cases hk : p.1 = i
    · exact List.mem_map.2 ⟨p, List.mem_cons_self, hk⟩
    · rw [if_neg (by simpa using hk)] at h
      exact List.mem_cons_of_mem _ (ih h)

/-- Fewer than 16 entries cannot fill 16 slots. -/
theorem exists_free_of_length_lt {t : Tbl α} (h : t.length < 16) : ∃ i ∈ List.range 16, tblFind t i = none := by
  refine Classical.byContradiction fun hfull => ?_
  have filled : List.range 16 ⊆ t.map Prod.fst := fun i hi =>
    mem_keys_of_tblFind (Option.isSome_iff_ne_none.2 fun hn => hfull ⟨i, hi, hn⟩)
  have hlen := List.nodup_range.length_le_of_subset filled
  rw [List.length_range, List.length_map] at hlen
  omega

theorem tblFind_freeSlot {t : Tbl α} (h : t.length < 16) : tblFind t (freeSlot t).val = none := by
  obtain ⟨i, hi, hfree⟩ := exists_free_of_length_lt h
  cases hfind : (List.range 16).find? (fun i => (tblFind t i).isNone) with
  | none => exact absurd (Option.isNone_iff_eq_none.2 hfree) (List.find?_eq_none.1 hfind i hi)
  | some j =>
    have hj : j < 16 := List.mem_range.1 (List.mem_of_find?_eq_some hfind)
    have hval : (freeSlot t).val = j := by
      rw [freeSlot, hfind]
      exact Nat.mod_eq_of_lt hj
    rw [hval]
    exact Option.isNone_iff_eq_none.1 (List.find?_some (p := fun i => (tblFind t i).isNone) hfind)

theorem tblPut_length_le (t : Tbl α) (i : Nat) (v : α) : (tblPut t i v).length ≤ t.length + 1 := by
  induction t with
  | nil => exact Nat.le_refl _
  | cons p t ih =>
    rw [tblPut]
    split
    · exact Nat.le_refl _
    · split
      · exact Nat.le_succ _
      · exact Nat.succ_le_succ ih

end

-- The room of an admitted block (R32)

/-- A room promises no block slot and no group slot that core `k` has not free. -/
structure RoomWithin (k : Core) (r : Room) : Prop where
  blocks : r.blocks ≤ 16 - k.blocks.length
  slots : ∀ j, r.slots.getD j 0 ≤ 16 - (subOf k j).slots.length

theorem roomWithin_roomOf (k : Core) : RoomWithin k (roomOf k) := by
  refine ⟨Nat.le_refl _, fun j => ?_⟩
  simp only [roomOf, subOf, List.getD_eq_getElem?_getD, List.getElem?_map]
  cases k.subs[j]? with
  | none => exact Nat.zero_le _
  | some u => exact Nat.le_refl _

/-- What a placed block finds in a room, and that it leaves no more there. -/
theorem placeIn_spec {i : LaunchInfo} {r r' : Room} {b : Nat} (h : placeIn i r = some (b, r')) :
    0 < r.blocks ∧ (∀ j, j < 4 → subShare (blockGroups i) b j ≤ r.slots.getD j 0) ∧
      r'.blocks ≤ r.blocks ∧ ∀ j, r'.slots.getD j 0 ≤ r.slots.getD j 0 := by
  simp only [placeIn] at h
  split at h
  · cases h
  · rename_i hroom
    split at h
    · cases h
    · rename_i hfit
      cases h
      simp only [Bool.or_eq_true, decide_eq_true_eq, not_or] at hroom
      refine ⟨Nat.pos_of_ne_zero hroom.1, fun j hj => ?fits, Nat.sub_le _ _, fun j => ?shrinks⟩
      case fits =>
        refine Nat.le_of_not_lt fun hlt => hfit (List.any_eq_true.2 ⟨j, List.mem_range.2 hj, ?_⟩)
        rw [Bool.or_eq_true, decide_eq_true_eq]
        exact .inl hlt
      case shrinks =>
        rw [List.getD_eq_getElem?_getD, List.getElem?_map]
        cases hj : (List.range 4)[j]? with
        | none => exact Nat.zero_le _
        | some m =>
          obtain ⟨_, rfl⟩ := List.getElem?_eq_some_iff.1 hj
          rw [List.getElem_range]
          exact Nat.sub_le _ _

theorem roomWithin_placeIn {k : Core} {i : LaunchInfo} {r r' : Room} {b : Nat} (hr : RoomWithin k r)
    (h : placeIn i r = some (b, r')) : RoomWithin k r' := by
  obtain ⟨_, _, hblocks, hslots⟩ := placeIn_spec h
  exact ⟨Nat.le_trans hblocks hr.blocks, fun j => Nat.le_trans (hslots j) (hr.slots j)⟩

/-- Each room promises no more than its core has free. -/
def RoomsWithin (s : State) (rs : List CoreRoom) : Prop := ∀ r ∈ rs, RoomWithin (coreOf s r.core) r.room

theorem roomsWithin_useRoom {s : State} {rs : List CoreRoom} (h : RoomsWithin s rs) (c : Nat) (i : LaunchInfo) :
    RoomsWithin s (useRoom rs c i) := by
  intro r' hr'
  obtain ⟨r, hr, rfl⟩ := List.mem_map.1 hr'
  split
  · split
    · exact roomWithin_placeIn (h r hr) ‹_›
    · exact h r hr
  · exact h r hr

theorem roomsWithin_sagRooms (s : State) (sag : Nat) : RoomsWithin s (sagRooms s sag) := by
  refine List.foldlRecOn _ _ (List.foldlRecOn _ _ ?free fun rs hrs l _ => ?launches) fun rs hrs h _ => ?handed
  case free =>
    intro r hr
    obtain ⟨c, _, rfl⟩ := List.mem_map.1 hr
    exact roomWithin_roomOf _
  case launches => exact List.foldlRecOn _ _ hrs fun _ hrs c _ => roomsWithin_useRoom hrs c.val l.info
  case handed =>
    split
    · exact roomsWithin_useRoom hrs _ _
    · exact hrs

/-- The place of a handed block is a core and a room of it in which the block fits. -/
theorem handedPlace_spec {s : State} {l : Launch} {h : Handed} {c first : Nat} (hp : handedPlace s l h = some (c, first)) :
    ∃ r r', RoomWithin (coreOf s c) r ∧ placeIn l.info r = some (first, r') := by
  obtain ⟨r, hfind, hplace⟩ := Option.bind_eq_some_iff.1 hp
  obtain ⟨⟨b, r'⟩, hin, hout⟩ := Option.map_eq_some_iff.1 hplace
  cases hout
  refine ⟨r.room, r', ?_, hin⟩
  have hmem := List.mem_of_find?_eq_some hfind
  split at hmem
  · rw [List.mem_singleton.1 (List.mem_filter.1 hmem).1]
    exact roomWithin_roomOf _
  · exact roomsWithin_sagRooms s _ r (List.mem_filter.1 hmem).1

-- The groups of a block enter its core (R20, R32)

/-- The sub-core of group `idx` when group 0 goes to sub-core `first`. -/
def groupSub (first idx : Nat) : SubId := BitVec.toFin (BitVec.ofNat 2 ((first + idx) % 4))

theorem groupSub_val (first idx : Nat) : (groupSub first idx).val = (first + idx) % 4 := Nat.mod_mod _ 4

theorem addGroup_slots (u : Sub) (g : Grp) : (addGroup u g).1.slots = tblPut u.slots (freeSlot u.slots).val g := by
  rw [addGroup]
  split <;> rfl

theorem addGroup_slot (u : Sub) (g : Grp) : (addGroup u g).2 = freeSlot u.slots := by
  rw [addGroup]
  split <;> rfl

/-- A core after group `idx` of a block has entered it. -/
def withGroup (k : Core) (i : LaunchInfo) (b : SlotId) (first now idx : Nat) : Core :=
  setSub k (groupSub first idx).val (addGroup (subOf k (groupSub first idx).val) (newGroup i b idx now)).1

theorem addGroups_succ (k : Core) (i : LaunchInfo) (b : SlotId) (first now n idx : Nat) (acc : List (SubId × SlotId)) :
    addGroups k i b first now (n + 1) idx acc = addGroups (withGroup k i b first now idx) i b first now n (idx + 1)
      (acc ++ [(groupSub first idx, freeSlot (subOf k (groupSub first idx).val).slots)]) := by
  rw [← addGroup_slot _ (newGroup i b idx now)]
  rfl

theorem addGroups_length (k : Core) (i : LaunchInfo) (b : SlotId) (first now n idx : Nat) (acc : List (SubId × SlotId)) :
    (addGroups k i b first now n idx acc).2.length = acc.length + n := by
  induction n generalizing k idx acc with
  | zero => rfl
  | succ n ih =>
    rw [addGroups_succ, ih, List.length_append, List.length_singleton]
    omega

theorem subShare_succ (n b j : Nat) : subShare (n + 1) b j = (if b % 4 = j then 1 else 0) + subShare n (b + 1) j := by
  simp only [subShare, List.range_succ_eq_map, List.filter_cons, List.filter_map, Nat.add_zero, beq_iff_eq]
  have shift : (fun i => (b + i) % 4 == j) ∘ Nat.succ = fun i => (b + 1 + i) % 4 == j := by
    funext i
    rw [Function.comp_apply, Nat.succ_eq_add_one, Nat.add_right_comm, Nat.add_assoc b i 1, Nat.add_comm i 1, ← Nat.add_assoc]
  split <;> simp only [shift, List.length_cons, List.length_map] <;> omega

/-- Each sub-core has free slots for its share of `n` groups, of which the first goes to sub-core `b` modulo 4. -/
structure HasSlots (k : Core) (n b : Nat) : Prop where
  subs : k.subs.length = 4
  share : ∀ j, j < 4 → subShare n b j ≤ 16 - (subOf k j).slots.length

section
variable {k : Core} {i : LaunchInfo} {b : SlotId} {first now n idx : Nat}

theorem subOf_withGroup (hk : k.subs.length = 4) (j : Nat) :
    subOf (withGroup k i b first now idx) j = if j = (first + idx) % 4
      then (addGroup (subOf k j) (newGroup i b idx now)).1 else subOf k j := by
  rw [withGroup, subOf_setSub, groupSub_val, hk]
  by_cases hj : j = (first + idx) % 4
  · rw [if_pos ⟨hj, by omega⟩, if_pos hj, hj]
  · rw [if_neg fun h => hj h.1, if_neg hj]

/-- The sub-core of the next group has a slot free. -/
theorem HasSlots.free (h : HasSlots k (n + 1) (first + idx)) : (subOf k ((first + idx) % 4)).slots.length < 16 := by
  have := h.share ((first + idx) % 4) (Nat.mod_lt _ (by decide))
  rw [subShare_succ, if_pos rfl] at this
  omega

theorem HasSlots.withGroup (h : HasSlots k (n + 1) (first + idx)) :
    HasSlots (withGroup k i b first now idx) n (first + (idx + 1)) := by
  refine ⟨(listSet_length ..).trans h.subs, fun j hj => ?_⟩
  have hshare := h.share j hj
  rw [subShare_succ, Nat.add_assoc first idx 1] at hshare
  rw [subOf_withGroup h.subs]
  by_cases hsub : j = (first + idx) % 4
  · rw [if_pos hsub.symm] at hshare
    have := tblPut_length_le (subOf k j).slots (freeSlot (subOf k j).slots).val (newGroup i b idx now)
    rw [if_pos hsub, addGroup_slots]
    omega
  · rw [if_neg (Ne.symm hsub)] at hshare
    rw [if_neg hsub]
    omega

/-- A group of the block stands in the core, as it was at its start. -/
def Starts (k : Core) (i : LaunchInfo) (b : SlotId) (now : Nat) (p : SubId × SlotId) : Prop :=
  ∃ idx, tblFind (subOf k p.1.val).slots p.2.val = some (newGroup i b idx now)

/-- A group that enters takes a free slot, so it leaves the groups before it where they are. -/
theorem Starts.withGroup {p : SubId × SlotId} (hp : Starts k i b now p) (hs : HasSlots k (n + 1) (first + idx)) :
    Starts (withGroup k i b first now idx) i b now p := by
  obtain ⟨m, hm⟩ := hp
  refine ⟨m, ?_⟩
  rw [subOf_withGroup hs.subs]
  by_cases hsub : p.1.val = (first + idx) % 4
  · have hfree := tblFind_freeSlot hs.free
    rw [← hsub] at hfree
    have hslot : p.2.val ≠ (freeSlot (subOf k p.1.val).slots).val := by
      intro e
      rw [e, hfree] at hm
      cases hm
    rw [if_pos hsub, addGroup_slots, tblFind_tblPut, if_neg hslot, hm]
  · rw [if_neg hsub, hm]

/-- The group that enters stands in the slot that it took. -/
theorem starts_new (hk : k.subs.length = 4) :
    Starts (withGroup k i b first now idx) i b now (groupSub first idx, freeSlot (subOf k (groupSub first idx).val).slots) := by
  refine ⟨idx, ?_⟩
  rw [subOf_withGroup hk, if_pos (groupSub_val ..), addGroup_slots, tblFind_tblPut, if_pos rfl]

end

/-- Every group of the block stands in the slot that the block names for it. -/
theorem addGroups_starts {k : Core} {i : LaunchInfo} {b : SlotId} {first now n idx : Nat} {acc : List (SubId × SlotId)}
    (hs : HasSlots k n (first + idx)) (hacc : ∀ p ∈ acc, Starts k i b now p) :
    ∀ p ∈ (addGroups k i b first now n idx acc).2, Starts (addGroups k i b first now n idx acc).1 i b now p := by
  induction n generalizing k idx acc with
  | zero => exact hacc
  | succ n ih =>
    rw [addGroups_succ]
    refine ih hs.withGroup fun p hp => ?_
    rcases List.mem_append.1 hp with hold | hnew
    · exact (hacc p hold).withGroup hs
    · rw [List.mem_singleton.1 hnew]
      exact starts_new hs.subs

-- The registers of a new group (R206)

theorem getD_of_length_le {α : Type} {xs : List α} {d : α} {n : Nat} (h : xs.length ≤ n) : xs.getD n d = d := by
  rw [List.getD_eq_getElem?_getD, List.getElem?_eq_none h, Option.getD_none]

theorem tblGet_foldl_zipIdx (ws : List W32) (t : Tbl W32) (m n : Nat) :
    tblGet 0 ((ws.zipIdx m).foldl (fun t a => tblSet 0 t a.2 a.1) t) n =
      if m ≤ n ∧ n < m + ws.length then ws.getD (n - m) 0 else tblGet 0 t n := by
  induction ws generalizing t m with
  | nil => rw [if_neg (by rw [List.length_nil]; omega)]; rfl
  | cons w ws ih =>
    rw [List.zipIdx_cons, List.foldl_cons, ih, tblGet_tblSet, List.length_cons]
    by_cases hn : n = m
    · rw [if_neg (by omega), if_pos hn, if_pos (by omega), hn, Nat.sub_self, List.getD_cons_zero]
    · rw [if_neg hn]
      by_cases hin : m + 1 ≤ n ∧ n < m + 1 + ws.length
      · obtain ⟨d, rfl⟩ := Nat.exists_eq_add_of_le hin.1
        rw [if_pos hin, if_pos (by omega), show m + 1 + d - m = d + 1 by omega, List.getD_cons_succ, Nat.add_sub_cancel_left]
      · rw [if_neg hin, if_neg (by omega)]

theorem uReg_newGroup (i : LaunchInfo) (b : SlotId) (idx now n : Nat) : uReg (newGroup i b idx now) n = i.args.getD n 0 := by
  refine (tblGet_foldl_zipIdx i.args [] 0 n).trans ?_
  rw [Nat.zero_add, Nat.sub_zero, tblGet_nil]
  by_cases hn : n < i.args.length
  · rw [if_pos ⟨Nat.zero_le n, hn⟩]
  · rw [if_neg fun h => hn h.2, getD_of_length_le (Nat.le_of_not_lt hn)]

theorem laneOf_newGroup (i : LaunchInfo) (b : SlotId) (idx now : Nat) {n : Nat} (hn : n < 32) :
    laneOf (newGroup i b idx now) n = { exited := i.bx * i.bY * i.bz ≤ idx * 32 + n, pc := i.entryPc, ordPt := now } := by
  rw [laneOf_lanes, newGroup]
  dsimp only
  rw [List.getElem?_map, List.getElem?_range hn]
  rfl

/-- The lowest of the bytes that a little-endian number is made of, and the others. -/
theorem leNat_take_drop_succ (bs : List Byte) (o n : Nat) :
    leNat ((bs.drop o).take (n + 1)) = (bs.getD o 0).toNat + 256 * leNat ((bs.drop (o + 1)).take n) := by
  by_cases ho : o < bs.length
  · rw [List.drop_eq_getElem_cons ho, List.take_succ_cons, leNat, List.getD_eq_getElem?_getD, List.getElem?_eq_getElem ho,
      Option.getD_some]
  · rw [List.drop_eq_nil_of_le (by omega), List.drop_eq_nil_of_le (by omega), getD_of_length_le (by omega), List.take_nil,
      List.take_nil]
    rfl

theorem rd32_eq (bs : List Byte) (o : Nat) :
    rd32 bs o = (bs.getD o 0).toNat + 2 ^ 8 * (bs.getD (o + 1) 0).toNat + 2 ^ 16 * (bs.getD (o + 2) 0).toNat +
      2 ^ 24 * (bs.getD (o + 3) 0).toNat := by
  rw [rd32, leNat_take_drop_succ, leNat_take_drop_succ, leNat_take_drop_succ, leNat_take_drop_succ, List.take_zero, leNat,
    Nat.add_assoc o 1 1, Nat.add_assoc o 2 1]
  omega

theorem rd32_lt (bs : List Byte) (o : Nat) : rd32 bs o < 2 ^ 32 := by
  rw [rd32_eq]
  have h0 := (bs.getD o 0).isLt
  have h1 := (bs.getD (o + 1) 0).isLt
  have h2 := (bs.getD (o + 2) 0).isLt
  have h3 := (bs.getD (o + 3) 0).isLt
  omega

section
variable (s : State) (id : Nat) (ref : NodeRef) (ws : List W64) (hdr ent area : List Byte)

theorem mkLaunch_args_getD {n : Nat} (hn : n < 16) :
    (mkLaunch s id ref ws hdr ent area).args.getD n 0 = BitVec.ofNat 32 (rd32 area (4 * n)) := by
  rw [mkLaunch]
  dsimp only
  rw [List.getD_eq_getElem?_getD, List.getElem?_map, List.getElem?_range hn]
  rfl

theorem mkLaunch_args_length : (mkLaunch s id ref ws hdr ent area).args.length = 16 :=
  (List.length_map ..).trans List.length_range

end

section
variable {s : State} {id : Nat} {ref : NodeRef} {ws : List W64} {hdr ent area : List Byte} {i : LaunchInfo}

/-- The arguments lie in u0 to u15, four bytes in each. -/
theorem uReg_newGroup_arg (hi : i = mkLaunch s id ref ws hdr ent area) (b : SlotId) (idx now : Nat) {n : Nat} (hn : n < 16) :
    (uReg (newGroup i b idx now) n).toNat = (area.getD (4 * n) 0).toNat + 2 ^ 8 * (area.getD (4 * n + 1) 0).toNat +
      2 ^ 16 * (area.getD (4 * n + 2) 0).toNat + 2 ^ 24 * (area.getD (4 * n + 3) 0).toNat := by
  rw [hi, uReg_newGroup, mkLaunch_args_getD _ _ _ _ _ _ _ hn, BitVec.toNat_ofNat, Nat.mod_eq_of_lt (rd32_lt ..), rd32_eq]

theorem uReg_newGroup_rest (hi : i = mkLaunch s id ref ws hdr ent area) (b : SlotId) (idx now : Nat) {n : Nat} (hn : 16 ≤ n) :
    uReg (newGroup i b idx now) n = 0 := by
  rw [hi, uReg_newGroup, getD_of_length_le]
  rwa [mkLaunch_args_length]

end

theorem vReg_newGroup (i : LaunchInfo) (b : SlotId) (idx now : Nat) {n : Nat} (hn : n < 32) (r : Nat) :
    vReg (laneOf (newGroup i b idx now) n) r = 0 := by
  rw [laneOf_newGroup i b idx now hn]
  exact tblGet_nil 0 r

theorem pReg_newGroup (i : LaunchInfo) (b : SlotId) (idx now : Nat) {n r : Nat} (hn : n < 32) (hr : r < 7) :
    pReg (laneOf (newGroup i b idx now) n) r = false := by
  rw [laneOf_newGroup i b idx now hn, pReg, if_neg (Nat.not_le.2 hr)]
  exact BitVec.getLsbD_zero

-- A block enters its core

theorem execBlockAdmission_eq {s : State} {g : ClusterId} {h : Handed} {l : Launch} {c first : Nat}
    (hwork : newWork s = true) (hhanded : s.fe.handed = [h]) (hg : h.cluster = g) (hl : launchOf s h.launch = some l)
    (hmay : mayAdmit s h = true) (hp : handedPlace s l h = some (c, first)) :
    execBlockAdmission g s =
      .next (admitBlock { s with fe := { s.fe with handed := s.fe.handed.filter (· != h) } } l h.lin c first) := by
  have hfind : s.fe.handed.find? (fun h => h.cluster == g && mayAdmit s h) = some h := by
    rw [hhanded, List.find?_cons_of_pos]
    rw [hmay, hg, beq_self_eq_true, Bool.and_true]
  simp only [execBlockAdmission, hwork, Bool.not_true, Bool.false_eq_true, if_false, hfind, hl, hp]

theorem mayAdmit_iff {s : State} {h : Handed} {l : Launch} (hl : launchOf s h.launch = some l) :
    mayAdmit s h = true ↔ l.info.rt = true ∨ h.core.isSome = true ∨ coResWaits s l.info.sag.val = false := by
  simp only [mayAdmit, hl, Bool.or_eq_true, Bool.not_eq_true', or_assoc]

/-- The core that a block enters: its groups stand in it, and the block in the lowest free block slot. -/
theorem coreOf_admitBlock (s : State) (l : Launch) (lin c first : Nat) :
    let b := freeSlot (coreOf s c).blocks
    let r := addGroups (coreOf s c) l.info b first (s.now + 1) (blockGroups l.info) 0 []
    coreOf (admitBlock s l lin c first) c = setBlock r.1 b.val { info := l.info, lin, groups := r.2 } := by
  rw [admitBlock]
  dsimp only
  rw [coreOf_setCore, if_pos rfl]
  by_cases hnone : noneAdmitted s l
  · rw [if_pos hnone]
    rfl
  · rw [if_neg hnone]
    rfl

/-- A block that fits enters a free block slot of its core, and each group that it names there is a new one. -/
theorem admitBlock_starts {s : State} {l : Launch} {c first : Nat} {r r' : Room} (lin : Nat)
    (hsubs : (coreOf s c).subs.length = 4) (hr : RoomWithin (coreOf s c) r) (hplace : placeIn l.info r = some (first, r')) :
    ∃ b x, tblFind (coreOf s c).blocks b = none ∧ tblFind (coreOf (admitBlock s l lin c first) c).blocks b = some x ∧
      x.groups.length = blockGroups l.info ∧
      ∀ j ∈ x.groups, ∃ blk idx,
        grpOf (subOf (coreOf (admitBlock s l lin c first) c) j.1.val) j.2.val = newGroup l.info blk idx (s.now + 1) := by
  obtain ⟨hblock, hshare, _⟩ := placeIn_spec hplace
  have hslots : HasSlots (coreOf s c) (blockGroups l.info) (first + 0) :=
    ⟨hsubs, fun j hj => Nat.le_trans (hshare j hj) (hr.slots j)⟩
  rw [coreOf_admitBlock]
  refine ⟨_, _, tblFind_freeSlot (Nat.lt_of_sub_pos (Nat.lt_of_lt_of_le hblock hr.blocks)),
    (tblFind_tblPut ..).trans (if_pos rfl), ?_, fun j hj => ?_⟩
  · rw [addGroups_length]
    exact Nat.zero_add _
  · obtain ⟨idx, hstands⟩ := addGroups_starts hslots (List.forall_mem_nil _) j hj
    exact ⟨_, idx, congrArg (Option.getD · noGrp) hstands⟩

/-- Settles O55: the place of an admitted block has room for it (`handedPlace_spec`), so each of its groups stands in the core as
`newGroup` makes it (`admitBlock_starts`), and `newGroup` loads the arguments alone. -/
theorem blockRegisters : Obligations.BlockRegisters := by
  intro s u g h l c first id ref ws hdr ent area hwork hhanded hg hl hmay hp hsound _ hinfo
  obtain ⟨r, r', hr, hplace⟩ := handedPlace_spec hp
  have hgoes := execBlockAdmission_eq hwork hhanded hg hl ((mayAdmit_iff hl).2 hmay) hp
  obtain ⟨b, x, hfree, hblock, hlen, hgroups⟩ := admitBlock_starts
    (s := { s with fe := { s.fe with handed := s.fe.handed.filter (· != h) } }) h.lin (hsound.subs c) hr hplace
  refine ⟨_, b, x, hgoes, hfree, hblock, hlen, fun j hj => ?_⟩
  obtain ⟨blk, idx, hgroup⟩ := hgroups j hj
  rw [hgroup]
  exact ⟨fun n hn => uReg_newGroup_arg hinfo blk idx _ hn, fun n hn _ => uReg_newGroup_rest hinfo blk idx _ hn,
    fun n hn => ⟨fun r => vReg_newGroup _ blk idx _ hn r, fun r hr => pReg_newGroup _ blk idx _ hn hr⟩⟩

end Sys2Proof.Machine

/-!
PROOFS. The LOCK fields (R476): where CD_L2_MASK_k, XL_SLICE_k and XL_CONE_n lie, and what a write of the host leaves in each
while its saggar is SEALED and while it is not.
-/
namespace Sys2Proof.Machine

open Sys2Proof

-- The word of a write, and its fields

theorem leBytes_length (n v : Nat) : (leBytes n v).length = n := by
  induction n generalizing v with
  | zero => rfl
  | succ n ih => rw [leBytes, List.length_cons, ih]

theorem leNat_leBytes (n v : Nat) : leNat (leBytes n v) = v % 256 ^ n := by
  induction n generalizing v with
  | zero => exact (Nat.mod_one v).symm
  | succ n ih =>
    rw [leBytes, leNat, ih, BitVec.toNat_ofNat, Nat.pow_succ' (m := 256), Nat.mod_mul]

/-- A write of all eight bytes leaves nothing of what stood in the register (R474). -/
theorem mergeBytes_all (old w : W64) : mergeBytes old 0xFF w = w := by
  have hlen : (leBytes 8 old.toNat).length = (leBytes 8 w.toNat).length := by rw [leBytes_length, leBytes_length]
  have hnew : ∀ p ∈ ((leBytes 8 old.toNat).zip (leBytes 8 w.toNat)).zipIdx,
      (if (0xFF : BitVec 8).getLsbD p.2 then p.1.2 else p.1.1) = (Prod.snd ∘ Prod.fst) p := by
    intro p hp
    have hidx := List.snd_lt_of_mem_zipIdx hp
    rw [List.length_zip, leBytes_length, leBytes_length] at hidx
    have henabled : ∀ i < 8, (0xFF : BitVec 8).getLsbD i = true := by decide
    rw [if_pos (henabled p.2 hidx), Function.comp_apply]
  rw [mergeBytes, List.map_congr_left hnew, ← List.map_map, List.zipIdx_map_fst, List.map_snd_zip (Nat.le_of_eq hlen.symm), leNat_leBytes,
    Nat.mod_eq_of_lt (show w.toNat < 256 ^ 8 from w.isLt), BitVec.ofNat_toNat, BitVec.setWidth_eq]

theorem bit_eq_getLsbD (w : W64) (i : Nat) : bit w i = w.getLsbD i := by
  rw [bit, bitsOf, Nat.pow_one, ← BitVec.testBit_toNat, Nat.testBit_eq_decide_div_mod_eq]
  rfl

/-- The lowest field of a word. -/
theorem ofNat_bitsOf_zero (v n : Nat) : BitVec.ofNat n (bitsOf v 0 n) = BitVec.ofNat n v := by
  apply BitVec.eq_of_toNat_eq
  rw [bitsOf, Nat.pow_zero, Nat.div_one, BitVec.toNat_ofNat, BitVec.toNat_ofNat, Nat.mod_mod]

theorem toSag_val (k : SagId) : toSag k.val = k := Fin.ext (Nat.mod_eq_of_lt k.isLt)

theorem isSealed_iff (s : State) (k : Nat) : isSealed s k = true ↔ (sagOf s k).st = .sealed := beq_iff_eq

-- Where the registers lie (Table 20-13)

theorem regAt_l2Mask {d k : Nat} (hd : d < 4) (hk : k < 16) :
    regAt (0x2000100 + 0x400000 * d + 8 * k) = some (.cdL2Mask d k) := by
  simp (disch := omega) only [regAt, cdReg, if_neg, if_pos, Bool.and_eq_true, decide_eq_true_eq]
  congr 2 <;> omega

theorem regAt_slice {k : Nat} (hk : k < 16) : regAt (0xC60100 + 8 * k) = some (.xlSlice k) := by
  simp (disch := omega) only [regAt, xlReg, if_neg, if_pos, Bool.and_eq_true, decide_eq_true_eq]
  congr 2
  omega

theorem regAt_cone {n : Nat} (hn : n < 4096) : regAt (0xC70000 + 8 * n) = some (.xlCone n) := by
  simp (disch := omega) only [regAt, xlReg, if_neg, if_pos, Bool.and_eq_true, decide_eq_true_eq]
  congr 2
  omega

/-- A write of the host is a write to the register that lies at its offset. -/
theorem registerWrite_goes {ofs : Nat} {r : Reg} (hofs : ofs < 2 ^ 26) (hreg : regAt ofs = some r) (s : State) (be : BitVec 8)
    (w : W64) : Goes (.registerWrite (BitVec.ofNat 26 ofs) be w) s (writeReg s false r be w) := by
  have harm : exec (.registerWrite (BitVec.ofNat 26 ofs) be w) s =
      .next (writeSetup s false (BitVec.ofNat 26 ofs).toNat be w) := rfl
  rw [Goes, harm, BitVec.toNat_ofNat, Nat.mod_eq_of_lt hofs, writeSetup, hreg]

/-- A write that its register ignores changes nothing. -/
theorem registerWrite_ignored {ofs : Nat} {r : Reg} {s : State} {be : BitVec 8} {w : W64} (hofs : ofs < 2 ^ 26)
    (hreg : regAt ofs = some r) (hsame : writeReg s false r be w = s) : Goes (.registerWrite (BitVec.ofNat 26 ofs) be w) s s :=
  (registerWrite_goes hofs hreg s be w).trans (congrArg _ hsame)

-- CD_L2_MASK_k

section
variable (s : State) (d k : Nat) (w : W64)

/-- Either the mask's saggar is SEALED and the write is ignored, or the masks of the die take it. -/
theorem writeReg_l2Mask (be : BitVec 8) : writeReg s false (.cdL2Mask d k) be w =
    if isSealed s k then s
    else modDie s d fun x => { x with
      masks := tblSet {} x.masks k (maskFrom (mergeBytes (readReg s (.cdL2Mask d k)) be w)) } := rfl

theorem writeReg_l2Mask_sealed (be : BitVec 8) (hsealed : isSealed s k = true) :
    writeReg s false (.cdL2Mask d k) be w = s := by
  rw [writeReg_l2Mask, if_pos hsealed]

theorem writeReg_l2Mask_open (hopen : isSealed s k ≠ true) : writeReg s false (.cdL2Mask d k) 0xFF w =
    modDie s d fun x => { x with masks := tblSet {} x.masks k (maskFrom w) } := by
  rw [writeReg_l2Mask, if_neg hopen, mergeBytes_all]

end

/-- An update of the masks of a die that there is. -/
theorem onlyDie_modDie_masks {s : State} {d : Nat} (hd : d < s.dies.length) (f : Tbl WayMask → Tbl WayMask) :
    let t := modDie s d fun x => { x with masks := f x.masks }
    (dieOf t d).masks = f (dieOf s d).masks ∧ OnlyDie s t d { dieOf s d with masks := (dieOf t d).masks } := by
  have hread (x : Nat) := dieOf_modDie s d x fun x => { x with masks := f x.masks }
  have hself := (hread d).trans (if_pos ⟨rfl, hd⟩)
  refine ⟨congrArg Die.masks hself, rfl, fun x => ?_⟩
  by_cases hx : x = d
  · rw [hx, if_pos rfl, hself]
  · rw [if_neg hx, hread, if_neg fun h => hx h.1]

-- XL_SLICE_k

theorem sliceOf_congr {s t : State} (h : t.xl = s.xl) (x : Nat) : sliceOf t x = sliceOf s x :=
  congrArg (fun y : Xator => tblGet ({} : SliceReg) y.slices x) h

@[simp] theorem deriveLink_xl (s : State) (k : Nat) : (deriveLink s k).xl = s.xl := by
  rw [deriveLink]
  split <;> rfl

@[simp] theorem sliceOf_deriveLink (s : State) (k x : Nat) : sliceOf (deriveLink s k) x = sliceOf s x :=
  sliceOf_congr (deriveLink_xl s k) x

/-- A slice whose stop ends stands as it is put there, and no other slice changes. -/
theorem sliceOf_setSlice_clearStopped (s : State) (k x : Nat) (r : SliceReg) :
    sliceOf (setSlice (clearStopped s k) k r) x = if x = k then r else sliceOf s x := by
  have hother : x ≠ k → sliceOf (clearStopped s k) x = sliceOf s x := fun hx => (sliceOf_setSlice s k x _).trans (if_neg hx)
  rw [sliceOf_setSlice]
  by_cases hx : x = k
  · rw [if_pos hx, if_pos hx]
  · rw [if_neg hx, if_neg hx, hother hx]

theorem sliceOf_foldl_setCone (place : Nat → Nat) (c : Cone) (l : List Nat) (s : State) (x : Nat) :
    sliceOf (l.foldl (fun t i => setCone t (place i) c) s) x = sliceOf s x := by
  induction l generalizing s with
  | nil => rfl
  | cons i l ih => exact ih (setCone s (place i) c)

@[simp] theorem sliceOf_assignCones (s : State) (k x : Nat) : sliceOf (assignCones s k) x = sliceOf s x :=
  sliceOf_foldl_setCone _ _ _ s x

/-- The fields of XL_SLICE_k in a written word (Table 13-13). -/
theorem sliceFrom_eq (old : SliceReg) (w : W64) :
    sliceFrom old w = { old with
      sliceId := BitVec.ofNat 16 (bitsOf w.toNat 48 16), valid := w.getLsbD 39, wz := w.getLsbD 38, wy := w.getLsbD 37
      wx := w.getLsbD 36, ezM1 := BitVec.ofNat 6 (bitsOf w.toNat 30 6), eyM1 := BitVec.ofNat 6 (bitsOf w.toNat 24 6)
      exM1 := BitVec.ofNat 6 (bitsOf w.toNat 18 6), origin := BitVec.ofNat 18 w.toNat } := by
  simp only [sliceFrom, bit_eq_getLsbD, field, ofNat_bitsOf_zero]

theorem writeReg_slice (s : State) (k : SagId) (be : BitVec 8) (w : W64) :
    writeReg s false (.xlSlice k.val) be w = leaves s (execXlSliceWrite k be w s) :=
  congrArg (fun j => leaves s (execXlSliceWrite j be w s)) (toSag_val k)

theorem writeReg_slice_sealed (s : State) (k : SagId) (be : BitVec 8) (w : W64) (hsealed : isSealed s k.val = true) :
    writeReg s false (.xlSlice k.val) be w = s := by
  rw [writeReg_slice, execXlSliceWrite, if_pos hsealed, leaves]

/-- A slice that R346 accepts stands as written, and its stop holds on where the SLICE_ID stays the same (R359). -/
theorem sliceOf_writeReg_slice {s : State} {k : SagId} {w : W64} {new : SliceReg} (hnew : sliceFrom (sliceOf s k.val) w = new)
    (hopen : isSealed s k.val ≠ true) (hok : w.getLsbD 39 = true → sliceOk s new = true) (x : Nat) :
    sliceOf (writeReg s false (.xlSlice k.val) 0xFF w) x = if x = k.val then
      { new with stopped := (sliceOf s k.val).stopped && new.sliceId == (sliceOf s k.val).sliceId } else sliceOf s x := by
  have hvalid : new.valid = w.getLsbD 39 := hnew ▸ bit_eq_getLsbD w 39
  have hstopped : (sliceOf s k.val).stopped = new.stopped := hnew ▸ rfl
  have haccepted : ¬ (new.valid && !sliceOk s new) = true := by
    rw [hvalid, Bool.and_eq_true, Bool.not_eq_true']
    rintro ⟨hv, hbad⟩
    exact Bool.false_ne_true (hbad.symm.trans (hok hv))
  rw [writeReg_slice, execXlSliceWrite, if_neg hopen, mergeBytes_all, hnew, if_neg haccepted, leaves]
  split
  case isTrue hends =>
    obtain ⟨-, hid⟩ := (Bool.and_eq_true ..).mp hends
    have hoff : (new.sliceId == (sliceOf s k.val).sliceId) = false := beq_eq_false_iff_ne.mpr (bne_iff_ne.mp hid)
    rw [hoff, Bool.and_false]
    split
    · rw [sliceOf_assignCones, sliceOf_deriveLink, sliceOf_setSlice_clearStopped]
    · rw [sliceOf_deriveLink, sliceOf_setSlice_clearStopped]
  case isFalse hholds =>
    have hon : ((sliceOf s k.val).stopped && new.sliceId == (sliceOf s k.val).sliceId) = (sliceOf s k.val).stopped :=
      Bool.and_eq_left_iff_imp.mpr fun hstop => by
        rw [hstop, Bool.true_and, Bool.not_eq_true, bne_eq_false_iff_eq] at hholds
        exact beq_iff_eq.mpr hholds
    rw [hon, hstopped, sliceOf_deriveLink, sliceOf_setSlice]

-- XL_CONE_n

/-- The fields of XL_CONE_n in a written word (Table 13-15). -/
theorem coneFrom_eq (w : W64) :
    ({ assigned := bit w 52, partition := BitVec.toFin (BitVec.ofNat 4 (field w 48 4))
       value := BitVec.ofNat 48 (field w 0 48) } : Cone) =
      { assigned := w.getLsbD 52, partition := toSag (bitsOf w.toNat 48 4), value := BitVec.ofNat 48 w.toNat } := by
  rw [bit_eq_getLsbD, field, field, ofNat_bitsOf_zero]
  rfl

theorem writeReg_cone (s : State) (n : ConeId) (be : BitVec 8) (w : W64) :
    writeReg s false (.xlCone n.val) be w = leaves s (execXlConeWrite n be w s) := by
  have hn : BitVec.toFin (BitVec.ofNat 12 n.val) = n := Fin.ext (Nat.mod_eq_of_lt n.isLt)
  exact congrArg (fun j => leaves s (execXlConeWrite j be w s)) hn

theorem writeReg_cone_sealed {s : State} {n : ConeId} (hassigned : (coneOf s n.val).assigned = true)
    (hsealed : isSealed s (coneOf s n.val).partition.val = true) (be : BitVec 8) (w : W64) :
    writeReg s false (.xlCone n.val) be w = s := by
  rw [writeReg_cone, execXlConeWrite, if_pos ((Bool.and_eq_true ..).mpr ⟨hassigned, hsealed⟩), leaves]

/-- A counter that is not ASSIGNED, or whose saggar is not SEALED, takes the value written. -/
theorem writeReg_cone_open {s : State} {n : ConeId}
    (hopen : ¬ ((coneOf s n.val).assigned && isSealed s (coneOf s n.val).partition.val) = true) (w : W64) :
    writeReg s false (.xlCone n.val) 0xFF w = setCone s n.val
      { assigned := w.getLsbD 52, partition := toSag (bitsOf w.toNat 48 4), value := BitVec.ofNat 48 w.toNat } := by
  rw [writeReg_cone, execXlConeWrite, if_neg hopen, leaves, mergeBytes_all, coneFrom_eq]

theorem onlyCone_setCone (s : State) (n : Nat) (c : Cone) : OnlyCone s (setCone s n c) n c :=
  ⟨rfl, fun x => coneOf_setCone s n x c⟩

-- The obligation

/-- Settles O60: the three registers lie at their offsets (`regAt_l2Mask`, `regAt_slice`, `regAt_cone`), and for each of them
one lemma says what a write leaves while its saggar is SEALED, and one what it leaves at every other time. -/
theorem lockedFields : Obligations.LockedFields := by
  intro s k w be n d hdies
  have hmask := regAt_l2Mask d.isLt k.isLt
  have hslice := regAt_slice k.isLt
  have hcone := regAt_cone n.isLt
  have hconeOpen (hopen : ¬ ((coneOf s n.val).assigned && isSealed s (coneOf s n.val).partition.val) = true) :
      ∃ t, Goes (.registerWrite (BitVec.ofNat 26 (0xC70000 + 8 * n.val)) 0xFF w) s t ∧ OnlyCone s t n.val
        { assigned := w.getLsbD 52, partition := toSag (bitsOf w.toNat 48 4), value := BitVec.ofNat 48 w.toNat } :=
    ⟨_, registerWrite_goes (by omega) hcone s 0xFF w, writeReg_cone_open hopen w ▸ onlyCone_setCone s n.val _⟩
  dsimp only
  rw [ne_eq, ← isSealed_iff]
  refine ⟨fun hsealed => ⟨?_, ?_, fun hassigned hpart => ?_⟩, fun hopen => ⟨?_, fun hok => ?_, fun hpart => ?_⟩, fun hfree => ?_⟩
  · exact registerWrite_ignored (by omega) hmask (writeReg_l2Mask_sealed s d.val k.val w be hsealed)
  · exact registerWrite_ignored (by omega) hslice (writeReg_slice_sealed s k be w hsealed)
  · exact registerWrite_ignored (by omega) hcone (writeReg_cone_sealed hassigned (hpart ▸ hsealed) be w)
  · refine ⟨_, registerWrite_goes (by omega) hmask s 0xFF w, ?_⟩
    rw [writeReg_l2Mask_open s d.val k.val w hopen]
    obtain ⟨hmasks, honly⟩ := onlyDie_modDie_masks (Nat.lt_of_lt_of_eq d.isLt hdies.symm) fun m => tblSet {} m k.val (maskFrom w)
    exact ⟨honly, fun x => hmasks ▸ tblGet_tblSet ..⟩
  · refine ⟨_, registerWrite_goes (by omega) hslice s 0xFF w, fun x => ?_⟩
    exact sliceOf_writeReg_slice (sliceFrom_eq (sliceOf s k.val) w) hopen hok x
  · refine hconeOpen fun h => hopen ?_
    exact hpart ▸ ((Bool.and_eq_true ..).mp h).2
  · refine hconeOpen fun h => ?_
    exact Bool.false_ne_true (hfree.symm.trans ((Bool.and_eq_true ..).mp h).1)

end Sys2Proof.Machine
